-- ==== Sys2Proof/Word.lean ====
section
/-! DEFINITION. The word types of the PIZ engine: bytes, 16-bit samples and 32-bit register words. -/

namespace Sys2Proof

/-- One byte of the DMA address space (20_memory.md R90). -/
abbrev Byte := BitVec 8

/-- A sample: a 16-bit unsigned value (00_scope.md R17). -/
abbrev Sample := BitVec 16

/-- A host register, and a command word (10_state.md R32, 30_encoding.md R130). -/
abbrev Word32 := BitVec 32

/-- A bit string, first bit first (00_scope.md R15). -/
abbrev Bits := List Bool

end Sys2Proof
end

