-- ==== Sys2Proof/Config.lean ====
section
/-! DEFINITION. The fixed parameters of PIZ engine version 1 (00_scope.md R8), the hardwired registers, and the
free values: constants without a body, so that nothing can be proved of the value one of them has. -/

namespace Sys2Proof.Config

/-- The number of byte addresses of the DMA space, `2^32` (20_memory.md R90). -/
abbrev addrSpace : Nat := 4294967296

/-- `USHORT_RANGE` (00_scope.md R8). -/
abbrev ushortRange : Nat := 65536

/-- `BITMAP_SIZE` in bytes (00_scope.md R8). -/
abbrev bitmapSize : Nat := 8192

/-- `HUF_ENCSIZE` (00_scope.md R8). -/
abbrev hufEncSize : Nat := 65537

/-- `HUF_DECBITS` (00_scope.md R8). -/
abbrev hufDecBits : Nat := 14

/-- `HUF_MAXLEN` (00_scope.md R8). -/
abbrev hufMaxLen : Nat := 58

/-- `SHORT_ZEROCODE_RUN` (00_scope.md R8, 90_conflicts.md C1). -/
abbrev shortZerocodeRun : Nat := 59

/-- `LONG_ZEROCODE_RUN` (00_scope.md R8, 90_conflicts.md C1). -/
abbrev longZerocodeRun : Nat := 63

/-- `SHORTEST_LONG_RUN` (00_scope.md R8, 90_conflicts.md C1). -/
abbrev shortestLongRun : Nat := 6

/-- `LONGEST_LONG_RUN` (00_scope.md R8, 90_conflicts.md C1). -/
abbrev longestLongRun : Nat := 261

/-- `MAX_RUN_COUNT` (00_scope.md R8, 90_conflicts.md C8). -/
abbrev maxRunCount : Nat := 255

/-- `HUF_HDR` in bytes (00_scope.md R8). -/
abbrev hufHdr : Nat := 20

/-- `W14_LIMIT` (00_scope.md R8). -/
abbrev w14Limit : Nat := 16384

/-- `A_OFFSET` and `M_OFFSET` (00_scope.md R8). -/
abbrev wavOffset : Nat := 32768

/-- `MAX_NBITS`, `2^31 - 1` (00_scope.md R8). -/
abbrev maxNBits : Nat := 2147483647

/-- `PIZ_DESC_SIZE` in bytes (00_scope.md R8). -/
abbrev pizDescSize : Nat := 12

/-- What LUT_DUMP writes, in bytes (30_encoding.md R143). -/
abbrev lutDumpSize : Nat := 131072

/-- What HUF_DUMP_CODES writes, in bytes (30_encoding.md R143). -/
abbrev codeDumpSize : Nat := 524296

/-- The bytes of the register window (10_state.md R32). -/
abbrev windowSize : Nat := 4096

/-- The ID register (10_state.md R33). -/
abbrev idValue : Word32 := 0x50495A01

/-- The CAPS register (10_state.md R34). -/
abbrev capsValue : Word32 := 0x00013A0E

/-- The byte that an error, an abandoned command or a race leaves at an address, at a given count of
the model's counter: "each such byte is one unconstrained byte value, chosen once" (60_exceptions.md R520).
Log 8. -/
opaque freeByte (tick addr : Nat) : Byte

/-- The code of a symbol whose entry fails the decode-table check: "any value below 2^58"
(10_state.md R62, 93_implementation_defined.md). Log 9. -/
opaque freeCode (tick sym : Nat) : BitVec 58

/-- In which of the ways R620 allows a raced command ends (70_reset_and_hazards.md R620). Log 10. -/
opaque raceChoice (tick : Nat) : Nat

/-- A result register after a raced command, by its number (70_reset_and_hazards.md R620). Log 10. -/
opaque raceResult (tick reg : Nat) : Word32

/-- BITMAP after a raced command that writes it (70_reset_and_hazards.md R620). Log 10. -/
opaque raceBitmap (tick : Nat) : BitVec 65536

/-- A LUT entry after a raced command that writes the LUT (70_reset_and_hazards.md R620). Log 10. -/
opaque raceLut (tick index : Nat) : BitVec 16

/-- A code length after a raced command that writes the code table: 0 to 58 (10_state.md R62,
70_reset_and_hazards.md R620). Log 10. -/
opaque raceLen (tick sym : Nat) : Fin 59

/-- A code after a raced command that writes the code table (70_reset_and_hazards.md R620). Log 10. -/
opaque raceCode (tick sym : Nat) : BitVec 58

end Sys2Proof.Config
end

