-- ==== Sys2Proof/Syntax.lean ====
section
/-! DEFINITION. The commands of PIZE-1 (30_encoding.md R131), the host's accesses to the block and to memory
(30_encoding.md R148, R150), and the host script statements and pseudo-instructions (R148, R149). -/

namespace Sys2Proof

/-- The fifteen commands: one constructor per row of the opcode map (30_encoding.md R131). A command has no
operand field: its operands are the latched parameter registers (R136). -/
inductive Instr where
  | nop                 -- NOP                   0x00
  | lutBitmapFromData   -- LUT_BITMAP_FROM_DATA  0x01
  | lutBitmapLoad       -- LUT_BITMAP_LOAD       0x02
  | lutBitmapStore      -- LUT_BITMAP_STORE      0x03
  | lutBuildForward     -- LUT_BUILD_FORWARD     0x04
  | lutBuildReverse     -- LUT_BUILD_REVERSE     0x05
  | lutApply            -- LUT_APPLY             0x06
  | lutDump             -- LUT_DUMP              0x07
  | wavEncode           -- WAV_ENCODE            0x10
  | wavDecode           -- WAV_DECODE            0x11
  | hufCompress         -- HUF_COMPRESS          0x20
  | hufUncompress       -- HUF_UNCOMPRESS        0x21
  | hufDumpCodes        -- HUF_DUMP_CODES        0x22
  | pizCompress         -- PIZ_COMPRESS          0x30
  | pizUncompress       -- PIZ_UNCOMPRESS        0x31
  deriving DecidableEq, Repr

/-- The registers of the window, by name (10_state.md R32). -/
inductive Reg where
  | id | caps | ctrl | status | cmd | irqStatus | irqEnable
  | srcAddr | srcLen | dstAddr | dstLen | auxAddr | auxLen | nx | ny | ox | oy | maxval
  | resLen | resMinnz | resMaxnz | resMaxval | resNbits | resIm | resImax | resTablen
  deriving DecidableEq, Repr

/-- The width of a single host access. In the register window only `w32` is a register access (10_state.md R55). -/
inductive Width where
  | w8 | w16 | w32 | w64
  deriving DecidableEq, Repr

/-- The bytes of an access of a width. -/
def Width.bytes : Width → Nat
  | .w8 => 1
  | .w16 => 2
  | .w32 => 4
  | .w64 => 8

/-- One access of a host, or one platform event, as it arrives at the block or at memory (30_encoding.md R150).
An offset is one of the 4096 byte offsets of the register window. `width` of a memory access is that of the elements its bytes
are made of (30_encoding.md R148). `maintained` says whether the host did the
cache maintenance of 20_memory.md R117 for the bytes it names. -/
inductive HostOp where
  /-- A write of `v` at byte offset `off` of the window. -/
  | regWrite (width : Width) (off : BitVec 12) (v : Word32)
  /-- A read at byte offset `off` of the window. -/
  | regRead (width : Width) (off : BitVec 12)
  /-- A host stores bytes at `addr`, `addr + 1`, …, in elements of `width`. -/
  | memWrite (width : Width) (addr : Nat) (bytes : List Byte) (maintained : Bool)
  /-- A host reads `n` bytes at `addr`, in elements of `width`. -/
  | memRead (width : Width) (addr n : Nat) (maintained : Bool)
  /-- The pseudo-instruction `wait`: reads of STATUS until DONE is 1 (30_encoding.md R149). -/
  | wait
  /-- The platform's reset input (70_reset_and_hazards.md R600). -/
  | hardReset
  deriving DecidableEq, Repr

/-- The statements of a host script (30_encoding.md R148) and its pseudo-instructions (R149). -/
inductive Stmt where
  | wr (r : Reg) (v : Word32)
  | rd (r : Reg)
  | cmd (i : Instr)
  | cmdw (w : Word32)
  | mem8 (addr : Nat) (vs : List Byte)
  | mem16 (addr : Nat) (vs : List Sample)
  | mem32 (addr : Nat) (vs : List Word32)
  | wait
  | run (i : Instr)
  | ack
  | srst
  | setbuf (src srcLen dst dstLen : Word32)
  | grid (nx ny ox oy maxval : Word32)
  | expect (r : Reg) (v : Word32)
  deriving DecidableEq, Repr

end Sys2Proof
end

