-- ==== Sys2Proof/WellFormed.lean ====
section
/-! DEFINITION. Well-formedness: of a command, of a raw command word (30_encoding.md R130, R134), and of a host access
(10_state.md R55, 20_memory.md R90). -/

namespace Sys2Proof

/-- A command has no operand field (30_encoding.md R130), so every constructor is well formed; the checks on what
a host may write to CMD are those of `commandWordOk`. -/
def Instr.wellFormed : Instr → Bool
  | .nop | .lutBitmapFromData | .lutBitmapLoad | .lutBitmapStore | .lutBuildForward | .lutBuildReverse
  | .lutApply | .lutDump | .wavEncode | .wavDecode | .hufCompress | .hufUncompress | .hufDumpCodes
  | .pizCompress | .pizUncompress => true

/-- Bits 31:8 of a command word are zero (30_encoding.md R130). -/
def mbzOk (w : Word32) : Bool := w.extractLsb' 8 24 == 0

/-- The opcode is none of the unassigned ones, 0x08 to 0x0F, 0x12 to 0x1F, 0x23 to 0x2F and 0x32 to 0xFF
(30_encoding.md R134). -/
def opcAssigned (w : Word32) : Bool :=
  let opc := (w.extractLsb' 0 8).toNat
  opc ≤ 0x07 || (0x10 ≤ opc && opc ≤ 0x11) || (0x20 ≤ opc && opc ≤ 0x22) || (0x30 ≤ opc && opc ≤ 0x31)

/-- The word encodes a command (30_encoding.md R134). -/
def commandWordOk (w : Word32) : Bool := mbzOk w && opcAssigned w

/-- A register access is a 32-bit access at an offset that is a multiple of 4 (10_state.md R55). -/
def registerAccessOk (width : Width) (off : BitVec 12) : Bool :=
  width == .w32 && off.toNat % 4 == 0

/-- `n` bytes at `addr` lie in the 32-bit address space (20_memory.md R90). -/
def bytesInSpace (addr n : Nat) : Bool := addr + n ≤ Config.addrSpace

/-- A host access that the block or its memory answers with an effect. -/
def HostOp.wellFormed : HostOp → Bool
  | .regWrite width off _ => registerAccessOk width off
  | .regRead width off => registerAccessOk width off
  | .memWrite _ addr bytes _ => bytesInSpace addr bytes.length
  | .memRead _ addr n _ => bytesInSpace addr n
  | .wait => true
  | .hardReset => true

end Sys2Proof
end

