-- ==== Sys2Proof/Decode.lean ====
section
/-! DEFINITION. The decoder of command words (30_encoding.md R130 to R134), total on every 32-bit word, and the encoder. -/

namespace Sys2Proof

/-- Why a word encodes no command (30_encoding.md R134). -/
inductive DecodeError where
  /-- Bits 31:8 are not zero. -/
  | mustBeZero
  /-- The opcode is absent from the opcode map. -/
  | unassignedOpcode
  deriving DecidableEq, Repr

/-- `OPC = word[7:0]` (30_encoding.md R133). -/
def opcField (w : Word32) : BitVec 8 := w.extractLsb' 0 8

/-- `MBZ = word[31:8]` (30_encoding.md R133). -/
def mbzField (w : Word32) : BitVec 24 := w.extractLsb' 8 24

/-- The opcode map, row by row (30_encoding.md R131). -/
def opcodeMap : List (BitVec 8 × Instr) :=
  [ (0x00, .nop),
    (0x01, .lutBitmapFromData),
    (0x02, .lutBitmapLoad),
    (0x03, .lutBitmapStore),
    (0x04, .lutBuildForward),
    (0x05, .lutBuildReverse),
    (0x06, .lutApply),
    (0x07, .lutDump),
    (0x10, .wavEncode),
    (0x11, .wavDecode),
    (0x20, .hufCompress),
    (0x21, .hufUncompress),
    (0x22, .hufDumpCodes),
    (0x30, .pizCompress),
    (0x31, .pizUncompress) ]

/-- The command a word encodes, or why it encodes none (30_encoding.md R131, R134). -/
def decode (w : Word32) : Except DecodeError Instr :=
  if mbzField w = 0 then
    match opcodeMap.lookup (opcField w) with
    | some i => .ok i
    | none => .error .unassignedOpcode
  else .error .mustBeZero

/-- The CMD word of a command (30_encoding.md R131, its list of full CMD words). -/
def encode : Instr → Word32
  | .nop => 0x00000000
  | .lutBitmapFromData => 0x00000001
  | .lutBitmapLoad => 0x00000002
  | .lutBitmapStore => 0x00000003
  | .lutBuildForward => 0x00000004
  | .lutBuildReverse => 0x00000005
  | .lutApply => 0x00000006
  | .lutDump => 0x00000007
  | .wavEncode => 0x00000010
  | .wavDecode => 0x00000011
  | .hufCompress => 0x00000020
  | .hufUncompress => 0x00000021
  | .hufDumpCodes => 0x00000022
  | .pizCompress => 0x00000030
  | .pizUncompress => 0x00000031

/-- The command the decoder reads from the low `nbits` bits of `w`, numbered as the opcode table numbers them; a
command is exactly one 32-bit word (30_encoding.md R132), so bits a shorter `nbits` leaves out are 0. -/
def decodeTableWord (nbits w : Nat) : Option Instr :=
  match decode (BitVec.ofNat 32 (w % 2 ^ nbits)) with
  | .ok i => some i
  | .error _ => none

end Sys2Proof
end

