-- ==== Sys2Proof/Machine/State.lean ====
section
/-! DEFINITION. The state of one engine instance (10_state.md R30), the memory it reaches by DMA (20_memory.md R90), the
platform's parameters (00_scope.md R9), the hosts' accesses still to arrive, and the state after reset. -/

namespace Sys2Proof.Machine

/-- The completion codes (60_exceptions.md R500). -/
inductive ErrCode where
  | ok
  | illegalCmd
  | badParam
  | misaligned
  | overlap
  | busError
  | noTable
  | dstOverflow
  | invalidTableSize
  | tableEnd
  | tableTooLong
  | invalidTableEntry
  | invalidCode
  | tooMuchData
  | notEnoughData
  | invalidNbits
  | bitmapSize
  | pizLength
  | codeLengthOverflow
  deriving DecidableEq, Repr

/-- Why the machine stops with a fault. No command faults: every error of a command is a completion code
(60_exceptions.md R510). -/
inductive Fault where
  /-- A host memory access names a byte outside the 32-bit DMA address space, which does not exist
  (20_memory.md R90). Raised by a host memory access only; safe: the model stops. Log 13. -/
  | hostAddressOutsideSpace
  deriving DecidableEq, Repr

/-- Why the machine gives no meaning to what it is asked to do. -/
inductive Refusal where
  /-- The command of this mnemonic has no meaning in the model. Raised by no arm; safe. -/
  | notModelled (mnemonic : String)
  /-- A command declares a region in non-idempotent memory or in the register window, which 20_memory.md R100 says
  has no defined result and a model treats as refused. Raised by every command that declares a region; safe. Log 11. -/
  | nonIdempotentRegion
  /-- On a platform without DMA coherence a host memory access without the cache maintenance that 20_memory.md R117
  asks of the host. Raised by a host memory access only; safe. Log 12. -/
  | cacheMaintenanceSkipped
  deriving DecidableEq, Repr

/-- The kind of lookup table the LUT holds, STATUS.LUT_KIND (10_state.md R36). -/
inductive LutKind where
  | forward
  | reverse
  deriving DecidableEq, Repr

/-- The sequencing state of the engine (10_state.md R31): idle, or running the command word it was issued. -/
inductive Phase where
  | idle
  | busy (w : Word32)
  deriving DecidableEq, Repr

/-- The parameter registers (10_state.md R40 to R47); MAXVAL holds its 16 writable bits. -/
structure Params where
  srcAddr : Word32 := 0
  srcLen : Word32 := 0
  dstAddr : Word32 := 0
  dstLen : Word32 := 0
  auxAddr : Word32 := 0
  auxLen : Word32 := 0
  nx : Word32 := 0
  ny : Word32 := 0
  ox : Word32 := 0
  oy : Word32 := 0
  maxval : BitVec 16 := 0
  deriving DecidableEq, Repr

/-- The result registers (10_state.md R48 to R53); the three that hold 16 bits read 0 above them. -/
structure Results where
  len : Word32 := 0
  minnz : BitVec 16 := 0
  maxnz : BitVec 16 := 0
  maxval : BitVec 16 := 0
  nbits : Word32 := 0
  im : Word32 := 0
  imax : Word32 := 0
  tablen : Word32 := 0
  deriving DecidableEq, Repr

/-- BITMAP: 8192 bytes, bit `i` of the whole is bit `i & 7` of byte `i >> 3` (10_state.md R60). -/
abbrev Bitmap := BitVec 65536

/-- LUT: 65536 entries of 16 bits (10_state.md R61), as the list of its non-zero entries by rising index; an
unlisted entry is 0. -/
abbrev Lut := List (Nat × BitVec 16)

/-- One entry of the code table: `HLEN[sym]` and `HCODE[sym]` (10_state.md R62). -/
structure CodeEntry where
  sym : Nat
  len : BitVec 6
  code : BitVec 58
  deriving DecidableEq, Repr

/-- The code table: 65537 entries (10_state.md R62), as the list of those that are not zero by rising symbol; an unlisted
symbol has length 0 and code 0. A code table that a rule builds gives code 0 to length 0 (41_huffman_encode.md R254); only a
race leaves other codes there (70_reset_and_hazards.md R620). -/
abbrev CodeTable := List CodeEntry

/-- Memory: address and byte pairs by strictly rising address, none equal to what an unlisted address reads as
(`Memory.wf`). -/
abbrev Memory := List Host.Cell

/-- `size` bytes at `base` of the bus. -/
structure Span where
  base : Nat
  size : Nat
  deriving DecidableEq, Repr

/-- What the platform fixes (00_scope.md R9; 20_memory.md R99, R100). No step changes it. -/
structure Platform where
  /-- `REG_BASE`: where the register window is, in the one address space of hosts and DMA (log 30). -/
  regBase : Nat
  /-- `DMA_COHERENT` (20_memory.md R117). -/
  dmaCoherent : Bool
  /-- `IRQ_LINE` (60_exceptions.md R531). -/
  irqLine : Nat
  /-- `N_INSTANCES` (60_exceptions.md R544). -/
  nInstances : Nat
  /-- The addresses that answer a DMA read with a bus error (20_memory.md R99). -/
  readErr : List Span
  /-- The addresses that answer a DMA write with a bus error (20_memory.md R99). -/
  writeErr : List Span
  /-- The non-idempotent windows of the bus besides the register window (20_memory.md R100). -/
  devices : List Span
  deriving DecidableEq, Repr

/-- What a host access is answered with. -/
inductive Response where
  /-- A read of a register. -/
  | data (v : Word32)
  /-- A write that completed normally on the bus. -/
  | written
  /-- A bus error response (10_state.md R55). -/
  | busError
  /-- A read of memory. -/
  | bytes (bs : List Byte)
  deriving DecidableEq, Repr

/-- The state. -/
structure State where
  /-- The parameter registers. -/
  params : Params
  /-- The latched parameters `L.*` of the running command (30_encoding.md R141). -/
  latched : Params
  /-- The engine phase (10_state.md R31); STATUS.BUSY is 1 exactly when it is not idle. -/
  phase : Phase
  /-- STATUS.DONE (10_state.md R36). -/
  done : Bool
  /-- STATUS.ERRCODE (10_state.md R36). -/
  errcode : ErrCode
  /-- IRQ_STATUS[2:0]: CMD_DONE, CMD_ERR, OVERRUN from bit 0 (10_state.md R38). -/
  irqStatus : BitVec 3
  /-- IRQ_ENABLE[2:0] (10_state.md R39). -/
  irqEnable : BitVec 3
  /-- The result registers (10_state.md R48 to R54). -/
  results : Results
  /-- BITMAP, present exactly when BITMAP_VALID is 1 (10_state.md R60, R64, R66; log 6). -/
  bitmap : Option Bitmap
  /-- LUT, present exactly when LUT_VALID is 1 (10_state.md R61, R64, R66; log 6). -/
  lut : Option Lut
  /-- STATUS.LUT_KIND (10_state.md R36). -/
  lutKind : LutKind
  /-- The code table, present exactly when CODES_VALID is 1 (10_state.md R62, R64, R66; log 6). -/
  codes : Option CodeTable
  /-- The DMA address space (20_memory.md R90). -/
  mem : Memory
  /-- The platform's parameters. -/
  platform : Platform
  /-- The model's own: the host accesses still to arrive, the next one first (log 1). -/
  hostq : List HostOp
  /-- The model's own: what the host accesses were answered with, newest first (log 26). -/
  responses : List Response
  /-- The model's own: for each command still to issue, the host accesses that arrive before it completes; 0 for
  each command past the end (log 2). -/
  delays : List Nat
  /-- The model's own: what is left of the running command's number (log 2). -/
  delay : Nat
  /-- The model's own: a host has raced the running command (70_reset_and_hazards.md R620; log 10). -/
  raced : Bool
  /-- The model's own: the counter that free values are taken at (log 21). -/
  fresh : Nat
  deriving DecidableEq, Repr

/-- The platform a machine right after reset stands on: every open parameter at the value log 3 names. -/
def Platform.initial : Platform :=
  { regBase := Config.addrSpace, dmaCoherent := true, irqLine := 0, nInstances := 1,
    readErr := [], writeErr := [], devices := [] }

/-- The machine right after hardware reset (10_state.md R67): idle, every register at its reset value, the valid bits 0,
the tables without a value (R66), memory with nothing listed. -/
def State.reset : State :=
  { params := {}, latched := {}, phase := .idle, done := false, errcode := .ok,
    irqStatus := 0, irqEnable := 0, results := {},
    bitmap := none, lut := none, lutKind := .forward, codes := none,
    mem := [], platform := Platform.initial,
    hostq := [], responses := [], delays := [], delay := 0, raced := false, fresh := 0 }

end Sys2Proof.Machine
end

