-- ==== Sys2Proof/Machine/Bits.lean ====
section
/-! DEFINITION. Byte order, bit strings and sparse lists: the helpers every family uses (00_scope.md R11, R13, R15). -/

namespace Sys2Proof.Machine

/-- The value at key `k` of a list of key and value pairs; `d` at a key the list does not hold. -/
def sparseGet {α : Type} (d : α) : List (Nat × α) → Nat → α
  | [], _ => d
  | (j, v) :: rest, k => if j = k then v else sparseGet d rest k

/-- The values at keys `k`, `k + 1`, … (`n` of them) of a list whose keys rise strictly from at least `k`. -/
def sparseRun {α : Type} (d : α) : List (Nat × α) → Nat → Nat → List α
  | _, _, 0 => []
  | [], k, n + 1 => d :: sparseRun d [] (k + 1) n
  | (j, v) :: rest, k, n + 1 =>
    if j = k then v :: sparseRun d rest (k + 1) n else d :: sparseRun d ((j, v) :: rest) (k + 1) n

/-- The keys rise strictly. -/
def keysRise {α : Type} : List (Nat × α) → Bool
  | [] => true
  | [_] => true
  | (j, _) :: (k, v) :: rest => j < k && keysRise ((k, v) :: rest)

/-- The unsigned little-endian value of a byte sequence (00_scope.md R13). -/
def leNat : List Byte → Nat
  | [] => 0
  | b :: bs => b.toNat + 256 * leNat bs

/-- The `n` low bytes of `v`, little-endian (00_scope.md R13). -/
def leBytes : Nat → Nat → List Byte
  | 0, _ => []
  | n + 1, v => BitVec.ofNat 8 v :: leBytes n (v / 256)

/-- The samples of a byte sequence: two bytes each, little-endian (20_memory.md R92). -/
def samplesOfBytes : List Byte → List Sample
  | lo :: hi :: rest => (hi ++ lo) :: samplesOfBytes rest
  | _ => []

/-- The bytes of a sample sequence (20_memory.md R92). -/
def bytesOfSamples : List Sample → List Byte
  | [] => []
  | v :: rest => v.extractLsb' 0 8 :: v.extractLsb' 8 8 :: bytesOfSamples rest

/-- `bits(v, n)`: the `n`-bit spelling of `v`, most significant bit first (00_scope.md R15). -/
def bits (v : Nat) : Nat → Bits
  | 0 => []
  | n + 1 => v.testBit n :: bits v n

/-- The unsigned integer a bit string spells, most significant bit first (00_scope.md R15). -/
def natOfBits (s : Bits) : Nat := s.foldl (fun acc b => 2 * acc + b.toNat) 0

/-- The eight bits of a byte in bit-string order (00_scope.md R15). -/
def bitsOfByte (b : Byte) : Bits := bits b.toNat 8

/-- The bit string a byte sequence stores (00_scope.md R15). -/
def bitsOfBytes (bs : List Byte) : Bits := bs.flatMap bitsOfByte

/-- `bytes_of` with `k` bits of the current byte already read, their value `acc` (00_scope.md R15). -/
def bytesOfBitsFrom : Bits → Nat → Nat → List Byte
  | [], k, acc => if k = 0 then [] else [BitVec.ofNat 8 (acc * 2 ^ (8 - k))]
  | b :: rest, k, acc =>
    if k = 7 then BitVec.ofNat 8 (2 * acc + b.toNat) :: bytesOfBitsFrom rest 0 0
    else bytesOfBitsFrom rest (k + 1) (2 * acc + b.toNat)

/-- `bytes_of(S)`: the bytes that store a bit string, the last one padded with zero bits (00_scope.md R15). -/
def bytesOfBits (s : Bits) : List Byte := bytesOfBitsFrom s 0 0

/-- `ceil(n / 8)`: the bytes that `n` bits take (00_scope.md R15). -/
def byteCount (n : Nat) : Nat := (n + 7) / 8

end Sys2Proof.Machine
end

