-- ==== Sys2Proof/Machine/Flags.lean ====
section
/-! DEFINITION. STATUS, IRQ_STATUS and the interrupt output (10_state.md R36, R38; 60_exceptions.md R500, R531): every flag the
spec gives, computed from the state. -/

namespace Sys2Proof.Machine

/-- The number of a completion code (60_exceptions.md R500). -/
def ErrCode.toByte : ErrCode → BitVec 8
  | .ok => 0x00
  | .illegalCmd => 0x01
  | .badParam => 0x02
  | .misaligned => 0x03
  | .overlap => 0x04
  | .busError => 0x05
  | .noTable => 0x06
  | .dstOverflow => 0x07
  | .invalidTableSize => 0x08
  | .tableEnd => 0x09
  | .tableTooLong => 0x0A
  | .invalidTableEntry => 0x0B
  | .invalidCode => 0x0C
  | .tooMuchData => 0x0D
  | .notEnoughData => 0x0E
  | .invalidNbits => 0x0F
  | .bitmapSize => 0x10
  | .pizLength => 0x11
  | .codeLengthOverflow => 0x12

/-- STATUS.BUSY (10_state.md R36). -/
def State.busy (s : State) : Bool :=
  match s.phase with
  | .idle => false
  | .busy _ => true

/-- STATUS.LUT_KIND as a bit: 0 forward, 1 reverse (10_state.md R36). -/
def LutKind.toBit : LutKind → Bool
  | .forward => false
  | .reverse => true

/-- The STATUS register (10_state.md R36): BUSY, DONE, ERRCODE[15:8], BITMAP_VALID, LUT_VALID, LUT_KIND, CODES_VALID
from bit 16; the reserved bits read 0. -/
def State.statusWord (s : State) : Word32 :=
  0#12 ++ BitVec.ofBool s.codes.isSome ++ BitVec.ofBool s.lutKind.toBit ++ BitVec.ofBool s.lut.isSome
    ++ BitVec.ofBool s.bitmap.isSome ++ s.errcode.toByte ++ 0#6 ++ BitVec.ofBool s.done ++ BitVec.ofBool s.busy

/-- IRQ_STATUS.CMD_DONE (10_state.md R38). -/
def irqCmdDone : BitVec 3 := 0b001

/-- IRQ_STATUS.CMD_ERR (10_state.md R38). -/
def irqCmdErr : BitVec 3 := 0b010

/-- IRQ_STATUS.OVERRUN (10_state.md R38). -/
def irqOverrun : BitVec 3 := 0b100

/-- IRQ_STATUS after a host clears the bits of `clear` and the block sets the bits of `set` in one cycle: the set
wins (10_state.md R38; log 18). -/
def irqNext (status clear set : BitVec 3) : BitVec 3 := (status &&& ~~~clear) ||| set

/-- The level of the interrupt output (60_exceptions.md R531). -/
def State.irqLevel (s : State) : Bool := s.irqStatus &&& s.irqEnable != 0

/-- The interrupt output where the platform wires it (60_exceptions.md R531): the line and its level. -/
def State.irqOutput (s : State) : Nat × Bool := (s.platform.irqLine, s.irqLevel)

end Sys2Proof.Machine
end

