-- ==== Sys2Proof/Machine/Operands.lean ====
section
/-! DEFINITION. The operands of a command: the memory regions its latched parameters declare (30_encoding.md R137), and the
parameter-check phase (30_encoding.md R143). -/

namespace Sys2Proof.Machine

/-- How a command uses a region (20_memory.md R95). -/
inductive Access where
  | r
  | w
  | rw
  deriving DecidableEq, Repr

/-- What a region holds, which fixes its alignment (20_memory.md R96). -/
inductive RegionKind where
  | sample
  | desc
  | dump64
  | bytes
  deriving DecidableEq, Repr

/-- A memory region a command declares (20_memory.md R95). -/
structure Region where
  base : Nat
  size : Nat
  access : Access
  kind : RegionKind
  deriving DecidableEq, Repr

/-- The internal tables that have a valid bit (10_state.md R64). -/
inductive Table where
  | bitmap
  | lut
  | codes
  deriving DecidableEq, Repr

/-- The alignment of a region's base (20_memory.md R96). -/
def RegionKind.alignment : RegionKind → Nat
  | .sample => 2
  | .desc => 4
  | .dump64 => 8
  | .bytes => 1

/-- The engine may write the region (20_memory.md R95). -/
def Access.writes : Access → Bool
  | .r => false
  | .w => true
  | .rw => true

/-- Two byte ranges share a byte; an empty range shares none (20_memory.md R101). -/
def rangesMeet (base size base' size' : Nat) : Bool :=
  0 < size && 0 < size' && base < base' + size' && base' < base + size

/-- The size in bytes of a wavelet grid's region (43_wavelet.md R360). -/
def gridExtent (l : Params) : Nat :=
  if l.nx = 0 ∨ l.ny = 0 then 0
  else 2 * ((l.nx.toNat - 1) * l.ox.toNat + (l.ny.toNat - 1) * l.oy.toNat + 1)

/-- The memory regions of a command (30_encoding.md R137). -/
def regions (i : Instr) (l : Params) : List Region :=
  match i with
  | .nop => []
  | .lutBitmapFromData => [⟨l.srcAddr.toNat, 2 * l.srcLen.toNat, .r, .sample⟩]
  | .lutBitmapLoad => [⟨l.srcAddr.toNat, l.srcLen.toNat, .r, .bytes⟩]
  | .lutBitmapStore => [⟨l.dstAddr.toNat, l.dstLen.toNat, .w, .bytes⟩]
  | .lutBuildForward => []
  | .lutBuildReverse => []
  | .lutApply => [⟨l.srcAddr.toNat, 2 * l.srcLen.toNat, .rw, .sample⟩]
  | .lutDump => [⟨l.dstAddr.toNat, l.dstLen.toNat, .w, .sample⟩]
  | .wavEncode => [⟨l.srcAddr.toNat, gridExtent l, .rw, .sample⟩]
  | .wavDecode => [⟨l.srcAddr.toNat, gridExtent l, .rw, .sample⟩]
  | .hufCompress =>
    [⟨l.srcAddr.toNat, 2 * l.srcLen.toNat, .r, .sample⟩, ⟨l.dstAddr.toNat, l.dstLen.toNat, .w, .bytes⟩]
  | .hufUncompress =>
    [⟨l.srcAddr.toNat, l.srcLen.toNat, .r, .bytes⟩, ⟨l.dstAddr.toNat, 2 * l.dstLen.toNat, .w, .sample⟩]
  | .hufDumpCodes => [⟨l.dstAddr.toNat, l.dstLen.toNat, .w, .dump64⟩]
  | .pizCompress =>
    [⟨l.srcAddr.toNat, 2 * l.srcLen.toNat, .rw, .sample⟩, ⟨l.dstAddr.toNat, l.dstLen.toNat, .w, .bytes⟩,
      ⟨l.auxAddr.toNat, 12 * l.auxLen.toNat, .r, .desc⟩]
  | .pizUncompress =>
    [⟨l.srcAddr.toNat, l.srcLen.toNat, .r, .bytes⟩, ⟨l.dstAddr.toNat, 2 * l.dstLen.toNat, .rw, .sample⟩,
      ⟨l.auxAddr.toNat, 12 * l.auxLen.toNat, .r, .desc⟩]

/-- The valid bit of a table (10_state.md R64). -/
def State.tableValid (s : State) : Table → Bool
  | .bitmap => s.bitmap.isSome
  | .lut => s.lut.isSome
  | .codes => s.codes.isSome

/-- The valid bits a command requires (10_state.md R65). -/
def tablesRequired : Instr → List Table
  | .lutBitmapStore => [.bitmap]
  | .lutBuildForward => [.bitmap]
  | .lutBuildReverse => [.bitmap]
  | .lutApply => [.lut]
  | .lutDump => [.lut]
  | .hufDumpCodes => [.codes]
  | .nop | .lutBitmapFromData | .lutBitmapLoad | .wavEncode | .wavDecode | .hufCompress | .hufUncompress
  | .pizCompress | .pizUncompress => []

/-- The tables a command's rule writes (10_state.md R60, R61, R62). -/
def tablesWritten : Instr → List Table
  | .lutBitmapFromData => [.bitmap]
  | .lutBitmapLoad => [.bitmap]
  | .lutBuildForward => [.lut]
  | .lutBuildReverse => [.lut]
  | .hufCompress => [.codes]
  | .hufUncompress => [.codes]
  | .pizCompress => [.bitmap, .lut, .codes]
  | .pizUncompress => [.bitmap, .lut, .codes]
  | .nop | .lutBitmapStore | .lutApply | .lutDump | .wavEncode | .wavDecode | .hufDumpCodes => []

/-- The region would wrap past the top of the address space (20_memory.md R95); one of size 0 passes (R102). -/
def Region.wraps (r : Region) : Bool := Config.addrSpace < r.base + r.size

/-- The region's base breaks its alignment; one of size 0 is exempt (20_memory.md R96, R102). -/
def Region.isMisaligned (r : Region) : Bool := 0 < r.size && r.base % r.kind.alignment != 0

/-- Two regions of a command overlap and one of them is written (20_memory.md R101). -/
def Region.clashes (r r' : Region) : Bool :=
  (r.access.writes || r'.access.writes) && rangesMeet r.base r.size r'.base r'.size

/-- Some two regions of the list clash (20_memory.md R101). -/
def someClash : List Region → Bool
  | [] => false
  | r :: rest => rest.any r.clashes || someClash rest

/-- A non-empty wavelet grid whose strides are illegal (43_wavelet.md R360). -/
def gridIllegal (l : Params) : Bool :=
  1 ≤ l.nx.toNat && 1 ≤ l.ny.toNat && (l.ox == 0 || l.oy.toNat < l.nx.toNat * l.ox.toNat)

/-- The command-specific parameter check (30_encoding.md R143 item 2.2): only the wavelet commands have one. -/
def commandParamBad (i : Instr) (l : Params) : Bool :=
  match i with
  | .wavEncode => gridIllegal l
  | .wavDecode => gridIllegal l
  | .nop | .lutBitmapFromData | .lutBitmapLoad | .lutBitmapStore | .lutBuildForward | .lutBuildReverse
  | .lutApply | .lutDump | .hufCompress | .hufUncompress | .hufDumpCodes | .pizCompress | .pizUncompress => false

/-- A fixed-size output does not fit (30_encoding.md R143 item 5). -/
def fixedOutputTooLarge (i : Instr) (l : Params) : Bool :=
  match i with
  | .lutDump => l.dstLen.toNat < Config.lutDumpSize
  | .hufDumpCodes => l.dstLen.toNat < Config.codeDumpSize
  | .nop | .lutBitmapFromData | .lutBitmapLoad | .lutBitmapStore | .lutBuildForward | .lutBuildReverse
  | .lutApply | .wavEncode | .wavDecode | .hufCompress | .hufUncompress | .pizCompress | .pizUncompress => false

/-- The parameter-check phase: the first check that fails, in the order of 30_encoding.md R143. -/
def paramCheck (i : Instr) (s : State) : Option ErrCode :=
  let rs := regions i s.latched
  if !(tablesRequired i).all s.tableValid then some .noTable
  else if rs.any Region.wraps || commandParamBad i s.latched then some .badParam
  else if rs.any Region.isMisaligned then some .misaligned
  else if someClash rs then some .overlap
  else if fixedOutputTooLarge i s.latched then some .dstOverflow
  else none

/-- The non-idempotent windows of the bus: the devices and the engine's own register window (20_memory.md R100,
70_reset_and_hazards.md R621). DESIGN CHOICE: REG_BASE, a host address, stands for a DMA address too (20_memory.md R91;
log 30). -/
def Platform.nonIdempotent (p : Platform) : List Span := ⟨p.regBase, Config.windowSize⟩ :: p.devices

/-- Some span of the list shares a byte with `size` bytes at `base`. -/
def spansMeet (spans : List Span) (base size : Nat) : Bool :=
  spans.any fun sp => rangesMeet sp.base sp.size base size

/-- The bytes of a region that exist: a region that would wrap ends at the top of the address space
(20_memory.md R95). -/
def Region.realSize (r : Region) : Nat := min r.size (Config.addrSpace - r.base)

/-- A region of the command lies in non-idempotent memory (20_memory.md R100; log 11). -/
def touchesDevice (i : Instr) (s : State) : Bool :=
  (regions i s.latched).any fun r => spansMeet s.platform.nonIdempotent r.base r.realSize

end Sys2Proof.Machine
end

