-- ==== Sys2Proof/Machine/Ops.lean ====
section
/-! DEFINITION. The named operations over memory and registers: memory itself, a command's data phase and its DMA accesses,
issue (30_encoding.md R141), completion (R146), error completion (60_exceptions.md R520), reset (70_reset_and_hazards.md R600,
R602). The block takes no trap: error completion stands in the place of taking an exception (60_exceptions.md R510), and
nothing is needed to return from it (R521). -/

namespace Sys2Proof.Machine

/-! ### Memory -/

/-- What a byte that nothing has written reads as. DESIGN CHOICE, log 5. -/
def Memory.unwritten : Byte := 0

/-- One byte of memory (00_scope.md R13). -/
def Memory.read (m : Memory) (a : Nat) : Byte := sparseGet Memory.unwritten m a

/-- The `n` bytes at `a` (00_scope.md R13). -/
def Memory.bytes (m : Memory) (a n : Nat) : List Byte :=
  sparseRun Memory.unwritten (m.dropWhile fun c => c.1 < a) a n

/-- The entries that a byte sequence stored at `a` makes. -/
def cellsOf : Nat → List Byte → List Host.Cell
  | _, [] => []
  | a, b :: bs => if b = Memory.unwritten then cellsOf (a + 1) bs else (a, b) :: cellsOf (a + 1) bs

/-- Memory with a byte sequence stored at `a` (00_scope.md R13). -/
def Memory.write (m : Memory) (a : Nat) (bs : List Byte) : Memory :=
  (m.takeWhile fun c => c.1 < a) ++ cellsOf a bs ++ m.dropWhile fun c => c.1 < a + bs.length

/-- The canonical form: strictly rising addresses, no entry equal to what an unlisted address reads as. -/
def Memory.wf (m : Memory) : Bool := keysRise m && m.all fun c => c.2 != Memory.unwritten

/-- The `n` samples at `a` (20_memory.md R92). -/
def Memory.samples (m : Memory) (a n : Nat) : List Sample := samplesOfBytes (m.bytes a (2 * n))

/-- Memory with a free byte at each of the `n` addresses from `a` (60_exceptions.md R520; log 8). -/
def Memory.forget (m : Memory) (a n tick : Nat) : Memory :=
  m.write a ((List.range' a n).map (Config.freeByte tick))

/-! ### The data phase of a command -/

/-- What a data phase raises: the code, and whether 60_exceptions.md R520 says that all memory is unchanged. -/
structure Raise where
  code : ErrCode
  keepsMemory : Bool
  deriving DecidableEq, Repr

/-- A data phase, or a part of one: it runs on the state and gives a value, or raises (00_scope.md R14); what it did to
the state before the raise stays in the state it raises in. -/
abbrev Run := EStateM Raise State

/-- `raise Error(e)` (00_scope.md R14). -/
def raise {α : Type} (e : ErrCode) : Run α := throw ⟨e, false⟩

/-- A raise that 60_exceptions.md R520 lists among those that leave all memory unchanged. -/
def raiseClean {α : Type} (e : ErrCode) : Run α := throw ⟨e, true⟩

/-- `require c else e` (00_scope.md R14). -/
def require (c : Bool) (e : ErrCode) : Run Unit := if c then pure () else raise e

/-- A computation on values alone, inside a data phase. -/
def ofExcept {α : Type} : Except ErrCode α → Run α
  | .ok v => pure v
  | .error e => raise e

/-- `f 0`, …, `f (n - 1)` in ascending order. -/
def forUpTo : Nat → (Nat → Run Unit) → Run Unit
  | 0, _ => pure ()
  | n + 1, f => do
    forUpTo n f
    f n

/-- `f` on every element of the list, in order. -/
def forEach {α : Type} : List α → (α → Run Unit) → Run Unit
  | [], _ => pure ()
  | a :: rest, f => do
    f a
    forEach rest f

/-- The state with another memory. -/
def State.withMem (s : State) (m : Memory) : State := { s with mem := m }

/-- The state with another BITMAP, valid (10_state.md R64, `VALID(BITMAP)`). -/
def State.withBitmap (s : State) (b : Bitmap) : State := { s with bitmap := some b }

/-- The state with another LUT of a kind, valid (10_state.md R64, `VALID(LUT)`). -/
def State.withLut (s : State) (k : LutKind) (t : Lut) : State := { s with lut := some t, lutKind := k }

/-- The state with another code table, valid (10_state.md R64, `VALID(CODES)`). -/
def State.withCodes (s : State) (t : CodeTable) : State := { s with codes := some t }

/-- A DMA read answers with a bus error (20_memory.md R99; log 4). -/
def State.readFails (s : State) (a n : Nat) : Bool := spansMeet s.platform.readErr a n

/-- A DMA write answers with a bus error (20_memory.md R99; log 4). -/
def State.writeFails (s : State) (a n : Nat) : Bool := spansMeet s.platform.writeErr a n

/-- `n` bytes read by DMA at `a` (00_scope.md R13, 20_memory.md R99). -/
def dmaRead (a n : Nat) : Run (List Byte) := fun s =>
  if s.readFails a n then raise .busError s else .ok (s.mem.bytes a n) s

/-- Bytes written by DMA at `a` (00_scope.md R13, 20_memory.md R99). -/
def dmaWrite (a : Nat) (bs : List Byte) : Run Unit := fun s =>
  if s.writeFails a bs.length then raise .busError s else .ok () (s.withMem (s.mem.write a bs))

/-- `MemRead(a, n)` as an unsigned little-endian integer (00_scope.md R13). -/
def rdLe (a n : Nat) : Run Nat := do
  let bs ← dmaRead a n
  pure (leNat bs)

/-- `Rd16(a)` (00_scope.md R13). -/
def rd16 (a : Nat) : Run Sample := do
  let bs ← dmaRead a 2
  pure ((samplesOfBytes bs).headD 0)

/-- `Wr16(a, v)` (00_scope.md R13). -/
def wr16 (a : Nat) (v : Sample) : Run Unit := dmaWrite a (bytesOfSamples [v])

/-- The `n` samples at `a`, read in ascending order. -/
def readSamples (a n : Nat) : Run (List Sample) := do
  let bs ← dmaRead a (2 * n)
  pure (samplesOfBytes bs)

/-- Samples written at `a` in ascending order. -/
def writeSamples (a : Nat) (xs : List Sample) : Run Unit := dmaWrite a (bytesOfSamples xs)

/-! ### Issue, completion and error completion -/

/-- How many host accesses arrive before the word `w` completes: the next number of `delays` for a command (log 2), none for
an illegal word, which completes at once (30_encoding.md R134). -/
def State.issueDelay (s : State) (w : Word32) : Nat :=
  match decode w with
  | .ok _ => s.delays.headD 0
  | .error _ => 0

/-- Issue of the word `w` (30_encoding.md R141): the parameters are latched, STATUS and the result registers start over. A
command with a region in non-idempotent memory issues too, and is refused at its turn (DESIGN CHOICE, log 11). -/
def State.issue (s : State) (w : Word32) : State :=
  { s with
    latched := s.params, phase := .busy w, done := false, errcode := .ok, results := {},
    delay := s.issueDelay w, delays := s.delays.tail, raced := false }

/-- The valid bit of every table the command's rule writes is cleared (30_encoding.md R144, 10_state.md R64). The model does so
in the step that completes the command (log 29). -/
def State.clearValid (s : State) (i : Instr) : State :=
  { s with
    bitmap := if (tablesWritten i).contains .bitmap then none else s.bitmap
    lut := if (tablesWritten i).contains .lut then none else s.lut
    codes := if (tablesWritten i).contains .codes then none else s.codes }

/-- Completion with code 0 (30_encoding.md R146): the result registers take the values the command's rule names, the
others 0 (10_state.md R54). -/
def State.completeOk (s : State) (r : Results) : State :=
  { s with
    phase := .idle, done := true, errcode := .ok, results := r,
    irqStatus := irqNext s.irqStatus 0 irqCmdDone, delay := 0, raced := false, fresh := s.fresh + 1 }

/-- Completion with a code other than 0 (30_encoding.md R146): the result registers are 0 (10_state.md R54). -/
def State.completeErr (s : State) (e : ErrCode) : State :=
  { s with
    phase := .idle, done := true, errcode := e, results := {},
    irqStatus := irqNext s.irqStatus 0 irqCmdErr, delay := 0, raced := false, fresh := s.fresh + 1 }

/-- Memory with every byte of the written regions free, as far as the address space goes (60_exceptions.md R520,
70_reset_and_hazards.md R603; log 8, log 19). -/
def forgetRegions (m : Memory) (tick : Nat) : List Region → Memory
  | [] => m
  | r :: rest =>
    forgetRegions
      (if r.access.writes then m.forget r.base r.realSize tick else m) tick rest

/-- Error completion of a data phase that raised `e` in the state `s` (60_exceptions.md R520): the one operation that
stands in the place of taking an exception. Every byte of the W and RW regions is free, except where the raise is one
that leaves all memory unchanged; tables and valid bits stay as the data phase left them. -/
def State.failData (s : State) (i : Instr) (e : Raise) : State :=
  (if e.keepsMemory then s else s.withMem (forgetRegions s.mem s.fresh (regions i s.latched))).completeErr e.code

/-- What every command does once it has issued and decoded: the parameter-check phase (30_encoding.md R143), the data
phase (R144) and completion (R146). A command with a region in non-idempotent memory is refused here (20_memory.md R100;
the moment is a DESIGN CHOICE, log 11). -/
def runCommand (i : Instr) (body : Run Results) (s : State) : Host.Outcome State Fault Refusal :=
  if touchesDevice i s then .refused .nonIdempotentRegion
  else
    match paramCheck i s with
    | some e => .next (s.completeErr e)
    | none =>
      match body (s.clearValid i) with
      | .ok r s' => .next (s'.completeOk r)
      | .error e s' => .next (s'.failData i e)

/-! ### Reset -/

/-- Memory after the running command, if there is one, is abandoned: every byte of its W and RW regions is free
(70_reset_and_hazards.md R603), also one that lies in an R region as well (DESIGN CHOICE, log 19). -/
def State.abandonedMem (s : State) : Memory :=
  match s.phase with
  | .idle => s.mem
  | .busy w =>
    match decode w with
    | .error _ => s.mem
    | .ok i => forgetRegions s.mem s.fresh (regions i s.latched)

/-- Hardware reset and soft reset: the block's state as after reset, the running command abandoned
(70_reset_and_hazards.md R600, R602, R603). Memory is otherwise unchanged; the platform and the hosts are not reset. A command
with a region in non-idempotent memory is abandoned as any other, and then never refused (DESIGN CHOICE, log 11). -/
def State.blockReset (s : State) : State :=
  { State.reset with
    mem := s.abandonedMem, platform := s.platform, hostq := s.hostq, responses := s.responses,
    delays := s.delays, fresh := s.fresh + 1 }

end Sys2Proof.Machine
end

