-- ==== Sys2Proof/Machine/Control.lean ====
section
/-! DEFINITION. The control commands (44_piz.md R420). -/

namespace Sys2Proof.Machine

/-- The data phase of NOP is empty (44_piz.md R420). -/
def dataNop : Run Results := pure {}

/-- NOP (44_piz.md R420). -/
def execNop (s : State) : Host.Outcome State Fault Refusal := runCommand .nop dataNop s

end Sys2Proof.Machine
end

