-- ==== Sys2Proof/Machine/HuffmanEncode.lean ====
section
/-! DEFINITION. The Huffman encoder (41_huffman_encode.md), and the canonical codes it shares with the decoder: frequencies,
code lengths, codes, the packed table, the bit stream, the block, and the meanings of HUF_COMPRESS and HUF_DUMP_CODES.

The transient storage of 10_state.md R63 is held as lists local to the functions (log 17): the frequency array by its
non-zero entries, the heap by its members in order of `(frequency, symbol)`, a chain by its symbols with their lengths. -/

namespace Sys2Proof.Machine

/-! ### Frequencies and code lengths -/

/-- `frq[v] <- frq[v] + 1`, the non-zero frequencies by rising symbol (41_huffman_encode.md R251). -/
def bumpFrequency : List (Nat × Nat) → Nat → List (Nat × Nat)
  | [], v => [(v, 1)]
  | (s, n) :: rest, v =>
    if s < v then (s, n) :: bumpFrequency rest v
    else if s = v then (s, n + 1) :: rest
    else (v, 1) :: (s, n) :: rest

/-- `CountFrequencies` (41_huffman_encode.md R251). -/
def countFrequencies (xs : List Sample) : List (Nat × Nat) :=
  xs.foldl (fun frq v => bumpFrequency frq v.toNat) []

/-- A member of the heap (41_huffman_encode.md R252): its frequency, its symbol, and its chain, each symbol of the chain
with the length it has so far. -/
structure HeapNode where
  freq : Nat
  sym : Nat
  chain : List (Nat × Nat)
  deriving DecidableEq, Repr

/-- The pop order: least `(frequency, symbol)` first (41_huffman_encode.md R252). -/
def HeapNode.before (a b : HeapNode) : Bool := a.freq < b.freq || (a.freq == b.freq && a.sym < b.sym)

/-- The heap with one member more; the heap is listed in pop order. -/
def heapInsert (n : HeapNode) : List HeapNode → List HeapNode
  | [] => [n]
  | m :: rest => if n.before m then n :: m :: rest else m :: heapInsert n rest

/-- The heap at the start: every symbol of non-zero frequency, its chain itself (41_huffman_encode.md R252). -/
def initialHeap (frq : List (Nat × Nat)) : List HeapNode :=
  frq.foldl (fun h e => heapInsert ⟨e.2, e.1, [(e.1, 0)]⟩ h) []

/-- The merged chain: `m`'s chain, then `mm`'s, every length one more (41_huffman_encode.md R252). -/
def mergedChain (m mm : HeapNode) : List (Nat × Nat) := (m.chain ++ mm.chain).map fun e => (e.1, e.2 + 1)

/-- The merges, at most `fuel` of them, until one member is left: its chain, or CODE_LENGTH_OVERFLOW
(41_huffman_encode.md R252). A heap of `k` members takes `k - 1` merges. -/
def mergeAll : Nat → List HeapNode → Except ErrCode (List (Nat × Nat))
  | fuel + 1, mm :: m :: rest =>
    let chain := mergedChain m mm
    if chain.all fun e => e.2 ≤ Config.hufMaxLen then
      mergeAll fuel (heapInsert ⟨m.freq + mm.freq, m.sym, chain⟩ rest)
    else .error .codeLengthOverflow
  | _, n :: _ => .ok n.chain
  | _, [] => .ok []

/-- The code lengths of an alphabet given by its non-zero frequencies, by rising symbol (41_huffman_encode.md R252). -/
def lengthsOf (frq : List (Nat × Nat)) : Except ErrCode (List (Nat × Nat)) :=
  match mergeAll frq.length (initialHeap frq) with
  | .ok chain => .ok (frq.map fun e => (e.1, sparseGet 0 chain e.1))
  | .error e => .error e

/-- `im`: the least symbol that occurs (41_huffman_encode.md R252, R256). -/
def leastSymbol (frq : List (Nat × Nat)) : Nat := (frq.headD (0, 0)).1

/-- `iM`: the greatest symbol that occurs, plus one; the run-length escape (41_huffman_encode.md R250, R256). -/
def escapeSymbol (frq : List (Nat × Nat)) : Nat := (frq.getLastD (0, 0)).1 + 1

/-- `BuildLengths()` (41_huffman_encode.md R252): the frequency of the escape is 1. -/
def buildLengths (frq : List (Nat × Nat)) : Except ErrCode (List (Nat × Nat)) :=
  lengthsOf (frq ++ [(escapeSymbol frq, 1)])

/-! ### Canonical codes -/

/-- The number of symbols of length `l` (41_huffman_encode.md R254). -/
def lengthCount (lens : List (Nat × Nat)) (l : Nat) : Nat := lens.countP fun e => e.2 == l

/-- `n[1]`, …, `n[58]` after the loop of 41_huffman_encode.md R254, the first code of each length: going down from length
`l`, with `c` the first code of length `l` and `acc` those of the lengths above it. -/
def firstCodesFrom (lens : List (Nat × Nat)) : Nat → Nat → List Nat → List Nat
  | 0, _, acc => acc
  | l + 1, c, acc => firstCodesFrom lens l ((c + lengthCount lens (l + 1)) / 2) (c :: acc)

/-- `n[0]`, …, `n[58]` after the loop of 41_huffman_encode.md R254; `n[0]` is not used. -/
def firstCodes (lens : List (Nat × Nat)) : List Nat := 0 :: firstCodesFrom lens 58 0 []

/-- Codes in ascending symbol order from the next code of each length (41_huffman_encode.md R254). -/
def assignCodes : List Nat → List (Nat × Nat) → CodeTable
  | _, [] => []
  | n, (s, l) :: rest =>
    ⟨s, BitVec.ofNat 6 l, BitVec.ofNat 58 (n.getD l 0)⟩ :: assignCodes (n.set l (n.getD l 0 + 1)) rest

/-- `CanonicalCodes()` (41_huffman_encode.md R254), from the non-zero lengths by rising symbol. -/
def canonicalCodes (lens : List (Nat × Nat)) : CodeTable := assignCodes (firstCodes lens) lens

/-- `HLEN[s]` (10_state.md R62). -/
def CodeTable.hlen (t : CodeTable) (s : Nat) : Nat :=
  match t.find? fun e => e.sym == s with
  | some e => e.len.toNat
  | none => 0

/-- `HCODE[s]` (10_state.md R62). -/
def CodeTable.hcode (t : CodeTable) (s : Nat) : Nat :=
  match t.find? fun e => e.sym == s with
  | some e => e.code.toNat
  | none => 0

/-- The strict form of a code table that a rule builds: rising symbols up to 65536, lengths 1 to 58. -/
def CodeTable.wf (t : CodeTable) : Bool :=
  keysRise (t.map fun e => (e.sym, e)) && t.all fun e => e.sym < 65537 && 0 < e.len.toNat && e.len.toNat ≤ 58

/-- The form of the code table that State holds, a race included (10_state.md R62, 70_reset_and_hazards.md R620): rising
symbols up to 65536, lengths up to 58, no entry whose length and code are both 0. -/
def CodeTable.held (t : CodeTable) : Bool :=
  keysRise (t.map fun e => (e.sym, e)) && t.all fun e => e.sym < 65537 && (e.len != 0 || e.code != 0) && e.len.toNat ≤ 58

/-! ### Table packing -/

/-- A run of `z` symbols of length 0, up to 261 (41_huffman_encode.md R257). -/
def packZeros (z : Nat) : Bits :=
  if Config.shortestLongRun ≤ z then bits Config.longZerocodeRun 6 ++ bits (z - Config.shortestLongRun) 8
  else if 2 ≤ z then bits (Config.shortZerocodeRun + z - 2) 6
  else if z = 1 then bits 0 6
  else []

/-- A run of any number of symbols of length 0: the loop of 41_huffman_encode.md R257 takes 261 of them as long as it
can, then the rest. -/
def packZeroRun (z : Nat) : Bits :=
  (List.replicate (z / Config.longestLongRun) (packZeros Config.longestLongRun)).flatten
    ++ packZeros (z % Config.longestLongRun)

/-- `PackTable` from symbol `i` on, given the entries of non-zero length from `i` on (41_huffman_encode.md R257). -/
def packFrom (iM : Nat) : Nat → CodeTable → Bits
  | i, [] => packZeroRun (iM + 1 - i)
  | i, e :: rest => packZeroRun (e.sym - i) ++ bits e.len.toNat 6 ++ packFrom iM (e.sym + 1) rest

/-- `PackTable(im, iM)` (41_huffman_encode.md R257). -/
def packTable (im iM : Nat) (t : CodeTable) : Bits := packFrom iM im t

/-! ### Bit stream -/

/-- The code of a symbol as a bit string: `bits(HCODE[s], HLEN[s])`. -/
def CodeTable.codeBits (t : CodeTable) (s : Nat) : Bits := bits (t.hcode s) (t.hlen s)

/-- `SendCode(s, cs, rlc)` (41_huffman_encode.md R259, 90_conflicts.md C9). -/
def sendCode (t : CodeTable) (rlc : Nat) (s : Sample) (cs : Nat) : Bits :=
  if t.hlen s.toNat + t.hlen rlc + 8 < t.hlen s.toNat * cs then
    t.codeBits s.toNat ++ t.codeBits rlc ++ bits cs 8
  else (List.replicate (cs + 1) (t.codeBits s.toNat)).flatten

/-- The loop of `EncodeBits` with the current sample `s` and `cs` repeats of it (41_huffman_encode.md R258). -/
def encodeFrom (t : CodeTable) (rlc : Nat) (s : Sample) (cs : Nat) : List Sample → Bits
  | [] => sendCode t rlc s cs
  | v :: rest =>
    if v = s ∧ cs < Config.maxRunCount then encodeFrom t rlc v (cs + 1) rest
    else sendCode t rlc s cs ++ encodeFrom t rlc v 0 rest

/-- `EncodeBits` (41_huffman_encode.md R258). -/
def encodeBits (t : CodeTable) (rlc : Nat) : List Sample → Bits
  | [] => []
  | s :: rest => encodeFrom t rlc s 0 rest

/-! ### The Huffman block -/

/-- The block of 41_huffman_encode.md R260 from its bounds, its packed table and its coded stream. -/
def huffmanBlock (im iM : Nat) (table stream : Bits) : List Byte :=
  leBytes 4 im ++ leBytes 4 iM ++ leBytes 4 (byteCount table.length) ++ leBytes 4 stream.length ++ leBytes 4 0
    ++ bytesOfBits table ++ bytesOfBits stream

/-- The parts a Huffman block is made of. -/
structure Encoded where
  im : Nat
  iM : Nat
  codes : CodeTable
  table : Bits
  stream : Bits
  deriving DecidableEq, Repr

/-- The encoding of a non-empty sample sequence: the code table, the packed table and the coded stream
(41_huffman_encode.md R251 to R259). -/
def encodeSamples (xs : List Sample) : Except ErrCode Encoded :=
  let frq := countFrequencies xs
  match buildLengths frq with
  | .error e => .error e
  | .ok lens =>
    let t := canonicalCodes lens
    .ok { im := leastSymbol frq, iM := escapeSymbol frq, codes := t,
          table := packTable (leastSymbol frq) (escapeSymbol frq) t,
          stream := encodeBits t (escapeSymbol frq) xs }

/-- The length of the block (41_huffman_encode.md R260). -/
def Encoded.blockLength (e : Encoded) : Nat := Config.hufHdr + byteCount e.table.length + byteCount e.stream.length

/-- The block (41_huffman_encode.md R260). -/
def Encoded.block (e : Encoded) : List Byte := huffmanBlock e.im e.iM e.table e.stream

/-- What HufCompress and HufUncompress report: a byte count, the bounds, the table's bytes, the bit count. -/
structure HufInfo where
  count : Nat := 0
  im : Nat := 0
  iM : Nat := 0
  tableBytes : Nat := 0
  nBits : Nat := 0
  deriving DecidableEq, Repr

/-- `HufCompress(A, N, D, cap)` (41_huffman_encode.md R261). The second reading of the samples returns what the first did
(R261: they must not change in between), so it is not repeated here (log 14). -/
def hufCompress (a n d cap : Nat) : Run HufInfo :=
  if n = 0 then pure {}
  else do
    let xs ← readSamples a n
    let e ← ofExcept (encodeSamples xs)
    modify (·.withCodes e.codes)
    require (e.stream.length ≤ Config.maxNBits) .dstOverflow
    require (e.blockLength ≤ cap) .dstOverflow
    dmaWrite d e.block
    pure { count := e.blockLength, im := e.im, iM := e.iM, tableBytes := byteCount e.table.length,
           nBits := e.stream.length }

/-- The results a Huffman command reports (30_encoding.md R138), the byte or sample count apart. -/
def HufInfo.results (h : HufInfo) (len : Nat) : Results :=
  { len := BitVec.ofNat 32 len, nbits := BitVec.ofNat 32 h.nBits, im := BitVec.ofNat 32 h.im,
    imax := BitVec.ofNat 32 h.iM, tablen := BitVec.ofNat 32 h.tableBytes }

/-! ### The commands -/

/-- The data phase of HUF_COMPRESS (41_huffman_encode.md R262). -/
def dataHufCompress : Run Results := do
  let l := (← get).latched
  let h ← hufCompress l.srcAddr.toNat l.srcLen.toNat l.dstAddr.toNat l.dstLen.toNat
  pure (h.results h.count)

/-- The code table a command works from, valid by the parameter check (10_state.md R65). -/
def getCodes : Run CodeTable := fun s =>
  match s.codes with
  | some t => .ok t s
  | none => raise .noTable s

/-- One entry of the code dump: `(HCODE[s] << 6) | HLEN[s]`, 64 bits (41_huffman_encode.md R264). -/
def CodeEntry.dumpWord (e : CodeEntry) : BitVec 64 := e.code ++ e.len

/-- The dump of the code table: 65537 entries of 8 bytes (41_huffman_encode.md R264). -/
def CodeTable.dump (t : CodeTable) : List Byte :=
  (sparseRun 0#64 (t.map fun e => (e.sym, e.dumpWord)) 0 Config.hufEncSize).flatMap fun w => leBytes 8 w.toNat

/-- The data phase of HUF_DUMP_CODES (41_huffman_encode.md R264). -/
def dataHufDumpCodes : Run Results := do
  let l := (← get).latched
  let t ← getCodes
  dmaWrite l.dstAddr.toNat t.dump
  pure { len := BitVec.ofNat 32 Config.codeDumpSize }

/-- HUF_COMPRESS (41_huffman_encode.md R262). -/
def execHufCompress (s : State) : Host.Outcome State Fault Refusal :=
  runCommand .hufCompress dataHufCompress s

/-- HUF_DUMP_CODES (41_huffman_encode.md R264). -/
def execHufDumpCodes (s : State) : Host.Outcome State Fault Refusal :=
  runCommand .hufDumpCodes dataHufDumpCodes s

end Sys2Proof.Machine
end

