-- ==== Sys2Proof/Machine/HuffmanDecode.lean ====
section
/-! DEFINITION. The Huffman decoder (42_huffman_decode.md) and the meaning of HUF_UNCOMPRESS.

The decoder reads its source through functions that say which accesses answer with a bus error (`rd` for bytes or bits of
the source, `wr` for samples of the destination): an access that fails ends the command at that point of the pseudocode
(60_exceptions.md R502). -/

namespace Sys2Proof.Machine

/-! ### The packed table -/

/-- The bit reader over the table's bytes (42_huffman_decode.md R302): the unread bits of the last fetched byte, the bytes
not yet fetched, and `q`, the number fetched. -/
structure TableReader where
  buffered : Bits
  rest : List Byte
  fetched : Nat
  deriving DecidableEq, Repr

/-- `get(k)` for `k` up to 8 (42_huffman_decode.md R302): a byte is fetched only when fewer than `k` unread bits are
buffered, and a fetch past the table's budget is TABLE_END. `rd q` says that the fetch of byte `q` fails on the bus. -/
def TableReader.get (rd : Nat → Bool) (k : Nat) (r : TableReader) : Except ErrCode (Nat × TableReader) :=
  if k ≤ r.buffered.length then
    .ok (natOfBits (r.buffered.take k), { r with buffered := r.buffered.drop k })
  else
    match r.rest with
    | [] => .error .tableEnd
    | b :: rest =>
      if rd r.fetched then .error .busError
      else
        let buf := r.buffered ++ bitsOfByte b
        .ok (natOfBits (buf.take k), ⟨buf.drop k, rest, r.fetched + 1⟩)

/-- The loop of `UnpackTable` from symbol `i` on (42_huffman_decode.md R303): the non-zero lengths by rising symbol, and the
bytes fetched. Each turn moves `i` up, so `iM + 1 - i` turns are enough. -/
def unpackFrom (rd : Nat → Bool) (iM : Nat) : Nat → Nat → TableReader → Except ErrCode (List (Nat × Nat) × Nat)
  | 0, _, r => .ok ([], r.fetched)
  | fuel + 1, i, r =>
    if iM < i then .ok ([], r.fetched)
    else
      match r.get rd 6 with
      | .error e => .error e
      | .ok (l, r') =>
        if l = Config.longZerocodeRun then
          match r'.get rd 8 with
          | .error e => .error e
          | .ok (c, r'') =>
            if i + (c + Config.shortestLongRun) ≤ iM + 1 then
              unpackFrom rd iM fuel (i + (c + Config.shortestLongRun)) r''
            else .error .tableTooLong
        else if Config.shortZerocodeRun ≤ l then
          if i + (l - Config.shortZerocodeRun + 2) ≤ iM + 1 then
            unpackFrom rd iM fuel (i + (l - Config.shortZerocodeRun + 2)) r'
          else .error .tableTooLong
        else
          match unpackFrom rd iM fuel (i + 1) r' with
          | .error e => .error e
          | .ok (lens, q) => .ok (if l = 0 then lens else (i, l) :: lens, q)

/-- `UnpackTable(im, iM)` over the bytes from the table's start to the end of the block (42_huffman_decode.md R302, R303). -/
def unpackTable (rd : Nat → Bool) (area : List Byte) (im iM : Nat) : Except ErrCode (List (Nat × Nat) × Nat) :=
  unpackFrom rd iM (iM + 1 - im) im ⟨[], area, 0⟩

/-! ### The decode tables -/

/-- A short code: at most 14 bits (42_huffman_decode.md R311). -/
def CodeEntry.isShort (e : CodeEntry) : Bool := e.len.toNat ≤ Config.hufDecBits

/-- The first slot of the decode table an entry belongs to (42_huffman_decode.md R312). -/
def CodeEntry.slot (e : CodeEntry) : Nat :=
  if e.isShort then e.code.toNat <<< (Config.hufDecBits - e.len.toNat)
  else e.code.toNat >>> (e.len.toNat - Config.hufDecBits)

/-- The number of slots an entry belongs to (42_huffman_decode.md R312). -/
def CodeEntry.slotCount (e : CodeEntry) : Nat := if e.isShort then 2 ^ (Config.hufDecBits - e.len.toNat) else 1

/-- The entry belongs to slot `k`. -/
def CodeEntry.covers (e : CodeEntry) (k : Nat) : Bool := e.slot ≤ k && k < e.slot + e.slotCount

/-- The code fits its length (42_huffman_decode.md R312). -/
def CodeEntry.fits (e : CodeEntry) : Bool := e.code.toNat >>> e.len.toNat == 0

/-- Two entries may not both stand in the table: they share a slot and one of them is short (42_huffman_decode.md R312). -/
def CodeEntry.conflicts (e f : CodeEntry) : Bool :=
  (e.isShort || f.isShort) && rangesMeet e.slot e.slotCount f.slot f.slotCount

/-- `BuildDecodeTable` over the entries in ascending symbol order (42_huffman_decode.md R312): the entries placed, and the
first that fails its check, at which INVALID_TABLE_ENTRY is raised and the build ends (00_scope.md R14). DLEN, DSYM and DLIST
of R311 are read off the placed entries (`shortAt`, `longAt`). -/
def buildDecode : CodeTable → CodeTable → CodeTable × Option CodeEntry
  | placed, [] => (placed, none)
  | placed, e :: rest =>
    if e.fits && !placed.any e.conflicts then buildDecode (placed ++ [e]) rest else (placed, some e)

/-- The short code in slot `k`: DLEN and DSYM (42_huffman_decode.md R311). -/
def shortAt (placed : CodeTable) (k : Nat) : Option CodeEntry := placed.find? fun e => e.isShort && e.covers k

/-- DLIST of slot `k`, in ascending symbol order (42_huffman_decode.md R311). -/
def longAt (placed : CodeTable) (k : Nat) : CodeTable := placed.filter fun e => !e.isShort && e.covers k

/-- The code table after an entry has failed the check of the build: its code is a free value below `2^58`, every other entry
keeps its code (10_state.md R62, 93_implementation_defined.md; log 9). -/
def freeFailing (t : CodeTable) (failing : CodeEntry) (tick : Nat) : CodeTable :=
  t.map fun e => if e.sym = failing.sym then { e with code := Config.freeCode tick e.sym } else e

/-- `BuildDecodeTable` as a stage of the decoder (42_huffman_decode.md R312) on the code table `t`: the entries placed, or
INVALID_TABLE_ENTRY with the failing entry's code free (log 9). -/
def buildStage (t : CodeTable) : Run CodeTable := do
  let s ← get
  match buildDecode [] t with
  | (placed, none) => pure placed
  | (_, some failing) => do
    modify (·.withCodes (freeFailing t failing s.fresh))
    raise .invalidTableEntry

/-! ### Bit decoding -/

/-- Where the decoder stands (42_huffman_decode.md R313): `pos`, the stream's bits from `pos` on, the number of samples
written and the samples themselves, latest first. `prev` is the latest sample. -/
structure Decoding where
  pos : Nat
  rest : Bits
  out : Nat
  written : List Sample
  deriving DecidableEq, Repr

/-- The decoder `l` bits further on. -/
def Decoding.skip (d : Decoding) (l : Nat) : Decoding := { d with pos := d.pos + l, rest := d.rest.drop l }

/-- `Emit(sym, pos, end)` (42_huffman_decode.md R316). `rd pos k` says that the access for `k` bits at `pos` fails on the
bus, `wr out n` that the access for `n` samples at `out` does. -/
def emit (rd wr : Nat → Nat → Bool) (iM no : Nat) (sym stop : Nat) (d : Decoding) : Except ErrCode Decoding :=
  if sym = iM then
    if ¬ d.pos + 8 ≤ stop then .error .notEnoughData
    else if rd d.pos 8 then .error .busError
    else
      let cs := natOfBits (d.rest.take 8)
      let d' := d.skip 8
      if ¬ d'.out + cs ≤ no then .error .tooMuchData
      else
        match d'.written with
        | [] => .error .notEnoughData
        | prev :: _ =>
          if wr d'.out cs then .error .busError
          else .ok { d' with out := d'.out + cs, written := List.replicate cs prev ++ d'.written }
  else if ¬ d.out < no then .error .tooMuchData
  else if wr d.out 1 then .error .busError
  else .ok { d with out := d.out + 1, written := BitVec.ofNat 16 sym :: d.written }

/-- The search of DLIST (42_huffman_decode.md R314): the first candidate whose code stands at `pos`. -/
def findLong (rd : Nat → Nat → Bool) (stop : Nat) (d : Decoding) : CodeTable → Except ErrCode CodeEntry
  | [] => .error .invalidCode
  | e :: rest =>
    if d.pos + e.len.toNat ≤ stop then
      if rd d.pos e.len.toNat then .error .busError
      else if natOfBits (d.rest.take e.len.toNat) = e.code.toNat then .ok e
      else findLong rd stop d rest
    else findLong rd stop d rest

/-- One turn of phase 1 (42_huffman_decode.md R314), with `stop` the number `E` of stream bits. -/
def phase1Step (rd wr : Nat → Nat → Bool) (placed : CodeTable) (iM no stop : Nat) (d : Decoding) :
    Except ErrCode Decoding :=
  if rd d.pos Config.hufDecBits then .error .busError
  else
    let k := natOfBits (d.rest.take Config.hufDecBits)
    match shortAt placed k with
    | some e => emit rd wr iM no e.sym stop (d.skip e.len.toNat)
    | none =>
      match findLong rd stop d (longAt placed k) with
      | .error err => .error err
      | .ok e => emit rd wr iM no e.sym stop (d.skip e.len.toNat)

/-- Phase 1 (42_huffman_decode.md R314): every turn consumes at least one bit or raises, so `E - pos` turns are enough. -/
def phase1 (rd wr : Nat → Nat → Bool) (placed : CodeTable) (iM no stop : Nat) :
    Nat → Decoding → Except ErrCode Decoding
  | 0, d => .ok d
  | fuel + 1, d =>
    if d.pos + Config.hufDecBits ≤ stop then
      match phase1Step rd wr placed iM no stop d with
      | .error err => .error err
      | .ok d' => phase1 rd wr placed iM no stop fuel d'
    else .ok d

/-- One turn of phase 2 (42_huffman_decode.md R315): the remaining bits, padded with zeros on the right, make the slot
index. -/
def phase2Step (rd wr : Nat → Nat → Bool) (placed : CodeTable) (iM no nBits : Nat) (d : Decoding) :
    Except ErrCode Decoding :=
  let r := nBits - d.pos
  if rd d.pos r then .error .busError
  else
    match shortAt placed (natOfBits (d.rest.take r) <<< (Config.hufDecBits - r)) with
    | some e =>
      if e.len.toNat ≤ r then emit rd wr iM no e.sym nBits (d.skip e.len.toNat) else .error .invalidCode
    | none => .error .invalidCode

/-- Phase 2 (42_huffman_decode.md R315): every turn consumes at least one bit or raises. -/
def phase2 (rd wr : Nat → Nat → Bool) (placed : CodeTable) (iM no nBits : Nat) :
    Nat → Decoding → Except ErrCode Decoding
  | 0, d => .ok d
  | fuel + 1, d =>
    if d.pos < nBits then
      match phase2Step rd wr placed iM no nBits d with
      | .error err => .error err
      | .ok d' => phase2 rd wr placed iM no nBits fuel d'
    else .ok d

/-- The samples a coded stream decodes to (42_huffman_decode.md R313 to R317). -/
def decodeStream (rd wr : Nat → Nat → Bool) (placed : CodeTable) (iM no nBits : Nat) (stream : Bits) :
    Except ErrCode (List Sample) :=
  match phase1 rd wr placed iM no stream.length stream.length ⟨0, stream, 0, []⟩ with
  | .error err => .error err
  | .ok d =>
    if ¬ d.pos ≤ nBits then .error .invalidCode
    else
      match phase2 rd wr placed iM no nBits (nBits - d.pos) d with
      | .error err => .error err
      | .ok d' => if d'.out = no then .ok d'.written.reverse else .error .notEnoughData

/-- The bytes of a byte stream at `base` that `k` bits at bit position `pos` lie in answer a read with a bus error
(42_huffman_decode.md R313, 20_memory.md R97). -/
def State.bitsFail (s : State) (base pos k : Nat) : Bool :=
  s.readFails (base + pos / 8) ((pos + k + 7) / 8 - pos / 8)

/-- `HufUncompress(A, n, D, no)` (42_huffman_decode.md R300 to R317). From `VALID(CODES)` on the code table is the canonical one
of the block (R306), also when INVALID_NBITS ends the command before the build has checked an entry (log 9). The decoder
never reads the destination back (R313) and the regions do not overlap, so the samples are stored together once all are
decoded (log 16). -/
def hufUncompress (a n d no : Nat) : Run HufInfo :=
  if n < Config.hufHdr then do
    require (no == 0) .notEnoughData
    pure {}
  else do
    let im ← rdLe a 4
    let iM ← rdLe (a + 4) 4
    let nBits ← rdLe (a + 12) 4
    require (im < Config.hufEncSize && iM < Config.hufEncSize) .invalidTableSize
    require (nBits ≤ Config.maxNBits && Config.hufHdr + byteCount nBits ≤ n) .notEnoughData
    let s ← get
    let area := s.mem.bytes (a + Config.hufHdr) (n - Config.hufHdr)
    let (lens, q) ← ofExcept (unpackTable (fun j => s.readFails (a + Config.hufHdr + j) 1) area im iM)
    modify (·.withCodes (canonicalCodes lens))
    require (nBits ≤ 8 * (n - Config.hufHdr - q)) .invalidNbits
    let placed ← buildStage (canonicalCodes lens)
    let base := a + Config.hufHdr + q
    let stream := bitsOfBytes (s.mem.bytes base (byteCount nBits))
    let xs ← ofExcept (decodeStream (s.bitsFail base) (fun k m => s.writeFails (d + 2 * k) (2 * m)) placed iM no
      nBits stream)
    modify fun s' => s'.withMem (s'.mem.write d (bytesOfSamples xs))
    pure { count := no, im := im, iM := iM, tableBytes := q, nBits := nBits }

/-! ### The command -/

/-- The data phase of HUF_UNCOMPRESS (42_huffman_decode.md R320). -/
def dataHufUncompress : Run Results := do
  let l := (← get).latched
  let h ← hufUncompress l.srcAddr.toNat l.srcLen.toNat l.dstAddr.toNat l.dstLen.toNat
  pure (h.results l.dstLen.toNat)

/-- HUF_UNCOMPRESS (42_huffman_decode.md R320). -/
def execHufUncompress (s : State) : Host.Outcome State Fault Refusal :=
  runCommand .hufUncompress dataHufUncompress s

end Sys2Proof.Machine
end

