-- ==== Sys2Proof/Machine/Lut.lean ====
section
/-! DEFINITION. The range-compaction LUT engine (40_lut.md): its shared functions and the meanings of its seven commands. -/

namespace Sys2Proof.Machine

/-! ### Shared functions -/

/-- The set bits of a number, ascending: the highest bit is taken off and put in front of those already taken, at most
`fuel` times. -/
def setBitsInto : Nat → Nat → List Nat → List Nat
  | 0, _, acc => acc
  | fuel + 1, b, acc => if b = 0 then acc else setBitsInto fuel (b - 2 ^ b.log2) (b.log2 :: acc)

/-- The values whose bit is set, ascending (40_lut.md R201). -/
def Bitmap.setBits (b : Bitmap) : List Nat := setBitsInto 65536 b.toNat []

/-- `BITMAP[j]` (10_state.md R60, 40_lut.md R201). -/
def Bitmap.byte (b : Bitmap) (j : Nat) : Byte := (b >>> (8 * j)).setWidth 8

/-- `BIT(v)` (40_lut.md R201). -/
def Bitmap.bit (b : Bitmap) (v : Nat) : Bool := b.getLsbD v

/-- `BITMAP[0] <- BITMAP[0] & 0xFE`: bit 0 is forced off (40_lut.md R202, R205). -/
def Bitmap.clearBit0 (b : Bitmap) : Bitmap := b &&& ~~~1#65536

/-- `BITMAP[v >> 3] <- BITMAP[v >> 3] | (1 << (v & 7))` (40_lut.md R202). -/
def Bitmap.mark (b : Bitmap) (v : Sample) : Bitmap := b ||| (1#65536 <<< v.toNat)

/-- BITMAP of a sample sequence (40_lut.md R202). -/
def bitmapOfSamples (xs : List Sample) : Bitmap := Bitmap.clearBit0 (xs.foldl Bitmap.mark 0)

/-- The range of non-zero BITMAP bytes, (8191, 0) of an all-zero BITMAP (40_lut.md R203): the bytes that hold the lowest
and the highest set bit. -/
def Bitmap.minMaxNonZero (b : Bitmap) : Nat × Nat :=
  match b.setBits with
  | [] => (8191, 0)
  | v :: rest => (v / 8, (v :: rest).getLast (by simp) / 8)

/-- The bytes of a bitmap block's slice, `S` of 40_lut.md R204. -/
def sliceSize (mn mx : Nat) : Nat := if mn ≤ mx then mx - mn + 1 else 0

/-- The bitmap block of BITMAP with the bounds `mn` and `mx` (40_lut.md R204). -/
def Bitmap.block (b : Bitmap) (mn mx : Nat) : List Byte :=
  leBytes 2 mn ++ leBytes 2 mx ++ (List.range' mn (sliceSize mn mx)).map b.byte

/-- BITMAP with the slice bytes from byte index `mn` on, every other byte zero, bit 0 cleared (40_lut.md R205). -/
def bitmapOfSlice (mn : Nat) (slice : List Byte) : Bitmap :=
  Bitmap.clearBit0 (BitVec.ofNat 65536 (leNat slice <<< (8 * mn)))

/-- The values other than 0 that occur, ascending (40_lut.md R206, R207: value 0 always belongs to the set). -/
def Bitmap.nonZeroValues (b : Bitmap) : List Nat := b.setBits.filter (· != 0)

/-- `maxValue`, the highest rank (40_lut.md R206, R207, R208). -/
def Bitmap.maxValue (b : Bitmap) : Nat := b.nonZeroValues.length

/-- The forward LUT: each occurring value to its rank, value 0 to rank 0, every other value to 0 (40_lut.md R206). -/
def Bitmap.forwardLut (b : Bitmap) : Lut :=
  (b.nonZeroValues.zipIdx 1).map fun p => (p.1, BitVec.ofNat 16 p.2)

/-- The reverse LUT: each rank to its value, rank 0 to value 0, every rank past `maxValue` to 0 (40_lut.md R207). -/
def Bitmap.reverseLut (b : Bitmap) : Lut :=
  (b.nonZeroValues.zipIdx 1).map fun p => (p.2, BitVec.ofNat 16 p.1)

/-- `LUT[v]` (10_state.md R61). -/
def Lut.entry (t : Lut) (v : Nat) : BitVec 16 := sparseGet 0 t v

/-- `LUT[0]`, …, `LUT[65535]`. -/
def Lut.entries (t : Lut) : List (BitVec 16) := sparseRun 0 t 0 Config.ushortRange

/-- The strict form of the LUT: rising indexes below 65536, no entry 0. -/
def Lut.wf (t : Lut) : Bool := keysRise t && t.all fun e => e.1 < 65536 && e.2 != 0

/-- `BitmapFromSamples(A, N)` without the store to BITMAP (40_lut.md R202). -/
def bitmapFromSamples (a n : Nat) : Run Bitmap := do
  let xs ← readSamples a n
  pure (bitmapOfSamples xs)

/-- `BitmapLoad(A, n)` without the store to BITMAP (40_lut.md R205): BITMAP and `(consumed, mn, mx)`. -/
def bitmapLoad (a n : Nat) : Run (Bitmap × Nat × Nat × Nat) := do
  require (4 ≤ n) .notEnoughData
  let mn ← rdLe a 2
  let mx ← rdLe (a + 2) 2
  require (mx < Config.bitmapSize) .bitmapSize
  if mn ≤ mx then do
    require (4 + sliceSize mn mx ≤ n) .notEnoughData
    let slice ← dmaRead (a + 4) (sliceSize mn mx)
    pure (bitmapOfSlice mn slice, 4 + sliceSize mn mx, mn, mx)
  else
    pure (0, 4, mn, mx)

/-- `ApplyLut(A, N)` (40_lut.md R209). Every sample is read once and written once, so reading all and then writing all
leaves the same bytes (log 14). -/
def applyLut (t : Lut) (a n : Nat) : Run Unit := do
  let xs ← readSamples a n
  writeSamples a (xs.map fun v => t.entry v.toNat)

/-- The BITMAP a command works from. The parameter check has seen to it that it is valid (10_state.md R65). -/
def getBitmap : Run Bitmap := fun s =>
  match s.bitmap with
  | some b => .ok b s
  | none => raise .noTable s

/-- The LUT a command works from, valid by the parameter check (10_state.md R65). -/
def getLut : Run Lut := fun s =>
  match s.lut with
  | some t => .ok t s
  | none => raise .noTable s

/-! ### The data phases -/

/-- The data phase of LUT_BITMAP_FROM_DATA (40_lut.md R210). -/
def dataBitmapFromData : Run Results := do
  let l := (← get).latched
  let b ← bitmapFromSamples l.srcAddr.toNat l.srcLen.toNat
  modify (·.withBitmap b)
  let m := b.minMaxNonZero
  pure { minnz := BitVec.ofNat 16 m.1, maxnz := BitVec.ofNat 16 m.2 }

/-- The data phase of LUT_BITMAP_LOAD (40_lut.md R212). -/
def dataBitmapLoad : Run Results := do
  let l := (← get).latched
  let (b, p, mn, mx) ← bitmapLoad l.srcAddr.toNat l.srcLen.toNat
  modify (·.withBitmap b)
  pure { len := BitVec.ofNat 32 p, minnz := BitVec.ofNat 16 mn, maxnz := BitVec.ofNat 16 mx }

/-- The data phase of LUT_BITMAP_STORE (40_lut.md R214): the capacity is checked before any write. -/
def dataBitmapStore : Run Results := do
  let l := (← get).latched
  let b ← getBitmap
  let m := b.minMaxNonZero
  let size := 4 + sliceSize m.1 m.2
  if size ≤ l.dstLen.toNat then do
    dmaWrite l.dstAddr.toNat (b.block m.1 m.2)
    pure { len := BitVec.ofNat 32 size, minnz := BitVec.ofNat 16 m.1, maxnz := BitVec.ofNat 16 m.2 }
  else raiseClean .dstOverflow

/-- The data phase of LUT_BUILD_FORWARD (40_lut.md R216). -/
def dataBuildForward : Run Results := do
  let b ← getBitmap
  modify (·.withLut .forward b.forwardLut)
  pure { maxval := BitVec.ofNat 16 b.maxValue }

/-- The data phase of LUT_BUILD_REVERSE (40_lut.md R218). -/
def dataBuildReverse : Run Results := do
  let b ← getBitmap
  modify (·.withLut .reverse b.reverseLut)
  pure { maxval := BitVec.ofNat 16 b.maxValue }

/-- The data phase of LUT_APPLY (40_lut.md R220). -/
def dataLutApply : Run Results := do
  let l := (← get).latched
  let t ← getLut
  applyLut t l.srcAddr.toNat l.srcLen.toNat
  pure {}

/-- The data phase of LUT_DUMP (40_lut.md R222). -/
def dataLutDump : Run Results := do
  let l := (← get).latched
  let t ← getLut
  dmaWrite l.dstAddr.toNat (bytesOfSamples t.entries)
  pure { len := BitVec.ofNat 32 Config.lutDumpSize }

/-! ### The meanings -/

/-- LUT_BITMAP_FROM_DATA (40_lut.md R210). -/
def execLutBitmapFromData (s : State) : Host.Outcome State Fault Refusal :=
  runCommand .lutBitmapFromData dataBitmapFromData s

/-- LUT_BITMAP_LOAD (40_lut.md R212). -/
def execLutBitmapLoad (s : State) : Host.Outcome State Fault Refusal :=
  runCommand .lutBitmapLoad dataBitmapLoad s

/-- LUT_BITMAP_STORE (40_lut.md R214). -/
def execLutBitmapStore (s : State) : Host.Outcome State Fault Refusal :=
  runCommand .lutBitmapStore dataBitmapStore s

/-- LUT_BUILD_FORWARD (40_lut.md R216). -/
def execLutBuildForward (s : State) : Host.Outcome State Fault Refusal :=
  runCommand .lutBuildForward dataBuildForward s

/-- LUT_BUILD_REVERSE (40_lut.md R218). -/
def execLutBuildReverse (s : State) : Host.Outcome State Fault Refusal :=
  runCommand .lutBuildReverse dataBuildReverse s

/-- LUT_APPLY (40_lut.md R220). -/
def execLutApply (s : State) : Host.Outcome State Fault Refusal :=
  runCommand .lutApply dataLutApply s

/-- LUT_DUMP (40_lut.md R222). -/
def execLutDump (s : State) : Host.Outcome State Fault Refusal :=
  runCommand .lutDump dataLutDump s

end Sys2Proof.Machine
end

