-- ==== Sys2Proof/Machine/Wavelet.lean ====
section
/-! DEFINITION. The 2D wavelet transform (43_wavelet.md): the butterflies, the levels, and the meanings of WAV_ENCODE and
WAV_DECODE. -/

namespace Sys2Proof.Machine

/-! ### Butterflies -/

/-- `wenc14` (43_wavelet.md R351). `/ 2` on integers is the floor, the arithmetic right shift by 1 (00_scope.md R11). -/
def wenc14 (a b : Sample) : Sample × Sample :=
  (BitVec.ofInt 16 ((a.toInt + b.toInt) / 2), BitVec.ofInt 16 (a.toInt - b.toInt))

/-- `wdec14` (43_wavelet.md R352). `% 2` is the low bit of the two's-complement value. -/
def wdec14 (l h : Sample) : Sample × Sample :=
  let ai := l.toInt + h.toInt % 2 + h.toInt / 2
  (BitVec.ofInt 16 ai, BitVec.ofInt 16 (ai - h.toInt))

/-- `wenc16` (43_wavelet.md R353); `% 65536` is the mask `MOD_MASK`. -/
def wenc16 (a b : Sample) : Sample × Sample :=
  let ao := (a.toNat + Config.wavOffset) % 65536
  let m := (ao + b.toNat) / 2
  let m' := if ao < b.toNat then (m + Config.wavOffset) % 65536 else m
  (BitVec.ofNat 16 m', BitVec.ofInt 16 ((ao : Int) - (b.toNat : Int)))

/-- `wdec16` (43_wavelet.md R354). -/
def wdec16 (l h : Sample) : Sample × Sample :=
  let bb := ((l.toNat : Int) - (h.toNat / 2 : Nat)) % 65536
  let aa := ((h.toNat : Int) + bb - Config.wavOffset) % 65536
  (BitVec.ofInt 16 aa, BitVec.ofInt 16 bb)

/-- The mode's encode butterfly (43_wavelet.md R358). -/
def encButterfly (maxValue : Nat) : Sample → Sample → Sample × Sample :=
  if maxValue < Config.w14Limit then wenc14 else wenc16

/-- The mode's decode butterfly (43_wavelet.md R358). -/
def decButterfly (maxValue : Nat) : Sample → Sample → Sample × Sample :=
  if maxValue < Config.w14Limit then wdec14 else wdec16

/-! ### Grid and levels -/

/-- A grid of samples in memory (43_wavelet.md R356). -/
structure Grid where
  base : Nat
  nx : Nat
  ny : Nat
  ox : Nat
  oy : Nat
  deriving DecidableEq, Repr

/-- The DMA address of `W(x, y)` (43_wavelet.md R356). -/
def Grid.addr (g : Grid) (x y : Nat) : Nat := g.base + 2 * (x * g.ox + y * g.oy)

/-- The levels in ascending order: the powers of two `p` with `2p <= min(NX, NY)` (43_wavelet.md R357). NX and NY are
below `2^32`, so `p` is below `2^31`. -/
def levels (nx ny : Nat) : List Nat :=
  ((List.range 32).map (2 ^ ·)).filter fun p => 2 * p ≤ min nx ny

/-- `(W(i), W(j)) <- f(W(i), W(j))` for two points of the grid, by address. -/
def pairStep (f : Sample → Sample → Sample × Sample) (i j : Nat) : Run Unit := do
  let u ← rd16 i
  let v ← rd16 j
  wr16 i (f u v).1
  wr16 j (f u v).2

/-- The 2x2 box of EncLevel: horizontal, then vertical (43_wavelet.md R359). -/
def encBox (f : Sample → Sample → Sample × Sample) (g : Grid) (p x y : Nat) : Run Unit := do
  let w00 ← rd16 (g.addr x y)
  let w10 ← rd16 (g.addr (x + p) y)
  let w01 ← rd16 (g.addr x (y + p))
  let w11 ← rd16 (g.addr (x + p) (y + p))
  let (i00, i01) := f w00 w10
  let (i10, i11) := f w01 w11
  wr16 (g.addr x y) (f i00 i10).1
  wr16 (g.addr x (y + p)) (f i00 i10).2
  wr16 (g.addr (x + p) y) (f i01 i11).1
  wr16 (g.addr (x + p) (y + p)) (f i01 i11).2

/-- The 2x2 box of DecLevel: undo vertical, then undo horizontal (43_wavelet.md R361). -/
def decBox (f : Sample → Sample → Sample × Sample) (g : Grid) (p x y : Nat) : Run Unit := do
  let w00 ← rd16 (g.addr x y)
  let w01 ← rd16 (g.addr x (y + p))
  let w10 ← rd16 (g.addr (x + p) y)
  let w11 ← rd16 (g.addr (x + p) (y + p))
  let (i00, i10) := f w00 w01
  let (i01, i11) := f w10 w11
  wr16 (g.addr x y) (f i00 i01).1
  wr16 (g.addr (x + p) y) (f i00 i01).2
  wr16 (g.addr x (y + p)) (f i10 i11).1
  wr16 (g.addr (x + p) (y + p)) (f i10 i11).2

/-- The loops of one level (43_wavelet.md R359, R361), with the body `box` for a 2x2 box and `f` for the leftover column
and row. The loop `while y + p2 <= NY` runs for `y = k * p2` with `k < NY / p2`, and leaves `y` at `(NY / p2) * p2`. -/
def levelPass (f : Sample → Sample → Sample × Sample) (box : Nat → Nat → Run Unit) (g : Grid) (p : Nat) : Run Unit := do
  forUpTo (g.ny / (2 * p)) fun ky => do
    forUpTo (g.nx / (2 * p)) fun kx => box (kx * (2 * p)) (ky * (2 * p))
    if g.nx &&& p ≠ 0 then
      let x := g.nx / (2 * p) * (2 * p)
      pairStep f (g.addr x (ky * (2 * p))) (g.addr x (ky * (2 * p) + p))
    else pure ()
  if g.ny &&& p ≠ 0 then
    let y := g.ny / (2 * p) * (2 * p)
    forUpTo (g.nx / (2 * p)) fun kx => pairStep f (g.addr (kx * (2 * p)) y) (g.addr (kx * (2 * p) + p) y)
  else pure ()

/-- `EncLevel(p)` (43_wavelet.md R359). -/
def encLevel (f : Sample → Sample → Sample × Sample) (g : Grid) (p : Nat) : Run Unit :=
  levelPass f (encBox f g p) g p

/-- `DecLevel(p)` (43_wavelet.md R361). -/
def decLevel (f : Sample → Sample → Sample × Sample) (g : Grid) (p : Nat) : Run Unit :=
  levelPass f (decBox f g p) g p

/-- `WavEncode2D()` (43_wavelet.md R363), in the mode `maxValue` selects (R358). -/
def wavEncode2D (maxValue : Nat) (g : Grid) : Run Unit :=
  forEach (levels g.nx g.ny) (encLevel (encButterfly maxValue) g)

/-- `WavDecode2D()` (43_wavelet.md R363), in the mode `maxValue` selects (R358). -/
def wavDecode2D (maxValue : Nat) (g : Grid) : Run Unit :=
  forEach (levels g.nx g.ny).reverse (decLevel (decButterfly maxValue) g)

/-- The grid of a wavelet command (43_wavelet.md R356). -/
def gridOfParams (l : Params) : Grid :=
  { base := l.srcAddr.toNat, nx := l.nx.toNat, ny := l.ny.toNat, ox := l.ox.toNat, oy := l.oy.toNat }

/-! ### The commands -/

/-- The data phase of WAV_ENCODE (43_wavelet.md R366). -/
def dataWavEncode : Run Results := do
  let l := (← get).latched
  wavEncode2D l.maxval.toNat (gridOfParams l)
  pure {}

/-- The data phase of WAV_DECODE (43_wavelet.md R368). -/
def dataWavDecode : Run Results := do
  let l := (← get).latched
  wavDecode2D l.maxval.toNat (gridOfParams l)
  pure {}

/-- WAV_ENCODE (43_wavelet.md R366). -/
def execWavEncode (s : State) : Host.Outcome State Fault Refusal :=
  runCommand .wavEncode dataWavEncode s

/-- WAV_DECODE (43_wavelet.md R368). -/
def execWavDecode (s : State) : Host.Outcome State Fault Refusal :=
  runCommand .wavDecode dataWavDecode s

end Sys2Proof.Machine
end

