-- ==== Sys2Proof/Machine/Piz.lean ====
section
/-! DEFINITION. The PIZ sequencer (44_piz.md): descriptors, planes, the two composite commands. -/

namespace Sys2Proof.Machine

/-! ### Descriptors and planes -/

/-- A channel descriptor (44_piz.md R391). -/
structure Desc where
  nx : Nat
  ny : Nat
  size : Nat
  deriving DecidableEq, Repr

/-- The 32-bit little-endian words of a byte sequence (20_memory.md R92). -/
def wordsOfBytes : List Byte → List Nat
  | b0 :: b1 :: b2 :: b3 :: rest => leNat [b0, b1, b2, b3] :: wordsOfBytes rest
  | _ => []

/-- The descriptors of a word sequence, three words each (44_piz.md R391). -/
def descsOfWords : List Nat → List Desc
  | nx :: ny :: size :: rest => ⟨nx, ny, size⟩ :: descsOfWords rest
  | _ => []

/-- The samples of a channel (44_piz.md R392). -/
def Desc.samples (c : Desc) : Nat := c.nx * c.ny * c.size

/-- The descriptor table is valid for N samples (44_piz.md R391). -/
def descsValid (ds : List Desc) (n : Nat) : Bool :=
  ds.all (fun c => c.size == 1 || c.size == 2) && (ds.map Desc.samples).sum == n

/-- `ReadDescriptors(N)` (44_piz.md R391): the table is read in order, then checked (log 15). Its BAD_PARAM leaves all
memory unchanged (60_exceptions.md R520). -/
def readDescriptors (a count n : Nat) : Run (List Desc) := do
  let bs ← dmaRead a (Config.pizDescSize * count)
  let ds := descsOfWords (wordsOfBytes bs)
  if descsValid ds n then pure ds else raiseClean .badParam

/-- The planes of a channel that starts at sample `start` of the buffer, `j` ascending (44_piz.md R392). -/
def channelPlanes (buffer start : Nat) (c : Desc) : List Grid :=
  (List.range c.size).map fun j =>
    { base := buffer + 2 * (start + j), nx := c.nx, ny := c.ny, ox := c.size, oy := c.nx * c.size }

/-- The planes of the channels from sample `start` on, in the order `c` ascending, then `j` ascending (44_piz.md R392). -/
def planesFrom (buffer : Nat) : Nat → List Desc → List Grid
  | _, [] => []
  | start, c :: rest => channelPlanes buffer start c ++ planesFrom buffer (start + c.samples) rest

/-- The planes of a sample buffer (44_piz.md R392). -/
def planes (buffer : Nat) (ds : List Desc) : List Grid := planesFrom buffer 0 ds

/-- `s32(v)` of a 32-bit value (44_piz.md R396). -/
def s32 (v : Nat) : Int := (BitVec.ofNat 32 v).toInt

/-! ### Compress and uncompress -/

/-- What a PIZ command reports (44_piz.md R395, R397). -/
structure PizInfo where
  count : Nat
  mn : Nat
  mx : Nat
  maxValue : Nat
  huf : HufInfo
  deriving DecidableEq, Repr

/-- The results of a PIZ command (30_encoding.md R138). -/
def PizInfo.results (p : PizInfo) : Results :=
  { p.huf.results p.count with
    minnz := BitVec.ofNat 16 p.mn, maxnz := BitVec.ofNat 16 p.mx, maxval := BitVec.ofNat 16 p.maxValue }

/-- `PizCompress(A, N, D, cap)` with the descriptor table at `aux` (44_piz.md R394, 90_conflicts.md C4). -/
def pizCompress (a n d cap aux count : Nat) : Run PizInfo := do
  let ds ← readDescriptors aux count n
  let b ← bitmapFromSamples a n
  let m := b.minMaxNonZero
  modify (·.withBitmap b)
  modify (·.withLut .forward b.forwardLut)
  applyLut b.forwardLut a n
  forEach (planes a ds) (wavEncode2D b.maxValue)
  let size := sliceSize m.1 m.2
  require (8 + size ≤ cap) .dstOverflow
  dmaWrite d (b.block m.1 m.2)
  let h ← hufCompress a n (d + 8 + size) (cap - 8 - size)
  require (h.count ≤ 2147483647) .dstOverflow
  dmaWrite (d + 4 + size) (leBytes 4 h.count)
  pure { count := 8 + size + h.count, mn := m.1, mx := m.2, maxValue := b.maxValue, huf := h }

/-- `PizUncompress(A, n, D, N)` with the descriptor table at `aux` (44_piz.md R396, 90_conflicts.md C4, C5). -/
def pizUncompress (a len d n aux count : Nat) : Run PizInfo := do
  let ds ← readDescriptors aux count n
  let (b, p, mn, mx) ← bitmapLoad a len
  modify (·.withBitmap b)
  modify (·.withLut .reverse b.reverseLut)
  require (p + 4 ≤ len) .notEnoughData
  let w ← rdLe (a + p) 4
  require (0 ≤ s32 w && s32 w ≤ ((len - (p + 4) : Nat) : Int)) .pizLength
  let h ← hufUncompress (a + p + 4) (s32 w).toNat d n
  forEach (planes d ds) (wavDecode2D b.maxValue)
  applyLut b.reverseLut d n
  pure { count := p + 4 + (s32 w).toNat, mn := mn, mx := mx, maxValue := b.maxValue, huf := h }

/-! ### The commands -/

/-- The data phase of PIZ_COMPRESS (44_piz.md R395). -/
def dataPizCompress : Run Results := do
  let l := (← get).latched
  let p ← pizCompress l.srcAddr.toNat l.srcLen.toNat l.dstAddr.toNat l.dstLen.toNat l.auxAddr.toNat l.auxLen.toNat
  pure p.results

/-- The data phase of PIZ_UNCOMPRESS (44_piz.md R397). -/
def dataPizUncompress : Run Results := do
  let l := (← get).latched
  let p ← pizUncompress l.srcAddr.toNat l.srcLen.toNat l.dstAddr.toNat l.dstLen.toNat l.auxAddr.toNat l.auxLen.toNat
  pure p.results

/-- PIZ_COMPRESS (44_piz.md R395). -/
def execPizCompress (s : State) : Host.Outcome State Fault Refusal :=
  runCommand .pizCompress dataPizCompress s

/-- PIZ_UNCOMPRESS (44_piz.md R397). -/
def execPizUncompress (s : State) : Host.Outcome State Fault Refusal :=
  runCommand .pizUncompress dataPizUncompress s

end Sys2Proof.Machine
end

