-- ==== Sys2Proof/Machine/Dispatch.lean ====
section
/-! DEFINITION. exec: one arm per command. -/

namespace Sys2Proof.Machine

def exec (i : Instr) (s : State) : Host.Outcome State Fault Refusal :=
  match i with
  | .nop => Sys2Proof.Machine.execNop s
  | .lutBitmapFromData => Sys2Proof.Machine.execLutBitmapFromData s
  | .lutBitmapLoad => Sys2Proof.Machine.execLutBitmapLoad s
  | .lutBitmapStore => Sys2Proof.Machine.execLutBitmapStore s
  | .lutBuildForward => Sys2Proof.Machine.execLutBuildForward s
  | .lutBuildReverse => Sys2Proof.Machine.execLutBuildReverse s
  | .lutApply => Sys2Proof.Machine.execLutApply s
  | .lutDump => Sys2Proof.Machine.execLutDump s
  | .wavEncode => Sys2Proof.Machine.execWavEncode s
  | .wavDecode => Sys2Proof.Machine.execWavDecode s
  | .hufCompress => Sys2Proof.Machine.execHufCompress s
  | .hufUncompress => Sys2Proof.Machine.execHufUncompress s
  | .hufDumpCodes => Sys2Proof.Machine.execHufDumpCodes s
  | .pizCompress => Sys2Proof.Machine.execPizCompress s
  | .pizUncompress => Sys2Proof.Machine.execPizUncompress s

end Sys2Proof.Machine
end

