-- ==== Sys2Proof/Machine/Race.lean ====
section
/-! DEFINITION. A command whose regions a host accessed while it was BUSY (70_reset_and_hazards.md R620; log 10): its region
bytes, its result registers and the tables it writes are free, and its completion code is free among those R620 allows. -/

namespace Sys2Proof.Machine

/-- How a raced command ends: its code, and how far it came. `reached` is `none` when a parameter check ended it, which changes
no valid bit; else it lists the tables whose `VALID` point it passed, every other table it writes being left not valid
(10_state.md R64). -/
structure RaceEnd where
  code : ErrCode
  reached : Option (List Table)
  deriving DecidableEq, Repr

/-- The codes the parameter-check phase can raise for a command (30_encoding.md R143, R137): NO_TABLE where a table is
required, BAD_PARAM where there is a region, MISALIGNED where a region is more than bytes, OVERLAP where there are two
regions, DST_OVERFLOW where the output has a fixed size. -/
def checkCodes : Instr → List ErrCode
  | .nop => []
  | .lutBitmapFromData => [.badParam, .misaligned]
  | .lutBitmapLoad => [.badParam]
  | .lutBitmapStore => [.noTable, .badParam]
  | .lutBuildForward => [.noTable]
  | .lutBuildReverse => [.noTable]
  | .lutApply => [.noTable, .badParam, .misaligned]
  | .lutDump => [.noTable, .badParam, .misaligned, .dstOverflow]
  | .wavEncode => [.badParam, .misaligned]
  | .wavDecode => [.badParam, .misaligned]
  | .hufCompress => [.badParam, .misaligned, .overlap]
  | .hufUncompress => [.badParam, .misaligned, .overlap]
  | .hufDumpCodes => [.noTable, .badParam, .misaligned, .dstOverflow]
  | .pizCompress => [.badParam, .misaligned, .overlap]
  | .pizUncompress => [.badParam, .misaligned, .overlap]

/-- The errors the data phase of HUF_UNCOMPRESS and the Huffman stage of PIZ_UNCOMPRESS can raise, with the tables valid at
the raise, given those valid before the stage (42_huffman_decode.md R301 to R317, R320). -/
def decoderErrors (before : List Table) : List (ErrCode × List Table) :=
  [(.invalidTableSize, before), (.notEnoughData, before), (.tableEnd, before), (.tableTooLong, before),
    (.busError, before), (.invalidNbits, .codes :: before), (.invalidTableEntry, .codes :: before),
    (.invalidCode, .codes :: before), (.tooMuchData, .codes :: before), (.notEnoughData, .codes :: before),
    (.busError, .codes :: before)]

/-- The errors a command's data phase can raise, once for each set of tables that can be valid at the raise, by the rules of
the commands (40_lut.md R210 to R222, 41_huffman_encode.md R261 to R264, 42_huffman_decode.md R320, 43_wavelet.md R366, R368,
44_piz.md R394 to R397). CODE_LENGTH_OVERFLOW is not among them: it cannot occur (41_huffman_encode.md R253). -/
def dataErrors : Instr → List (ErrCode × List Table)
  | .nop => []
  | .lutBitmapFromData => [(.busError, [])]
  | .lutBitmapLoad => [(.notEnoughData, []), (.bitmapSize, []), (.busError, [])]
  | .lutBitmapStore => [(.dstOverflow, []), (.busError, [])]
  | .lutBuildForward => []
  | .lutBuildReverse => []
  | .lutApply => [(.busError, [])]
  | .lutDump => [(.busError, [])]
  | .wavEncode => [(.busError, [])]
  | .wavDecode => [(.busError, [])]
  | .hufCompress => [(.busError, []), (.dstOverflow, [.codes]), (.busError, [.codes])]
  | .hufUncompress => decoderErrors []
  | .hufDumpCodes => [(.busError, [])]
  | .pizCompress =>
    [(.badParam, []), (.busError, []), (.busError, [.bitmap, .lut]), (.dstOverflow, [.bitmap, .lut]),
      (.dstOverflow, [.bitmap, .lut, .codes]), (.busError, [.bitmap, .lut, .codes])]
  | .pizUncompress =>
    [(.badParam, []), (.notEnoughData, []), (.bitmapSize, []), (.busError, []), (.pizLength, [.bitmap, .lut])]
      ++ decoderErrors [.bitmap, .lut]

/-- The error codes a command's rule can raise. -/
def raisableCodes (i : Instr) : List ErrCode := checkCodes i ++ (dataErrors i).map Prod.fst

/-- The tables that can be valid after a command with the operands `l` ends with OK: all it writes, but for the code table
where the Huffman stage has nothing to do (41_huffman_encode.md R261, 42_huffman_decode.md R301). Whether PIZ_UNCOMPRESS of
no samples meets a Huffman block shorter than its header depends on memory, which the race leaves open. -/
def okTables (i : Instr) (l : Params) : List (List Table) :=
  match i with
  | .hufCompress => if l.srcLen = 0 then [[]] else [[.codes]]
  | .hufUncompress => if l.srcLen.toNat < Config.hufHdr then [[]] else [[.codes]]
  | .pizCompress => if l.srcLen = 0 then [[.bitmap, .lut]] else [[.bitmap, .lut, .codes]]
  | .pizUncompress =>
    if l.dstLen = 0 then [[.bitmap, .lut, .codes], [.bitmap, .lut]] else [[.bitmap, .lut, .codes]]
  | .nop | .lutBitmapFromData | .lutBitmapLoad | .lutBitmapStore | .lutBuildForward | .lutBuildReverse | .lutApply
  | .lutDump | .wavEncode | .wavDecode | .hufDumpCodes => [tablesWritten i]

/-- Every way a raced command can end: OK, or any code its rule can raise (70_reset_and_hazards.md R620), with the valid
bits that 10_state.md R64 gives for it. -/
def raceEnds (i : Instr) (l : Params) : List RaceEnd :=
  (okTables i l).map (fun ts => ⟨.ok, some ts⟩) ++ (checkCodes i).map (fun e => ⟨e, none⟩)
    ++ (dataErrors i).map fun p => ⟨p.1, some p.2⟩

/-- The end of a raced command: one of those it can have, by the free value `raceChoice`. -/
def racedEnd (i : Instr) (l : Params) (tick : Nat) : RaceEnd :=
  (raceEnds i l).getD (Config.raceChoice tick % (raceEnds i l).length) ⟨.ok, some (tablesWritten i)⟩

/-- The result registers after a race (70_reset_and_hazards.md R620); those of 16 bits stay 16 bits wide. -/
def racedResults (tick : Nat) : Results :=
  { len := Config.raceResult tick 0, minnz := (Config.raceResult tick 1).setWidth 16,
    maxnz := (Config.raceResult tick 2).setWidth 16, maxval := (Config.raceResult tick 3).setWidth 16,
    nbits := Config.raceResult tick 4, im := Config.raceResult tick 5, imax := Config.raceResult tick 6,
    tablen := Config.raceResult tick 7 }

/-- A LUT of free entries (70_reset_and_hazards.md R620). -/
def racedLut (tick : Nat) : Lut :=
  (List.range Config.ushortRange).filterMap fun i =>
    if Config.raceLut tick i = 0 then none else some (i, Config.raceLut tick i)

/-- A code table of free lengths and codes (70_reset_and_hazards.md R620): every length from 0 to 58 with every code below
`2^58`, a length of 0 too (10_state.md R62). -/
def racedCodes (tick : Nat) : CodeTable :=
  (List.range Config.hufEncSize).filterMap fun s =>
    if Config.raceLen tick s = 0 ∧ Config.raceCode tick s = 0 then none
    else some ⟨s, BitVec.ofNat 6 (Config.raceLen tick s).val, Config.raceCode tick s⟩

/-- The LUT_KIND a command writes with LUT_VALID (10_state.md R36, 44_piz.md R395, R397). -/
def lutKindWritten : Instr → LutKind → LutKind
  | .pizUncompress, _ => .reverse
  | .lutBuildReverse, _ => .reverse
  | .pizCompress, _ => .forward
  | .lutBuildForward, _ => .forward
  | _, k => k

/-- A table is valid after a raced command that came as far as `reached`; `was` is its valid bit before (10_state.md R64). -/
def validAfterRace (i : Instr) (reached : Option (List Table)) (was : Bool) (t : Table) : Bool :=
  match reached with
  | none => was
  | some ts => if (tablesWritten i).contains t then ts.contains t else was

/-- The tables after a raced command that came as far as `reached`: the valid bits are those of 10_state.md R64, and each
valid table that the command writes has any contents (70_reset_and_hazards.md R620). LUT_KIND is written with LUT_VALID
(10_state.md R36). -/
def State.racedTables (s : State) (i : Instr) (reached : Option (List Table)) : State :=
  { s with
    bitmap :=
      if (tablesWritten i).contains .bitmap then
        if validAfterRace i reached s.bitmap.isSome .bitmap then some (Config.raceBitmap s.fresh) else none
      else s.bitmap
    lut :=
      if (tablesWritten i).contains .lut then
        if validAfterRace i reached s.lut.isSome .lut then some (racedLut s.fresh) else none
      else s.lut
    lutKind := if (reached.getD []).contains .lut then lutKindWritten i s.lutKind else s.lutKind
    codes :=
      if (tablesWritten i).contains .codes then
        if validAfterRace i reached s.codes.isSome .codes then some (racedCodes s.fresh) else none
      else s.codes }

/-- Completion of a raced command (70_reset_and_hazards.md R620): it ends in any of its ways, also where its parameter checks
would have ended it, since the rule makes no exception for them; its W and RW region bytes, its result registers and the
contents of the tables it writes are free. A byte that lies in an R region as well as in a W or RW region, which OVERLAP would
reject, is free too: item 2 of the rule before item 5 (DESIGN CHOICE, log 10). -/
def runRaced (i : Instr) (s : State) : Host.Outcome State Fault Refusal :=
  if touchesDevice i s then .refused .nonIdempotentRegion
  else
    let e := racedEnd i s.latched s.fresh
    let s' := (s.racedTables i e.reached).withMem (forgetRegions s.mem s.fresh (regions i s.latched))
    if e.code = .ok then .next (s'.completeOk (racedResults s.fresh))
    else .next { s'.completeErr e.code with results := racedResults s.fresh }

end Sys2Proof.Machine
end

