-- ==== Sys2Proof/Machine/HostPort.lean ====
section
/-! DEFINITION. The host side: the register window (10_state.md R32 to R56), host accesses to memory, and the interrupt and
reset inputs. -/

namespace Sys2Proof.Machine

/-! ### The register window -/

/-- The offset of a register (10_state.md R32). -/
def regOffset : Reg → BitVec 12
  | .id => 0x000
  | .caps => 0x004
  | .ctrl => 0x008
  | .status => 0x00C
  | .cmd => 0x010
  | .irqStatus => 0x014
  | .irqEnable => 0x018
  | .srcAddr => 0x020
  | .srcLen => 0x024
  | .dstAddr => 0x028
  | .dstLen => 0x02C
  | .auxAddr => 0x030
  | .auxLen => 0x034
  | .nx => 0x038
  | .ny => 0x03C
  | .ox => 0x040
  | .oy => 0x044
  | .maxval => 0x048
  | .resLen => 0x050
  | .resMinnz => 0x054
  | .resMaxnz => 0x058
  | .resMaxval => 0x05C
  | .resNbits => 0x060
  | .resIm => 0x064
  | .resImax => 0x068
  | .resTablen => 0x06C

/-- The registers in the order of the map (10_state.md R32). -/
def allRegs : List Reg :=
  [.id, .caps, .ctrl, .status, .cmd, .irqStatus, .irqEnable, .srcAddr, .srcLen, .dstAddr, .dstLen, .auxAddr, .auxLen,
    .nx, .ny, .ox, .oy, .maxval, .resLen, .resMinnz, .resMaxnz, .resMaxval, .resNbits, .resIm, .resImax, .resTablen]

/-- The register at an offset; none at a reserved one (10_state.md R32, R55). -/
def regAt (off : BitVec 12) : Option Reg := allRegs.find? fun r => regOffset r == off

/-- What a read of a register returns (10_state.md R32 to R53). -/
def State.readReg (s : State) : Reg → Word32
  | .id => Config.idValue
  | .caps => Config.capsValue
  | .ctrl => 0
  | .status => s.statusWord
  | .cmd => 0
  | .irqStatus => s.irqStatus.setWidth 32
  | .irqEnable => s.irqEnable.setWidth 32
  | .srcAddr => s.params.srcAddr
  | .srcLen => s.params.srcLen
  | .dstAddr => s.params.dstAddr
  | .dstLen => s.params.dstLen
  | .auxAddr => s.params.auxAddr
  | .auxLen => s.params.auxLen
  | .nx => s.params.nx
  | .ny => s.params.ny
  | .ox => s.params.ox
  | .oy => s.params.oy
  | .maxval => s.params.maxval.setWidth 32
  | .resLen => s.results.len
  | .resMinnz => s.results.minnz.setWidth 32
  | .resMaxnz => s.results.maxnz.setWidth 32
  | .resMaxval => s.results.maxval.setWidth 32
  | .resNbits => s.results.nbits
  | .resIm => s.results.im
  | .resImax => s.results.imax
  | .resTablen => s.results.tablen

/-- The state with other parameter registers. -/
def State.withParams (s : State) (p : Params) : State := { s with params := p }

/-- A write of CMD (10_state.md R37): it issues the word when the phase is IDLE, and is dropped with OVERRUN set when it is
BUSY. -/
def State.writeCmd (s : State) (w : Word32) : State :=
  match s.phase with
  | .idle => s.issue w
  | .busy _ => { s with irqStatus := irqNext s.irqStatus 0 irqOverrun }

/-- A write of a register (10_state.md R32 to R56): read-only registers ignore it, reserved bits too. -/
def State.writeReg (s : State) (r : Reg) (v : Word32) : State :=
  match r with
  | .ctrl => if v.getLsbD 0 then s.blockReset else s
  | .cmd => s.writeCmd v
  | .irqStatus => { s with irqStatus := irqNext s.irqStatus (v.setWidth 3) 0 }
  | .irqEnable => { s with irqEnable := v.setWidth 3 }
  | .srcAddr => s.withParams { s.params with srcAddr := v }
  | .srcLen => s.withParams { s.params with srcLen := v }
  | .dstAddr => s.withParams { s.params with dstAddr := v }
  | .dstLen => s.withParams { s.params with dstLen := v }
  | .auxAddr => s.withParams { s.params with auxAddr := v }
  | .auxLen => s.withParams { s.params with auxLen := v }
  | .nx => s.withParams { s.params with nx := v }
  | .ny => s.withParams { s.params with ny := v }
  | .ox => s.withParams { s.params with ox := v }
  | .oy => s.withParams { s.params with oy := v }
  | .maxval => s.withParams { s.params with maxval := v.setWidth 16 }
  | .id | .caps | .status | .resLen | .resMinnz | .resMaxnz | .resMaxval | .resNbits | .resIm | .resImax
  | .resTablen => s

/-- The state with one response more. -/
def State.respond (s : State) (r : Response) : State := { s with responses := r :: s.responses }

/-- A host write to the window: a bus error response and no state change unless it is an aligned 32-bit access; ignored
at a reserved offset (10_state.md R55). -/
def hostRegWrite (width : Width) (off : BitVec 12) (v : Word32) (s : State) : State :=
  if registerAccessOk width off then
    match regAt off with
    | some r => (s.writeReg r v).respond .written
    | none => s.respond .written
  else s.respond .busError

/-- A host read of the window: a bus error response unless it is an aligned 32-bit access; zero at a reserved offset
(10_state.md R55). -/
def hostRegRead (width : Width) (off : BitVec 12) (s : State) : State :=
  if registerAccessOk width off then
    match regAt off with
    | some r => s.respond (.data (s.readReg r))
    | none => s.respond (.data 0)
  else s.respond .busError

/-! ### Host accesses to memory -/

/-- The regions of the running command; none when the phase is IDLE or the word encodes no command. -/
def State.busyRegions (s : State) : List Region :=
  match s.phase with
  | .idle => []
  | .busy w =>
    match decode w with
    | .ok i => regions i s.latched
    | .error _ => []

/-- The address is a byte of a W or RW region of the running command. -/
def State.inBusyWritten (s : State) (a : Nat) : Bool :=
  s.busyRegions.any fun r => r.access.writes && rangesMeet r.base r.size a 1

/-- A host write of `n` bytes at `a` races the running command: it meets one of its regions (70_reset_and_hazards.md
R620). -/
def State.writeRaces (s : State) (a n : Nat) : Bool := s.busyRegions.any fun r => rangesMeet r.base r.size a n

/-- A host read of `n` bytes at `a` races the running command: it meets one of its W or RW regions
(70_reset_and_hazards.md R620). -/
def State.readRaces (s : State) (a n : Nat) : Bool :=
  s.busyRegions.any fun r => r.access.writes && rangesMeet r.base r.size a n

/-- What stops a host access to memory: bytes that do not exist, skipped cache maintenance (logs 12 and 13). An address that
answers the engine's DMA with a bus error does not stop a host's own access (20_memory.md R99 speaks of DMA accesses only;
DESIGN CHOICE, log 4). -/
def hostMemStop (a n : Nat) (maintained : Bool) (s : State) : Option (Host.Outcome State Fault Refusal) :=
  if ¬ bytesInSpace a n then some (.fault .hostAddressOutsideSpace)
  else if ¬ s.platform.dmaCoherent ∧ ¬ maintained then some (.refused .cacheMaintenanceSkipped)
  else none

/-- The `n` bytes at `a` share a byte with the register window (10_state.md R32). -/
def State.meetsWindow (s : State) (a n : Nat) : Bool := rangesMeet s.platform.regBase Config.windowSize a n

/-- The address belongs to a device (20_memory.md R100). -/
def State.inDevice (s : State) (a : Nat) : Bool := spansMeet s.platform.devices a 1

/-- The offset of an access of `n` bytes at `a`, if it is a 32-bit access inside the register window (10_state.md R32, R55). -/
def State.windowOffset (s : State) (a n : Nat) : Option (BitVec 12) :=
  if n = 4 ∧ s.platform.regBase ≤ a ∧ a + n ≤ s.platform.regBase + Config.windowSize then
    some (BitVec.ofNat 12 (a - s.platform.regBase))
  else none

/-- The bytes a host store leaves in memory: at the bytes of a device memory stays as it is (log 13). -/
def State.storedBytes (s : State) (a : Nat) (bs : List Byte) : List Byte :=
  if spansMeet s.platform.devices a bs.length then
    (List.range' a bs.length).zipWith (fun k b => if s.inDevice k then s.mem.read k else b) bs
  else bs

/-- A host stores bytes, in one access or outside the register window. In the window it is a write of a register or a bus
error (10_state.md R55); outside, it puts its bytes in memory (30_encoding.md R148), and one that races the running command
makes its outcome free (R620). -/
def hostStore (a : Nat) (bs : List Byte) (maintained : Bool) (s : State) : Host.Outcome State Fault Refusal :=
  if s.meetsWindow a bs.length then
    match s.windowOffset a bs.length with
    | some off => .next (hostRegWrite .w32 off (BitVec.ofNat 32 (leNat bs)) s)
    | none => .next (s.respond .busError)
  else
    match hostMemStop a bs.length maintained s with
    | some o => o
    | none =>
      .next ({ s with mem := s.mem.write a (s.storedBytes a bs),
                      raced := s.raced || s.writeRaces a bs.length }.respond .written)

/-- A host stores bytes in elements of a width (30_encoding.md R148). A store that meets the register window arrives element by
element: its first one now, the others stay next in the list (log 13). -/
def hostMemWrite (width : Width) (a : Nat) (bs : List Byte) (maintained : Bool) (s : State) :
    Host.Outcome State Fault Refusal :=
  if s.meetsWindow a bs.length && width.bytes < bs.length then
    hostStore a (bs.take width.bytes) maintained
      { s with hostq := .memWrite width (a + width.bytes) (bs.drop width.bytes) maintained :: s.hostq }
  else hostStore a bs maintained s

/-- A host read of `n` bytes at `a` meets bytes whose value is free: those of a busy command's W and RW regions, or of a device
(70_reset_and_hazards.md R620, 20_memory.md R100; logs 13 and 28). -/
def State.readsFree (s : State) (a n : Nat) : Bool := s.readRaces a n || spansMeet s.platform.devices a n

/-- The bytes a host read returns: memory, but free at the bytes of a busy command's W and RW regions (20_memory.md R98,
70_reset_and_hazards.md R620; log 28) and of devices (log 13). -/
def State.hostBytes (s : State) (a n : Nat) : List Byte :=
  if s.readsFree a n then
    (List.range' a n).map fun k => if s.inBusyWritten k || s.inDevice k then Config.freeByte s.fresh k else s.mem.read k
  else s.mem.bytes a n

/-- A host reads bytes, in one access or outside the register window. In the window it is a read of a register or a bus error
(10_state.md R55); outside, a read that races the running command makes its outcome free (R620). -/
def hostLoad (a n : Nat) (maintained : Bool) (s : State) : Host.Outcome State Fault Refusal :=
  if s.meetsWindow a n then
    match s.windowOffset a n with
    | some off => .next (hostRegRead .w32 off s)
    | none => .next (s.respond .busError)
  else
    match hostMemStop a n maintained s with
    | some o => o
    | none =>
      .next ({ s with raced := s.raced || s.readRaces a n,
                      fresh := if s.readsFree a n then s.fresh + 1 else s.fresh }.respond (.bytes (s.hostBytes a n)))

/-- A host reads bytes in elements of a width. A read that meets the register window arrives element by element (log 13). -/
def hostMemRead (width : Width) (a n : Nat) (maintained : Bool) (s : State) : Host.Outcome State Fault Refusal :=
  if s.meetsWindow a n && width.bytes < n then
    hostLoad a width.bytes maintained
      { s with hostq := .memRead width (a + width.bytes) (n - width.bytes) maintained :: s.hostq }
  else hostLoad a n maintained s

/-- `wait` (30_encoding.md R149): one read of STATUS; it ends with DONE = 1 and stays to be repeated otherwise. Before any
command has issued it never ends (log 22). -/
def hostWait (s : State) : State :=
  if s.done then s.respond (.data s.statusWord) else { s with hostq := .wait :: s.hostq }

/-- The effect of the host access that arrives, already taken off the queue (70_reset_and_hazards.md R611). -/
def hostAccess (op : HostOp) (s : State) : Host.Outcome State Fault Refusal :=
  match op with
  | .regWrite width off v => .next (hostRegWrite width off v s)
  | .regRead width off => .next (hostRegRead width off s)
  | .memWrite width a bs maintained => hostMemWrite width a bs maintained s
  | .memRead width a n maintained => hostMemRead width a n maintained s
  | .wait => .next (hostWait s)
  | .hardReset => .next s.blockReset

end Sys2Proof.Machine
end

