-- ==== Sys2Proof/Machine/Script.lean ====
section
/-! DEFINITION. Host scripts (30_encoding.md R148 to R150): the bus transactions each statement and pseudo-instruction stands
for, and how a script comes to run. -/

namespace Sys2Proof.Machine

/-- A 32-bit host write of a register, `W32 offset value` (30_encoding.md R150). -/
def w32 (r : Reg) (v : Word32) : HostOp := .regWrite .w32 (regOffset r) v

/-- A 32-bit host read of a register, `R32 offset` (30_encoding.md R150). -/
def r32 (r : Reg) : HostOp := .regRead .w32 (regOffset r)

/-- The transactions of a statement (30_encoding.md R148, R149). `expect` is its read: the comparison has no hardware
effect. DESIGN CHOICE: a script's stores count as stores with their cache write-back done, which R148 does not say of a
platform without coherence (20_memory.md R117; log 12). -/
def expandStmt : Stmt → List HostOp
  | .wr r v => [w32 r v]
  | .rd r => [r32 r]
  | .cmd i => [w32 .cmd (encode i)]
  | .cmdw w => [w32 .cmd w]
  | .mem8 a vs => [.memWrite .w8 a vs true]
  | .mem16 a vs => [.memWrite .w16 a (bytesOfSamples vs) true]
  | .mem32 a vs => [.memWrite .w32 a (vs.flatMap fun v => leBytes 4 v.toNat) true]
  | .wait => [.wait]
  | .run i => [w32 .cmd (encode i), .wait]
  | .ack => [w32 .irqStatus 0x7]
  | .srst => [w32 .ctrl 0x1]
  | .setbuf src srcLen dst dstLen => [w32 .srcAddr src, w32 .srcLen srcLen, w32 .dstAddr dst, w32 .dstLen dstLen]
  | .grid nx ny ox oy mx => [w32 .nx nx, w32 .ny ny, w32 .ox ox, w32 .oy oy, w32 .maxval mx]
  | .expect r _ => [r32 r]

/-- The encoding of a host program: its transactions in order (30_encoding.md R150). -/
def expandScript (p : List Stmt) : List HostOp := p.flatMap expandStmt

/-- The machine with a host program still to arrive (log 1). -/
def State.withScript (s : State) (p : List Stmt) : State := { s with hostq := s.hostq ++ expandScript p }

end Sys2Proof.Machine
end

