-- ==== Sys2Proof/Machine/Step.lean ====
section
/-! DEFINITION. One step of the machine: the next host access arrives, or the engine runs the command it was issued. The block
has no program counter (10_state.md R31): a program is the hosts' accesses in the order they arrive (30_encoding.md R150). -/

namespace Sys2Proof.Machine

/-- The engine runs the command it was issued, from decode (30_encoding.md R142) to completion (R146). A word that encodes
no command completes with ILLEGAL_CMD (R134). -/
def runEngine (s : State) : Host.Outcome State Fault Refusal :=
  match s.phase with
  | .idle => .next s
  | .busy w =>
    match decode w with
    | .error _ => .next (s.completeErr .illegalCmd)
    | .ok i => if s.raced then runRaced i s else exec i s

/-- The engine's turn has come: a command is running, and no host access is to arrive before it completes
(70_reset_and_hazards.md R631; log 2). -/
def State.engineDue (s : State) : Bool := s.busy && (s.delay == 0 || s.hostq.isEmpty)

/-- The state once the next host access has left the queue. -/
def State.arrive (s : State) (rest : List HostOp) : State := { s with hostq := rest, delay := s.delay - 1 }

/-- One step. When a host access issues a command that no host access is to precede, the command runs in the same step
(70_reset_and_hazards.md R631, "as a single transition at issue"). With nothing to do the block stays as it is: it never
starts work by itself (00_scope.md R18). DESIGN CHOICE: the valid bits stay as they were until the engine's turn, so that a
busy command that rewrites a table is never seen with the bit cleared (10_state.md R64; log 29). -/
def step (s : State) : Host.Outcome State Fault Refusal :=
  if s.engineDue then runEngine s
  else
    match s.hostq with
    | [] => .next s
    | op :: rest =>
      match hostAccess op (s.arrive rest) with
      | .next s' => if !s.busy && s'.busy && s'.delay == 0 then runEngine s' else .next s'
      | .fault f => .fault f
      | .refused r => .refused r

/-- The state in which the next step issues and runs the command word whose bits the table numbers in `w`: the engine is
idle, the next host access is the write of that word to CMD, and no other access precedes its completion. -/
def State.withFetchWord (s : State) (nbits w : Nat) : State :=
  { s with
    phase := .idle, delays := [],
    hostq := .regWrite .w32 (regOffset .cmd) (BitVec.ofNat 32 (w % 2 ^ nbits)) :: s.hostq }

end Sys2Proof.Machine
end

