-- ==== Sys2Proof/Safety.lean ====
section
/-! DEFINITION. What counts as a sound state and as a safe run, and the terms the claims use: memory seen sample by sample and
word by word, what a command leaves alone, and the wavelet levels as functions of the grid's values. -/

namespace Sys2Proof.Machine

/-! ### Sound states -/

/-- A running command shows nothing of its outcome: DONE 0, ERRCODE 0, every result register 0 (10_state.md R36, R54). -/
abbrev State.busyQuiet (s : State) : Prop := s.busy = true → s.done = false ∧ s.errcode = .ok ∧ s.results = {}

/-- The LUT, if valid, is in its strict form. -/
abbrev State.lutWf (s : State) : Prop := ∀ t, s.lut = some t → Lut.wf t = true

/-- The code table, if valid, is in the form that State holds. -/
abbrev State.codesWf (s : State) : Prop := ∀ t, s.codes = some t → CodeTable.held t = true

/-- The invariant of the machine: memory and the tables in their canonical forms, a running command quiet. -/
structure State.Inv (s : State) : Prop where
  mem : s.mem.wf = true
  lut : s.lutWf
  codes : s.codesWf
  quiet : s.busyQuiet

/-- Nothing is stored outside the address space (20_memory.md R90). -/
def Memory.inSpace (m : Memory) : Prop := ∀ a, Config.addrSpace ≤ a → m.read a = Memory.unwritten

/-! ### Runs -/

/-- The machine answers a next state for each of the next `k` steps. -/
def runsFor : Nat → State → Prop
  | 0, _ => True
  | k + 1, s => ∃ s', step s = .next s' ∧ runsFor k s'

/-- The state after `k` steps; none where one of them stops. -/
def runSteps : Nat → State → Option State
  | 0, s => some s
  | k + 1, s =>
    match step s with
    | .next s' => runSteps k s'
    | .fault _ => none
    | .refused _ => none

/-! ### Memory as the spec's formats see it -/

/-- `Rd16(a)`: the sample at a DMA address (00_scope.md R13, 20_memory.md R92). -/
def Memory.sample (m : Memory) (a : Nat) : Sample := m.read (a + 1) ++ m.read a

/-- `Rd32(a)`: the 32-bit word at a DMA address (00_scope.md R13, 20_memory.md R92). -/
def Memory.word (m : Memory) (a : Nat) : Nat :=
  (m.read a).toNat + 2 ^ 8 * (m.read (a + 1)).toNat + 2 ^ 16 * (m.read (a + 2)).toNat + 2 ^ 24 * (m.read (a + 3)).toNat

/-- The `n` samples of a buffer, in order. -/
def Memory.sampleList (m : Memory) (a n : Nat) : List Sample := (List.range n).map fun k => m.sample (a + 2 * k)

/-- Bit `p` of the bit string stored at `base`, most significant bit of each byte first (00_scope.md R15). -/
def Memory.streamBit (m : Memory) (base p : Nat) : Bool := (m.read (base + p / 8)).getLsbD (7 - p % 8)

/-- The channel descriptors of a table (44_piz.md R391). -/
def Memory.descriptors (m : Memory) (aux count : Nat) : List Desc :=
  (List.range count).map fun c => ⟨m.word (aux + 12 * c), m.word (aux + 12 * c + 4), m.word (aux + 12 * c + 8)⟩

/-- The descriptors describe `n` samples (44_piz.md R391). -/
abbrev describes (ds : List Desc) (n : Nat) : Prop :=
  (∀ c ∈ ds, c.size = 1 ∨ c.size = 2) ∧ (ds.map fun c => c.nx * c.ny * c.size).sum = n

/-- Every byte outside `size` bytes at `base` is as before. -/
abbrev Memory.keptOutside (m m' : Memory) (base size : Nat) : Prop :=
  ∀ a, a < base ∨ base + size ≤ a → m'.read a = m.read a

/-! ### What a command needs and what it leaves alone -/

/-- `size` bytes at `base` can be a region whose base alignment is `align`: they lie in the address space, aligned unless
there are none, in idempotent memory (20_memory.md R95, R96, R100, R102). -/
abbrev State.usable (s : State) (base size align : Nat) : Prop :=
  base + size ≤ Config.addrSpace ∧ (size = 0 ∨ base % align = 0)
    ∧ spansMeet s.platform.nonIdempotent base size = false

/-- What no command changes: the parameter registers, the latched copies, IRQ_ENABLE, the platform, and the hosts' side of
the model. -/
structure State.hostSideKept (s t : State) : Prop where
  params : t.params = s.params
  latched : t.latched = s.latched
  irqEnable : t.irqEnable = s.irqEnable
  platform : t.platform = s.platform
  hostq : t.hostq = s.hostq
  responses : t.responses = s.responses
  delays : t.delays = s.delays

/-- `t` is `s` after a completion with code `e` and results `r`: phase IDLE, DONE 1, ERRCODE `e`, CMD_DONE or CMD_ERR set and
no other IRQ_STATUS bit changed (30_encoding.md R146), and the rest of what no command changes. -/
structure State.completed (s t : State) (e : ErrCode) (r : Results) : Prop where
  phase : t.phase = .idle
  done : t.done = true
  errcode : t.errcode = e
  results : t.results = r
  irqStatus : t.irqStatus = s.irqStatus ||| (if e = .ok then 0b001 else 0b010)
  kept : s.hostSideKept t

/-- The tables, their valid bits and LUT_KIND are as before. -/
structure State.tablesKept (s t : State) : Prop where
  bitmap : t.bitmap = s.bitmap
  lut : t.lut = s.lut
  lutKind : t.lutKind = s.lutKind
  codes : t.codes = s.codes

/-- The first bus access of a host operation is a 32-bit write of `v` at offset `off` of the register window: a register write,
or a store whose first element lies there (10_state.md R32, R55; 30_encoding.md R148). -/
abbrev Platform.windowWrite (p : Platform) (op : HostOp) (off : BitVec 12) (v : Word32) : Prop :=
  op = .regWrite .w32 off v ∨ ∃ width bs c, op = .memWrite width (p.regBase + off.toNat) bs c
    ∧ (bs.take width.bytes).length = 4 ∧ v = bs.getD 3 0 ++ bs.getD 2 0 ++ bs.getD 1 0 ++ bs.getD 0 0

/-! ### Tables -/

/-- `mn` and `mx` are the lowest and the highest index of a non-zero BITMAP byte, 8191 and 0 if there is none (40_lut.md
R203). -/
def Bitmap.isMinMax (b : Bitmap) (mn mx : Nat) : Prop :=
  ((∀ j, b.byte j = 0) ∧ mn = 8191 ∧ mx = 0)
    ∨ (b.byte mn ≠ 0 ∧ b.byte mx ≠ 0 ∧ ∀ j, b.byte j ≠ 0 → mn ≤ j ∧ j ≤ mx)

/-- The rank of a value: how many values from 1 to it occur (40_lut.md R206). -/
def Bitmap.rank (b : Bitmap) (v : Nat) : Nat := (List.range (v + 1)).countP fun u => decide (0 < u) && b.bit u

/-- The value belongs to the set the LUTs are built on (40_lut.md R206: value 0 always does). -/
abbrev Bitmap.occurs (b : Bitmap) (v : Nat) : Prop := v = 0 ∨ b.bit v = true

/-- The `n` bytes at `a` are a Huffman block that decodes to the samples `xs`, `no` of them: the stages of
42_huffman_decode.md R300 all pass, the block's packed table takes `q` bytes and gives the code table `t`. -/
structure Memory.holdsHuffman (m : Memory) (a n no nBits q : Nat) (im iM : Nat) (t : CodeTable) (xs : List Sample) :
    Prop where
  header : 20 ≤ n
  bounds : m.word a = im ∧ m.word (a + 4) = iM ∧ im < 65537 ∧ iM < 65537
  bitCount : m.word (a + 12) = nBits ∧ nBits ≤ 2147483647 ∧ 20 + byteCount nBits ≤ n
  table : ∃ lens, unpackTable (fun _ => false) (m.bytes (a + 20) (n - 20)) im iM = .ok (lens, q) ∧ canonicalCodes lens = t
  room : nBits ≤ 8 * (n - 20 - q)
  build : (buildDecode [] t).2 = none
  stream :
    decodeStream (fun _ _ => false) (fun _ _ => false) (buildDecode [] t).1 iM no nBits
      (bitsOfBytes (m.bytes (a + 20 + q) (byteCount nBits))) = .ok xs

/-- The block of an encoding lies at `d` (41_huffman_encode.md R260): five header words, the packed table and the coded
stream, each padded with zero bits to whole bytes. -/
structure Memory.holdsEncoded (m : Memory) (d : Nat) (e : Encoded) : Prop where
  im : m.word d = e.im
  iM : m.word (d + 4) = e.iM
  tableLength : m.word (d + 8) = byteCount e.table.length
  nBits : m.word (d + 12) = e.stream.length
  reserved : m.word (d + 16) = 0
  table : ∀ p < 8 * byteCount e.table.length, m.streamBit (d + 20) p = e.table.getD p false
  stream :
    ∀ p < 8 * byteCount e.stream.length, m.streamBit (d + 20 + byteCount e.table.length) p = e.stream.getD p false

/-! ### Huffman codes and streams as the rules describe them -/

/-- No code of the table begins another one (41_huffman_encode.md R255). -/
abbrev CodeTable.prefixFree (t : CodeTable) : Prop :=
  ∀ j k, j ≠ k → t.hlen j ≠ 0 → t.hlen k ≠ 0 → ¬ t.codeBits j <+: t.codeBits k

/-- A tree of `BuildLengths` (41_huffman_encode.md R252): its frequency, the symbol that stands for it in the heap, and the
symbols on its chain. -/
structure MergeTree where
  freq : Nat
  sym : Nat
  members : List Nat
  deriving DecidableEq, Repr

/-- The tree `a` is popped before `b`: the lesser `(frequency, symbol)` (41_huffman_encode.md R252). -/
abbrev MergeTree.before (a b : MergeTree) : Prop := a.freq < b.freq ∨ (a.freq = b.freq ∧ a.sym < b.sym)

/-- The loop of `BuildLengths` (41_huffman_encode.md R252) on a heap of trees in any order ends with these lengths: the
first tree and then the second are popped, every symbol on either chain is one bit longer, and the merged tree stands under
the second one's symbol. -/
inductive Merges : List MergeTree → (Nat → Nat) → Prop
  | last (t : MergeTree) : Merges [t] fun _ => 0
  | merge {heap rest : List MergeTree} {mm m : MergeTree} {len : Nat → Nat} (pick : heap.Perm (mm :: m :: rest))
    (first : ∀ n ∈ m :: rest, mm.before n) (second : ∀ n ∈ rest, m.before n)
    (tail : Merges (⟨m.freq + mm.freq, m.sym, m.members ++ mm.members⟩ :: rest) len) :
    Merges heap fun k => len k + if k ∈ m.members ∨ k ∈ mm.members then 1 else 0

/-- The heap at the start (41_huffman_encode.md R251, R252): each value that occurs, with the number of its occurrences, and
the escape with frequency 1. -/
def mergeLeaves (xs : List Sample) (iM : Nat) : List MergeTree :=
  ((List.range iM).filter fun k => xs.any fun v => v.toNat == k).map
      (fun k => ⟨xs.countP fun v => v.toNat == k, k, [k]⟩)
    ++ [⟨1, iM, [iM]⟩]

/-- A part of a coded stream: each group is the code of a sample, then, where it carries a count, the code of the escape
`iM` and the count (41_huffman_encode.md R259, 42_huffman_decode.md R316). -/
def CodeTable.groupBits (t : CodeTable) (iM : Nat) (gs : List (Sample × Option Byte)) : Bits :=
  gs.flatMap fun g =>
    t.codeBits g.1.toNat ++ (match g.2 with
      | none => []
      | some cs => t.codeBits iM ++ bits cs.toNat 8)

/-- The samples that the groups stand for (42_huffman_decode.md R316). -/
def groupSamples (gs : List (Sample × Option Byte)) : List Sample :=
  gs.flatMap fun g => g.1 :: List.replicate ((g.2.map BitVec.toNat).getD 0) g.1

/-- The BITMAP that a bitmap block loads: the slice from `mem` at its bytes, every other byte 0, bit 0 cleared
(40_lut.md R205). -/
abbrev Bitmap.isLoaded (b : Bitmap) (m : Memory) (slice mn mx : Nat) : Prop :=
  ∀ j < 8192, b.byte j = (if mn ≤ j ∧ j ≤ mx then m.read (slice + (j - mn)) else 0) &&& (if j = 0 then 0xFE else 0xFF)

/-! ### The wavelet as a function of the grid's values -/

/-- The values of a grid, by column and row (43_wavelet.md R356). -/
abbrev GridValues := Nat → Nat → Sample

/-- The grid in memory, by value. -/
def Memory.grid (m : Memory) (g : Grid) : GridValues := fun x y => m.sample (g.addr x y)

/-- The value of `W(x, y)` after EncLevel(p) (43_wavelet.md R359): a box of four, a leftover column pair, a leftover row
pair, or a point no butterfly of the level touches. -/
def encPoint (f : Sample → Sample → Sample × Sample) (nx ny p : Nat) (w : GridValues) (x y : Nat) : Sample :=
  let x0 := x / (2 * p) * (2 * p)
  let y0 := y / (2 * p) * (2 * p)
  if x % p ≠ 0 ∨ y % p ≠ 0 then w x y
  else if x0 + 2 * p ≤ nx ∧ y0 + 2 * p ≤ ny then
    let top := f (w x0 y0) (w (x0 + p) y0)
    let low := f (w x0 (y0 + p)) (w (x0 + p) (y0 + p))
    if x = x0 then (if y = y0 then (f top.1 low.1).1 else (f top.1 low.1).2)
    else (if y = y0 then (f top.2 low.2).1 else (f top.2 low.2).2)
  else if y0 + 2 * p ≤ ny ∧ nx &&& p ≠ 0 ∧ x = x0 then
    (if y = y0 then (f (w x0 y0) (w x0 (y0 + p))).1 else (f (w x0 y0) (w x0 (y0 + p))).2)
  else if x0 + 2 * p ≤ nx ∧ ny &&& p ≠ 0 ∧ y = y0 then
    (if x = x0 then (f (w x0 y0) (w (x0 + p) y0)).1 else (f (w x0 y0) (w (x0 + p) y0)).2)
  else w x y

/-- The value of `W(x, y)` after DecLevel(p) (43_wavelet.md R361). -/
def decPoint (g : Sample → Sample → Sample × Sample) (nx ny p : Nat) (w : GridValues) (x y : Nat) : Sample :=
  let x0 := x / (2 * p) * (2 * p)
  let y0 := y / (2 * p) * (2 * p)
  if x % p ≠ 0 ∨ y % p ≠ 0 then w x y
  else if x0 + 2 * p ≤ nx ∧ y0 + 2 * p ≤ ny then
    let left := g (w x0 y0) (w x0 (y0 + p))
    let right := g (w (x0 + p) y0) (w (x0 + p) (y0 + p))
    if y = y0 then (if x = x0 then (g left.1 right.1).1 else (g left.1 right.1).2)
    else (if x = x0 then (g left.2 right.2).1 else (g left.2 right.2).2)
  else if y0 + 2 * p ≤ ny ∧ nx &&& p ≠ 0 ∧ x = x0 then
    (if y = y0 then (g (w x0 y0) (w x0 (y0 + p))).1 else (g (w x0 y0) (w x0 (y0 + p))).2)
  else if x0 + 2 * p ≤ nx ∧ ny &&& p ≠ 0 ∧ y = y0 then
    (if x = x0 then (g (w x0 y0) (w (x0 + p) y0)).1 else (g (w x0 y0) (w (x0 + p) y0)).2)
  else w x y

/-- The grid after the forward transform: the levels in ascending order (43_wavelet.md R357, R358, R363). -/
def encGrid (maxValue nx ny : Nat) (w : GridValues) : GridValues :=
  (levels nx ny).foldl (fun v p => encPoint (encButterfly maxValue) nx ny p v) w

/-- The grid after the inverse transform: the levels in descending order (43_wavelet.md R357, R358, R363). -/
def decGrid (maxValue nx ny : Nat) (w : GridValues) : GridValues :=
  (levels nx ny).reverse.foldl (fun v p => decPoint (decButterfly maxValue) nx ny p v) w

/-- The grid's parameters are legal (43_wavelet.md R360): it is empty, or its strides keep its points apart. -/
abbrev Grid.legal (g : Grid) : Prop := g.nx = 0 ∨ g.ny = 0 ∨ (g.ox ≠ 0 ∧ g.nx * g.ox ≤ g.oy)

/-- The byte address belongs to a point of the grid. -/
abbrev Grid.covers (g : Grid) (a : Nat) : Prop :=
  ∃ x < g.nx, ∃ y < g.ny, a = g.addr x y ∨ a = g.addr x y + 1

end Sys2Proof.Machine
end

