-- ==== Sys2Proof/Certificates/Slice0/Obligations.lean ====
section
/-! DEFINITION. The statements for the provers. The operands of a command are those it latched at issue, `s.latched`
(30_encoding.md R136). -/

section
open Sys2Proof Sys2Proof.Machine

/-! ### Command words -/

/-- Each word of the opcode map decodes to its command (30_encoding.md R131). -/
def Obligations.OpcodeMapWordsDecode : Prop :=
  decode 0x00000000 = .ok .nop ∧ decode 0x00000001 = .ok .lutBitmapFromData ∧ decode 0x00000002 = .ok .lutBitmapLoad
    ∧ decode 0x00000003 = .ok .lutBitmapStore ∧ decode 0x00000004 = .ok .lutBuildForward
    ∧ decode 0x00000005 = .ok .lutBuildReverse ∧ decode 0x00000006 = .ok .lutApply ∧ decode 0x00000007 = .ok .lutDump
    ∧ decode 0x00000010 = .ok .wavEncode ∧ decode 0x00000011 = .ok .wavDecode ∧ decode 0x00000020 = .ok .hufCompress
    ∧ decode 0x00000021 = .ok .hufUncompress ∧ decode 0x00000022 = .ok .hufDumpCodes
    ∧ decode 0x00000030 = .ok .pizCompress ∧ decode 0x00000031 = .ok .pizUncompress

/-- Decoding and encoding agree, both ways: a word selects a command exactly when the whole word is the command's word of the
opcode map (30_encoding.md R131). -/
def Obligations.WordSelectsCommandExactly : Prop :=
  ∀ (w : Word32) (i : Instr),
    (decode w = .ok i ↔ w &&& 0xFFFFFFFF#32 = encode i)
      ∧ (w = encode i ↔ (w.toNat, i) ∈
        [(0x00, Instr.nop), (0x01, .lutBitmapFromData), (0x02, .lutBitmapLoad), (0x03, .lutBitmapStore),
          (0x04, .lutBuildForward), (0x05, .lutBuildReverse), (0x06, .lutApply), (0x07, .lutDump), (0x10, .wavEncode),
          (0x11, .wavDecode), (0x20, .hufCompress), (0x21, .hufUncompress), (0x22, .hufDumpCodes),
          (0x30, .pizCompress), (0x31, .pizUncompress)])

/-! ### Issue and the step -/

/-- A step runs the decoded command. A CMD write that finds the engine idle issues the word, and where no host access is to
precede the completion the command runs in that very step; where some are, the step leaves it busy; and the step at which
its turn comes runs it. How many precede it is the model's `delays` (log 2). -/
def Obligations.StepRunsTheDecodedCommand : Prop :=
  ∀ (s : State) (w : Word32) (i : Instr), decode w = .ok i → i.wellFormed = true →
    (∀ rest, s.phase = .idle → s.hostq = .regWrite .w32 (regOffset .cmd) w :: rest → s.delays.headD 0 = 0 →
      step s = exec i (((s.arrive rest).issue w).respond .written))
    ∧ (∀ rest, s.phase = .idle → s.hostq = .regWrite .w32 (regOffset .cmd) w :: rest → 0 < s.delays.headD 0 →
      step s = .next (((s.arrive rest).issue w).respond .written))
    ∧ (s.phase = .busy w → (s.delay = 0 ∨ s.hostq = []) → s.raced = false → step s = exec i s)

/-- Issue latches every parameter register, enters BUSY, clears DONE and ERRCODE and all eight result registers, and changes
nothing else a host can see (30_encoding.md R141, 10_state.md R54). -/
def Obligations.IssueLatchesAndStartsOver : Prop :=
  ∀ (s : State) (w : Word32), s.phase = .idle →
    let t := hostRegWrite .w32 (regOffset .cmd) w s
    t.latched = s.params ∧ t.phase = .busy w ∧ t.busy = true ∧ t.done = false ∧ t.errcode = .ok
      ∧ t.results = ⟨0, 0, 0, 0, 0, 0, 0, 0⟩ ∧ t.params = s.params ∧ t.irqStatus = s.irqStatus
      ∧ t.irqEnable = s.irqEnable ∧ t.mem = s.mem ∧ s.tablesKept t ∧ t.platform = s.platform

/-- A word is illegal exactly when a bit of 31:8 is set or its opcode is one of the unassigned ones; an idle engine issues it
and it completes at once, in the step of its write, with ILLEGAL_CMD; it changes no table, no valid bit, no memory and no
register beyond what issue and completion set (30_encoding.md R134). Host accesses arrive from the model's list (log 1). -/
def Obligations.IllegalWordCompletesAtOnce : Prop :=
  ∀ w : Word32,
    let unassigned := (0x08 ≤ w.toNat ∧ w.toNat ≤ 0x0F) ∨ (0x12 ≤ w.toNat ∧ w.toNat ≤ 0x1F)
      ∨ (0x23 ≤ w.toNat ∧ w.toNat ≤ 0x2F) ∨ (0x32 ≤ w.toNat ∧ w.toNat ≤ 0xFF)
    (decode w = .error .mustBeZero ↔ w.extractLsb' 8 24 ≠ 0) ∧ (decode w = .error .unassignedOpcode ↔ unassigned)
      ∧ ∀ (s : State) (rest : List HostOp), s.phase = .idle →
        s.hostq = .regWrite .w32 (regOffset .cmd) w :: rest → (w.extractLsb' 8 24 ≠ 0 ∨ unassigned) →
        ∃ t, step s = .next t ∧ t.phase = .idle ∧ t.done = true ∧ t.errcode = .illegalCmd
          ∧ t.results = ⟨0, 0, 0, 0, 0, 0, 0, 0⟩ ∧ t.irqStatus = s.irqStatus ||| 0b010 ∧ t.latched = s.params
          ∧ t.params = s.params ∧ t.irqEnable = s.irqEnable ∧ t.mem = s.mem ∧ s.tablesKept t
          ∧ t.platform = s.platform ∧ t.hostq = rest ∧ t.responses = .written :: s.responses

/-- The engine never starts work by itself: with no host access to arrive an idle engine stays as it is; its phase, memory,
tables and completion flags change only in a step in which a host writes CMD, writes 1 to CTRL.SRST, stores to memory or
drives the reset input; it becomes busy only by a host's 32-bit write of CMD, by its offset or by its address, which latches
the parameters. No step changes what the platform fixes (00_scope.md R9, R18; 10_state.md R31, R35; the list of accesses is
log 1). -/
def Obligations.IdleEngineNeverStartsWork : Prop :=
  (∀ s : State, s.phase = .idle → s.hostq = [] → step s = .next s)
    ∧ (∀ (s t : State) (op : HostOp) (rest : List HostOp), s.phase = .idle → s.hostq = op :: rest → step s = .next t →
      (∀ v, op ≠ .regWrite .w32 (regOffset .cmd) v) →
      (∀ v, v.getLsbD 0 = true → op ≠ .regWrite .w32 (regOffset .ctrl) v) →
      (∀ width a bs c, op ≠ .memWrite width a bs c) → op ≠ .hardReset →
      t.phase = .idle ∧ t.mem = s.mem ∧ s.tablesKept t ∧ t.done = s.done ∧ t.errcode = s.errcode
        ∧ t.results = s.results ∧ t.latched = s.latched)
    ∧ ∀ s t : State, step s = .next t →
      t.platform = s.platform
        ∧ (s.phase = .idle → ∀ w, t.phase = .busy w →
          ∃ op rest, s.hostq = op :: rest ∧ s.platform.windowWrite op (regOffset .cmd) w ∧ t.latched = s.params)

/-! ### The commands: completion, results, frame -/

/-- NOP completes with ERRCODE 0 and CMD_DONE, every result 0; no table and no byte of memory changes; its word is
0x00000000 and 0x00000100 is no NOP but an illegal word (44_piz.md R420). The last clause is R420's example, that after it
from reset STATUS reads 2 and IRQ_STATUS 1, reached in one step, which rests on the model's list of host accesses and on its
empty `delays` at reset (log 1, log 2). -/
def Obligations.NopCompletes : Prop :=
  (∀ s : State, ∃ t, exec .nop s = .next t ∧ s.completed t .ok {} ∧ s.tablesKept t ∧ t.mem = s.mem)
    ∧ encode .nop = 0x00000000 ∧ decode 0x00000100 = .error .mustBeZero
    ∧ ∃ t, step { State.reset with hostq := expandStmt (.run .nop) } = .next t ∧ t.readReg .status = 0x00000002
      ∧ t.readReg .irqStatus = 0x00000001

/-- LUT_BITMAP_FROM_DATA: BITMAP marks exactly the values other than 0 that occur in the buffer, the bounds are those of its
non-zero bytes, and nothing else changes (40_lut.md R202, R203, R210). -/
def Obligations.BitmapFromDataResult : Prop :=
  ∀ s : State,
    let a := s.latched.srcAddr.toNat
    let n := s.latched.srcLen.toNat
    s.mem.wf = true → s.usable a (2 * n) 2 → s.readFails a (2 * n) = false →
    ∃ t b mn mx, exec .lutBitmapFromData s = .next t
      ∧ s.completed t .ok { minnz := BitVec.ofNat 16 mn, maxnz := BitVec.ofNat 16 mx }
      ∧ t.bitmap = some b ∧ (∀ v, b.bit v = true ↔ 0 < v ∧ ∃ k < n, (s.mem.sample (a + 2 * k)).toNat = v)
      ∧ b.isMinMax mn mx ∧ t.mem = s.mem ∧ t.lut = s.lut ∧ t.lutKind = s.lutKind ∧ t.codes = s.codes

/-- LUT_BITMAP_LOAD. A complete bitmap block: the slice goes to its bytes, every other byte is 0, bit 0 is cleared; the bytes
consumed and the bounds read are reported. A block that is too short, out of range or cut off: its code, BITMAP_VALID 0,
memory unchanged (40_lut.md R204, R205, R212). -/
def Obligations.BitmapLoadResult : Prop :=
  ∀ s : State,
    let a := s.latched.srcAddr.toNat
    let n := s.latched.srcLen.toNat
    let mn := (s.mem.sample a).toNat
    let mx := (s.mem.sample (a + 2)).toNat
    let size := if mn ≤ mx then mx - mn + 1 else 0
    s.mem.wf = true → s.usable a n 1 → s.readFails a n = false →
    (mx < 8192 → 4 + size ≤ n →
      ∃ t b, exec .lutBitmapLoad s = .next t
        ∧ s.completed t .ok
          { len := BitVec.ofNat 32 (4 + size), minnz := BitVec.ofNat 16 mn, maxnz := BitVec.ofNat 16 mx }
        ∧ t.bitmap = some b ∧ b.isLoaded s.mem (a + 4) mn mx
        ∧ t.mem = s.mem ∧ t.lut = s.lut ∧ t.lutKind = s.lutKind ∧ t.codes = s.codes)
    ∧ ((n < 4 ∨ 8192 ≤ mx ∨ n < 4 + size) →
      ∃ t, exec .lutBitmapLoad s = .next t
        ∧ s.completed t (if n < 4 then .notEnoughData else if 8192 ≤ mx then .bitmapSize else .notEnoughData) {}
        ∧ t.bitmap = none ∧ t.mem = s.mem ∧ t.lut = s.lut ∧ t.lutKind = s.lutKind ∧ t.codes = s.codes)

/-- LUT_BITMAP_STORE writes the bitmap block with bounds recomputed from BITMAP, into its first bytes only; a block that does
not fit is DST_OVERFLOW and writes nothing (40_lut.md R204, R214). -/
def Obligations.BitmapStoreResult : Prop :=
  ∀ (s : State) (b : Bitmap) (mn mx : Nat),
    let d := s.latched.dstAddr.toNat
    let cap := s.latched.dstLen.toNat
    let size := if mn ≤ mx then mx - mn + 1 else 0
    s.mem.wf = true → s.bitmap = some b → b.isMinMax mn mx → s.usable d cap 1 →
    (4 + size ≤ cap → s.writeFails d (4 + size) = false →
      ∃ t, exec .lutBitmapStore s = .next t
        ∧ s.completed t .ok
          { len := BitVec.ofNat 32 (4 + size), minnz := BitVec.ofNat 16 mn, maxnz := BitVec.ofNat 16 mx }
        ∧ (t.mem.sample d).toNat = mn ∧ (t.mem.sample (d + 2)).toNat = mx
        ∧ (∀ j < size, t.mem.read (d + 4 + j) = b.byte (mn + j)) ∧ s.mem.keptOutside t.mem d (4 + size)
        ∧ s.tablesKept t)
    ∧ (cap < 4 + size →
      ∃ t, exec .lutBitmapStore s = .next t ∧ s.completed t .dstOverflow {} ∧ t.mem = s.mem ∧ s.tablesKept t)

/-- LUT_BUILD_FORWARD and LUT_BUILD_REVERSE. Forward: each value of the set goes to its rank, every other value to 0.
Reverse: each rank goes to its value, every rank past the highest to 0. Both report the highest rank and set LUT_KIND;
memory, BITMAP and the code table stay (40_lut.md R206, R207, R216, R218). -/
def Obligations.LutBuildResults : Prop :=
  ∀ (s : State) (b : Bitmap), s.bitmap = some b →
    (∃ t f, exec .lutBuildForward s = .next t ∧ s.completed t .ok { maxval := BitVec.ofNat 16 (b.rank 65535) }
      ∧ t.lut = some f ∧ t.lutKind = .forward
      ∧ (∀ v < 65536, (Lut.entry f v).toNat = if b.occurs v then b.rank v else 0)
      ∧ t.bitmap = s.bitmap ∧ t.codes = s.codes ∧ t.mem = s.mem)
    ∧ ∃ t f, exec .lutBuildReverse s = .next t ∧ s.completed t .ok { maxval := BitVec.ofNat 16 (b.rank 65535) }
      ∧ t.lut = some f ∧ t.lutKind = .reverse
      ∧ (∀ v < 65536, b.occurs v → (Lut.entry f (b.rank v)).toNat = v)
      ∧ (∀ k < 65536, b.rank 65535 < k → Lut.entry f k = 0)
      ∧ t.bitmap = s.bitmap ∧ t.codes = s.codes ∧ t.mem = s.mem

/-- The reverse LUT undoes the forward LUT on every value of the set; ranks go up to maxValue, the number of values other
than 0 that occur; the forward LUT rises strictly on the set; a buffer of such values survives both. The spec
gives these as 40_lut.md R208 and marks them as its own inference: "These follow from rule R206 and rule R207 and state
nothing new." -/
def Obligations.ReverseLutUndoesForward : Prop :=
  ∀ b : Bitmap,
    b.maxValue = (List.range 65536).countP (fun v => decide (v ≠ 0) && b.bit v) ∧ b.maxValue ≤ 65535
      ∧ (∀ v < 65536, b.occurs v →
        (Lut.entry b.reverseLut (Lut.entry b.forwardLut v).toNat).toNat = v
          ∧ (Lut.entry b.forwardLut v).toNat ≤ b.maxValue)
      ∧ (∀ u v, u < v → v < 65536 → b.occurs u → b.occurs v →
        (Lut.entry b.forwardLut u).toNat < (Lut.entry b.forwardLut v).toNat)
      ∧ ∀ xs : List Sample, (∀ x ∈ xs, b.occurs x.toNat) →
        (xs.map fun x => Lut.entry b.forwardLut x.toNat).map (fun r => Lut.entry b.reverseLut r.toNat) = xs

/-- LUT_APPLY replaces each sample of the buffer by its LUT entry and changes no other byte and no table
(40_lut.md R209, R220). -/
def Obligations.LutApplyResult : Prop :=
  ∀ (s : State) (f : Lut),
    let a := s.latched.srcAddr.toNat
    let n := s.latched.srcLen.toNat
    s.mem.wf = true → s.lut = some f → s.usable a (2 * n) 2 → s.readFails a (2 * n) = false →
    s.writeFails a (2 * n) = false →
    ∃ t, exec .lutApply s = .next t ∧ s.completed t .ok {}
      ∧ (∀ k < n, t.mem.sample (a + 2 * k) = Lut.entry f (s.mem.sample (a + 2 * k)).toNat)
      ∧ s.mem.keptOutside t.mem a (2 * n) ∧ s.tablesKept t

/-- LUT_DUMP writes all 65536 entries to the first 131072 bytes of the destination and changes no other byte and no table
(40_lut.md R222). -/
def Obligations.LutDumpResult : Prop :=
  ∀ (s : State) (f : Lut),
    let d := s.latched.dstAddr.toNat
    let cap := s.latched.dstLen.toNat
    s.mem.wf = true → s.lut = some f → Lut.wf f = true → s.usable d cap 2 → 131072 ≤ cap →
    s.writeFails d 131072 = false →
    ∃ t, exec .lutDump s = .next t ∧ s.completed t .ok { len := 131072 }
      ∧ (∀ v < 65536, t.mem.sample (d + 2 * v) = Lut.entry f v)
      ∧ s.mem.keptOutside t.mem d 131072 ∧ s.tablesKept t

/-- WAV_ENCODE and WAV_DECODE complete on every legal grid; they change no byte but those of grid points, no table, and, on a
grid of at most one row or one column, nothing (43_wavelet.md R356, R357, R360, R366, R368). -/
def Obligations.WaveletCommandsComplete : Prop :=
  ∀ (s : State) (i : Instr), i = .wavEncode ∨ i = .wavDecode →
    let g := gridOfParams s.latched
    let size := if g.nx = 0 ∨ g.ny = 0 then 0 else 2 * ((g.nx - 1) * g.ox + (g.ny - 1) * g.oy + 1)
    s.mem.wf = true → g.legal → s.usable g.base size 2 → s.readFails g.base size = false →
    s.writeFails g.base size = false →
    ∃ t, exec i s = .next t ∧ s.completed t .ok {} ∧ (∀ a, ¬ g.covers a → t.mem.read a = s.mem.read a)
      ∧ (min g.nx g.ny ≤ 1 → t.mem = s.mem) ∧ s.tablesKept t

/-- The in-place passes over memory compute the transform of the grid's values level by level: the forward one for WAV_ENCODE
and the inverse one for WAV_DECODE, in the mode MAXVAL selects (43_wavelet.md R357, R358, R359, R361, R363). -/
def Obligations.WaveletCommandsComputeTheTransform : Prop :=
  ∀ s : State,
    let g := gridOfParams s.latched
    let size := if g.nx = 0 ∨ g.ny = 0 then 0 else 2 * ((g.nx - 1) * g.ox + (g.ny - 1) * g.oy + 1)
    s.mem.wf = true → g.legal → s.usable g.base size 2 → s.readFails g.base size = false →
    s.writeFails g.base size = false →
    ∃ t u, exec .wavEncode s = .next t ∧ exec .wavDecode s = .next u
      ∧ ∀ x < g.nx, ∀ y < g.ny,
        t.mem.grid g x y = encGrid s.latched.maxval.toNat g.nx g.ny (s.mem.grid g) x y
          ∧ u.mem.grid g x y = decGrid s.latched.maxval.toNat g.nx g.ny (s.mem.grid g) x y

/-- The levels are the powers of two `p` with `2p` at most the smaller side, ascending (43_wavelet.md R357). -/
def Obligations.LevelSchedule : Prop :=
  ∀ nx ny : Nat, nx < 2 ^ 32 → ny < 2 ^ 32 →
    (∀ p, p ∈ levels nx ny ↔ (∃ k, p = 2 ^ k) ∧ 2 * p ≤ min nx ny)
      ∧ (levels nx ny).Pairwise (· < ·) ∧ (min nx ny ≤ 1 → levels nx ny = [])

/-- The butterflies compute the formulas of the spec, in the signed and in the modulo form, and invert: the 16-bit ones on
every pair of samples, the 14-bit ones exactly where the signed difference fits 16 bits, in particular on samples below
16384. The mode is the 14-bit one exactly below 16384 (43_wavelet.md R351 to R355, R358; the spec marks the signed reading of
R351 and the formulas of R353 and R354 as "from general knowledge, not in source", and R355 as derived from them). -/
def Obligations.ButterfliesInvert : Prop :=
  (∀ a b : Sample, wenc14 a b = (BitVec.ofInt 16 ((a.toInt + b.toInt) >>> 1), a - b))
    ∧ wenc14 0x0000 0x0001 = (0x0000, 0xFFFF) ∧ wenc14 0xFFFF 0x0000 = (0xFFFF, 0xFFFF)
    ∧ (∀ l h : Sample, wdec14 l h = (l + (h &&& 1) + h.sshiftRight 1, l + (h &&& 1) + h.sshiftRight 1 - h))
    ∧ (∀ a b : Sample,
      let ao := a + 0x8000
      let m := BitVec.ofNat 16 ((ao.toNat + b.toNat) / 2)
      wenc16 a b = (if ao.toNat < b.toNat then m + 0x8000 else m, ao - b))
    ∧ (∀ l h : Sample, wdec16 l h = (h + (l - h >>> 1) - 0x8000, l - h >>> 1))
    ∧ (∀ a b : Sample, wdec16 (wenc16 a b).1 (wenc16 a b).2 = (a, b))
    ∧ (∀ a b : Sample, wdec14 (wenc14 a b).1 (wenc14 a b).2 = (a, b) ↔
      -32768 ≤ a.toInt - b.toInt ∧ a.toInt - b.toInt ≤ 32767)
    ∧ (∀ a b : Sample, a.toNat < 16384 → b.toNat < 16384 → wdec14 (wenc14 a b).1 (wenc14 a b).2 = (a, b))
    ∧ ∀ maxValue : Nat, (maxValue < 16384 → encButterfly maxValue = wenc14 ∧ decButterfly maxValue = wdec14)
      ∧ (16384 ≤ maxValue → encButterfly maxValue = wenc16 ∧ decButterfly maxValue = wdec16)

/-- WAV_ENCODE and then WAV_DECODE with the same registers restores memory: in 16-bit mode for every grid, in 14-bit mode for
every grid of samples below 16384 (43_wavelet.md R362, R368). -/
def Obligations.WaveletRoundTrip : Prop :=
  ∀ s : State,
    let g := gridOfParams s.latched
    let size := if g.nx = 0 ∨ g.ny = 0 then 0 else 2 * ((g.nx - 1) * g.ox + (g.ny - 1) * g.oy + 1)
    s.mem.wf = true → g.legal → s.usable g.base size 2 → s.readFails g.base size = false →
    s.writeFails g.base size = false →
    (16384 ≤ s.latched.maxval.toNat ∨ ∀ x < g.nx, ∀ y < g.ny, (s.mem.grid g x y).toNat < 16384) →
    ∃ t u, exec .wavEncode s = .next t ∧ exec .wavDecode t = .next u ∧ u.errcode = .ok ∧ u.mem = s.mem

/-- HUF_COMPRESS of no samples writes nothing, reports 0 everywhere and leaves CODES_VALID 0; of N samples it writes the
Huffman block to the first bytes of the destination and leaves the block's code table valid; a block that does not fit is
DST_OVERFLOW, with the code table valid all the same (41_huffman_encode.md R260, R261, R262). -/
def Obligations.HufCompressResult : Prop :=
  ∀ (s : State) (e : Encoded),
    let a := s.latched.srcAddr.toNat
    let n := s.latched.srcLen.toNat
    let d := s.latched.dstAddr.toNat
    let cap := s.latched.dstLen.toNat
    s.mem.wf = true → s.usable a (2 * n) 2 → s.usable d cap 1 → rangesMeet a (2 * n) d cap = false →
    s.readFails a (2 * n) = false →
    (n = 0 →
      ∃ t, exec .hufCompress s = .next t ∧ s.completed t .ok {} ∧ t.mem = s.mem ∧ t.codes = none
        ∧ t.bitmap = s.bitmap ∧ t.lut = s.lut ∧ t.lutKind = s.lutKind)
    ∧ (0 < n → encodeSamples (s.mem.sampleList a n) = .ok e → e.stream.length ≤ 2147483647 → e.blockLength ≤ cap →
      s.writeFails d e.blockLength = false →
      ∃ t, exec .hufCompress s = .next t
        ∧ s.completed t .ok
          { len := BitVec.ofNat 32 e.blockLength, nbits := BitVec.ofNat 32 e.stream.length,
            im := BitVec.ofNat 32 e.im, imax := BitVec.ofNat 32 e.iM,
            tablen := BitVec.ofNat 32 (byteCount e.table.length) }
        ∧ t.mem.holdsEncoded d e ∧ s.mem.keptOutside t.mem d e.blockLength ∧ t.codes = some e.codes
        ∧ t.bitmap = s.bitmap ∧ t.lut = s.lut ∧ t.lutKind = s.lutKind)
    ∧ (0 < n → encodeSamples (s.mem.sampleList a n) = .ok e → (2147483647 < e.stream.length ∨ cap < e.blockLength) →
      ∃ t, exec .hufCompress s = .next t ∧ s.completed t .dstOverflow {} ∧ s.mem.keptOutside t.mem d cap
        ∧ t.codes = some e.codes ∧ t.bitmap = s.bitmap ∧ t.lut = s.lut ∧ t.lutKind = s.lutKind)

/-- What an encoding is: `im` the least symbol that occurs, `iM` the greatest plus one, lengths that the merge of BuildLengths
ends with, equal frequencies popped by symbol, so a code for exactly the symbols that occur and `iM`; the table and the
stream those of PackTable and EncodeBits (41_huffman_encode.md R251, R252, R256, R257, R258). -/
def Obligations.EncodingBoundsAndParts : Prop :=
  ∀ (xs : List Sample) (e : Encoded), xs ≠ [] → encodeSamples xs = .ok e →
    (∃ v ∈ xs, v.toNat = e.im) ∧ (∃ v ∈ xs, v.toNat + 1 = e.iM)
      ∧ (∀ v ∈ xs, e.im ≤ v.toNat ∧ v.toNat < e.iM)
      ∧ (∃ len, Merges (mergeLeaves xs e.iM) len ∧ ∀ k, e.codes.hlen k = len k)
      ∧ (∀ k, e.codes.hlen k ≠ 0 ↔ k = e.iM ∨ ∃ v ∈ xs, v.toNat = k)
      ∧ CodeTable.wf e.codes = true
      ∧ e.table = packTable e.im e.iM e.codes ∧ e.stream = encodeBits e.codes e.iM xs

/-- PackTable and EncodeBits turn by turn. A symbol with a code is its 6-bit length. A run of `z` symbols without one, as long
as it goes up to 261, is a marker: 63 and an 8-bit `z - 6` from 6 on, `57 + z` from 2 to 5, 0 for a single one. A run of
`cs + 1` equal samples, as long as it goes up to 256, is the sample's code, the escape's and an 8-bit `cs` where
`ls + lr + 8 < ls * cs`, and `cs + 1` copies of the sample's code otherwise (41_huffman_encode.md R257, R258, R259). -/
def Obligations.PackTableAndEncodeBitsTurns : Prop :=
  (∀ (t : CodeTable) (im iM : Nat), CodeTable.wf t = true → (∀ c ∈ t, im ≤ c.sym ∧ c.sym ≤ iM) →
    (iM < im → packTable im iM t = [])
      ∧ (t.hlen im ≠ 0 →
        packTable im iM t = bits (t.hlen im) 6 ++ packTable (im + 1) iM (t.filter fun c => im < c.sym))
      ∧ ∀ z, 1 ≤ z → z ≤ 261 → im + z ≤ iM + 1 → (∀ k < z, t.hlen (im + k) = 0) →
        (z = 261 ∨ im + z = iM + 1 ∨ t.hlen (im + z) ≠ 0) →
        packTable im iM t =
          (if 6 ≤ z then bits 63 6 ++ bits (z - 6) 8 else if 2 ≤ z then bits (57 + z) 6 else bits 0 6)
            ++ packTable (im + z) iM t)
    ∧ ∀ (t : CodeTable) (rlc : Nat) (s : Sample) (cs : Nat) (rest : List Sample),
      let ls := t.hlen s.toNat
      let lr := t.hlen rlc
      encodeBits t rlc [] = []
        ∧ (cs ≤ 255 → (cs = 255 ∨ rest.head? ≠ some s) →
          encodeBits t rlc (List.replicate (cs + 1) s ++ rest) =
            (if ls + lr + 8 < ls * cs then t.codeBits s.toNat ++ t.codeBits rlc ++ bits cs 8
              else (List.replicate (cs + 1) (t.codeBits s.toNat)).flatten) ++ encodeBits t rlc rest)

/-- Code lengths stay within 44 bits for every buffer a region can hold, so CODE_LENGTH_OVERFLOW cannot occur; every symbol
that occurs, and the escape, has a code (41_huffman_encode.md R253). -/
def Obligations.CodeLengthsAreBounded : Prop :=
  ∀ xs : List Sample, xs ≠ [] → xs.length ≤ 2 ^ 31 →
    ∃ e, encodeSamples xs = .ok e
      ∧ ∀ k, (k = e.iM ∨ ∃ v ∈ xs, v.toNat = k) → 1 ≤ e.codes.hlen k ∧ e.codes.hlen k ≤ 44

/-- Canonical codes. For any lengths the first code of each length is half of the first free code of the next greater length,
rounded down, from 0 for length 58, and the symbols of a length take ascending codes from it; every other symbol has length
and code 0. The codes of an encoding are canonical, fit their lengths, none begins another, they meet Kraft's equality, and
a longer code stands before every shorter one (41_huffman_encode.md R254, R255). -/
def Obligations.CanonicalCodesArePrefixFree : Prop :=
  (∀ lens : List (Nat × Nat), lens.Pairwise (fun p q => p.1 < q.1) →
    (∀ p ∈ lens, p.1 < 65537 ∧ 1 ≤ p.2 ∧ p.2 ≤ 58) →
    ∃ first : Nat → Nat, first 58 = 0
      ∧ (∀ l, 1 ≤ l → l < 58 → first l = (first (l + 1) + lens.countP fun p => p.2 == l + 1) / 2)
      ∧ (∀ p ∈ lens, (canonicalCodes lens).hlen p.1 = p.2
        ∧ (canonicalCodes lens).hcode p.1 = first p.2 + lens.countP fun q => decide (q.1 < p.1) && q.2 == p.2)
      ∧ ∀ k, (∀ p ∈ lens, p.1 ≠ k) → (canonicalCodes lens).hlen k = 0 ∧ (canonicalCodes lens).hcode k = 0)
    ∧ ∀ (xs : List Sample) (e : Encoded), xs ≠ [] → encodeSamples xs = .ok e →
      e.codes = canonicalCodes (e.codes.map fun c => (c.sym, c.len.toNat))
        ∧ (∀ k, e.codes.hcode k < 2 ^ e.codes.hlen k) ∧ e.codes.prefixFree
        ∧ (e.codes.map fun c => 2 ^ (58 - c.len.toNat)).sum = 2 ^ 58
        ∧ (∀ j k, j < k → e.codes.hlen j = e.codes.hlen k → e.codes.hlen j ≠ 0 → e.codes.hcode j < e.codes.hcode k)
        ∧ ∀ j k, e.codes.hlen k ≠ 0 → e.codes.hlen k < e.codes.hlen j →
          e.codes.hcode j >>> (e.codes.hlen j - e.codes.hlen k) < e.codes.hcode k

/-- Unpacking the bytes of a packed table gives the table's lengths back, and fetches exactly the packed bytes, whatever
follows them (41_huffman_encode.md R257, 42_huffman_decode.md R302, R303, R304). -/
def Obligations.PackedTableUnpacks : Prop :=
  ∀ (t : CodeTable) (im iM : Nat) (tail : List Byte), CodeTable.wf t = true → im ≤ iM → iM < 65537 →
    (∀ c ∈ t, im ≤ c.sym ∧ c.sym ≤ iM) →
    unpackTable (fun _ => false) (bytesOfBits (packTable im iM t) ++ tail) im iM
      = .ok (t.map fun c => (c.sym, c.len.toNat), byteCount (packTable im iM t).length)

/-- HUF_UNCOMPRESS of a block shorter than its header: no sample expected, it succeeds with every result 0 and CODES_VALID 0;
some expected, it is NOT_ENOUGH_DATA. A block whose stages all pass writes its samples, leaves its code table valid, reports
its header and changes nothing else (42_huffman_decode.md R300, R301, R306, R317, R320). -/
def Obligations.HufUncompressResult : Prop :=
  ∀ (s : State) (nBits q im iM : Nat) (c : CodeTable) (xs : List Sample),
    let a := s.latched.srcAddr.toNat
    let n := s.latched.srcLen.toNat
    let d := s.latched.dstAddr.toNat
    let no := s.latched.dstLen.toNat
    s.mem.wf = true → s.usable a n 1 → s.usable d (2 * no) 2 → rangesMeet a n d (2 * no) = false →
    s.readFails a n = false → s.writeFails d (2 * no) = false →
    (n < 20 → no = 0 →
      ∃ t, exec .hufUncompress s = .next t ∧ s.completed t .ok {} ∧ t.mem = s.mem ∧ t.codes = none
        ∧ t.bitmap = s.bitmap ∧ t.lut = s.lut ∧ t.lutKind = s.lutKind)
    ∧ (n < 20 → 0 < no →
      ∃ t, exec .hufUncompress s = .next t ∧ s.completed t .notEnoughData {} ∧ s.mem.keptOutside t.mem d (2 * no)
        ∧ t.codes = none ∧ t.bitmap = s.bitmap ∧ t.lut = s.lut ∧ t.lutKind = s.lutKind)
    ∧ (s.mem.holdsHuffman a n no nBits q im iM c xs →
      ∃ t, exec .hufUncompress s = .next t
        ∧ s.completed t .ok
          { len := BitVec.ofNat 32 no, nbits := BitVec.ofNat 32 nBits, im := BitVec.ofNat 32 im,
            imax := BitVec.ofNat 32 iM, tablen := BitVec.ofNat 32 q }
        ∧ xs.length = no ∧ t.mem.sampleList d no = xs ∧ s.mem.keptOutside t.mem d (2 * no) ∧ t.codes = some c
        ∧ t.bitmap = s.bitmap ∧ t.lut = s.lut ∧ t.lutKind = s.lutKind)

/-- HUF_UNCOMPRESS of a bad header: a bound of 65537 or more is INVALID_TABLE_SIZE, then a bit count over 2^31 - 1 or past the
block is NOT_ENOUGH_DATA; CODES_VALID is 0. With `im > iM`, a header that asks for no bits and no samples succeeds with an
empty code table, one that asks for samples but no bits is NOT_ENOUGH_DATA, and one with coded bits is INVALID_CODE. An error
of the packed table ends the command with CODES_VALID 0: a packed table cut short is TABLE_END, and a run of length-0
symbols past `iM` is TABLE_TOO_LONG (42_huffman_decode.md R301, R302, R303, R305). -/
def Obligations.HufHeaderErrors : Prop :=
  (∀ s : State,
    let a := s.latched.srcAddr.toNat
    let n := s.latched.srcLen.toNat
    let d := s.latched.dstAddr.toNat
    let no := s.latched.dstLen.toNat
    let im := s.mem.word a
    let iM := s.mem.word (a + 4)
    let nBits := s.mem.word (a + 12)
    s.mem.wf = true → s.usable a n 1 → s.usable d (2 * no) 2 → rangesMeet a n d (2 * no) = false →
    s.readFails a n = false → s.writeFails d (2 * no) = false → 20 ≤ n →
    ((65537 ≤ im ∨ 65537 ≤ iM) →
      ∃ t, exec .hufUncompress s = .next t ∧ s.completed t .invalidTableSize {} ∧ t.codes = none
        ∧ s.mem.keptOutside t.mem d (2 * no))
    ∧ (im < 65537 → iM < 65537 → (2147483647 < nBits ∨ n < 20 + (nBits + 7) / 8) →
      ∃ t, exec .hufUncompress s = .next t ∧ s.completed t .notEnoughData {} ∧ t.codes = none
        ∧ s.mem.keptOutside t.mem d (2 * no))
    ∧ (im < 65537 → iM < im → nBits = 0 → no = 0 →
      ∃ t, exec .hufUncompress s = .next t
        ∧ s.completed t .ok { im := BitVec.ofNat 32 im, imax := BitVec.ofNat 32 iM } ∧ t.codes = some []
        ∧ t.mem = s.mem)
    ∧ (im < 65537 → iM < im → nBits = 0 → 0 < no →
      ∃ t, exec .hufUncompress s = .next t ∧ s.completed t .notEnoughData {} ∧ t.codes = some []
        ∧ s.mem.keptOutside t.mem d (2 * no))
    ∧ (im < 65537 → iM < im → 0 < nBits → nBits ≤ 2147483647 → 20 + (nBits + 7) / 8 ≤ n →
      ∃ t, exec .hufUncompress s = .next t ∧ s.completed t .invalidCode {} ∧ t.codes = some []
        ∧ s.mem.keptOutside t.mem d (2 * no))
    ∧ ∀ e : ErrCode, im < 65537 → iM < 65537 → nBits ≤ 2147483647 → 20 + (nBits + 7) / 8 ≤ n →
      unpackTable (fun _ => false) (s.mem.bytes (a + 20) (n - 20)) im iM = .error e →
      ∃ t, exec .hufUncompress s = .next t ∧ s.completed t e {} ∧ t.codes = none ∧ s.mem.keptOutside t.mem d (2 * no))
    ∧ (∀ (t : CodeTable) (im iM k : Nat), CodeTable.wf t = true → im ≤ iM → iM < 65537 →
      (∀ c ∈ t, im ≤ c.sym ∧ c.sym ≤ iM) → k < byteCount (packTable im iM t).length →
      unpackTable (fun _ => false) ((bytesOfBits (packTable im iM t)).take k) im iM = .error .tableEnd)
    ∧ ∀ (t : CodeTable) (im i iM z : Nat) (area : List Byte), CodeTable.wf t = true → im ≤ i → i ≤ iM → iM < 65537 →
      (∀ c ∈ t, im ≤ c.sym ∧ c.sym < i) → 2 ≤ z → z ≤ 261 → iM + 1 < i + z →
      (if i = im then [] else packTable im (i - 1) t) ++ packZeros z <+: bitsOfBytes area →
      unpackTable (fun _ => false) area im iM = .error .tableTooLong

/-- Errors between the packed table and the stream leave CODES_VALID 1. More bits than the bytes after the table hold are
INVALID_NBITS, with the block's canonical codes. A table that fails the decode-table check is INVALID_TABLE_ENTRY: the first
failing entry's code is a free value of the model, every other code the canonical one. The check passes exactly when every
code fits its length and no code of up to 14 bits begins another code (42_huffman_decode.md R306, R307, R312;
10_state.md R62; which entries count as failing is log 9). -/
def Obligations.HufBadTableLeavesCodesValid : Prop :=
  (∀ (s : State) (lens : List (Nat × Nat)) (q : Nat),
    let a := s.latched.srcAddr.toNat
    let n := s.latched.srcLen.toNat
    let d := s.latched.dstAddr.toNat
    let no := s.latched.dstLen.toNat
    let im := s.mem.word a
    let iM := s.mem.word (a + 4)
    let nBits := s.mem.word (a + 12)
    s.mem.wf = true → s.usable a n 1 → s.usable d (2 * no) 2 → rangesMeet a n d (2 * no) = false →
    s.readFails a n = false → s.writeFails d (2 * no) = false → 20 ≤ n → im < 65537 → iM < 65537 →
    nBits ≤ 2147483647 → 20 + (nBits + 7) / 8 ≤ n →
    unpackTable (fun _ => false) (s.mem.bytes (a + 20) (n - 20)) im iM = .ok (lens, q) →
    (8 * (n - 20 - q) < nBits →
      ∃ t, exec .hufUncompress s = .next t ∧ s.completed t .invalidNbits {} ∧ t.codes = some (canonicalCodes lens)
        ∧ s.mem.keptOutside t.mem d (2 * no))
    ∧ ∀ f, nBits ≤ 8 * (n - 20 - q) → (buildDecode [] (canonicalCodes lens)).2 = some f →
      ∃ t c, exec .hufUncompress s = .next t ∧ s.completed t .invalidTableEntry {} ∧ t.codes = some c
        ∧ (∀ k, c.hlen k = (canonicalCodes lens).hlen k)
        ∧ (∀ k, k ≠ f.sym → c.hcode k = (canonicalCodes lens).hcode k)
        ∧ c.hcode f.sym = (Config.freeCode s.fresh f.sym).toNat
        ∧ s.mem.keptOutside t.mem d (2 * no))
    ∧ ∀ c : CodeTable, CodeTable.wf c = true →
      ((buildDecode [] c).2 = none ↔
        (∀ k, c.hcode k < 2 ^ c.hlen k)
          ∧ ∀ j k, j ≠ k → c.hlen j ≠ 0 → c.hlen j ≤ 14 → c.hlen k ≠ 0 → ¬ c.codeBits j <+: c.codeBits k)

/-- The coded stream, where every stage before it passes. Its error is the command's, with the block's code table valid. Let
groups of codes that stand for `out` samples be followed by `rest`. With no bit left the stream decodes to them if they are
as many as expected, and is NOT_ENOUGH_DATA if fewer. One sample more than expected, or a repeat past it, is TOO_MUCH_DATA.
A repeat before any sample, or an escape without its 8-bit count, is NOT_ENOUGH_DATA. Bits that no code begins, and a code
that runs into the padding, are INVALID_CODE. While 14 bits remain, the padding counts as bits to look at
(42_huffman_decode.md R313 to R317). -/
def Obligations.HufStreamErrors : Prop :=
  (∀ (s : State) (lens : List (Nat × Nat)) (q : Nat) (e : ErrCode),
    let a := s.latched.srcAddr.toNat
    let n := s.latched.srcLen.toNat
    let d := s.latched.dstAddr.toNat
    let no := s.latched.dstLen.toNat
    let im := s.mem.word a
    let iM := s.mem.word (a + 4)
    let nBits := s.mem.word (a + 12)
    s.mem.wf = true → s.usable a n 1 → s.usable d (2 * no) 2 → rangesMeet a n d (2 * no) = false →
    s.readFails a n = false → s.writeFails d (2 * no) = false → 20 ≤ n → im < 65537 → iM < 65537 →
    nBits ≤ 2147483647 → 20 + (nBits + 7) / 8 ≤ n →
    unpackTable (fun _ => false) (s.mem.bytes (a + 20) (n - 20)) im iM = .ok (lens, q) → nBits ≤ 8 * (n - 20 - q) →
    (buildDecode [] (canonicalCodes lens)).2 = none →
    decodeStream (fun _ _ => false) (fun _ _ => false) (buildDecode [] (canonicalCodes lens)).1 iM no nBits
      (bitsOfBytes (s.mem.bytes (a + 20 + q) (byteCount nBits))) = .error e →
    ∃ t, exec .hufUncompress s = .next t ∧ s.completed t e {} ∧ t.codes = some (canonicalCodes lens)
      ∧ s.mem.keptOutside t.mem d (2 * no))
    ∧ ∀ (c : CodeTable) (iM no nBits : Nat) (gs : List (Sample × Option Byte)) (rest : Bits),
      let done := c.groupBits iM gs
      let out := (groupSamples gs).length
      let size := 8 * byteCount nBits
      let decoded := decodeStream (fun _ _ => false) (fun _ _ => false) (buildDecode [] c).1 iM no nBits (done ++ rest)
      CodeTable.wf c = true → (∀ k, c.hcode k < 2 ^ c.hlen k) → c.prefixFree →
      (∀ g ∈ gs, g.1.toNat ≠ iM ∧ c.hlen g.1.toNat ≠ 0 ∧ (g.2.isSome = true → c.hlen iM ≠ 0)) →
      (done ++ rest).length = size → done.length ≤ nBits → out ≤ no →
      (done.length = nBits → decoded = if out = no then .ok (groupSamples gs) else .error .notEnoughData)
        ∧ (∀ v : Sample, v.toNat ≠ iM → c.hlen v.toNat ≠ 0 → c.codeBits v.toNat <+: rest →
          (done.length + c.hlen v.toNat ≤ nBits → out = no → decoded = .error .tooMuchData)
            ∧ (14 ≤ size - done.length → nBits < done.length + c.hlen v.toNat → out < no →
              decoded = .error .invalidCode))
        ∧ (∀ cs : Byte, c.hlen iM ≠ 0 → c.codeBits iM ++ bits cs.toNat 8 <+: rest →
          done.length + c.hlen iM + 8 ≤ nBits →
          (no < out + cs.toNat → decoded = .error .tooMuchData)
            ∧ (out + cs.toNat ≤ no → gs = [] → decoded = .error .notEnoughData))
        ∧ (c.hlen iM ≠ 0 → c.codeBits iM <+: rest → done.length + c.hlen iM ≤ nBits →
          (if 14 ≤ size - done.length then size else nBits) < done.length + c.hlen iM + 8 →
          decoded = .error .notEnoughData)
        ∧ (done.length < nBits →
          (∀ k, c.hlen k ≠ 0 →
            ¬ c.codeBits k <+: (if 14 ≤ size - done.length then rest else rest.take (nBits - done.length))) →
          decoded = .error .invalidCode)

/-- The Huffman stage round-trips: a block that the encoder makes of a buffer, anywhere a source may lie, decodes to that
buffer, with the encoder's code table and header values (42_huffman_decode.md R318). -/
def Obligations.HuffmanRoundTrip : Prop :=
  ∀ (s : State) (xs : List Sample) (e : Encoded),
    let a := s.latched.srcAddr.toNat
    let n := s.latched.srcLen.toNat
    let d := s.latched.dstAddr.toNat
    let no := s.latched.dstLen.toNat
    s.mem.wf = true → s.usable a n 1 → s.usable d (2 * no) 2 → rangesMeet a n d (2 * no) = false →
    s.readFails a n = false → s.writeFails d (2 * no) = false →
    xs.length = no → xs ≠ [] → encodeSamples xs = .ok e → e.stream.length ≤ 2147483647 → n = e.blockLength →
    s.mem.bytes a n = e.block →
    ∃ t, exec .hufUncompress s = .next t
      ∧ s.completed t .ok
        { len := BitVec.ofNat 32 no, nbits := BitVec.ofNat 32 e.stream.length, im := BitVec.ofNat 32 e.im,
          imax := BitVec.ofNat 32 e.iM, tablen := BitVec.ofNat 32 (byteCount e.table.length) }
      ∧ t.mem.sampleList d no = xs ∧ s.mem.keptOutside t.mem d (2 * no) ∧ t.codes = some e.codes

/-- HUF_DUMP_CODES writes all 65537 entries, code above the six length bits, to the first 524296 bytes of the destination and
changes no other byte and no table (41_huffman_encode.md R264). -/
def Obligations.HufDumpCodesResult : Prop :=
  ∀ (s : State) (c : CodeTable),
    let d := s.latched.dstAddr.toNat
    let cap := s.latched.dstLen.toNat
    s.mem.wf = true → s.codes = some c → CodeTable.held c = true → s.usable d cap 8 → 524296 ≤ cap →
    s.writeFails d 524296 = false →
    ∃ t, exec .hufDumpCodes s = .next t ∧ s.completed t .ok { len := 524296 }
      ∧ (∀ k < 65537, t.mem.word (d + 8 * k) + 2 ^ 32 * t.mem.word (d + 8 * k + 4) = c.hcode k * 2 ^ 6 + c.hlen k)
      ∧ s.mem.keptOutside t.mem d 524296 ∧ s.tablesKept t

/-- PIZ_COMPRESS of no samples with valid empty descriptors writes the 8-byte block `FF 1F 00 00 00 00 00 00`, leaves an
all-zero BITMAP, an all-zero forward LUT and CODES_VALID 0; PIZ_UNCOMPRESS of that block with no samples expected succeeds and
changes no memory (44_piz.md R394, R395, R396, R397). -/
def Obligations.PizEmptyBlocks : Prop :=
  (∀ s : State,
    let d := s.latched.dstAddr.toNat
    let cap := s.latched.dstLen.toNat
    let aux := s.latched.auxAddr.toNat
    let count := s.latched.auxLen.toNat
    s.mem.wf = true → s.latched.srcLen = 0 → describes (s.mem.descriptors aux count) 0 → s.usable d cap 1 →
    s.usable aux (12 * count) 4 → rangesMeet d cap aux (12 * count) = false → s.readFails aux (12 * count) = false →
    8 ≤ cap → s.writeFails d 8 = false →
    ∃ t f, exec .pizCompress s = .next t ∧ s.completed t .ok { len := 8, minnz := 8191 }
      ∧ t.mem.bytes d 8 = [0xFF, 0x1F, 0, 0, 0, 0, 0, 0] ∧ s.mem.keptOutside t.mem d 8
      ∧ t.bitmap = some 0 ∧ t.lut = some f ∧ (∀ v, Lut.entry f v = 0) ∧ t.lutKind = .forward ∧ t.codes = none)
  ∧ ∀ s : State,
    let a := s.latched.srcAddr.toNat
    let n := s.latched.srcLen.toNat
    let aux := s.latched.auxAddr.toNat
    let count := s.latched.auxLen.toNat
    s.mem.wf = true → s.latched.dstLen = 0 → describes (s.mem.descriptors aux count) 0 → s.usable a n 1 →
    s.usable aux (12 * count) 4 → s.readFails aux (12 * count) = false → s.readFails a n = false → 8 ≤ n →
    s.mem.bytes a 8 = [0xFF, 0x1F, 0, 0, 0, 0, 0, 0] →
    ∃ t, exec .pizUncompress s = .next t ∧ s.completed t .ok { len := 8, minnz := 8191 } ∧ t.mem = s.mem
      ∧ t.bitmap = some 0 ∧ t.lut = some [] ∧ t.lutKind = .reverse ∧ t.codes = none

/-- PIZ_COMPRESS: BITMAP and the forward LUT of the buffer, each sample replaced by its rank, each plane transformed in the
mode the highest rank selects, the result Huffman-coded; the source buffer keeps the transformed samples `xs`, the first
bytes of the destination are the PIZ block, and nothing else changes (44_piz.md R391, R392, R393, R394, R395). -/
def Obligations.PizCompressResult : Prop :=
  ∀ (s : State) (b : Bitmap) (mn mx : Nat) (xs : List Sample) (e : Encoded),
    let a := s.latched.srcAddr.toNat
    let n := s.latched.srcLen.toNat
    let d := s.latched.dstAddr.toNat
    let cap := s.latched.dstLen.toNat
    let aux := s.latched.auxAddr.toNat
    let count := s.latched.auxLen.toNat
    let ds := s.mem.descriptors aux count
    let size := if mn ≤ mx then mx - mn + 1 else 0
    s.mem.wf = true → 0 < n → describes ds n → s.usable a (2 * n) 2 → s.usable d cap 1 → s.usable aux (12 * count) 4 →
    rangesMeet a (2 * n) d cap = false → rangesMeet a (2 * n) aux (12 * count) = false →
    rangesMeet d cap aux (12 * count) = false → s.readFails a (2 * n) = false → s.writeFails a (2 * n) = false →
    s.readFails aux (12 * count) = false →
    (∀ v, b.bit v = true ↔ 0 < v ∧ ∃ k < n, (s.mem.sample (a + 2 * k)).toNat = v) → b.isMinMax mn mx →
    xs.length = n →
    (∀ g ∈ planes 0 ds, ∀ x < g.nx, ∀ y < g.ny,
      xs.getD (g.addr x y / 2) 0 =
        encGrid (b.rank 65535) g.nx g.ny
          (fun x' y' => BitVec.ofNat 16 (b.rank (s.mem.sample (a + g.addr x' y')).toNat)) x y) →
    encodeSamples xs = .ok e → e.stream.length ≤ 2147483647 → 8 + size + e.blockLength ≤ cap →
    e.blockLength ≤ 2147483647 → s.writeFails d (8 + size + e.blockLength) = false →
    ∃ t f, exec .pizCompress s = .next t
      ∧ s.completed t .ok
        { len := BitVec.ofNat 32 (8 + size + e.blockLength), minnz := BitVec.ofNat 16 mn, maxnz := BitVec.ofNat 16 mx,
          maxval := BitVec.ofNat 16 (b.rank 65535), nbits := BitVec.ofNat 32 e.stream.length,
          im := BitVec.ofNat 32 e.im, imax := BitVec.ofNat 32 e.iM,
          tablen := BitVec.ofNat 32 (byteCount e.table.length) }
      ∧ t.mem.sampleList a n = xs
      ∧ (t.mem.sample d).toNat = mn ∧ (t.mem.sample (d + 2)).toNat = mx
      ∧ (∀ j < size, t.mem.read (d + 4 + j) = b.byte (mn + j))
      ∧ t.mem.word (d + 4 + size) = e.blockLength ∧ t.mem.holdsEncoded (d + 8 + size) e
      ∧ (∀ k, (k < a ∨ a + 2 * n ≤ k) → (k < d ∨ d + (8 + size + e.blockLength) ≤ k) → t.mem.read k = s.mem.read k)
      ∧ t.bitmap = some b ∧ t.lut = some f ∧ t.lutKind = .forward
      ∧ (∀ v < 65536, (Lut.entry f v).toNat = if b.occurs v then b.rank v else 0) ∧ t.codes = some e.codes

/-- PIZ_UNCOMPRESS: BITMAP loaded from the block, the reverse LUT built, the Huffman block decoded to samples `xs`, each plane
inverse-transformed in the mode the highest rank selects, each result replaced by its LUT entry; nothing outside the
destination changes (44_piz.md R391, R392, R393, R396, R397). -/
def Obligations.PizUncompressResult : Prop :=
  ∀ (s : State) (b : Bitmap) (nBits q im iM : Nat) (c : CodeTable) (xs : List Sample),
    let a := s.latched.srcAddr.toNat
    let n := s.latched.srcLen.toNat
    let d := s.latched.dstAddr.toNat
    let no := s.latched.dstLen.toNat
    let aux := s.latched.auxAddr.toNat
    let count := s.latched.auxLen.toNat
    let ds := s.mem.descriptors aux count
    let mn := (s.mem.sample a).toNat
    let mx := (s.mem.sample (a + 2)).toNat
    let size := if mn ≤ mx then mx - mn + 1 else 0
    let len := s.mem.word (a + 4 + size)
    s.mem.wf = true → describes ds no → s.usable a n 1 → s.usable d (2 * no) 2 → s.usable aux (12 * count) 4 →
    rangesMeet a n d (2 * no) = false → rangesMeet d (2 * no) aux (12 * count) = false →
    s.readFails a n = false → s.readFails d (2 * no) = false → s.writeFails d (2 * no) = false →
    s.readFails aux (12 * count) = false →
    mx < 8192 → 8 + size ≤ n → len < 2 ^ 31 → 8 + size + len ≤ n →
    b.isLoaded s.mem (a + 4) mn mx →
    s.mem.holdsHuffman (a + 8 + size) len no nBits q im iM c xs →
    ∃ t f, exec .pizUncompress s = .next t
      ∧ s.completed t .ok
        { len := BitVec.ofNat 32 (8 + size + len), minnz := BitVec.ofNat 16 mn, maxnz := BitVec.ofNat 16 mx,
          maxval := BitVec.ofNat 16 (b.rank 65535), nbits := BitVec.ofNat 32 nBits, im := BitVec.ofNat 32 im,
          imax := BitVec.ofNat 32 iM, tablen := BitVec.ofNat 32 q }
      ∧ (∀ g ∈ planes 0 ds, ∀ x < g.nx, ∀ y < g.ny,
        t.mem.sample (d + g.addr x y) =
          Lut.entry f
            (decGrid (b.rank 65535) g.nx g.ny (fun x' y' => xs.getD (g.addr x' y' / 2) 0) x y).toNat)
      ∧ s.mem.keptOutside t.mem d (2 * no)
      ∧ t.bitmap = some b ∧ t.lut = some f ∧ t.lutKind = .reverse ∧ t.codes = some c
      ∧ (∀ v < 65536, b.occurs v → (Lut.entry f (b.rank v)).toNat = v)
      ∧ ∀ k < 65536, b.rank 65535 < k → Lut.entry f k = 0

/-- The PIZ stage round-trips: where PIZ_COMPRESS of a buffer succeeds, PIZ_UNCOMPRESS of the block it left, in any later
state whose source holds that block and whose descriptors are the same, writes the buffer's original samples
(44_piz.md R398). -/
def Obligations.PizRoundTrip : Prop :=
  ∀ s t u : State,
    let n := s.latched.srcLen.toNat
    let len := t.results.len.toNat
    let a := u.latched.srcAddr.toNat
    let d := u.latched.dstAddr.toNat
    let aux := u.latched.auxAddr.toNat
    let count := u.latched.auxLen.toNat
    s.mem.wf = true → exec .pizCompress s = .next t → t.errcode = .ok →
    u.mem.wf = true → u.latched.srcLen.toNat = len → u.latched.dstLen.toNat = n →
    u.mem.bytes a len = t.mem.bytes s.latched.dstAddr.toNat len → count = s.latched.auxLen.toNat →
    u.mem.descriptors aux count = s.mem.descriptors s.latched.auxAddr.toNat count →
    u.usable a len 1 → u.usable d (2 * n) 2 → u.usable aux (12 * count) 4 → rangesMeet a len d (2 * n) = false →
    rangesMeet d (2 * n) aux (12 * count) = false → u.readFails a len = false → u.readFails d (2 * n) = false →
    u.writeFails d (2 * n) = false → u.readFails aux (12 * count) = false →
    ∃ v, exec .pizUncompress u = .next v ∧ v.errcode = .ok ∧ v.results.len = t.results.len
      ∧ v.mem.sampleList d n = s.mem.sampleList s.latched.srcAddr.toNat n ∧ u.mem.keptOutside v.mem d (2 * n)

/-- When the PIZ commands fail. Both: descriptors that do not describe the samples are BAD_PARAM, memory unchanged, no table
valid. PIZ_COMPRESS: a destination too small for the bitmap block and the length field is DST_OVERFLOW with BITMAP and the
forward LUT valid, one too small for the Huffman block, or more than 2^31 - 1 bits, with the code table valid too.
PIZ_UNCOMPRESS: a bad bitmap block is NOT_ENOUGH_DATA or BITMAP_SIZE with no table valid; a missing length field is
NOT_ENOUGH_DATA and a length that is negative or too large PIZ_LENGTH, with BITMAP and the reverse LUT valid; then any error
of HUF_UNCOMPRESS of the Huffman block, a bus error among them, is the command's, with that command's code table
(44_piz.md R391, R394, R396, R397). -/
def Obligations.PizErrors : Prop :=
  (∀ (s : State) (b : Bitmap) (mn mx : Nat) (xs : List Sample) (e : Encoded),
    let a := s.latched.srcAddr.toNat
    let n := s.latched.srcLen.toNat
    let d := s.latched.dstAddr.toNat
    let cap := s.latched.dstLen.toNat
    let aux := s.latched.auxAddr.toNat
    let count := s.latched.auxLen.toNat
    let ds := s.mem.descriptors aux count
    let size := if mn ≤ mx then mx - mn + 1 else 0
    s.mem.wf = true → s.usable a (2 * n) 2 → s.usable d cap 1 → s.usable aux (12 * count) 4 →
    rangesMeet a (2 * n) d cap = false → rangesMeet a (2 * n) aux (12 * count) = false →
    rangesMeet d cap aux (12 * count) = false → s.readFails aux (12 * count) = false →
    (¬ describes ds n →
      ∃ t, exec .pizCompress s = .next t ∧ s.completed t .badParam {} ∧ t.mem = s.mem ∧ t.bitmap = none ∧ t.lut = none
        ∧ t.lutKind = s.lutKind ∧ t.codes = none)
    ∧ (describes ds n → s.readFails a (2 * n) = false → s.writeFails a (2 * n) = false →
      (∀ v, b.bit v = true ↔ 0 < v ∧ ∃ k < n, (s.mem.sample (a + 2 * k)).toNat = v) → b.isMinMax mn mx →
      cap < 8 + size →
      ∃ t f, exec .pizCompress s = .next t ∧ s.completed t .dstOverflow {} ∧ t.bitmap = some b ∧ t.lut = some f
        ∧ t.lutKind = .forward ∧ (∀ v < 65536, (Lut.entry f v).toNat = if b.occurs v then b.rank v else 0)
        ∧ t.codes = none)
    ∧ (describes ds n → 0 < n → s.readFails a (2 * n) = false → s.writeFails a (2 * n) = false →
      (∀ v, b.bit v = true ↔ 0 < v ∧ ∃ k < n, (s.mem.sample (a + 2 * k)).toNat = v) → b.isMinMax mn mx →
      xs.length = n →
      (∀ g ∈ planes 0 ds, ∀ x < g.nx, ∀ y < g.ny,
        xs.getD (g.addr x y / 2) 0 =
          encGrid (b.rank 65535) g.nx g.ny
            (fun x' y' => BitVec.ofNat 16 (b.rank (s.mem.sample (a + g.addr x' y')).toNat)) x y) →
      encodeSamples xs = .ok e → 8 + size ≤ cap → s.writeFails d (4 + size) = false →
      (2147483647 < e.stream.length ∨ cap < 8 + size + e.blockLength) →
      ∃ t f, exec .pizCompress s = .next t ∧ s.completed t .dstOverflow {} ∧ t.bitmap = some b ∧ t.lut = some f
        ∧ t.lutKind = .forward ∧ t.codes = some e.codes))
  ∧ ∀ (s v : State) (b : Bitmap),
    let a := s.latched.srcAddr.toNat
    let n := s.latched.srcLen.toNat
    let d := s.latched.dstAddr.toNat
    let no := s.latched.dstLen.toNat
    let aux := s.latched.auxAddr.toNat
    let count := s.latched.auxLen.toNat
    let ds := s.mem.descriptors aux count
    let mn := (s.mem.sample a).toNat
    let mx := (s.mem.sample (a + 2)).toNat
    let size := if mn ≤ mx then mx - mn + 1 else 0
    let len := s.mem.word (a + 4 + size)
    let block := { s.latched with srcAddr := BitVec.ofNat 32 (a + 8 + size), srcLen := BitVec.ofNat 32 len }
    s.mem.wf = true → s.usable a n 1 → s.usable d (2 * no) 2 → s.usable aux (12 * count) 4 →
    rangesMeet a n d (2 * no) = false → rangesMeet d (2 * no) aux (12 * count) = false →
    s.readFails aux (12 * count) = false →
    (¬ describes ds no →
      ∃ t, exec .pizUncompress s = .next t ∧ s.completed t .badParam {} ∧ t.mem = s.mem ∧ t.bitmap = none ∧ t.lut = none
        ∧ t.lutKind = s.lutKind ∧ t.codes = none)
    ∧ (describes ds no → (4 ≤ n → s.readFails a 4 = false) → (n < 4 ∨ 8192 ≤ mx ∨ n < 4 + size) →
      ∃ t, exec .pizUncompress s = .next t
        ∧ s.completed t (if n < 4 then .notEnoughData else if 8192 ≤ mx then .bitmapSize else .notEnoughData) {}
        ∧ t.bitmap = none ∧ t.lut = none ∧ t.lutKind = s.lutKind ∧ t.codes = none)
    ∧ (describes ds no → mx < 8192 → 4 + size ≤ n → b.isLoaded s.mem (a + 4) mn mx →
      s.readFails a (if n < 8 + size then 4 + size else 8 + size) = false →
      (n < 8 + size ∨ 2 ^ 31 ≤ len ∨ n < 8 + size + len) →
      ∃ t f, exec .pizUncompress s = .next t
        ∧ s.completed t (if n < 8 + size then .notEnoughData else .pizLength) {} ∧ t.bitmap = some b ∧ t.lut = some f
        ∧ t.lutKind = .reverse ∧ (∀ u < 65536, b.occurs u → (Lut.entry f (b.rank u)).toNat = u) ∧ t.codes = none)
    ∧ (describes ds no → s.readFails a (8 + size) = false → mx < 8192 → 8 + size ≤ n → b.isLoaded s.mem (a + 4) mn mx →
      len < 2 ^ 31 → 8 + size + len ≤ n →
      exec .hufUncompress { s with latched := block } = .next v → v.errcode ≠ .ok →
      ∃ t f, exec .pizUncompress s = .next t ∧ s.completed t v.errcode {} ∧ t.bitmap = some b ∧ t.lut = some f
        ∧ t.lutKind = .reverse ∧ t.codes = v.codes)

/-! ### Errors -/

/-- The regions of every command, with base, size, access and base alignment, are the rows of the spec's table. The parameter
checks are made on them in order, and the first that fails is the code: a table that is not valid, a region that wraps or an
illegal wavelet grid, a base that is no multiple of 2 for samples, 4 for descriptors, 8 for the code dump (1 for bytes), two
regions that share a byte of which one is written, a fixed output that does not fit. None changes memory, a table or a valid
bit. A command that fails none of them passes the phase (30_encoding.md R137, R143; 20_memory.md R95, R96, R101, R102;
43_wavelet.md R360; 60_exceptions.md R520). A region in non-idempotent memory comes first (log 11). -/
def Obligations.ParameterChecksInOrder : Prop :=
  ∀ (i : Instr) (s : State),
    let src := s.latched.srcAddr.toNat
    let srcLen := s.latched.srcLen.toNat
    let dst := s.latched.dstAddr.toNat
    let dstLen := s.latched.dstLen.toNat
    let aux := s.latched.auxAddr.toNat
    let auxLen := s.latched.auxLen.toNat
    let nx := s.latched.nx.toNat
    let ny := s.latched.ny.toNat
    let ox := s.latched.ox.toNat
    let oy := s.latched.oy.toNat
    let grid := if nx = 0 ∨ ny = 0 then 0 else 2 * ((nx - 1) * ox + (ny - 1) * oy + 1)
    let rows : List (Nat × Nat × Access × Nat) :=
      match i with
      | .nop => []
      | .lutBitmapFromData => [(src, 2 * srcLen, .r, 2)]
      | .lutBitmapLoad => [(src, srcLen, .r, 1)]
      | .lutBitmapStore => [(dst, dstLen, .w, 1)]
      | .lutBuildForward => []
      | .lutBuildReverse => []
      | .lutApply => [(src, 2 * srcLen, .rw, 2)]
      | .lutDump => [(dst, dstLen, .w, 2)]
      | .wavEncode => [(src, grid, .rw, 2)]
      | .wavDecode => [(src, grid, .rw, 2)]
      | .hufCompress => [(src, 2 * srcLen, .r, 2), (dst, dstLen, .w, 1)]
      | .hufUncompress => [(src, srcLen, .r, 1), (dst, 2 * dstLen, .w, 2)]
      | .hufDumpCodes => [(dst, dstLen, .w, 8)]
      | .pizCompress => [(src, 2 * srcLen, .rw, 2), (dst, dstLen, .w, 1), (aux, 12 * auxLen, .r, 4)]
      | .pizUncompress => [(src, srcLen, .r, 1), (dst, 2 * dstLen, .rw, 2), (aux, 12 * auxLen, .r, 4)]
    let noTable := (i ∈ [Instr.lutBitmapStore, .lutBuildForward, .lutBuildReverse] ∧ s.bitmap = none)
      ∨ (i ∈ [Instr.lutApply, .lutDump] ∧ s.lut = none) ∨ (i = .hufDumpCodes ∧ s.codes = none)
    let badParam := (∃ r ∈ rows, 2 ^ 32 < r.1 + r.2.1)
      ∨ (i ∈ [Instr.wavEncode, .wavDecode] ∧ 1 ≤ nx ∧ 1 ≤ ny ∧ (ox = 0 ∨ oy < nx * ox))
    let misaligned := ∃ r ∈ rows, 0 < r.2.1 ∧ r.1 % r.2.2.2 ≠ 0
    let overlap := ∃ q r, List.Sublist [q, r] rows ∧ (q.2.2.1 ≠ .r ∨ r.2.2.1 ≠ .r) ∧
      ∃ a, q.1 ≤ a ∧ a < q.1 + q.2.1 ∧ r.1 ≤ a ∧ a < r.1 + r.2.1
    let tooLarge := (i = .lutDump ∧ dstLen < 131072) ∨ (i = .hufDumpCodes ∧ dstLen < 524296)
    (regions i s.latched).map (fun r => (r.base, r.size, r.access, r.kind.alignment)) = rows
      ∧ ((∀ r ∈ rows, ∀ a < 2 ^ 32, r.1 ≤ a → a < r.1 + r.2.1 →
          ∀ sp : Span, sp = ⟨s.platform.regBase, 4096⟩ ∨ sp ∈ s.platform.devices →
            a < sp.base ∨ sp.base + sp.size ≤ a) →
        ∀ e : ErrCode,
          ((e = .noTable ∧ noTable) ∨ (e = .badParam ∧ ¬ noTable ∧ badParam)
            ∨ (e = .misaligned ∧ ¬ noTable ∧ ¬ badParam ∧ misaligned)
            ∨ (e = .overlap ∧ ¬ noTable ∧ ¬ badParam ∧ ¬ misaligned ∧ overlap)
            ∨ (e = .dstOverflow ∧ ¬ noTable ∧ ¬ badParam ∧ ¬ misaligned ∧ ¬ overlap ∧ tooLarge)) →
          ∃ t, exec i s = .next t ∧ s.completed t e {} ∧ t.mem = s.mem ∧ s.tablesKept t)
      ∧ (paramCheck i s = none ↔ ¬ noTable ∧ ¬ badParam ∧ ¬ misaligned ∧ ¬ overlap ∧ ¬ tooLarge)

/-- A command that reads a table that is not valid completes with NO_TABLE: STORE and the two builds need BITMAP, APPLY and
DUMP the LUT, HUF_DUMP_CODES the code table; no other command ever reports NO_TABLE (10_state.md R65). -/
def Obligations.UnbuiltTableIsNoTable : Prop :=
  (∀ (i : Instr) (s : State), touchesDevice i s = false →
    ((i = .lutBitmapStore ∨ i = .lutBuildForward ∨ i = .lutBuildReverse) ∧ s.bitmap = none)
      ∨ ((i = .lutApply ∨ i = .lutDump) ∧ s.lut = none) ∨ (i = .hufDumpCodes ∧ s.codes = none) →
    ∃ t, exec i s = .next t ∧ s.completed t .noTable {} ∧ t.mem = s.mem ∧ s.tablesKept t)
  ∧ ∀ (i : Instr) (s t : State), exec i s = .next t → t.errcode = .noTable →
    ((i = .lutBitmapStore ∨ i = .lutBuildForward ∨ i = .lutBuildReverse) ∧ s.bitmap = none)
      ∨ ((i = .lutApply ∨ i = .lutDump) ∧ s.lut = none) ∨ (i = .hufDumpCodes ∧ s.codes = none)

/-- Bus errors of the LUT and wavelet commands: a DMA access that the bus answers with an error ends the command with
BUS_ERROR. A read or a write of a sample buffer, of the header or the slice of a bitmap block, of a dump, or of a point
that the first wavelet level touches. BITMAP is then not valid where the command was building it, every other table is as
before, and so is memory outside the written region. Where the bus answers no error no command of any family reports
BUS_ERROR. Which addresses answer so is the model's parameter (20_memory.md R99, 60_exceptions.md R520; log 4). -/
def Obligations.BusErrorsEndTheCommand : Prop :=
  (∀ (i : Instr) (s t : State), s.platform.readErr = [] → s.platform.writeErr = [] → exec i s = .next t →
    t.errcode ≠ .busError)
  ∧ (∀ s : State,
    let a := s.latched.srcAddr.toNat
    let n := s.latched.srcLen.toNat
    s.usable a (2 * n) 2 → s.readFails a (2 * n) = true →
    ∃ t, exec .lutBitmapFromData s = .next t ∧ s.completed t .busError {} ∧ t.mem = s.mem ∧ t.bitmap = none
      ∧ t.lut = s.lut ∧ t.lutKind = s.lutKind ∧ t.codes = s.codes)
  ∧ (∀ s : State,
    let a := s.latched.srcAddr.toNat
    let n := s.latched.srcLen.toNat
    let mn := (s.mem.sample a).toNat
    let mx := (s.mem.sample (a + 2)).toNat
    s.mem.wf = true → s.usable a n 1 → 4 ≤ n →
    (s.readFails a 4 = true
      ∨ (s.readFails a 4 = false ∧ mx < 8192 ∧ mn ≤ mx ∧ 4 + (mx - mn + 1) ≤ n
        ∧ s.readFails (a + 4) (mx - mn + 1) = true)) →
    ∃ t, exec .lutBitmapLoad s = .next t ∧ s.completed t .busError {} ∧ t.mem = s.mem ∧ t.bitmap = none
      ∧ t.lut = s.lut ∧ t.lutKind = s.lutKind ∧ t.codes = s.codes)
  ∧ (∀ (s : State) (b : Bitmap) (mn mx : Nat),
    let d := s.latched.dstAddr.toNat
    let cap := s.latched.dstLen.toNat
    let size := if mn ≤ mx then mx - mn + 1 else 0
    s.mem.wf = true → s.bitmap = some b → b.isMinMax mn mx → s.usable d cap 1 → 4 + size ≤ cap →
    s.writeFails d (4 + size) = true →
    ∃ t, exec .lutBitmapStore s = .next t ∧ s.completed t .busError {} ∧ s.mem.keptOutside t.mem d cap
      ∧ s.tablesKept t)
  ∧ (∀ (s : State) (f : Lut),
    let a := s.latched.srcAddr.toNat
    let n := s.latched.srcLen.toNat
    s.mem.wf = true → s.lut = some f → s.usable a (2 * n) 2 →
    (s.readFails a (2 * n) = true ∨ s.writeFails a (2 * n) = true) →
    ∃ t, exec .lutApply s = .next t ∧ s.completed t .busError {} ∧ s.mem.keptOutside t.mem a (2 * n)
      ∧ s.tablesKept t)
  ∧ (∀ (s : State) (f : Lut),
    let d := s.latched.dstAddr.toNat
    let cap := s.latched.dstLen.toNat
    s.mem.wf = true → s.lut = some f → s.usable d cap 2 → 131072 ≤ cap → s.writeFails d 131072 = true →
    ∃ t, exec .lutDump s = .next t ∧ s.completed t .busError {} ∧ s.mem.keptOutside t.mem d cap ∧ s.tablesKept t)
  ∧ ∀ (s : State) (i : Instr) (x y : Nat), i = .wavEncode ∨ i = .wavDecode →
    let g := gridOfParams s.latched
    let size := 2 * ((g.nx - 1) * g.ox + (g.ny - 1) * g.oy + 1)
    s.mem.wf = true → g.legal → s.usable g.base size 2 → 2 ≤ min g.nx g.ny → x < g.nx → y < g.ny →
    ¬ (x + 1 = g.nx ∧ y + 1 = g.ny ∧ g.nx % 2 = 1 ∧ g.ny % 2 = 1) →
    (s.readFails (g.addr x y) 2 = true ∨ s.writeFails (g.addr x y) 2 = true) →
    ∃ t, exec i s = .next t ∧ s.completed t .busError {} ∧ s.mem.keptOutside t.mem g.base size ∧ s.tablesKept t

/-- Bus errors of the Huffman and PIZ commands: BUS_ERROR ends the command at the access that meets it, with the tables valid
that it had completed by then. HUF_COMPRESS: its source, its block. HUF_UNCOMPRESS: the three header words it reads, the
packed table, the stream, the samples. HUF_DUMP_CODES: the dump. PIZ_COMPRESS: the descriptors, the source, its writing back,
the bitmap block, the whole block. PIZ_UNCOMPRESS: the descriptors, the bitmap block, the length field, the destination (for
one in the Huffman block see PizErrors). Which addresses answer so is the model's parameter (20_memory.md R99, 10_state.md
R64, 60_exceptions.md R520; log 4). -/
def Obligations.HuffmanAndPizBusErrors : Prop :=
  (∀ (s : State) (e : Encoded),
    let a := s.latched.srcAddr.toNat
    let n := s.latched.srcLen.toNat
    let d := s.latched.dstAddr.toNat
    let cap := s.latched.dstLen.toNat
    s.mem.wf = true → s.usable a (2 * n) 2 → s.usable d cap 1 → rangesMeet a (2 * n) d cap = false →
    (s.readFails a (2 * n) = true →
      ∃ t, exec .hufCompress s = .next t ∧ s.completed t .busError {} ∧ t.codes = none)
    ∧ (0 < n → s.readFails a (2 * n) = false → encodeSamples (s.mem.sampleList a n) = .ok e →
      e.stream.length ≤ 2147483647 → e.blockLength ≤ cap → s.writeFails d e.blockLength = true →
      ∃ t, exec .hufCompress s = .next t ∧ s.completed t .busError {} ∧ t.codes = some e.codes))
  ∧ (∀ (s : State) (nBits q im iM : Nat) (c : CodeTable) (xs : List Sample),
    let a := s.latched.srcAddr.toNat
    let n := s.latched.srcLen.toNat
    let d := s.latched.dstAddr.toNat
    let no := s.latched.dstLen.toNat
    s.mem.wf = true → s.usable a n 1 → s.usable d (2 * no) 2 → rangesMeet a n d (2 * no) = false → 20 ≤ n →
    ((s.readFails a 8 = true ∨ s.readFails (a + 12) 4 = true) →
      ∃ t, exec .hufUncompress s = .next t ∧ s.completed t .busError {} ∧ t.codes = none)
    ∧ (s.readFails a 8 = false → s.readFails (a + 12) 4 = false → s.mem.holdsHuffman a n no nBits q im iM c xs →
      (s.readFails (a + 20) (q + byteCount nBits) = true ∨ s.writeFails d (2 * no) = true) →
      ∃ t, exec .hufUncompress s = .next t ∧ s.completed t .busError {}
        ∧ t.codes = if s.readFails (a + 20) q = true then none else some c))
  ∧ (∀ (s : State) (c : CodeTable),
    let d := s.latched.dstAddr.toNat
    let cap := s.latched.dstLen.toNat
    s.mem.wf = true → s.codes = some c → CodeTable.held c = true → s.usable d cap 8 → 524296 ≤ cap →
    s.writeFails d 524296 = true →
    ∃ t, exec .hufDumpCodes s = .next t ∧ s.completed t .busError {} ∧ s.tablesKept t)
  ∧ (∀ (s : State) (b : Bitmap) (mn mx : Nat) (xs : List Sample) (e : Encoded),
    let a := s.latched.srcAddr.toNat
    let n := s.latched.srcLen.toNat
    let d := s.latched.dstAddr.toNat
    let cap := s.latched.dstLen.toNat
    let aux := s.latched.auxAddr.toNat
    let count := s.latched.auxLen.toNat
    let ds := s.mem.descriptors aux count
    let size := if mn ≤ mx then mx - mn + 1 else 0
    s.mem.wf = true → s.usable a (2 * n) 2 → s.usable d cap 1 → s.usable aux (12 * count) 4 →
    rangesMeet a (2 * n) d cap = false → rangesMeet a (2 * n) aux (12 * count) = false →
    rangesMeet d cap aux (12 * count) = false →
    ((s.readFails aux (12 * count) = true ∨ (describes ds n ∧ s.readFails a (2 * n) = true)) →
      ∃ t, exec .pizCompress s = .next t ∧ s.completed t .busError {} ∧ t.bitmap = none ∧ t.lut = none
        ∧ t.codes = none)
    ∧ (s.readFails aux (12 * count) = false → describes ds n → s.readFails a (2 * n) = false →
      (∀ v, b.bit v = true ↔ 0 < v ∧ ∃ k < n, (s.mem.sample (a + 2 * k)).toNat = v) →
      (s.writeFails a (2 * n) = true
        ∨ (s.writeFails a (2 * n) = false ∧ b.isMinMax mn mx ∧ 8 + size ≤ cap ∧ s.writeFails d (4 + size) = true)) →
      ∃ t, exec .pizCompress s = .next t ∧ s.completed t .busError {} ∧ t.bitmap = some b ∧ t.lut.isSome = true
        ∧ t.lutKind = .forward ∧ t.codes = none)
    ∧ (s.readFails aux (12 * count) = false → describes ds n → 0 < n → s.readFails a (2 * n) = false →
      s.writeFails a (2 * n) = false →
      (∀ v, b.bit v = true ↔ 0 < v ∧ ∃ k < n, (s.mem.sample (a + 2 * k)).toNat = v) → b.isMinMax mn mx →
      xs.length = n →
      (∀ g ∈ planes 0 ds, ∀ x < g.nx, ∀ y < g.ny,
        xs.getD (g.addr x y / 2) 0 =
          encGrid (b.rank 65535) g.nx g.ny
            (fun x' y' => BitVec.ofNat 16 (b.rank (s.mem.sample (a + g.addr x' y')).toNat)) x y) →
      encodeSamples xs = .ok e → e.stream.length ≤ 2147483647 → 8 + size + e.blockLength ≤ cap →
      e.blockLength ≤ 2147483647 → s.writeFails d (4 + size) = false →
      s.writeFails d (8 + size + e.blockLength) = true →
      ∃ t, exec .pizCompress s = .next t ∧ s.completed t .busError {} ∧ t.bitmap = some b ∧ t.lut.isSome = true
        ∧ t.lutKind = .forward ∧ t.codes = some e.codes))
  ∧ ∀ (s : State) (nBits q im iM : Nat) (c : CodeTable) (xs : List Sample),
    let a := s.latched.srcAddr.toNat
    let n := s.latched.srcLen.toNat
    let d := s.latched.dstAddr.toNat
    let no := s.latched.dstLen.toNat
    let aux := s.latched.auxAddr.toNat
    let count := s.latched.auxLen.toNat
    let ds := s.mem.descriptors aux count
    let mn := (s.mem.sample a).toNat
    let mx := (s.mem.sample (a + 2)).toNat
    let size := if mn ≤ mx then mx - mn + 1 else 0
    let len := s.mem.word (a + 4 + size)
    s.mem.wf = true → s.usable a n 1 → s.usable d (2 * no) 2 → s.usable aux (12 * count) 4 →
    rangesMeet a n d (2 * no) = false → rangesMeet d (2 * no) aux (12 * count) = false →
    ((s.readFails aux (12 * count) = true
        ∨ (describes ds no ∧ 4 ≤ n ∧ s.readFails a 4 = true)
        ∨ (s.readFails aux (12 * count) = false ∧ describes ds no ∧ s.readFails a 4 = false ∧ mx < 8192
          ∧ 4 + size ≤ n ∧ s.readFails (a + 4) size = true)) →
      ∃ t, exec .pizUncompress s = .next t ∧ s.completed t .busError {} ∧ t.bitmap = none ∧ t.lut = none
        ∧ t.codes = none)
    ∧ (s.readFails aux (12 * count) = false → describes ds no → s.readFails a (4 + size) = false → mx < 8192 →
      8 + size ≤ n → s.readFails (a + 4 + size) 4 = true →
      ∃ t, exec .pizUncompress s = .next t ∧ s.completed t .busError {} ∧ t.bitmap.isSome = true
        ∧ t.lut.isSome = true ∧ t.lutKind = .reverse ∧ t.codes = none)
    ∧ (s.readFails aux (12 * count) = false → describes ds no → s.readFails a n = false → mx < 8192 → 8 + size ≤ n →
      len < 2 ^ 31 → 8 + size + len ≤ n → s.mem.holdsHuffman (a + 8 + size) len no nBits q im iM c xs →
      (s.readFails d (2 * no) = true ∨ s.writeFails d (2 * no) = true) →
      ∃ t, exec .pizUncompress s = .next t ∧ s.completed t .busError {} ∧ t.bitmap.isSome = true
        ∧ t.lut.isSome = true ∧ t.lutKind = .reverse ∧ t.codes = some c)

/-- Every command completes, but for one with a region in non-idempotent memory. A region that shares a byte with the register
window or a device makes the command refused by name: the spec gives such a command no result (20_memory.md R100,
70_reset_and_hazards.md R621; log 11). Every other command ends in the phase IDLE with DONE 1, one of CMD_DONE and CMD_ERR
set by its code, its results 0 on an error, and nothing of the hosts' side changed (30_encoding.md R145, R146). -/
def Obligations.EveryCommandCompletes : Prop :=
  (∀ (i : Instr) (s : State), (∃ r ∈ regions i s.latched, r.base + r.size ≤ Config.addrSpace ∧
    ∃ sp, (sp = ⟨s.platform.regBase, 4096⟩ ∨ sp ∈ s.platform.devices) ∧
      ∃ a, r.base ≤ a ∧ a < r.base + r.size ∧ sp.base ≤ a ∧ a < sp.base + sp.size) →
    exec i s = .refused .nonIdempotentRegion)
  ∧ ∀ (i : Instr) (s : State), touchesDevice i s = false →
    ∃ t e r, exec i s = .next t ∧ s.completed t e r ∧ (e ≠ .ok → r = {})

/-- A command changes no byte outside the W and RW regions it declares, whatever its outcome (20_memory.md R95,
60_exceptions.md R520). -/
def Obligations.CommandsStayInTheirRegions : Prop :=
  ∀ (i : Instr) (s t : State), s.mem.wf = true → exec i s = .next t →
    ∀ a, (∀ r ∈ regions i s.latched, r.access ≠ .r → a < r.base ∨ r.base + r.size ≤ a) →
      t.mem.read a = s.mem.read a

/-- After an error of the data phase every byte of the W and RW regions is a free value of the model, one per byte; but for
LUT_BITMAP_STORE's DST_OVERFLOW and the descriptor table's BAD_PARAM, which leave all memory unchanged (60_exceptions.md R520;
log 8). -/
def Obligations.ErrorsFreeTheWrittenRegions : Prop :=
  ∀ (i : Instr) (s t : State), s.mem.wf = true → paramCheck i s = none → exec i s = .next t → t.errcode ≠ .ok →
    if (i = .lutBitmapStore ∧ t.errcode = .dstOverflow)
        ∨ ((i = .pizCompress ∨ i = .pizUncompress) ∧ t.errcode = .badParam) then t.mem = s.mem
    else ∀ r ∈ regions i s.latched, r.access ≠ .r → ∀ a, r.base ≤ a → a < r.base + r.size →
      t.mem.read a = Config.freeByte s.fresh a

/-- A command changes only the tables its rule writes: BITMAP by FROM_DATA, LOAD and the PIZ commands, the LUT and LUT_KIND by
the builds and the PIZ commands, the code table by the Huffman coders and the PIZ commands; and one that succeeds leaves what
it wrote valid, but for the code table of a Huffman stage with no samples (10_state.md R60, R61, R62, R64). -/
def Obligations.CommandsWriteOnlyTheirTables : Prop :=
  ∀ (i : Instr) (s t : State), exec i s = .next t →
    (i ∉ [Instr.lutBitmapFromData, .lutBitmapLoad, .pizCompress, .pizUncompress] → t.bitmap = s.bitmap)
      ∧ (i ∉ [Instr.lutBuildForward, .lutBuildReverse, .pizCompress, .pizUncompress] →
        t.lut = s.lut ∧ t.lutKind = s.lutKind)
      ∧ (i ∉ [Instr.hufCompress, .hufUncompress, .pizCompress, .pizUncompress] → t.codes = s.codes)
      ∧ (t.errcode = .ok → i ∈ [Instr.lutBitmapFromData, .lutBitmapLoad, .pizCompress, .pizUncompress] →
        t.bitmap.isSome = true)
      ∧ (t.errcode = .ok → i ∈ [Instr.lutBuildForward, .pizCompress] → t.lut.isSome = true ∧ t.lutKind = .forward)
      ∧ (t.errcode = .ok → i ∈ [Instr.lutBuildReverse, .pizUncompress] → t.lut.isSome = true ∧ t.lutKind = .reverse)
      ∧ (t.errcode = .ok → i = .hufCompress → s.latched.srcLen ≠ 0 → t.codes.isSome = true)
      ∧ (t.errcode = .ok → i = .pizCompress → s.latched.srcLen ≠ 0 → t.codes.isSome = true)
      ∧ (t.errcode = .ok → i = .hufUncompress ∨ i = .pizUncompress → s.latched.dstLen ≠ 0 → t.codes.isSome = true)

/-- The life of the result registers: 0 from issue, 0 after an error, and after a success 0 in every register the command's
row of the table leaves out; a host reads 0 in all eight while a command is busy (10_state.md R54, 30_encoding.md R138). -/
def Obligations.ResultRegistersLifeCycle : Prop :=
  (∀ (s : State) (w : Word32), (s.issue w).results = ⟨0, 0, 0, 0, 0, 0, 0, 0⟩)
    ∧ (∀ s : State, s.Inv → s.busy = true → ∀ r ∈ [Reg.resLen, .resMinnz, .resMaxnz, .resMaxval, .resNbits, .resIm,
        .resImax, .resTablen], s.readReg r = 0)
    ∧ ∀ (i : Instr) (s t : State), exec i s = .next t →
      (t.errcode ≠ .ok → t.results = ⟨0, 0, 0, 0, 0, 0, 0, 0⟩)
        ∧ (i ∈ [Instr.nop, .lutApply, .wavEncode, .wavDecode] → t.results = ⟨0, 0, 0, 0, 0, 0, 0, 0⟩)
        ∧ (i = .lutBitmapFromData → t.results = ⟨0, t.results.minnz, t.results.maxnz, 0, 0, 0, 0, 0⟩)
        ∧ (i ∈ [Instr.lutBitmapLoad, .lutBitmapStore] →
          t.results = ⟨t.results.len, t.results.minnz, t.results.maxnz, 0, 0, 0, 0, 0⟩)
        ∧ (i ∈ [Instr.lutBuildForward, .lutBuildReverse] → t.results = ⟨0, 0, 0, t.results.maxval, 0, 0, 0, 0⟩)
        ∧ (i ∈ [Instr.lutDump, .hufDumpCodes] → t.results = ⟨t.results.len, 0, 0, 0, 0, 0, 0, 0⟩)
        ∧ (i ∈ [Instr.hufCompress, .hufUncompress] →
          t.results = ⟨t.results.len, 0, 0, 0, t.results.nbits, t.results.im, t.results.imax, t.results.tablen⟩)

/-! ### The register window, reset, interrupts -/

/-- The parameter registers, IRQ_ENABLE and IRQ_STATUS can be written at any time: a parameter register reads back what was
written (MAXVAL its low 16 bits), and no other register, the running command, its latched operands, memory or a table
changes. Such a write cannot reach the running command: with other values in the parameter registers it gives the same
outcome, with those other values kept (10_state.md R38 to R47, R56; 70_reset_and_hazards.md R611). -/
def Obligations.ParameterWritesAnyTime : Prop :=
  (∀ (s : State) (r : Reg) (v : Word32) (rest : List HostOp), s.engineDue = false →
    s.hostq = .regWrite .w32 (regOffset r) v :: rest →
    (r ∈ [Reg.srcAddr, .srcLen, .dstAddr, .dstLen, .auxAddr, .auxLen, .nx, .ny, .ox, .oy, .maxval, .irqEnable,
      .irqStatus]) →
    ∃ t, step s = .next t
      ∧ t.readReg r = (if r = .maxval then v &&& 0xFFFF else if r = .irqEnable then v &&& 0x7
        else if r = .irqStatus then s.readReg .irqStatus &&& ~~~v else v)
      ∧ (∀ r', r' ≠ r → t.readReg r' = s.readReg r') ∧ t.latched = s.latched ∧ t.phase = s.phase ∧ t.mem = s.mem
      ∧ s.tablesKept t ∧ t.raced = s.raced ∧ t.hostq = rest)
  ∧ ∀ (i : Instr) (s : State) (p : Params),
    exec i (s.withParams p) =
      (match exec i s with
        | .next t => .next (t.withParams p)
        | .fault f => .fault f
        | .refused r => .refused r)

/-- An access to the window that is not an aligned 32-bit one gets a bus error and changes nothing; a reserved offset reads 0
and ignores writes; so do the reserved bits of every register (10_state.md R55). -/
def Obligations.ReservedAndMalformedAccesses : Prop :=
  (∀ (s : State) (width : Width) (off : BitVec 12) (v : Word32), (width ≠ .w32 ∨ off.toNat % 4 ≠ 0) →
    hostRegWrite width off v s = s.respond .busError ∧ hostRegRead width off s = s.respond .busError)
  ∧ (∀ (s : State) (off : BitVec 12) (v : Word32), off.toNat % 4 = 0 →
    (off.toNat = 0x01C ∨ off.toNat = 0x04C ∨ 0x070 ≤ off.toNat) →
    hostRegWrite .w32 off v s = s.respond .written ∧ hostRegRead .w32 off s = s.respond (.data 0))
  ∧ ∀ (s : State) (r : Reg) (reserved : Word32),
    (r, reserved) ∈ [(Reg.caps, 0xFF000000#32), (.ctrl, 0xFFFFFFFE), (.status, 0xFFF000FC), (.irqStatus, 0xFFFFFFF8),
      (.irqEnable, 0xFFFFFFF8), (.maxval, 0xFFFF0000), (.resMinnz, 0xFFFF0000), (.resMaxnz, 0xFFFF0000),
      (.resMaxval, 0xFFFF0000)] →
    s.readReg r &&& reserved = 0 ∧ ∀ v, s.writeReg r v = s.writeReg r (v &&& ~~~reserved)

/-- The register map and what reads return: each register at its offset; the constants of ID and CAPS in every state, 0 of
CTRL and CMD; STATUS shows BUSY, DONE, ERRCODE, the valid bits and LUT_KIND at their places, and in a sound state BUSY and
DONE are never both 1; the parameter, interrupt and result registers read what they hold, after a completion the command's
results. A write of a read-only register, and a write of CTRL with SRST 0, change nothing (10_state.md R32 to R53). -/
def Obligations.RegisterReads : Prop :=
  (∀ (s : State) (v : Word32) (p : Reg × BitVec 12),
    p ∈ [(Reg.id, 0x000#12), (.caps, 0x004), (.ctrl, 0x008), (.status, 0x00C), (.cmd, 0x010), (.irqStatus, 0x014),
      (.irqEnable, 0x018), (.srcAddr, 0x020), (.srcLen, 0x024), (.dstAddr, 0x028), (.dstLen, 0x02C), (.auxAddr, 0x030),
      (.auxLen, 0x034), (.nx, 0x038), (.ny, 0x03C), (.ox, 0x040), (.oy, 0x044), (.maxval, 0x048), (.resLen, 0x050),
      (.resMinnz, 0x054), (.resMaxnz, 0x058), (.resMaxval, 0x05C), (.resNbits, 0x060), (.resIm, 0x064),
      (.resImax, 0x068), (.resTablen, 0x06C)] →
    regOffset p.1 = p.2 ∧ hostRegRead .w32 p.2 s = s.respond (.data (s.readReg p.1))
      ∧ hostRegWrite .w32 p.2 v s = (s.writeReg p.1 v).respond .written)
  ∧ (∀ s : State,
    let w := s.readReg .status
    s.readReg .id = 0x50495A01 ∧ s.readReg .caps = 0x00013A0E ∧ s.readReg .ctrl = 0 ∧ s.readReg .cmd = 0
      ∧ w.getLsbD 0 = s.busy ∧ w.getLsbD 1 = s.done ∧ w.extractLsb' 8 8 = s.errcode.toByte
      ∧ w.getLsbD 16 = s.bitmap.isSome ∧ w.getLsbD 17 = s.lut.isSome ∧ w.getLsbD 18 = decide (s.lutKind = .reverse)
      ∧ w.getLsbD 19 = s.codes.isSome ∧ w.extractLsb' 2 6 = 0 ∧ w.extractLsb' 20 12 = 0
      ∧ (s.Inv → ¬ (w.getLsbD 0 = true ∧ w.getLsbD 1 = true))
      ∧ s.readReg .irqStatus = s.irqStatus.setWidth 32 ∧ s.readReg .irqEnable = s.irqEnable.setWidth 32
      ∧ s.readReg .srcAddr = s.params.srcAddr ∧ s.readReg .srcLen = s.params.srcLen
      ∧ s.readReg .dstAddr = s.params.dstAddr ∧ s.readReg .dstLen = s.params.dstLen
      ∧ s.readReg .auxAddr = s.params.auxAddr ∧ s.readReg .auxLen = s.params.auxLen
      ∧ s.readReg .nx = s.params.nx ∧ s.readReg .ny = s.params.ny ∧ s.readReg .ox = s.params.ox
      ∧ s.readReg .oy = s.params.oy ∧ s.readReg .maxval = s.params.maxval.setWidth 32)
  ∧ (∀ (s t : State) (e : ErrCode) (r : Results), s.completed t e r →
    t.readReg .resLen = r.len ∧ t.readReg .resMinnz = r.minnz.setWidth 32 ∧ t.readReg .resMaxnz = r.maxnz.setWidth 32
      ∧ t.readReg .resMaxval = r.maxval.setWidth 32 ∧ t.readReg .resNbits = r.nbits ∧ t.readReg .resIm = r.im
      ∧ t.readReg .resImax = r.imax ∧ t.readReg .resTablen = r.tablen)
  ∧ ∀ (s : State) (v : Word32),
    (∀ r ∈ [Reg.id, .caps, .status, .resLen, .resMinnz, .resMaxnz, .resMaxval, .resNbits, .resIm, .resImax,
        .resTablen], s.writeReg r v = s)
      ∧ (v.getLsbD 0 = false → s.writeReg .ctrl v = s)

/-- A CMD write while a command is busy is dropped: it sets OVERRUN, and the running command, its operands, the registers,
memory and the tables stay (10_state.md R37, 70_reset_and_hazards.md R622). -/
def Obligations.CmdWriteWhileBusyIsDropped : Prop :=
  ∀ (s : State) (w v : Word32) (rest : List HostOp), s.phase = .busy w → 0 < s.delay →
    s.hostq = .regWrite .w32 (regOffset .cmd) v :: rest →
    ∃ t, step s = .next t ∧ t.irqStatus = s.irqStatus ||| 0b100 ∧ t.phase = .busy w ∧ t.latched = s.latched
      ∧ t.params = s.params ∧ t.done = s.done ∧ t.errcode = s.errcode ∧ t.results = s.results
      ∧ t.irqEnable = s.irqEnable ∧ t.mem = s.mem ∧ s.tablesKept t ∧ t.raced = s.raced ∧ t.hostq = rest

/-- The interrupt output is asserted exactly while some enabled bit of IRQ_STATUS is pending; a host clears a bit by writing 1
to it and leaves it by writing 0, and a bit set by the block in the same step ends up 1 (60_exceptions.md R531,
10_state.md R38). -/
def Obligations.InterruptOutputAndClearing : Prop :=
  (∀ s : State, s.irqLevel = true ↔ ∃ k < 3, (s.readReg .irqStatus).getLsbD k = true ∧ (s.readReg .irqEnable).getLsbD k = true)
    ∧ (∀ (s : State) (v : Word32) (k : Nat), k < 3 →
      ((s.writeReg .irqStatus v).readReg .irqStatus).getLsbD k = ((s.readReg .irqStatus).getLsbD k && !v.getLsbD k))
    ∧ ∀ (status clear set : BitVec 3) (k : Nat), k < 3 → set.getLsbD k = true →
      (irqNext status clear set).getLsbD k = true

/-- After hardware or soft reset, from any state, the phase is IDLE, every register of the map reads its reset value, the
interrupt output is deasserted and the valid bits are 0; and the machine starts so (10_state.md R32, R67;
70_reset_and_hazards.md R600, R602). -/
def Obligations.ResetValues : Prop :=
  ∀ (s : State) (t : State),
    (t = State.reset ∨ t = s.blockReset ∨ (∃ v, v.getLsbD 0 = true ∧ t = s.writeReg .ctrl v)) →
    t.phase = .idle ∧ t.irqLevel = false ∧ t.bitmap = none ∧ t.lut = none ∧ t.codes = none
      ∧ t.readReg .id = 0x50495A01 ∧ t.readReg .caps = 0x00013A0E
      ∧ ∀ r, r ≠ Reg.id → r ≠ .caps → t.readReg r = 0

/-- A reset, by a host's write of 1 to CTRL.SRST or by the reset input, abandons a running command: no DONE, no ERRCODE, no
IRQ_STATUS bit; the bytes outside the command's W and RW regions are unchanged, and so is all of memory when the engine is
idle; the hosts' next access finds the reset state (70_reset_and_hazards.md R600, R602, R603). -/
def Obligations.ResetAbandonsTheCommand : Prop :=
  ∀ (s : State) (op : HostOp) (rest : List HostOp), s.mem.wf = true → s.engineDue = false → s.hostq = op :: rest →
    (op = .hardReset ∨ ∃ v, v.getLsbD 0 = true ∧ op = .regWrite .w32 (regOffset .ctrl) v) →
    ∃ t, step s = .next t ∧ t.phase = .idle ∧ t.done = false ∧ t.errcode = .ok ∧ t.irqStatus = 0 ∧ t.irqEnable = 0
      ∧ t.params = {} ∧ t.results = {} ∧ t.bitmap = none ∧ t.lut = none ∧ t.codes = none ∧ t.platform = s.platform
      ∧ t.hostq = rest ∧ (s.phase = .idle → t.mem = s.mem)
      ∧ ∀ a, (∀ w i, s.phase = .busy w → decode w = .ok i →
          ∀ r ∈ regions i s.latched, r.access ≠ .r → a < r.base ∨ r.base + r.size ≤ a) →
        t.mem.read a = s.mem.read a

/-! ### Hosts -/

/-- A host store outside the register window puts its bytes in memory in ascending order and changes no other byte, register or
table; it races the running command exactly when one of its bytes lies in a region of that command, R, W or RW. A store that
meets the register window arrives element by element: four bytes at an offset that is a multiple of 4 are a write of that
register, any other access is a bus error that changes nothing (30_encoding.md R148, 20_memory.md R90, R91, R93, 10_state.md
R32, R55, 70_reset_and_hazards.md R620). The model's choices: it meets no bus error outside the window, whatever the bus
answers DMA (log 4); a device's bytes are no memory and the store ends there (log 13); one address space (log 30). -/
def Obligations.HostStoreWritesItsBytes : Prop :=
  ∀ (s : State) (width : Width) (a : Nat) (bs : List Byte) (c : Bool) (rest : List HostOp),
    s.mem.wf = true → s.engineDue = false → s.hostq = .memWrite width a bs c :: rest →
    let base := s.platform.regBase
    let meets := ∃ k < bs.length, base ≤ a + k ∧ a + k < base + 4096
    let device := fun k => ∃ sp ∈ s.platform.devices, sp.base ≤ k ∧ k < sp.base + sp.size
    (¬ meets → a + bs.length ≤ Config.addrSpace → c = true ∨ s.platform.dmaCoherent = true →
      ∃ t, step s = .next t ∧ (∀ k < bs.length, ¬ device (a + k) → t.mem.read (a + k) = bs.getD k 0)
        ∧ (∀ k < bs.length, device (a + k) → t.mem.read (a + k) = s.mem.read (a + k))
        ∧ s.mem.keptOutside t.mem a bs.length ∧ s.tablesKept t ∧ (∀ r, t.readReg r = s.readReg r)
        ∧ t.latched = s.latched ∧ t.phase = s.phase ∧ t.hostq = rest ∧ t.responses = .written :: s.responses
        ∧ (t.raced = true ↔ s.raced = true ∨ ∃ k < bs.length, ∃ w i, s.phase = .busy w ∧ decode w = .ok i
          ∧ ∃ r ∈ regions i s.latched, r.base ≤ a + k ∧ a + k < r.base + r.size))
    ∧ (meets → width.bytes < bs.length →
      step s = step { s with hostq := (.memWrite width a (bs.take width.bytes) c
        :: .memWrite width (a + width.bytes) (bs.drop width.bytes) c :: rest) })
    ∧ (meets → bs.length ≤ width.bytes →
      (∀ off : BitVec 12, bs.length = 4 → a = base + off.toNat → off.toNat % 4 = 0 →
        step s = step { s with hostq :=
          (.regWrite .w32 off (bs.getD 3 0 ++ bs.getD 2 0 ++ bs.getD 1 0 ++ bs.getD 0 0) :: rest) })
      ∧ (¬ (bs.length = 4 ∧ base ≤ a ∧ (a - base) % 4 = 0) → step s = .next ((s.arrive rest).respond .busError)))

/-- A host read outside the register window returns the bytes of memory, but at the bytes of a running command's W and RW
regions and of devices, where it returns free values of the model; it changes no memory, table or register, and races the
command exactly when it meets one of those regions. A read that meets the register window arrives element by element: four
bytes at an offset that is a multiple of 4 are a read of that register, any other access is a bus error that changes nothing
(30_encoding.md R150, 20_memory.md R91, R98, 10_state.md R32, R55, 70_reset_and_hazards.md R620; log 28). The model's choices:
it meets no bus error outside the window, whatever the bus answers DMA (log 4); what a device answers (log 13); one address
space (log 30). -/
def Obligations.HostReadReturnsMemory : Prop :=
  ∀ (s : State) (width : Width) (a n : Nat) (c : Bool) (rest : List HostOp),
    s.mem.wf = true → s.engineDue = false → s.hostq = .memRead width a n c :: rest →
    let base := s.platform.regBase
    let meets := ∃ k < n, base ≤ a + k ∧ a + k < base + 4096
    let device := fun k => ∃ sp ∈ s.platform.devices, sp.base ≤ k ∧ k < sp.base + sp.size
    let written := fun k => ∃ w i, s.phase = .busy w ∧ decode w = .ok i
      ∧ ∃ r ∈ regions i s.latched, r.access ≠ .r ∧ r.base ≤ k ∧ k < r.base + r.size
    (¬ meets → a + n ≤ Config.addrSpace → c = true ∨ s.platform.dmaCoherent = true →
      ∃ t bs, step s = .next t ∧ t.responses = .bytes bs :: s.responses ∧ bs.length = n
        ∧ (∀ k < n, ¬ written (a + k) → ¬ device (a + k) → bs.getD k 0 = s.mem.read (a + k))
        ∧ (∀ k < n, written (a + k) ∨ device (a + k) → bs.getD k 0 = Config.freeByte s.fresh (a + k))
        ∧ t.mem = s.mem ∧ s.tablesKept t ∧ (∀ r, t.readReg r = s.readReg r) ∧ t.latched = s.latched
        ∧ t.phase = s.phase ∧ t.hostq = rest
        ∧ (t.raced = true ↔ s.raced = true ∨ ∃ k < n, written (a + k)))
    ∧ (meets → width.bytes < n →
      step s = step { s with hostq := (.memRead width a width.bytes c
        :: .memRead width (a + width.bytes) (n - width.bytes) c :: rest) })
    ∧ (meets → n ≤ width.bytes →
      (∀ off : BitVec 12, n = 4 → a = base + off.toNat → off.toNat % 4 = 0 →
        step s = step { s with hostq := .regRead .w32 off :: rest })
      ∧ (¬ (n = 4 ∧ base ≤ a ∧ (a - base) % 4 = 0) → step s = .next ((s.arrive rest).respond .busError)))

/-- A command raced by a host still completes: OK or a code its rule can raise, nothing outside its W and RW regions changed,
and no table its rule does not write. The valid bits of those it writes are the ones its code gives: after OK all but the
code table of a Huffman stage with nothing to do, after a code that only the parameter checks raise the bits from before,
after one that comes before every table none. The bytes of its W and RW regions, its result registers and the contents of
the tables it writes are free values, each its own: a code of any length, 0 among them (70_reset_and_hazards.md R620,
10_state.md R64, 41_huffman_encode.md R253; the free outcomes are the model's, log 10). -/
def Obligations.RacedCommandStaysInBounds : Prop :=
  ∀ (s : State) (w : Word32) (i : Instr), s.mem.wf = true → s.phase = .busy w → decode w = .ok i → s.raced = true →
    (s.delay = 0 ∨ s.hostq = []) → touchesDevice i s = false →
    ∃ t, step s = .next t ∧ t.phase = .idle ∧ t.done = true
      ∧ (t.errcode = .ok ∨ t.errcode ∈ raisableCodes i) ∧ t.errcode ≠ .codeLengthOverflow ∧ t.errcode ≠ .illegalCmd
      ∧ t.irqStatus = s.irqStatus ||| (if t.errcode = .ok then 0b001 else 0b010) ∧ s.hostSideKept t
      ∧ (∀ a, (∀ r ∈ regions i s.latched, r.access ≠ .r → a < r.base ∨ r.base + r.size ≤ a) →
        t.mem.read a = s.mem.read a)
      ∧ (i ∉ [Instr.lutBitmapFromData, .lutBitmapLoad, .pizCompress, .pizUncompress] → t.bitmap = s.bitmap)
      ∧ (i ∉ [Instr.lutBuildForward, .lutBuildReverse, .pizCompress, .pizUncompress] →
        t.lut = s.lut ∧ t.lutKind = s.lutKind)
      ∧ (i ∉ [Instr.hufCompress, .hufUncompress, .pizCompress, .pizUncompress] → t.codes = s.codes)
      ∧ (t.errcode = .ok → i ∈ [Instr.lutBitmapFromData, .lutBitmapLoad, .pizCompress, .pizUncompress] →
        t.bitmap.isSome = true)
      ∧ (t.errcode = .ok → i = .pizCompress → t.lut.isSome = true ∧ t.lutKind = .forward)
      ∧ (t.errcode = .ok → i = .pizUncompress → t.lut.isSome = true ∧ t.lutKind = .reverse)
      ∧ (t.errcode = .ok → i = .hufCompress ∨ i = .pizCompress → t.codes.isSome = decide (s.latched.srcLen ≠ 0))
      ∧ (t.errcode = .ok → i = .hufUncompress → t.codes.isSome = decide (20 ≤ s.latched.srcLen.toNat))
      ∧ (t.errcode = .ok → i = .pizUncompress → s.latched.dstLen ≠ 0 → t.codes.isSome = true)
      ∧ (t.errcode = .misaligned ∨ t.errcode = .overlap →
        t.bitmap.isSome = s.bitmap.isSome ∧ t.lut.isSome = s.lut.isSome ∧ t.lutKind = s.lutKind
          ∧ t.codes.isSome = s.codes.isSome)
      ∧ (t.errcode ∈ [ErrCode.notEnoughData, .bitmapSize, .busError] → i = .lutBitmapFromData ∨ i = .lutBitmapLoad →
        t.bitmap = none)
      ∧ (t.errcode ∈ [ErrCode.invalidTableSize, .tableEnd, .tableTooLong, .pizLength, .bitmapSize] →
        i = .hufUncompress ∨ i = .pizUncompress → t.codes = none)
      ∧ (t.errcode ∈ [ErrCode.invalidNbits, .invalidTableEntry, .invalidCode, .tooMuchData] → t.codes.isSome = true)
      ∧ (∀ r ∈ regions i s.latched, r.access ≠ .r → ∀ a < 2 ^ 32, r.base ≤ a → a < r.base + r.size →
        t.mem.read a = Config.freeByte s.fresh a)
      ∧ t.results = racedResults s.fresh
      ∧ (i ∈ [Instr.lutBitmapFromData, .lutBitmapLoad, .pizCompress, .pizUncompress] →
        ∀ b, t.bitmap = some b → b = Config.raceBitmap s.fresh)
      ∧ (i ∈ [Instr.pizCompress, .pizUncompress] →
        ∀ f, t.lut = some f → ∀ v < 65536, Lut.entry f v = Config.raceLut s.fresh v)
      ∧ (i ∈ [Instr.hufCompress, .hufUncompress, .pizCompress, .pizUncompress] →
        ∀ c, t.codes = some c → ∀ k < 65537,
          c.hlen k = (Config.raceLen s.fresh k).val ∧ c.hcode k = (Config.raceCode s.fresh k).toNat)

/-- A host's `wait` after an issue ends: whatever number of accesses the model lets precede the completion, that many steps
later the command runs and the next step's read of STATUS finds DONE (30_encoding.md R145, R149). The number of steps is the
model's `delays` (log 2), the wait one entry of the hosts' list that is answered once, with its last read (log 22), in the
model's record of answers (log 26). -/
def Obligations.WaitEndsAfterCompletion : Prop :=
  ∀ (s : State) (w : Word32) (i : Instr) (rest : List HostOp), s.phase = .busy w → decode w = .ok i → s.done = false →
    touchesDevice i s = false → s.hostq = .wait :: rest →
    ∃ t, runSteps (s.delay + 2) s = some t ∧ t.phase = .idle ∧ t.done = true ∧ t.hostq = rest
      ∧ t.responses = .data t.statusWord :: s.responses

/-- Host script statements and pseudo-instructions stand for the bus transactions the spec lists, in order, and a script for
those of its statements one after the other; `expect` for its read. That `wait` is one entry that repeats its read, alone and
in `run`, is the model's (log 22), and so is that a script's stores count as written back (log 12)
(30_encoding.md R148, R149, R150). -/
def Obligations.ScriptExpansion : Prop :=
  (∀ r v, expandStmt (.wr r v) = [.regWrite .w32 (regOffset r) v])
    ∧ (∀ r, expandStmt (.rd r) = [.regRead .w32 (regOffset r)])
    ∧ (∀ i, expandStmt (.cmd i) = [.regWrite .w32 0x010 (encode i)])
    ∧ (∀ w, expandStmt (.cmdw w) = [.regWrite .w32 0x010 w])
    ∧ (∀ a vs, expandStmt (.mem8 a vs) = [.memWrite .w8 a vs true])
    ∧ (∀ a (vs : List Sample), ∃ bs, expandStmt (.mem16 a vs) = [.memWrite .w16 a bs true] ∧ bs.length = 2 * vs.length
      ∧ ∀ k < vs.length, bs.getD (2 * k + 1) 0 ++ bs.getD (2 * k) 0 = vs.getD k 0)
    ∧ (∀ a (vs : List Word32), ∃ bs, expandStmt (.mem32 a vs) = [.memWrite .w32 a bs true] ∧ bs.length = 4 * vs.length
      ∧ ∀ k < vs.length,
        bs.getD (4 * k + 3) 0 ++ bs.getD (4 * k + 2) 0 ++ bs.getD (4 * k + 1) 0 ++ bs.getD (4 * k) 0 = vs.getD k 0)
    ∧ expandStmt .wait = [.wait]
    ∧ (∀ i, expandStmt (.run i) = [.regWrite .w32 0x010 (encode i), .wait])
    ∧ expandStmt .ack = [.regWrite .w32 0x014 0x7] ∧ expandStmt .srst = [.regWrite .w32 0x008 0x1]
    ∧ (∀ src srcLen dst dstLen, expandStmt (.setbuf src srcLen dst dstLen) =
      [.regWrite .w32 0x020 src, .regWrite .w32 0x024 srcLen, .regWrite .w32 0x028 dst, .regWrite .w32 0x02C dstLen])
    ∧ (∀ nx ny ox oy mx, expandStmt (.grid nx ny ox oy mx) =
      [.regWrite .w32 0x038 nx, .regWrite .w32 0x03C ny, .regWrite .w32 0x040 ox, .regWrite .w32 0x044 oy,
        .regWrite .w32 0x048 mx])
    ∧ (∀ r v, expandStmt (.expect r v) = [.regRead .w32 (regOffset r)])
    ∧ ∀ p q, expandScript (p ++ q) = expandScript p ++ expandScript q

/-! ### Invariants -/

/-- The invariant holds right after reset, where memory has nothing listed (log 5). -/
def Obligations.InvariantHoldsAtReset : Prop := State.reset.Inv ∧ State.reset.mem.inSpace

/-- Every step keeps the invariant: memory and the tables stay in their canonical forms, and a running command stays quiet. -/
def Obligations.EveryStepKeepsTheInvariant : Prop :=
  ∀ s t : State, s.Inv → step s = .next t → t.Inv

/-- Every step keeps memory inside the address space (20_memory.md R90, R95). -/
def Obligations.EveryStepKeepsMemoryInSpace : Prop :=
  ∀ s t : State, s.mem.wf = true → s.mem.inSpace → step s = .next t → t.mem.inSpace
end
end

