-- ==== Sys2Proof/Laws/Lut.lean ====
section
/-! SUPPORT. The set bits of BITMAP as a list: the values that occur, in ascending order. -/

namespace Sys2Proof.Machine

/-- Bits of a number that is below a power of two. -/
theorem testBit_of_lt_pow {n k j : Nat} (h : n < 2 ^ k) (hj : k ≤ j) : n.testBit j = false :=
  Nat.testBit_lt_two_pow (lt_of_lt_of_le h (Nat.pow_le_pow_right (by decide) hj))

/-- Taking the highest bit off leaves the other bits. -/
theorem testBit_sub_log2 (n j : Nat) (hn : n ≠ 0) :
    (n - 2 ^ n.log2).testBit j = (n.testBit j && decide (j ≠ n.log2)) := by
  have h1 : 2 ^ n.log2 ≤ n := Nat.log2_self_le hn
  have h2 : n < 2 ^ (n.log2 + 1) := Nat.lt_log2_self
  have h3 : n - 2 ^ n.log2 < 2 ^ n.log2 := by rw [pow_succ] at h2; omega
  have h4 : n = 2 ^ n.log2 + (n - 2 ^ n.log2) := by omega
  rcases Nat.lt_trichotomy j n.log2 with hj | hj | hj
  · have e := congrArg (fun z => z.testBit j) h4
    simp only [Nat.testBit_two_pow_add_gt hj] at e
    rw [e, decide_eq_true (Nat.ne_of_lt hj), Bool.and_true]
  · rw [hj, testBit_of_lt_pow h3 (le_refl _)]
    simp
  · rw [testBit_of_lt_pow h3 (le_of_lt hj), testBit_of_lt_pow h2 hj]
    rfl

/-- `setBitsInto` lists the set bits, ascending, in front of those already taken. -/
theorem setBitsInto_eq (fuel n : Nat) (acc : List Nat) (h : n < 2 ^ fuel) :
    setBitsInto fuel n acc = (List.range fuel).filter n.testBit ++ acc := by
  induction fuel generalizing n acc with
  | zero => simp [setBitsInto]
  | succ fuel ih =>
    rw [setBitsInto]
    split
    · rename_i h0
      subst h0
      rw [List.filter_eq_nil_iff.2 (by simp)]
      rfl
    · rename_i h0
      have h2 : n < 2 ^ (n.log2 + 1) := Nat.lt_log2_self
      have h1 : 2 ^ n.log2 ≤ n := Nat.log2_self_le h0
      have h3 : n - 2 ^ n.log2 < 2 ^ n.log2 := by rw [pow_succ] at h2; omega
      have hle : n.log2 ≤ fuel := by
        by_contra hc
        have : 2 ^ (fuel + 1) ≤ 2 ^ n.log2 := Nat.pow_le_pow_right (by decide) (by omega)
        omega
      rw [ih _ _ (lt_of_lt_of_le h3 (Nat.pow_le_pow_right (by decide) hle))]
      have key : ∀ k, n.log2 ≤ k → (List.range (k + 1)).filter n.testBit
          = (List.range k).filter (n - 2 ^ n.log2).testBit ++ [n.log2] := by
        intro k hk
        induction k, hk using Nat.le_induction with
        | base =>
          rw [List.range_succ, List.filter_append]
          congr 1
          · apply List.filter_congr
            intro j hj
            rw [List.mem_range] at hj
            rw [testBit_sub_log2 n j h0]
            simp [Nat.ne_of_lt hj]
          · have : n.testBit n.log2 = true := by
              have h4 : n = 2 ^ n.log2 + (n - 2 ^ n.log2) := by omega
              have e := congrArg (fun z => z.testBit n.log2) h4
              simp only [Nat.testBit_two_pow_add_eq, testBit_of_lt_pow h3 (le_refl _)] at e
              exact e
            simp [this]
        | succ k hk ih2 =>
          rw [List.range_succ, List.filter_append, ih2, List.range_succ (n := k), List.filter_append]
          have e1 : n.testBit (k + 1) = false := testBit_of_lt_pow h2 (by omega)
          have e2 : (n - 2 ^ n.log2).testBit k = false := testBit_of_lt_pow h3 hk
          simp [e1, e2]
      rw [key fuel hle, List.append_assoc, List.singleton_append]

theorem setBitsInto_bitVec (w : Nat) (b : BitVec w) :
    setBitsInto w b.toNat [] = (List.range w).filter b.getLsbD := by
  rw [setBitsInto_eq _ _ _ b.isLt, List.append_nil]
  rfl

/-- The set bits of BITMAP are the values below 65536 whose bit is set, ascending. -/
theorem Bitmap.setBits_eq (b : Bitmap) : b.setBits = (List.range 65536).filter fun v => b.bit v :=
  setBitsInto_bitVec 65536 b

theorem Bitmap.mem_setBits (b : Bitmap) (v : Nat) : v ∈ b.setBits ↔ b.bit v = true := by
  rw [Bitmap.setBits_eq, List.mem_filter, List.mem_range]
  refine ⟨fun h => h.2, fun h => ⟨?_, h⟩⟩
  by_contra hc
  rw [Bitmap.bit, BitVec.getLsbD_of_ge _ _ (by omega)] at h
  cases h

theorem Bitmap.setBits_pairwise (b : Bitmap) : b.setBits.Pairwise (· < ·) := by
  rw [Bitmap.setBits_eq]
  exact List.Pairwise.filter _ List.pairwise_lt_range

/-- Bit `t` of a BITMAP byte is the bit of the value `8 j + t` (40_lut.md R201). -/
theorem Bitmap.byte_getLsbD (b : Bitmap) (j t : Nat) (h : t < 8) : (b.byte j).getLsbD t = b.bit (8 * j + t) := by
  simp [Bitmap.byte, Bitmap.bit, h]

end Sys2Proof.Machine
end

