-- ==== Sys2Proof/Laws/Memory.lean ====
section
/-! SUPPORT. Laws of sparse lists and of memory: what a read returns after a write, and that every memory operation keeps the
canonical form. -/

namespace Sys2Proof.Machine

/-! ### Sparse lists -/

theorem keysRise_iff_pairwise {α : Type} (m : List (Nat × α)) :
    keysRise m = true ↔ m.Pairwise (fun c d => c.1 < d.1) := by
  induction m with
  | nil => simp [keysRise]
  | cons c rest ih =>
    obtain ⟨j, v⟩ := c
    cases rest with
    | nil => simp [keysRise]
    | cons d rest =>
      obtain ⟨k, w⟩ := d
      rw [keysRise, Bool.and_eq_true, ih]
      constructor
      · rintro ⟨hjk, hp⟩
        refine List.pairwise_cons.2 ⟨fun e he => ?_, hp⟩
        rcases List.mem_cons.1 he with rfl | he
        · simpa using hjk
        · have := (List.pairwise_cons.1 hp).1 e he
          simp at hjk this ⊢
          omega
      · intro h
        have h := List.pairwise_cons.1 h
        exact ⟨by simpa using h.1 (k, w) (by simp), h.2⟩

@[simp] theorem sparseGet_nil {α : Type} (d : α) (k : Nat) : sparseGet d [] k = d := rfl

theorem sparseGet_cons {α : Type} (d : α) (j : Nat) (v : α) (rest : List (Nat × α)) (k : Nat) :
    sparseGet d ((j, v) :: rest) k = if j = k then v else sparseGet d rest k := rfl

theorem sparseGet_of_forall_ne {α : Type} (d : α) (m : List (Nat × α)) (k : Nat) (h : ∀ c ∈ m, c.1 ≠ k) :
    sparseGet d m k = d := by
  induction m with
  | nil => rfl
  | cons c rest ih =>
    obtain ⟨j, v⟩ := c
    rw [sparseGet_cons, if_neg (h (j, v) (by simp)), ih fun c hc => h c (by simp [hc])]

/-- A key of the first list, or none of it, decides where a joined list is read. -/
theorem sparseGet_append {α : Type} (d : α) (m m' : List (Nat × α)) (k : Nat) :
    sparseGet d (m ++ m') k = if ∃ c ∈ m, c.1 = k then sparseGet d m k else sparseGet d m' k := by
  induction m with
  | nil => simp
  | cons c rest ih =>
    obtain ⟨j, v⟩ := c
    rw [List.cons_append, sparseGet_cons, sparseGet_cons, ih]
    by_cases hj : j = k
    · simp [hj]
    · simp only [List.exists_mem_cons_iff, hj, if_false, false_or]

theorem sparseGet_mem {α : Type} (d : α) (m : List (Nat × α)) (h : keysRise m = true) (c : Nat × α) (hc : c ∈ m) :
    sparseGet d m c.1 = c.2 := by
  rw [keysRise_iff_pairwise] at h
  induction m with
  | nil => simp at hc
  | cons e rest ih =>
    obtain ⟨j, v⟩ := e
    rw [List.pairwise_cons] at h
    rcases List.mem_cons.1 hc with rfl | hc'
    · simp [sparseGet_cons]
    · have := h.1 c hc'
      simp only at this
      rw [sparseGet_cons, if_neg (by omega), ih h.2 hc']

/-- What a run of a rising list holds: the values at the keys in order. -/
theorem sparseRun_eq_map {α : Type} (d : α) (m : List (Nat × α)) (k n : Nat) (h : keysRise m = true)
    (hk : ∀ c ∈ m, k ≤ c.1) : sparseRun d m k n = (List.range' k n).map (sparseGet d m) := by
  induction n generalizing m k with
  | zero => cases m <;> simp [sparseRun]
  | succ n ih =>
    cases m with
    | nil =>
      rw [sparseRun, ih [] (k + 1) rfl (by simp), List.range'_succ, List.map_cons, sparseGet_nil]
    | cons c rest =>
      obtain ⟨j, v⟩ := c
      have hp := (keysRise_iff_pairwise _).1 h
      rw [List.pairwise_cons] at hp
      have hr : keysRise rest = true := (keysRise_iff_pairwise _).2 hp.2
      have hjk : k ≤ j := hk (j, v) (by simp)
      rw [sparseRun, List.range'_succ, List.map_cons, sparseGet_cons]
      by_cases hj : j = k
      · rw [if_pos hj, if_pos hj, ih rest (k + 1) hr fun c hc => by have := hp.1 c hc; simp at this; omega]
        congr 1
        apply List.map_congr_left
        intro a ha
        rw [List.mem_range'_1] at ha
        rw [sparseGet_cons, if_neg (by omega)]
      · rw [if_neg hj, if_neg hj, ih ((j, v) :: rest) (k + 1) h fun c hc => by
          rcases List.mem_cons.1 hc with rfl | hc
          · show k + 1 ≤ j; omega
          · have := hp.1 c hc; simp at this; omega]
        congr 1
        exact (sparseGet_of_forall_ne d rest k fun c hc => by have := hp.1 c hc; simp at this; omega).symm

@[simp] theorem sparseRun_length {α : Type} (d : α) (m : List (Nat × α)) (k n : Nat) :
    (sparseRun d m k n).length = n := by
  induction n generalizing m k with
  | zero => cases m <;> simp [sparseRun]
  | succ n ih =>
    cases m with
    | nil => simp [sparseRun, ih]
    | cons c rest =>
      obtain ⟨j, v⟩ := c
      rw [sparseRun]
      split <;> simp [ih]

/-! ### Byte and sample sequences -/

@[simp] theorem bytesOfSamples_length (xs : List Sample) : (bytesOfSamples xs).length = 2 * xs.length := by
  induction xs with
  | nil => rfl
  | cons v rest ih => simp [bytesOfSamples, ih]; omega

@[simp] theorem samplesOfBytes_bytesOfSamples (xs : List Sample) : samplesOfBytes (bytesOfSamples xs) = xs := by
  induction xs with
  | nil => rfl
  | cons v rest ih =>
    rw [bytesOfSamples, samplesOfBytes, ih]
    congr 1
    apply BitVec.eq_of_getLsbD_eq
    intro i hi
    rw [BitVec.getLsbD_append, BitVec.getLsbD_extractLsb', BitVec.getLsbD_extractLsb']
    by_cases h : i < 8
    · simp [h]
    · have e : 8 + (i - 8) = i := by omega
      have e2 : i - 8 < 8 := by omega
      simp [h, e, e2]

@[simp] theorem leBytes_length (n v : Nat) : (leBytes n v).length = n := by
  induction n generalizing v with
  | zero => rfl
  | succ n ih => simp [leBytes, ih]

/-- A value that fits is read back from its bytes (00_scope.md R13). -/
theorem leNat_leBytes (n v : Nat) (h : v < 256 ^ n) : leNat (leBytes n v) = v := by
  induction n generalizing v with
  | zero => simp at h; simp [leBytes, leNat, h]
  | succ n ih =>
    rw [leBytes, leNat, ih (v / 256) (by rw [pow_succ] at h; omega)]
    simp
    omega

/-! ### Memory -/

theorem Memory.wf_iff (m : Memory) :
    m.wf = true ↔ m.Pairwise (fun c d => c.1 < d.1) ∧ ∀ c ∈ m, c.2 ≠ Memory.unwritten := by
  rw [Memory.wf, Bool.and_eq_true, keysRise_iff_pairwise, List.all_eq_true]
  simp

@[simp] theorem Memory.read_nil (a : Nat) : Memory.read [] a = Memory.unwritten := rfl

theorem mem_cellsOf (a : Nat) (bs : List Byte) (c : Host.Cell) (h : c ∈ cellsOf a bs) :
    a ≤ c.1 ∧ c.1 < a + bs.length ∧ c.2 ≠ Memory.unwritten := by
  induction bs generalizing a with
  | nil => simp [cellsOf] at h
  | cons b bs ih =>
    rw [cellsOf] at h
    split at h
    · have := ih (a + 1) h
      simp only [List.length_cons]
      exact ⟨by omega, by omega, this.2.2⟩
    · rcases List.mem_cons.1 h with rfl | h
      · simp only [List.length_cons]
        exact ⟨le_refl _, by omega, by assumption⟩
      · have := ih (a + 1) h
        simp only [List.length_cons]
        exact ⟨by omega, by omega, this.2.2⟩

theorem cellsOf_pairwise (a : Nat) (bs : List Byte) : (cellsOf a bs).Pairwise (fun c d => c.1 < d.1) := by
  induction bs generalizing a with
  | nil => simp [cellsOf]
  | cons b bs ih =>
    rw [cellsOf]
    split
    · exact ih (a + 1)
    · exact List.pairwise_cons.2 ⟨fun c hc => by have := mem_cellsOf _ _ _ hc; simp; omega, ih (a + 1)⟩

theorem sparseGet_cellsOf (a : Nat) (bs : List Byte) (k : Nat) (h : a ≤ k) :
    sparseGet Memory.unwritten (cellsOf a bs) k = bs.getD (k - a) Memory.unwritten := by
  induction bs generalizing a with
  | nil => simp [cellsOf]
  | cons b bs ih =>
    rw [cellsOf]
    rcases Nat.eq_or_lt_of_le h with rfl | hlt
    · split
      · rw [sparseGet_of_forall_ne]
        · simp [*]
        · intro c hc; have := mem_cellsOf _ _ _ hc; omega
      · simp [sparseGet_cons]
    · have e : k - a = (k - (a + 1)) + 1 := by omega
      rw [e, List.getD_cons_succ, ← ih (a + 1) hlt]
      split
      · rfl
      · rw [sparseGet_cons, if_neg (by omega)]

theorem le_of_mem_dropWhile {α : Type} (m : List (Nat × α)) (a : Nat) (h : m.Pairwise fun c e => c.1 < e.1) :
    ∀ c ∈ m.dropWhile (fun c => c.1 < a), a ≤ c.1 := by
  induction m with
  | nil => simp
  | cons d m ih =>
    have hp := List.pairwise_cons.1 h
    intro c hc
    rw [List.dropWhile_cons] at hc
    split at hc
    · exact ih hp.2 c hc
    · rename_i hd
      simp at hd
      rcases List.mem_cons.1 hc with rfl | hc
      · exact hd
      · have := hp.1 c hc; omega

/-- A store keeps the canonical form. -/
theorem Memory.write_wf (m : Memory) (a : Nat) (bs : List Byte) (h : m.wf = true) : (m.write a bs).wf = true := by
  rw [Memory.wf_iff] at h ⊢
  have htw : ∀ c ∈ m.takeWhile (fun c => c.1 < a), c.1 < a := fun c hc => by
    simpa using List.mem_takeWhile_imp hc
  have hdw := le_of_mem_dropWhile m (a + bs.length) h.1
  refine ⟨?_, ?_⟩
  · rw [Memory.write, List.pairwise_append, List.pairwise_append]
    refine ⟨⟨h.1.sublist (List.takeWhile_sublist _), cellsOf_pairwise a bs, fun c hc d hd => ?_⟩,
      h.1.sublist (List.dropWhile_sublist _), fun c hc d hd => ?_⟩
    · have := htw c hc; have := mem_cellsOf _ _ _ hd; omega
    · have := hdw d hd
      rcases List.mem_append.1 hc with hc | hc
      · have := htw c hc; omega
      · have := mem_cellsOf _ _ _ hc; omega
  · intro c hc
    rcases List.mem_append.1 hc with hc | hc
    · rcases List.mem_append.1 hc with hc | hc
      · exact h.2 c ((List.takeWhile_sublist _).subset hc)
      · exact (mem_cellsOf _ _ _ hc).2.2
    · exact h.2 c ((List.dropWhile_sublist _).subset hc)

theorem sparseGet_takeWhile {α : Type} (d : α) (m : List (Nat × α)) (a k : Nat) (hk : k < a)
    (h : m.Pairwise fun c e => c.1 < e.1) :
    sparseGet d (m.takeWhile fun c => c.1 < a) k = sparseGet d m k := by
  induction m with
  | nil => rfl
  | cons c m ih =>
    obtain ⟨j, v⟩ := c
    rw [List.pairwise_cons] at h
    rw [List.takeWhile_cons]
    split
    · rw [sparseGet_cons, sparseGet_cons, ih h.2]
    · rename_i hj
      simp at hj
      rw [sparseGet_nil, sparseGet_cons, if_neg (by omega),
        sparseGet_of_forall_ne d m k fun c hc => by have := h.1 c hc; simp at this; omega]

theorem sparseGet_dropWhile {α : Type} (d : α) (m : List (Nat × α)) (a k : Nat) (hk : a ≤ k) :
    sparseGet d (m.dropWhile fun c => c.1 < a) k = sparseGet d m k := by
  induction m with
  | nil => rfl
  | cons c m ih =>
    obtain ⟨j, v⟩ := c
    rw [List.dropWhile_cons]
    split
    · rename_i hj
      simp at hj
      rw [ih, sparseGet_cons, if_neg (by omega)]
    · rfl

/-- What a byte reads as after a store: the stored byte inside the stored bytes, the old one outside. -/
theorem Memory.read_write (m : Memory) (a : Nat) (bs : List Byte) (k : Nat) (h : m.wf = true) :
    (m.write a bs).read k = if a ≤ k ∧ k < a + bs.length then bs.getD (k - a) Memory.unwritten else m.read k := by
  rw [Memory.wf_iff] at h
  unfold Memory.read Memory.write
  rw [sparseGet_append, sparseGet_append]
  have hc : ∀ c ∈ cellsOf a bs, a ≤ c.1 ∧ c.1 < a + bs.length := fun c hc =>
    ⟨(mem_cellsOf _ _ _ hc).1, (mem_cellsOf _ _ _ hc).2.1⟩
  have ht : ∀ c ∈ m.takeWhile (fun c => c.1 < a), c.1 < a := fun c hc => by
    simpa using List.mem_takeWhile_imp hc
  by_cases hk : k < a
  · have hno : ¬ ∃ c ∈ cellsOf a bs, c.1 = k := by
      rintro ⟨c, h1, h2⟩; have := hc c h1; omega
    rw [if_neg (by omega : ¬ (a ≤ k ∧ k < a + bs.length))]
    by_cases hin : ∃ c ∈ m.takeWhile (fun c => c.1 < a), c.1 = k
    · obtain ⟨c, h1, h2⟩ := hin
      rw [if_pos ⟨c, List.mem_append_left _ h1, h2⟩, if_pos ⟨c, h1, h2⟩,
        sparseGet_takeWhile _ _ _ _ hk h.1]
    · have hout : ¬ ∃ c ∈ m.takeWhile (fun c => c.1 < a) ++ cellsOf a bs, c.1 = k := by
        rintro ⟨c, h1, h2⟩
        rcases List.mem_append.1 h1 with h1 | h1
        · exact hin ⟨c, h1, h2⟩
        · exact hno ⟨c, h1, h2⟩
      rw [if_neg hout]
      have e1 : sparseGet Memory.unwritten m k = Memory.unwritten := by
        rw [← sparseGet_takeWhile _ m a k hk h.1]
        exact sparseGet_of_forall_ne _ _ _ fun c h1 h2 => hin ⟨c, h1, h2⟩
      rw [e1]
      apply sparseGet_of_forall_ne
      intro c h1 h2
      have h3 := (List.dropWhile_sublist _).subset h1
      have h4 := sparseGet_mem Memory.unwritten m ((keysRise_iff_pairwise m).2 h.1) c h3
      rw [h2, e1] at h4
      exact h.2 c h3 h4.symm
  · have hno : ¬ ∃ c ∈ m.takeWhile (fun c => c.1 < a), c.1 = k := by
      rintro ⟨c, h1, h2⟩; have := ht c h1; omega
    have e : (∃ c ∈ m.takeWhile (fun c => c.1 < a) ++ cellsOf a bs, c.1 = k) ↔ ∃ c ∈ cellsOf a bs, c.1 = k := by
      constructor
      · rintro ⟨c, h1, h2⟩
        rcases List.mem_append.1 h1 with h1 | h1
        · exact absurd ⟨c, h1, h2⟩ hno
        · exact ⟨c, h1, h2⟩
      · rintro ⟨c, h1, h2⟩
        exact ⟨c, List.mem_append_right _ h1, h2⟩
    simp only [e, hno, if_false]
    rw [sparseGet_cellsOf a bs k (by omega)]
    by_cases hlen : k < a + bs.length
    · rw [if_pos (show a ≤ k ∧ k < a + bs.length from ⟨by omega, hlen⟩)]
      split
      · rfl
      · rename_i hn
        have h5 : bs.getD (k - a) Memory.unwritten = Memory.unwritten := by
          rw [← sparseGet_cellsOf a bs k (by omega)]
          exact sparseGet_of_forall_ne _ _ _ fun c h1 h2 => hn ⟨c, h1, h2⟩
        rw [h5]
        apply sparseGet_of_forall_ne
        intro c h1 h2
        have := le_of_mem_dropWhile m (a + bs.length) h.1 c h1
        omega
    · rw [if_neg (show ¬ (a ≤ k ∧ k < a + bs.length) by omega),
        if_neg (by rintro ⟨c, h1, h2⟩; have := hc c h1; omega)]
      exact sparseGet_dropWhile _ _ _ _ (by omega)

/-! ### Bytes and samples of memory -/

/-- Reading bytes reads them one by one. -/
theorem Memory.bytes_eq (m : Memory) (a n : Nat) (h : m.wf = true) :
    m.bytes a n = (List.range' a n).map m.read := by
  rw [Memory.wf_iff] at h
  rw [Memory.bytes, sparseRun_eq_map]
  · apply List.map_congr_left
    intro k hk
    exact sparseGet_dropWhile _ _ _ _ (List.mem_range'_1.1 hk).1
  · exact (keysRise_iff_pairwise _).2 (h.1.sublist (List.dropWhile_sublist _))
  · exact le_of_mem_dropWhile m a h.1

@[simp] theorem Memory.bytes_length (m : Memory) (a n : Nat) : (m.bytes a n).length = n := sparseRun_length ..

/-- Stored bytes are read back. -/
theorem Memory.bytes_write (m : Memory) (a : Nat) (bs : List Byte) (h : m.wf = true) :
    (m.write a bs).bytes a bs.length = bs := by
  rw [Memory.bytes_eq _ _ _ (Memory.write_wf m a bs h)]
  apply List.ext_getElem
  · simp
  · intro i h1 h2
    simp at h1
    simp [Memory.read_write m a bs _ h, h1, List.getD]

/-- Bytes outside the stored ones are read as before. -/
theorem Memory.bytes_write_of_disjoint (m : Memory) (a b n : Nat) (bs : List Byte) (h : m.wf = true)
    (hd : a + bs.length ≤ b ∨ b + n ≤ a) : (m.write a bs).bytes b n = m.bytes b n := by
  rw [Memory.bytes_eq _ _ _ (Memory.write_wf m a bs h), Memory.bytes_eq _ _ _ h]
  apply List.map_congr_left
  intro k hk
  rw [List.mem_range'_1] at hk
  rw [Memory.read_write m a bs k h, if_neg (by omega)]

/-- Two memories in canonical form that read the same are the same. -/
theorem Memory.ext_read (m m' : Memory) (h : m.wf = true) (h' : m'.wf = true) (hr : ∀ a, m.read a = m'.read a) :
    m = m' := by
  rw [Memory.wf_iff] at h h'
  have key : ∀ (m m' : Memory), m.Pairwise (fun c d => c.1 < d.1) → (∀ c ∈ m, c.2 ≠ Memory.unwritten) →
      m'.Pairwise (fun c d => c.1 < d.1) → (∀ a, m.read a = m'.read a) → ∀ c ∈ m, c ∈ m' := by
    intro m m' hp hn hp' hr c hc
    have e := sparseGet_mem Memory.unwritten m ((keysRise_iff_pairwise m).2 hp) c hc
    have e' : sparseGet Memory.unwritten m' c.1 = c.2 := by rw [← e]; exact (hr c.1).symm
    by_contra hcon
    have : sparseGet Memory.unwritten m' c.1 = Memory.unwritten := by
      apply sparseGet_of_forall_ne
      intro d hd hdc
      have e2 := sparseGet_mem Memory.unwritten m' ((keysRise_iff_pairwise m').2 hp') d hd
      rw [hdc, e'] at e2
      exact hcon (by rw [show c = d from Prod.ext hdc.symm e2]; exact hd)
    exact hn c hc (by rw [← e', this])
  have irr : ∀ c d : Host.Cell, c.1 < d.1 → ¬ d.1 < c.1 := fun c d h1 h2 => by omega
  have n1 : m.Nodup := h.1.imp (fun {c d} hlt he => by subst he; exact irr c c hlt hlt)
  have n2 : m'.Nodup := h'.1.imp (fun {c d} hlt he => by subst he; exact irr c c hlt hlt)
  have hperm : m.Perm m' := (List.perm_ext_iff_of_nodup n1 n2).2 fun c =>
    ⟨key m m' h.1 h.2 h'.1 hr c, key m' m h'.1 h'.2 h.1 (fun a => (hr a).symm) c⟩
  exact hperm.eq_of_pairwise (fun c d _ _ hcd hdc => absurd hdc (irr c d hcd)) h.1 h'.1

/-! ### Free bytes -/

/-- Freeing bytes keeps the canonical form. -/
theorem Memory.forget_wf (m : Memory) (a n tick : Nat) (h : m.wf = true) : (m.forget a n tick).wf = true :=
  Memory.write_wf _ _ _ h

/-- A freed byte is a free value; every other byte is as before (60_exceptions.md R520). -/
theorem Memory.read_forget (m : Memory) (a n tick k : Nat) (h : m.wf = true) :
    (m.forget a n tick).read k = if a ≤ k ∧ k < a + n then Config.freeByte tick k else m.read k := by
  rw [Memory.forget, Memory.read_write _ _ _ _ h]
  simp only [List.length_map, List.length_range']
  by_cases hk : a ≤ k ∧ k < a + n
  · rw [if_pos hk, if_pos hk]
    have e : k - a < n := by omega
    have e2 : a + (k - a) = k := by omega
    simp [List.getD, e, e2]
  · rw [if_neg hk, if_neg hk]

/-- Freeing the written regions keeps the canonical form. -/
theorem forgetRegions_wf (m : Memory) (tick : Nat) (rs : List Region) (h : m.wf = true) :
    (forgetRegions m tick rs).wf = true := by
  induction rs generalizing m with
  | nil => exact h
  | cons r rest ih =>
    rw [forgetRegions]
    split
    · exact ih _ (Memory.forget_wf _ _ _ _ h)
    · exact ih _ h

/-- A byte of a written region is free, every other byte is as before (60_exceptions.md R520). -/
theorem read_forgetRegions (m : Memory) (tick : Nat) (rs : List Region) (k : Nat) (h : m.wf = true) :
    (forgetRegions m tick rs).read k =
      if ∃ r ∈ rs, r.access.writes = true ∧ r.base ≤ k ∧ k < r.base + r.realSize then Config.freeByte tick k
      else m.read k := by
  induction rs generalizing m with
  | nil => simp [forgetRegions]
  | cons r rest ih =>
    rw [forgetRegions]
    by_cases hw : r.access.writes = true
    · rw [if_pos hw, ih _ (Memory.forget_wf _ _ _ _ h), Memory.read_forget _ _ _ _ _ h]
      simp only [List.exists_mem_cons_iff, hw, true_and]
      by_cases h1 : r.base ≤ k ∧ k < r.base + r.realSize <;> simp [h1]
    · rw [if_neg hw, ih _ h]
      simp [hw]

end Sys2Proof.Machine
end

