-- ==== Sys2Proof/Laws/State.lean ====
section
/-! SUPPORT. What each update of the state does to each field: one lemma per field per update. -/

namespace Sys2Proof.Machine

/-! ### withMem -/

@[simp] theorem State.withMem_params (s : State) (m : Memory) : (s.withMem m).params = s.params := rfl
@[simp] theorem State.withMem_latched (s : State) (m : Memory) : (s.withMem m).latched = s.latched := rfl
@[simp] theorem State.withMem_phase (s : State) (m : Memory) : (s.withMem m).phase = s.phase := rfl
@[simp] theorem State.withMem_done (s : State) (m : Memory) : (s.withMem m).done = s.done := rfl
@[simp] theorem State.withMem_errcode (s : State) (m : Memory) : (s.withMem m).errcode = s.errcode := rfl
@[simp] theorem State.withMem_irqStatus (s : State) (m : Memory) : (s.withMem m).irqStatus = s.irqStatus := rfl
@[simp] theorem State.withMem_irqEnable (s : State) (m : Memory) : (s.withMem m).irqEnable = s.irqEnable := rfl
@[simp] theorem State.withMem_results (s : State) (m : Memory) : (s.withMem m).results = s.results := rfl
@[simp] theorem State.withMem_bitmap (s : State) (m : Memory) : (s.withMem m).bitmap = s.bitmap := rfl
@[simp] theorem State.withMem_lut (s : State) (m : Memory) : (s.withMem m).lut = s.lut := rfl
@[simp] theorem State.withMem_lutKind (s : State) (m : Memory) : (s.withMem m).lutKind = s.lutKind := rfl
@[simp] theorem State.withMem_codes (s : State) (m : Memory) : (s.withMem m).codes = s.codes := rfl
@[simp] theorem State.withMem_mem (s : State) (m : Memory) : (s.withMem m).mem = m := rfl
@[simp] theorem State.withMem_platform (s : State) (m : Memory) : (s.withMem m).platform = s.platform := rfl
@[simp] theorem State.withMem_hostq (s : State) (m : Memory) : (s.withMem m).hostq = s.hostq := rfl
@[simp] theorem State.withMem_responses (s : State) (m : Memory) : (s.withMem m).responses = s.responses := rfl
@[simp] theorem State.withMem_delays (s : State) (m : Memory) : (s.withMem m).delays = s.delays := rfl
@[simp] theorem State.withMem_delay (s : State) (m : Memory) : (s.withMem m).delay = s.delay := rfl
@[simp] theorem State.withMem_raced (s : State) (m : Memory) : (s.withMem m).raced = s.raced := rfl
@[simp] theorem State.withMem_fresh (s : State) (m : Memory) : (s.withMem m).fresh = s.fresh := rfl

/-! ### withBitmap -/

@[simp] theorem State.withBitmap_params (s : State) (b : Bitmap) : (s.withBitmap b).params = s.params := rfl
@[simp] theorem State.withBitmap_latched (s : State) (b : Bitmap) : (s.withBitmap b).latched = s.latched := rfl
@[simp] theorem State.withBitmap_phase (s : State) (b : Bitmap) : (s.withBitmap b).phase = s.phase := rfl
@[simp] theorem State.withBitmap_done (s : State) (b : Bitmap) : (s.withBitmap b).done = s.done := rfl
@[simp] theorem State.withBitmap_errcode (s : State) (b : Bitmap) : (s.withBitmap b).errcode = s.errcode := rfl
@[simp] theorem State.withBitmap_irqStatus (s : State) (b : Bitmap) : (s.withBitmap b).irqStatus = s.irqStatus := rfl
@[simp] theorem State.withBitmap_irqEnable (s : State) (b : Bitmap) : (s.withBitmap b).irqEnable = s.irqEnable := rfl
@[simp] theorem State.withBitmap_results (s : State) (b : Bitmap) : (s.withBitmap b).results = s.results := rfl
@[simp] theorem State.withBitmap_bitmap (s : State) (b : Bitmap) : (s.withBitmap b).bitmap = some b := rfl
@[simp] theorem State.withBitmap_lut (s : State) (b : Bitmap) : (s.withBitmap b).lut = s.lut := rfl
@[simp] theorem State.withBitmap_lutKind (s : State) (b : Bitmap) : (s.withBitmap b).lutKind = s.lutKind := rfl
@[simp] theorem State.withBitmap_codes (s : State) (b : Bitmap) : (s.withBitmap b).codes = s.codes := rfl
@[simp] theorem State.withBitmap_mem (s : State) (b : Bitmap) : (s.withBitmap b).mem = s.mem := rfl
@[simp] theorem State.withBitmap_platform (s : State) (b : Bitmap) : (s.withBitmap b).platform = s.platform := rfl
@[simp] theorem State.withBitmap_hostq (s : State) (b : Bitmap) : (s.withBitmap b).hostq = s.hostq := rfl
@[simp] theorem State.withBitmap_responses (s : State) (b : Bitmap) : (s.withBitmap b).responses = s.responses := rfl
@[simp] theorem State.withBitmap_delays (s : State) (b : Bitmap) : (s.withBitmap b).delays = s.delays := rfl
@[simp] theorem State.withBitmap_delay (s : State) (b : Bitmap) : (s.withBitmap b).delay = s.delay := rfl
@[simp] theorem State.withBitmap_raced (s : State) (b : Bitmap) : (s.withBitmap b).raced = s.raced := rfl
@[simp] theorem State.withBitmap_fresh (s : State) (b : Bitmap) : (s.withBitmap b).fresh = s.fresh := rfl

/-! ### withLut -/

@[simp] theorem State.withLut_params (s : State) (k : LutKind) (t : Lut) : (s.withLut k t).params = s.params := rfl
@[simp] theorem State.withLut_latched (s : State) (k : LutKind) (t : Lut) : (s.withLut k t).latched = s.latched := rfl
@[simp] theorem State.withLut_phase (s : State) (k : LutKind) (t : Lut) : (s.withLut k t).phase = s.phase := rfl
@[simp] theorem State.withLut_done (s : State) (k : LutKind) (t : Lut) : (s.withLut k t).done = s.done := rfl
@[simp] theorem State.withLut_errcode (s : State) (k : LutKind) (t : Lut) : (s.withLut k t).errcode = s.errcode := rfl
@[simp] theorem State.withLut_irqStatus (s : State) (k : LutKind) (t : Lut) : (s.withLut k t).irqStatus = s.irqStatus := rfl
@[simp] theorem State.withLut_irqEnable (s : State) (k : LutKind) (t : Lut) : (s.withLut k t).irqEnable = s.irqEnable := rfl
@[simp] theorem State.withLut_results (s : State) (k : LutKind) (t : Lut) : (s.withLut k t).results = s.results := rfl
@[simp] theorem State.withLut_bitmap (s : State) (k : LutKind) (t : Lut) : (s.withLut k t).bitmap = s.bitmap := rfl
@[simp] theorem State.withLut_lut (s : State) (k : LutKind) (t : Lut) : (s.withLut k t).lut = some t := rfl
@[simp] theorem State.withLut_lutKind (s : State) (k : LutKind) (t : Lut) : (s.withLut k t).lutKind = k := rfl
@[simp] theorem State.withLut_codes (s : State) (k : LutKind) (t : Lut) : (s.withLut k t).codes = s.codes := rfl
@[simp] theorem State.withLut_mem (s : State) (k : LutKind) (t : Lut) : (s.withLut k t).mem = s.mem := rfl
@[simp] theorem State.withLut_platform (s : State) (k : LutKind) (t : Lut) : (s.withLut k t).platform = s.platform := rfl
@[simp] theorem State.withLut_hostq (s : State) (k : LutKind) (t : Lut) : (s.withLut k t).hostq = s.hostq := rfl
@[simp] theorem State.withLut_responses (s : State) (k : LutKind) (t : Lut) : (s.withLut k t).responses = s.responses := rfl
@[simp] theorem State.withLut_delays (s : State) (k : LutKind) (t : Lut) : (s.withLut k t).delays = s.delays := rfl
@[simp] theorem State.withLut_delay (s : State) (k : LutKind) (t : Lut) : (s.withLut k t).delay = s.delay := rfl
@[simp] theorem State.withLut_raced (s : State) (k : LutKind) (t : Lut) : (s.withLut k t).raced = s.raced := rfl
@[simp] theorem State.withLut_fresh (s : State) (k : LutKind) (t : Lut) : (s.withLut k t).fresh = s.fresh := rfl

/-! ### withCodes -/

@[simp] theorem State.withCodes_params (s : State) (t : CodeTable) : (s.withCodes t).params = s.params := rfl
@[simp] theorem State.withCodes_latched (s : State) (t : CodeTable) : (s.withCodes t).latched = s.latched := rfl
@[simp] theorem State.withCodes_phase (s : State) (t : CodeTable) : (s.withCodes t).phase = s.phase := rfl
@[simp] theorem State.withCodes_done (s : State) (t : CodeTable) : (s.withCodes t).done = s.done := rfl
@[simp] theorem State.withCodes_errcode (s : State) (t : CodeTable) : (s.withCodes t).errcode = s.errcode := rfl
@[simp] theorem State.withCodes_irqStatus (s : State) (t : CodeTable) : (s.withCodes t).irqStatus = s.irqStatus := rfl
@[simp] theorem State.withCodes_irqEnable (s : State) (t : CodeTable) : (s.withCodes t).irqEnable = s.irqEnable := rfl
@[simp] theorem State.withCodes_results (s : State) (t : CodeTable) : (s.withCodes t).results = s.results := rfl
@[simp] theorem State.withCodes_bitmap (s : State) (t : CodeTable) : (s.withCodes t).bitmap = s.bitmap := rfl
@[simp] theorem State.withCodes_lut (s : State) (t : CodeTable) : (s.withCodes t).lut = s.lut := rfl
@[simp] theorem State.withCodes_lutKind (s : State) (t : CodeTable) : (s.withCodes t).lutKind = s.lutKind := rfl
@[simp] theorem State.withCodes_codes (s : State) (t : CodeTable) : (s.withCodes t).codes = some t := rfl
@[simp] theorem State.withCodes_mem (s : State) (t : CodeTable) : (s.withCodes t).mem = s.mem := rfl
@[simp] theorem State.withCodes_platform (s : State) (t : CodeTable) : (s.withCodes t).platform = s.platform := rfl
@[simp] theorem State.withCodes_hostq (s : State) (t : CodeTable) : (s.withCodes t).hostq = s.hostq := rfl
@[simp] theorem State.withCodes_responses (s : State) (t : CodeTable) : (s.withCodes t).responses = s.responses := rfl
@[simp] theorem State.withCodes_delays (s : State) (t : CodeTable) : (s.withCodes t).delays = s.delays := rfl
@[simp] theorem State.withCodes_delay (s : State) (t : CodeTable) : (s.withCodes t).delay = s.delay := rfl
@[simp] theorem State.withCodes_raced (s : State) (t : CodeTable) : (s.withCodes t).raced = s.raced := rfl
@[simp] theorem State.withCodes_fresh (s : State) (t : CodeTable) : (s.withCodes t).fresh = s.fresh := rfl

/-! ### withParams -/

@[simp] theorem State.withParams_params (s : State) (p : Params) : (s.withParams p).params = p := rfl
@[simp] theorem State.withParams_latched (s : State) (p : Params) : (s.withParams p).latched = s.latched := rfl
@[simp] theorem State.withParams_phase (s : State) (p : Params) : (s.withParams p).phase = s.phase := rfl
@[simp] theorem State.withParams_done (s : State) (p : Params) : (s.withParams p).done = s.done := rfl
@[simp] theorem State.withParams_errcode (s : State) (p : Params) : (s.withParams p).errcode = s.errcode := rfl
@[simp] theorem State.withParams_irqStatus (s : State) (p : Params) : (s.withParams p).irqStatus = s.irqStatus := rfl
@[simp] theorem State.withParams_irqEnable (s : State) (p : Params) : (s.withParams p).irqEnable = s.irqEnable := rfl
@[simp] theorem State.withParams_results (s : State) (p : Params) : (s.withParams p).results = s.results := rfl
@[simp] theorem State.withParams_bitmap (s : State) (p : Params) : (s.withParams p).bitmap = s.bitmap := rfl
@[simp] theorem State.withParams_lut (s : State) (p : Params) : (s.withParams p).lut = s.lut := rfl
@[simp] theorem State.withParams_lutKind (s : State) (p : Params) : (s.withParams p).lutKind = s.lutKind := rfl
@[simp] theorem State.withParams_codes (s : State) (p : Params) : (s.withParams p).codes = s.codes := rfl
@[simp] theorem State.withParams_mem (s : State) (p : Params) : (s.withParams p).mem = s.mem := rfl
@[simp] theorem State.withParams_platform (s : State) (p : Params) : (s.withParams p).platform = s.platform := rfl
@[simp] theorem State.withParams_hostq (s : State) (p : Params) : (s.withParams p).hostq = s.hostq := rfl
@[simp] theorem State.withParams_responses (s : State) (p : Params) : (s.withParams p).responses = s.responses := rfl
@[simp] theorem State.withParams_delays (s : State) (p : Params) : (s.withParams p).delays = s.delays := rfl
@[simp] theorem State.withParams_delay (s : State) (p : Params) : (s.withParams p).delay = s.delay := rfl
@[simp] theorem State.withParams_raced (s : State) (p : Params) : (s.withParams p).raced = s.raced := rfl
@[simp] theorem State.withParams_fresh (s : State) (p : Params) : (s.withParams p).fresh = s.fresh := rfl

/-! ### issue -/

@[simp] theorem State.issue_params (s : State) (w : Word32) : (s.issue w).params = s.params := rfl
@[simp] theorem State.issue_latched (s : State) (w : Word32) : (s.issue w).latched = s.params := rfl
@[simp] theorem State.issue_phase (s : State) (w : Word32) : (s.issue w).phase = .busy w := rfl
@[simp] theorem State.issue_done (s : State) (w : Word32) : (s.issue w).done = false := rfl
@[simp] theorem State.issue_errcode (s : State) (w : Word32) : (s.issue w).errcode = .ok := rfl
@[simp] theorem State.issue_irqStatus (s : State) (w : Word32) : (s.issue w).irqStatus = s.irqStatus := rfl
@[simp] theorem State.issue_irqEnable (s : State) (w : Word32) : (s.issue w).irqEnable = s.irqEnable := rfl
@[simp] theorem State.issue_results (s : State) (w : Word32) : (s.issue w).results = {} := rfl
@[simp] theorem State.issue_bitmap (s : State) (w : Word32) : (s.issue w).bitmap = s.bitmap := rfl
@[simp] theorem State.issue_lut (s : State) (w : Word32) : (s.issue w).lut = s.lut := rfl
@[simp] theorem State.issue_lutKind (s : State) (w : Word32) : (s.issue w).lutKind = s.lutKind := rfl
@[simp] theorem State.issue_codes (s : State) (w : Word32) : (s.issue w).codes = s.codes := rfl
@[simp] theorem State.issue_mem (s : State) (w : Word32) : (s.issue w).mem = s.mem := rfl
@[simp] theorem State.issue_platform (s : State) (w : Word32) : (s.issue w).platform = s.platform := rfl
@[simp] theorem State.issue_hostq (s : State) (w : Word32) : (s.issue w).hostq = s.hostq := rfl
@[simp] theorem State.issue_responses (s : State) (w : Word32) : (s.issue w).responses = s.responses := rfl
@[simp] theorem State.issue_delays (s : State) (w : Word32) : (s.issue w).delays = s.delays.tail := rfl
@[simp] theorem State.issue_delay (s : State) (w : Word32) : (s.issue w).delay = s.issueDelay w := rfl
@[simp] theorem State.issue_raced (s : State) (w : Word32) : (s.issue w).raced = false := rfl
@[simp] theorem State.issue_fresh (s : State) (w : Word32) : (s.issue w).fresh = s.fresh := rfl

/-! ### clearValid -/

@[simp] theorem State.clearValid_params (s : State) (i : Instr) : (s.clearValid i).params = s.params := rfl
@[simp] theorem State.clearValid_latched (s : State) (i : Instr) : (s.clearValid i).latched = s.latched := rfl
@[simp] theorem State.clearValid_phase (s : State) (i : Instr) : (s.clearValid i).phase = s.phase := rfl
@[simp] theorem State.clearValid_done (s : State) (i : Instr) : (s.clearValid i).done = s.done := rfl
@[simp] theorem State.clearValid_errcode (s : State) (i : Instr) : (s.clearValid i).errcode = s.errcode := rfl
@[simp] theorem State.clearValid_irqStatus (s : State) (i : Instr) : (s.clearValid i).irqStatus = s.irqStatus := rfl
@[simp] theorem State.clearValid_irqEnable (s : State) (i : Instr) : (s.clearValid i).irqEnable = s.irqEnable := rfl
@[simp] theorem State.clearValid_results (s : State) (i : Instr) : (s.clearValid i).results = s.results := rfl
@[simp] theorem State.clearValid_bitmap (s : State) (i : Instr) : (s.clearValid i).bitmap = if (tablesWritten i).contains .bitmap then none else s.bitmap := rfl
@[simp] theorem State.clearValid_lut (s : State) (i : Instr) : (s.clearValid i).lut = if (tablesWritten i).contains .lut then none else s.lut := rfl
@[simp] theorem State.clearValid_lutKind (s : State) (i : Instr) : (s.clearValid i).lutKind = s.lutKind := rfl
@[simp] theorem State.clearValid_codes (s : State) (i : Instr) : (s.clearValid i).codes = if (tablesWritten i).contains .codes then none else s.codes := rfl
@[simp] theorem State.clearValid_mem (s : State) (i : Instr) : (s.clearValid i).mem = s.mem := rfl
@[simp] theorem State.clearValid_platform (s : State) (i : Instr) : (s.clearValid i).platform = s.platform := rfl
@[simp] theorem State.clearValid_hostq (s : State) (i : Instr) : (s.clearValid i).hostq = s.hostq := rfl
@[simp] theorem State.clearValid_responses (s : State) (i : Instr) : (s.clearValid i).responses = s.responses := rfl
@[simp] theorem State.clearValid_delays (s : State) (i : Instr) : (s.clearValid i).delays = s.delays := rfl
@[simp] theorem State.clearValid_delay (s : State) (i : Instr) : (s.clearValid i).delay = s.delay := rfl
@[simp] theorem State.clearValid_raced (s : State) (i : Instr) : (s.clearValid i).raced = s.raced := rfl
@[simp] theorem State.clearValid_fresh (s : State) (i : Instr) : (s.clearValid i).fresh = s.fresh := rfl

/-! ### completeOk -/

@[simp] theorem State.completeOk_params (s : State) (r : Results) : (s.completeOk r).params = s.params := rfl
@[simp] theorem State.completeOk_latched (s : State) (r : Results) : (s.completeOk r).latched = s.latched := rfl
@[simp] theorem State.completeOk_phase (s : State) (r : Results) : (s.completeOk r).phase = .idle := rfl
@[simp] theorem State.completeOk_done (s : State) (r : Results) : (s.completeOk r).done = true := rfl
@[simp] theorem State.completeOk_errcode (s : State) (r : Results) : (s.completeOk r).errcode = .ok := rfl
@[simp] theorem State.completeOk_irqStatus (s : State) (r : Results) : (s.completeOk r).irqStatus = irqNext s.irqStatus 0 irqCmdDone := rfl
@[simp] theorem State.completeOk_irqEnable (s : State) (r : Results) : (s.completeOk r).irqEnable = s.irqEnable := rfl
@[simp] theorem State.completeOk_results (s : State) (r : Results) : (s.completeOk r).results = r := rfl
@[simp] theorem State.completeOk_bitmap (s : State) (r : Results) : (s.completeOk r).bitmap = s.bitmap := rfl
@[simp] theorem State.completeOk_lut (s : State) (r : Results) : (s.completeOk r).lut = s.lut := rfl
@[simp] theorem State.completeOk_lutKind (s : State) (r : Results) : (s.completeOk r).lutKind = s.lutKind := rfl
@[simp] theorem State.completeOk_codes (s : State) (r : Results) : (s.completeOk r).codes = s.codes := rfl
@[simp] theorem State.completeOk_mem (s : State) (r : Results) : (s.completeOk r).mem = s.mem := rfl
@[simp] theorem State.completeOk_platform (s : State) (r : Results) : (s.completeOk r).platform = s.platform := rfl
@[simp] theorem State.completeOk_hostq (s : State) (r : Results) : (s.completeOk r).hostq = s.hostq := rfl
@[simp] theorem State.completeOk_responses (s : State) (r : Results) : (s.completeOk r).responses = s.responses := rfl
@[simp] theorem State.completeOk_delays (s : State) (r : Results) : (s.completeOk r).delays = s.delays := rfl
@[simp] theorem State.completeOk_delay (s : State) (r : Results) : (s.completeOk r).delay = 0 := rfl
@[simp] theorem State.completeOk_raced (s : State) (r : Results) : (s.completeOk r).raced = false := rfl
@[simp] theorem State.completeOk_fresh (s : State) (r : Results) : (s.completeOk r).fresh = s.fresh + 1 := rfl

/-! ### completeErr -/

@[simp] theorem State.completeErr_params (s : State) (e : ErrCode) : (s.completeErr e).params = s.params := rfl
@[simp] theorem State.completeErr_latched (s : State) (e : ErrCode) : (s.completeErr e).latched = s.latched := rfl
@[simp] theorem State.completeErr_phase (s : State) (e : ErrCode) : (s.completeErr e).phase = .idle := rfl
@[simp] theorem State.completeErr_done (s : State) (e : ErrCode) : (s.completeErr e).done = true := rfl
@[simp] theorem State.completeErr_errcode (s : State) (e : ErrCode) : (s.completeErr e).errcode = e := rfl
@[simp] theorem State.completeErr_irqStatus (s : State) (e : ErrCode) : (s.completeErr e).irqStatus = irqNext s.irqStatus 0 irqCmdErr := rfl
@[simp] theorem State.completeErr_irqEnable (s : State) (e : ErrCode) : (s.completeErr e).irqEnable = s.irqEnable := rfl
@[simp] theorem State.completeErr_results (s : State) (e : ErrCode) : (s.completeErr e).results = {} := rfl
@[simp] theorem State.completeErr_bitmap (s : State) (e : ErrCode) : (s.completeErr e).bitmap = s.bitmap := rfl
@[simp] theorem State.completeErr_lut (s : State) (e : ErrCode) : (s.completeErr e).lut = s.lut := rfl
@[simp] theorem State.completeErr_lutKind (s : State) (e : ErrCode) : (s.completeErr e).lutKind = s.lutKind := rfl
@[simp] theorem State.completeErr_codes (s : State) (e : ErrCode) : (s.completeErr e).codes = s.codes := rfl
@[simp] theorem State.completeErr_mem (s : State) (e : ErrCode) : (s.completeErr e).mem = s.mem := rfl
@[simp] theorem State.completeErr_platform (s : State) (e : ErrCode) : (s.completeErr e).platform = s.platform := rfl
@[simp] theorem State.completeErr_hostq (s : State) (e : ErrCode) : (s.completeErr e).hostq = s.hostq := rfl
@[simp] theorem State.completeErr_responses (s : State) (e : ErrCode) : (s.completeErr e).responses = s.responses := rfl
@[simp] theorem State.completeErr_delays (s : State) (e : ErrCode) : (s.completeErr e).delays = s.delays := rfl
@[simp] theorem State.completeErr_delay (s : State) (e : ErrCode) : (s.completeErr e).delay = 0 := rfl
@[simp] theorem State.completeErr_raced (s : State) (e : ErrCode) : (s.completeErr e).raced = false := rfl
@[simp] theorem State.completeErr_fresh (s : State) (e : ErrCode) : (s.completeErr e).fresh = s.fresh + 1 := rfl

/-! ### blockReset -/

@[simp] theorem State.blockReset_params (s : State) : s.blockReset.params = {} := rfl
@[simp] theorem State.blockReset_latched (s : State) : s.blockReset.latched = {} := rfl
@[simp] theorem State.blockReset_phase (s : State) : s.blockReset.phase = .idle := rfl
@[simp] theorem State.blockReset_done (s : State) : s.blockReset.done = false := rfl
@[simp] theorem State.blockReset_errcode (s : State) : s.blockReset.errcode = .ok := rfl
@[simp] theorem State.blockReset_irqStatus (s : State) : s.blockReset.irqStatus = 0 := rfl
@[simp] theorem State.blockReset_irqEnable (s : State) : s.blockReset.irqEnable = 0 := rfl
@[simp] theorem State.blockReset_results (s : State) : s.blockReset.results = {} := rfl
@[simp] theorem State.blockReset_bitmap (s : State) : s.blockReset.bitmap = none := rfl
@[simp] theorem State.blockReset_lut (s : State) : s.blockReset.lut = none := rfl
@[simp] theorem State.blockReset_lutKind (s : State) : s.blockReset.lutKind = .forward := rfl
@[simp] theorem State.blockReset_codes (s : State) : s.blockReset.codes = none := rfl
@[simp] theorem State.blockReset_mem (s : State) : s.blockReset.mem = s.abandonedMem := rfl
@[simp] theorem State.blockReset_platform (s : State) : s.blockReset.platform = s.platform := rfl
@[simp] theorem State.blockReset_hostq (s : State) : s.blockReset.hostq = s.hostq := rfl
@[simp] theorem State.blockReset_responses (s : State) : s.blockReset.responses = s.responses := rfl
@[simp] theorem State.blockReset_delays (s : State) : s.blockReset.delays = s.delays := rfl
@[simp] theorem State.blockReset_delay (s : State) : s.blockReset.delay = 0 := rfl
@[simp] theorem State.blockReset_raced (s : State) : s.blockReset.raced = false := rfl
@[simp] theorem State.blockReset_fresh (s : State) : s.blockReset.fresh = s.fresh + 1 := rfl

/-! ### respond -/

@[simp] theorem State.respond_params (s : State) (r : Response) : (s.respond r).params = s.params := rfl
@[simp] theorem State.respond_latched (s : State) (r : Response) : (s.respond r).latched = s.latched := rfl
@[simp] theorem State.respond_phase (s : State) (r : Response) : (s.respond r).phase = s.phase := rfl
@[simp] theorem State.respond_done (s : State) (r : Response) : (s.respond r).done = s.done := rfl
@[simp] theorem State.respond_errcode (s : State) (r : Response) : (s.respond r).errcode = s.errcode := rfl
@[simp] theorem State.respond_irqStatus (s : State) (r : Response) : (s.respond r).irqStatus = s.irqStatus := rfl
@[simp] theorem State.respond_irqEnable (s : State) (r : Response) : (s.respond r).irqEnable = s.irqEnable := rfl
@[simp] theorem State.respond_results (s : State) (r : Response) : (s.respond r).results = s.results := rfl
@[simp] theorem State.respond_bitmap (s : State) (r : Response) : (s.respond r).bitmap = s.bitmap := rfl
@[simp] theorem State.respond_lut (s : State) (r : Response) : (s.respond r).lut = s.lut := rfl
@[simp] theorem State.respond_lutKind (s : State) (r : Response) : (s.respond r).lutKind = s.lutKind := rfl
@[simp] theorem State.respond_codes (s : State) (r : Response) : (s.respond r).codes = s.codes := rfl
@[simp] theorem State.respond_mem (s : State) (r : Response) : (s.respond r).mem = s.mem := rfl
@[simp] theorem State.respond_platform (s : State) (r : Response) : (s.respond r).platform = s.platform := rfl
@[simp] theorem State.respond_hostq (s : State) (r : Response) : (s.respond r).hostq = s.hostq := rfl
@[simp] theorem State.respond_responses (s : State) (r : Response) : (s.respond r).responses = r :: s.responses := rfl
@[simp] theorem State.respond_delays (s : State) (r : Response) : (s.respond r).delays = s.delays := rfl
@[simp] theorem State.respond_delay (s : State) (r : Response) : (s.respond r).delay = s.delay := rfl
@[simp] theorem State.respond_raced (s : State) (r : Response) : (s.respond r).raced = s.raced := rfl
@[simp] theorem State.respond_fresh (s : State) (r : Response) : (s.respond r).fresh = s.fresh := rfl

/-! ### arrive -/

@[simp] theorem State.arrive_params (s : State) (rest : List HostOp) : (s.arrive rest).params = s.params := rfl
@[simp] theorem State.arrive_latched (s : State) (rest : List HostOp) : (s.arrive rest).latched = s.latched := rfl
@[simp] theorem State.arrive_phase (s : State) (rest : List HostOp) : (s.arrive rest).phase = s.phase := rfl
@[simp] theorem State.arrive_done (s : State) (rest : List HostOp) : (s.arrive rest).done = s.done := rfl
@[simp] theorem State.arrive_errcode (s : State) (rest : List HostOp) : (s.arrive rest).errcode = s.errcode := rfl
@[simp] theorem State.arrive_irqStatus (s : State) (rest : List HostOp) : (s.arrive rest).irqStatus = s.irqStatus := rfl
@[simp] theorem State.arrive_irqEnable (s : State) (rest : List HostOp) : (s.arrive rest).irqEnable = s.irqEnable := rfl
@[simp] theorem State.arrive_results (s : State) (rest : List HostOp) : (s.arrive rest).results = s.results := rfl
@[simp] theorem State.arrive_bitmap (s : State) (rest : List HostOp) : (s.arrive rest).bitmap = s.bitmap := rfl
@[simp] theorem State.arrive_lut (s : State) (rest : List HostOp) : (s.arrive rest).lut = s.lut := rfl
@[simp] theorem State.arrive_lutKind (s : State) (rest : List HostOp) : (s.arrive rest).lutKind = s.lutKind := rfl
@[simp] theorem State.arrive_codes (s : State) (rest : List HostOp) : (s.arrive rest).codes = s.codes := rfl
@[simp] theorem State.arrive_mem (s : State) (rest : List HostOp) : (s.arrive rest).mem = s.mem := rfl
@[simp] theorem State.arrive_platform (s : State) (rest : List HostOp) : (s.arrive rest).platform = s.platform := rfl
@[simp] theorem State.arrive_hostq (s : State) (rest : List HostOp) : (s.arrive rest).hostq = rest := rfl
@[simp] theorem State.arrive_responses (s : State) (rest : List HostOp) : (s.arrive rest).responses = s.responses := rfl
@[simp] theorem State.arrive_delays (s : State) (rest : List HostOp) : (s.arrive rest).delays = s.delays := rfl
@[simp] theorem State.arrive_delay (s : State) (rest : List HostOp) : (s.arrive rest).delay = s.delay - 1 := rfl
@[simp] theorem State.arrive_raced (s : State) (rest : List HostOp) : (s.arrive rest).raced = s.raced := rfl
@[simp] theorem State.arrive_fresh (s : State) (rest : List HostOp) : (s.arrive rest).fresh = s.fresh := rfl

/-! ### withScript -/

@[simp] theorem State.withScript_params (s : State) (p : List Stmt) : (s.withScript p).params = s.params := rfl
@[simp] theorem State.withScript_latched (s : State) (p : List Stmt) : (s.withScript p).latched = s.latched := rfl
@[simp] theorem State.withScript_phase (s : State) (p : List Stmt) : (s.withScript p).phase = s.phase := rfl
@[simp] theorem State.withScript_done (s : State) (p : List Stmt) : (s.withScript p).done = s.done := rfl
@[simp] theorem State.withScript_errcode (s : State) (p : List Stmt) : (s.withScript p).errcode = s.errcode := rfl
@[simp] theorem State.withScript_irqStatus (s : State) (p : List Stmt) : (s.withScript p).irqStatus = s.irqStatus := rfl
@[simp] theorem State.withScript_irqEnable (s : State) (p : List Stmt) : (s.withScript p).irqEnable = s.irqEnable := rfl
@[simp] theorem State.withScript_results (s : State) (p : List Stmt) : (s.withScript p).results = s.results := rfl
@[simp] theorem State.withScript_bitmap (s : State) (p : List Stmt) : (s.withScript p).bitmap = s.bitmap := rfl
@[simp] theorem State.withScript_lut (s : State) (p : List Stmt) : (s.withScript p).lut = s.lut := rfl
@[simp] theorem State.withScript_lutKind (s : State) (p : List Stmt) : (s.withScript p).lutKind = s.lutKind := rfl
@[simp] theorem State.withScript_codes (s : State) (p : List Stmt) : (s.withScript p).codes = s.codes := rfl
@[simp] theorem State.withScript_mem (s : State) (p : List Stmt) : (s.withScript p).mem = s.mem := rfl
@[simp] theorem State.withScript_platform (s : State) (p : List Stmt) : (s.withScript p).platform = s.platform := rfl
@[simp] theorem State.withScript_hostq (s : State) (p : List Stmt) : (s.withScript p).hostq = s.hostq ++ expandScript p := rfl
@[simp] theorem State.withScript_responses (s : State) (p : List Stmt) : (s.withScript p).responses = s.responses := rfl
@[simp] theorem State.withScript_delays (s : State) (p : List Stmt) : (s.withScript p).delays = s.delays := rfl
@[simp] theorem State.withScript_delay (s : State) (p : List Stmt) : (s.withScript p).delay = s.delay := rfl
@[simp] theorem State.withScript_raced (s : State) (p : List Stmt) : (s.withScript p).raced = s.raced := rfl
@[simp] theorem State.withScript_fresh (s : State) (p : List Stmt) : (s.withScript p).fresh = s.fresh := rfl

/-! ### The engine phase -/

theorem State.issueDelay_of_ok (s : State) (w : Word32) (i : Instr) (h : decode w = .ok i) :
    s.issueDelay w = s.delays.headD 0 := by simp [State.issueDelay, h]

theorem State.issueDelay_of_error (s : State) (w : Word32) (e : DecodeError) (h : decode w = .error e) :
    s.issueDelay w = 0 := by simp [State.issueDelay, h]

@[simp] theorem State.busy_of_idle (s : State) (h : s.phase = .idle) : s.busy = false := by simp [State.busy, h]

@[simp] theorem State.busy_of_busy (s : State) (w : Word32) (h : s.phase = .busy w) : s.busy = true := by
  simp [State.busy, h]

theorem State.busy_eq_true (s : State) : s.busy = true ↔ ∃ w, s.phase = .busy w := by
  unfold State.busy
  cases s.phase <;> simp

end Sys2Proof.Machine
end

