-- ==== Sys2Proof/Laws/Ops.lean ====
section
/-! SUPPORT. What each shared operation can do, once each: data phases and their parts, DMA accesses, a command from its checks to
its completion, and the step. -/

namespace Sys2Proof.Machine

/-! ### Data phases -/

theorem Run.bind_eq {α β : Type} (x : Run α) (f : α → Run β) (s : State) :
    (x >>= f) s = (match x s with | .ok a s' => f a s' | .error e s' => .error e s') := by
  show EStateM.bind x f s = _
  unfold EStateM.bind
  cases x s <;> rfl

@[simp] theorem Run.pure_eq {α : Type} (a : α) (s : State) : (pure a : Run α) s = .ok a s := rfl

@[simp] theorem Run.get_eq (s : State) : (get : Run State) s = .ok s s := rfl

@[simp] theorem Run.modify_eq (f : State → State) (s : State) : (modify f : Run Unit) s = .ok ⟨⟩ (f s) := rfl

@[simp] theorem raise_eq {α : Type} (e : ErrCode) (s : State) : (raise e : Run α) s = .error ⟨e, false⟩ s := rfl

@[simp] theorem raiseClean_eq {α : Type} (e : ErrCode) (s : State) : (raiseClean e : Run α) s = .error ⟨e, true⟩ s := rfl

/-- A sequence that answers a value went through its first part. -/
theorem Run.bind_ok {α β : Type} {x : Run α} {f : α → Run β} {s s'' : State} {b : β} (h : (x >>= f) s = .ok b s'') :
    ∃ a s', x s = .ok a s' ∧ f a s' = .ok b s'' := by
  rw [Run.bind_eq] at h
  cases hx : x s with
  | ok a s' => rw [hx] at h; exact ⟨a, s', rfl, h⟩
  | error e s' => rw [hx] at h; cases h

/-- A sequence that raises did so in its first part or in the rest. -/
theorem Run.bind_error {α β : Type} {x : Run α} {f : α → Run β} {s s'' : State} {e : Raise}
    (h : (x >>= f) s = .error e s'') : x s = .error e s'' ∨ ∃ a s', x s = .ok a s' ∧ f a s' = .error e s'' := by
  rw [Run.bind_eq] at h
  cases hx : x s with
  | ok a s' => rw [hx] at h; exact .inr ⟨a, s', rfl, h⟩
  | error e' s' => rw [hx] at h; cases h; exact .inl rfl

theorem require_eq (c : Bool) (e : ErrCode) (s : State) :
    require c e s = if c = true then .ok () s else .error ⟨e, false⟩ s := by
  unfold require
  split <;> rfl

theorem ofExcept_ok {α : Type} (v : α) (s : State) : (ofExcept (.ok v) : Run α) s = .ok v s := rfl

theorem ofExcept_error {α : Type} (e : ErrCode) (s : State) :
    (ofExcept (.error e) : Run α) s = .error ⟨e, false⟩ s := rfl

/-- A DMA read answers the bytes of memory, or a bus error; it changes nothing. -/
theorem dmaRead_eq (a n : Nat) (s : State) :
    dmaRead a n s = if s.readFails a n = true then .error ⟨.busError, false⟩ s else .ok (s.mem.bytes a n) s := by
  unfold dmaRead
  split <;> rfl

/-- A DMA write stores its bytes, or a bus error stops it with nothing stored. -/
theorem dmaWrite_eq (a : Nat) (bs : List Byte) (s : State) :
    dmaWrite a bs s = if s.writeFails a bs.length = true then .error ⟨.busError, false⟩ s
      else .ok () (s.withMem (s.mem.write a bs)) := by
  unfold dmaWrite
  split <;> rfl

theorem readSamples_eq (a n : Nat) (s : State) :
    readSamples a n s = if s.readFails a (2 * n) = true then .error ⟨.busError, false⟩ s
      else .ok (s.mem.samples a n) s := by
  unfold readSamples
  rw [Run.bind_eq, dmaRead_eq]
  split
  · rename_i h; split at h <;> simp_all; obtain ⟨rfl, rfl⟩ := h; rfl
  · rename_i h; split at h <;> simp_all

theorem writeSamples_eq (a : Nat) (xs : List Sample) (s : State) :
    writeSamples a xs s = if s.writeFails a (2 * xs.length) = true then .error ⟨.busError, false⟩ s
      else .ok () (s.withMem (s.mem.write a (bytesOfSamples xs))) := by
  unfold writeSamples
  rw [dmaWrite_eq, bytesOfSamples_length]

/-! ### What a data phase keeps -/

/-- Whatever it answers or raises, the state it ends in is related to the one it started in. -/
def Run.Keeps {α : Type} (R : State → State → Prop) (x : Run α) : Prop :=
  ∀ s, (∀ a s', x s = .ok a s' → R s s') ∧ ∀ e s', x s = .error e s' → R s s'

/-- A relation between states that holds of doing nothing, of one thing after another, and of each thing a data phase does to
the state. -/
structure DataRelation (R : State → State → Prop) : Prop where
  refl : ∀ s, R s s
  trans : ∀ s t u, R s t → R t u → R s u
  write : ∀ s a bs, R s (s.withMem (s.mem.write a bs))
  bitmap : ∀ s b, R s (s.withBitmap b)
  lut : ∀ s k t, R s (s.withLut k t)
  codes : ∀ s t, R s (s.withCodes t)

section
variable {R : State → State → Prop} (hR : DataRelation R)
include hR

theorem keeps_pure {α : Type} (a : α) : Run.Keeps R (pure a) := by
  intro s
  refine ⟨fun b s' h => ?_, fun e s' h => ?_⟩ <;> cases h
  exact hR.refl s

theorem keeps_raise {α : Type} (e : ErrCode) : Run.Keeps R (raise e : Run α) := by
  intro s
  refine ⟨fun b s' h => ?_, fun e s' h => ?_⟩ <;> cases h
  exact hR.refl s

theorem keeps_raiseClean {α : Type} (e : ErrCode) : Run.Keeps R (raiseClean e : Run α) := by
  intro s
  refine ⟨fun b s' h => ?_, fun e s' h => ?_⟩ <;> cases h
  exact hR.refl s

theorem keeps_get : Run.Keeps R (get : Run State) := by
  intro s
  refine ⟨fun b s' h => ?_, fun e s' h => ?_⟩ <;> cases h
  exact hR.refl s

omit hR in
theorem keeps_modify (f : State → State) (h : ∀ s, R s (f s)) : Run.Keeps R (modify f : Run Unit) := by
  intro s
  refine ⟨fun b s' h' => ?_, fun e s' h' => ?_⟩ <;> cases h'
  exact h s

theorem keeps_bind {α β : Type} {x : Run α} {f : α → Run β} (hx : Run.Keeps R x) (hf : ∀ a, Run.Keeps R (f a)) :
    Run.Keeps R (x >>= f) := by
  intro s
  refine ⟨fun b s' h => ?_, fun e s' h => ?_⟩
  · obtain ⟨a, s1, h1, h2⟩ := Run.bind_ok h
    exact hR.trans _ _ _ ((hx s).1 a s1 h1) ((hf a s1).1 b s' h2)
  · rcases Run.bind_error h with h | ⟨a, s1, h1, h2⟩
    · exact (hx s).2 e s' h
    · exact hR.trans _ _ _ ((hx s).1 a s1 h1) ((hf a s1).2 e s' h2)

theorem keeps_require (c : Bool) (e : ErrCode) : Run.Keeps R (require c e) := by
  unfold require
  split
  · exact keeps_pure hR _
  · exact keeps_raise hR _

theorem keeps_ofExcept {α : Type} (v : Except ErrCode α) : Run.Keeps R (ofExcept v) := by
  cases v
  · exact keeps_raise hR _
  · exact keeps_pure hR _

theorem keeps_dmaRead (a n : Nat) : Run.Keeps R (dmaRead a n) := by
  intro s
  rw [dmaRead_eq]
  split
  · exact keeps_raise (α := List Byte) hR .busError s
  · exact keeps_pure hR (s.mem.bytes a n) s

theorem keeps_dmaWrite (a : Nat) (bs : List Byte) : Run.Keeps R (dmaWrite a bs) := by
  intro s
  rw [dmaWrite_eq]
  split
  · exact keeps_raise (α := Unit) hR .busError s
  · refine ⟨fun _ _ h => ?_, fun _ _ h => ?_⟩ <;> cases h
    exact hR.write s a bs

theorem keeps_rdLe (a n : Nat) : Run.Keeps R (rdLe a n) :=
  keeps_bind hR (keeps_dmaRead hR a n) fun _ => keeps_pure hR _

theorem keeps_rd16 (a : Nat) : Run.Keeps R (rd16 a) := keeps_bind hR (keeps_dmaRead hR a 2) fun _ => keeps_pure hR _

theorem keeps_wr16 (a : Nat) (v : Sample) : Run.Keeps R (wr16 a v) := keeps_dmaWrite hR _ _

theorem keeps_readSamples (a n : Nat) : Run.Keeps R (readSamples a n) :=
  keeps_bind hR (keeps_dmaRead hR _ _) fun _ => keeps_pure hR _

theorem keeps_writeSamples (a : Nat) (xs : List Sample) : Run.Keeps R (writeSamples a xs) := keeps_dmaWrite hR _ _

theorem keeps_forUpTo (n : Nat) (f : Nat → Run Unit) (hf : ∀ k, Run.Keeps R (f k)) : Run.Keeps R (forUpTo n f) := by
  induction n with
  | zero => exact keeps_pure hR _
  | succ n ih => exact keeps_bind hR ih fun _ => hf n

theorem keeps_forEach {α : Type} (l : List α) (f : α → Run Unit) (hf : ∀ a, Run.Keeps R (f a)) :
    Run.Keeps R (forEach l f) := by
  induction l with
  | nil => exact keeps_pure hR _
  | cons a rest ih => exact keeps_bind hR (hf a) fun _ => ih

theorem keeps_getBitmap : Run.Keeps R getBitmap := by
  intro s
  unfold getBitmap
  split
  · exact keeps_pure hR _ s
  · exact keeps_raise hR _ s

theorem keeps_getLut : Run.Keeps R getLut := by
  intro s
  unfold getLut
  split
  · exact keeps_pure hR _ s
  · exact keeps_raise hR _ s

theorem keeps_getCodes : Run.Keeps R getCodes := by
  intro s
  unfold getCodes
  split
  · exact keeps_pure hR _ s
  · exact keeps_raise hR _ s

theorem keeps_bitmapFromSamples (a n : Nat) : Run.Keeps R (bitmapFromSamples a n) :=
  keeps_bind hR (keeps_readSamples hR a n) fun _ => keeps_pure hR _

theorem keeps_bitmapLoad (a n : Nat) : Run.Keeps R (bitmapLoad a n) := by
  refine keeps_bind hR (keeps_require hR _ _) fun _ => keeps_bind hR (keeps_rdLe hR _ _) fun _ =>
    keeps_bind hR (keeps_rdLe hR _ _) fun _ => keeps_bind hR (keeps_require hR _ _) fun _ => ?_
  split
  · exact keeps_bind hR (keeps_require hR _ _) fun _ => keeps_bind hR (keeps_dmaRead hR _ _) fun _ => keeps_pure hR _
  · exact keeps_pure hR _

theorem keeps_applyLut (t : Lut) (a n : Nat) : Run.Keeps R (applyLut t a n) :=
  keeps_bind hR (keeps_readSamples hR a n) fun _ => keeps_writeSamples hR _ _

theorem keeps_pairStep (f : Sample → Sample → Sample × Sample) (i j : Nat) : Run.Keeps R (pairStep f i j) :=
  keeps_bind hR (keeps_rd16 hR _) fun _ => keeps_bind hR (keeps_rd16 hR _) fun _ =>
    keeps_bind hR (keeps_wr16 hR _ _) fun _ => keeps_wr16 hR _ _

theorem keeps_encBox (f : Sample → Sample → Sample × Sample) (g : Grid) (p x y : Nat) : Run.Keeps R (encBox f g p x y) :=
  keeps_bind hR (keeps_rd16 hR _) fun _ => keeps_bind hR (keeps_rd16 hR _) fun _ =>
    keeps_bind hR (keeps_rd16 hR _) fun _ => keeps_bind hR (keeps_rd16 hR _) fun _ =>
      keeps_bind hR (keeps_wr16 hR _ _) fun _ => keeps_bind hR (keeps_wr16 hR _ _) fun _ =>
        keeps_bind hR (keeps_wr16 hR _ _) fun _ => keeps_wr16 hR _ _

theorem keeps_decBox (f : Sample → Sample → Sample × Sample) (g : Grid) (p x y : Nat) : Run.Keeps R (decBox f g p x y) :=
  keeps_bind hR (keeps_rd16 hR _) fun _ => keeps_bind hR (keeps_rd16 hR _) fun _ =>
    keeps_bind hR (keeps_rd16 hR _) fun _ => keeps_bind hR (keeps_rd16 hR _) fun _ =>
      keeps_bind hR (keeps_wr16 hR _ _) fun _ => keeps_bind hR (keeps_wr16 hR _ _) fun _ =>
        keeps_bind hR (keeps_wr16 hR _ _) fun _ => keeps_wr16 hR _ _

theorem keeps_levelPass (f : Sample → Sample → Sample × Sample) (box : Nat → Nat → Run Unit) (g : Grid) (p : Nat)
    (hb : ∀ x y, Run.Keeps R (box x y)) : Run.Keeps R (levelPass f box g p) := by
  refine keeps_bind hR (keeps_forUpTo hR _ _ fun k => keeps_bind hR (keeps_forUpTo hR _ _ fun _ => hb _ _) fun _ => ?_)
    fun _ => ?_
  · split
    · exact keeps_pairStep hR _ _ _
    · exact keeps_pure hR _
  · split
    · exact keeps_forUpTo hR _ _ fun _ => keeps_pairStep hR _ _ _
    · exact keeps_pure hR _

theorem keeps_wavEncode2D (m : Nat) (g : Grid) : Run.Keeps R (wavEncode2D m g) :=
  keeps_forEach hR _ _ fun _ => keeps_levelPass hR _ _ _ _ fun _ _ => keeps_encBox hR _ _ _ _ _

theorem keeps_wavDecode2D (m : Nat) (g : Grid) : Run.Keeps R (wavDecode2D m g) :=
  keeps_forEach hR _ _ fun _ => keeps_levelPass hR _ _ _ _ fun _ _ => keeps_decBox hR _ _ _ _ _

theorem keeps_hufCompress (a n d cap : Nat) : Run.Keeps R (hufCompress a n d cap) := by
  unfold hufCompress
  split
  · exact keeps_pure hR _
  · exact keeps_bind hR (keeps_readSamples hR _ _) fun _ => keeps_bind hR (keeps_ofExcept hR _) fun _ =>
      keeps_bind hR (keeps_modify _ fun s => hR.codes s _) fun _ => keeps_bind hR (keeps_require hR _ _) fun _ =>
        keeps_bind hR (keeps_require hR _ _) fun _ => keeps_bind hR (keeps_dmaWrite hR _ _) fun _ => keeps_pure hR _

theorem keeps_buildStage (t : CodeTable) : Run.Keeps R (buildStage t) := by
  refine keeps_bind hR (keeps_get hR) fun s => ?_
  split
  · exact keeps_pure hR _
  · exact keeps_bind hR (keeps_modify _ fun s => hR.codes s _) fun _ => keeps_raise hR _

theorem keeps_hufUncompress (a n d no : Nat) : Run.Keeps R (hufUncompress a n d no) := by
  unfold hufUncompress
  split
  · exact keeps_bind hR (keeps_require hR _ _) fun _ => keeps_pure hR _
  · exact keeps_bind hR (keeps_rdLe hR _ _) fun _ => keeps_bind hR (keeps_rdLe hR _ _) fun _ =>
      keeps_bind hR (keeps_rdLe hR _ _) fun _ => keeps_bind hR (keeps_require hR _ _) fun _ =>
        keeps_bind hR (keeps_require hR _ _) fun _ => keeps_bind hR (keeps_get hR) fun _ =>
          keeps_bind hR (keeps_ofExcept hR _) fun _ => keeps_bind hR (keeps_modify _ fun s => hR.codes s _) fun _ =>
            keeps_bind hR (keeps_require hR _ _) fun _ => keeps_bind hR (keeps_buildStage hR _) fun _ =>
              keeps_bind hR (keeps_ofExcept hR _) fun _ =>
                keeps_bind hR (keeps_modify _ fun s => hR.write s _ _) fun _ => keeps_pure hR _

theorem keeps_readDescriptors (a count n : Nat) : Run.Keeps R (readDescriptors a count n) := by
  refine keeps_bind hR (keeps_dmaRead hR _ _) fun _ => ?_
  dsimp only
  split
  · exact keeps_pure hR _
  · exact keeps_raiseClean hR _

theorem keeps_pizCompress (a n d cap aux count : Nat) : Run.Keeps R (pizCompress a n d cap aux count) :=
  keeps_bind hR (keeps_readDescriptors hR _ _ _) fun _ => keeps_bind hR (keeps_bitmapFromSamples hR _ _) fun _ =>
    keeps_bind hR (keeps_modify _ fun s => hR.bitmap s _) fun _ =>
      keeps_bind hR (keeps_modify _ fun s => hR.lut s _ _) fun _ => keeps_bind hR (keeps_applyLut hR _ _ _) fun _ =>
        keeps_bind hR (keeps_forEach hR _ _ fun _ => keeps_wavEncode2D hR _ _) fun _ =>
          keeps_bind hR (keeps_require hR _ _) fun _ => keeps_bind hR (keeps_dmaWrite hR _ _) fun _ =>
            keeps_bind hR (keeps_hufCompress hR _ _ _ _) fun _ => keeps_bind hR (keeps_require hR _ _) fun _ =>
              keeps_bind hR (keeps_dmaWrite hR _ _) fun _ => keeps_pure hR _

theorem keeps_pizUncompress (a len d n aux count : Nat) : Run.Keeps R (pizUncompress a len d n aux count) :=
  keeps_bind hR (keeps_readDescriptors hR _ _ _) fun _ => keeps_bind hR (keeps_bitmapLoad hR _ _) fun _ =>
    keeps_bind hR (keeps_modify _ fun s => hR.bitmap s _) fun _ =>
      keeps_bind hR (keeps_modify _ fun s => hR.lut s _ _) fun _ => keeps_bind hR (keeps_require hR _ _) fun _ =>
        keeps_bind hR (keeps_rdLe hR _ _) fun _ => keeps_bind hR (keeps_require hR _ _) fun _ =>
          keeps_bind hR (keeps_hufUncompress hR _ _ _ _) fun _ =>
            keeps_bind hR (keeps_forEach hR _ _ fun _ => keeps_wavDecode2D hR _ _) fun _ =>
              keeps_bind hR (keeps_applyLut hR _ _ _) fun _ => keeps_pure hR _

end

/-! ### Commands -/

/-- The data phase of each command. -/
def dataPhase : Instr → Run Results
  | .nop => dataNop
  | .lutBitmapFromData => dataBitmapFromData
  | .lutBitmapLoad => dataBitmapLoad
  | .lutBitmapStore => dataBitmapStore
  | .lutBuildForward => dataBuildForward
  | .lutBuildReverse => dataBuildReverse
  | .lutApply => dataLutApply
  | .lutDump => dataLutDump
  | .wavEncode => dataWavEncode
  | .wavDecode => dataWavDecode
  | .hufCompress => dataHufCompress
  | .hufUncompress => dataHufUncompress
  | .hufDumpCodes => dataHufDumpCodes
  | .pizCompress => dataPizCompress
  | .pizUncompress => dataPizUncompress

/-- Every meaning is its data phase between the checks and completion. -/
theorem exec_eq (i : Instr) (s : State) : exec i s = runCommand i (dataPhase i) s := by
  cases i <;> rfl

/-- Every data phase keeps whatever its parts keep. -/
theorem keeps_dataPhase {R : State → State → Prop} (hR : DataRelation R) (i : Instr) : Run.Keeps R (dataPhase i) := by
  cases i with
  | nop => exact keeps_pure hR _
  | lutBitmapFromData =>
    exact keeps_bind hR (keeps_get hR) fun _ => keeps_bind hR (keeps_bitmapFromSamples hR _ _) fun _ =>
      keeps_bind hR (keeps_modify _ fun s => hR.bitmap s _) fun _ => keeps_pure hR _
  | lutBitmapLoad =>
    exact keeps_bind hR (keeps_get hR) fun _ => keeps_bind hR (keeps_bitmapLoad hR _ _) fun _ =>
      keeps_bind hR (keeps_modify _ fun s => hR.bitmap s _) fun _ => keeps_pure hR _
  | lutBitmapStore =>
    refine keeps_bind hR (keeps_get hR) fun _ => keeps_bind hR (keeps_getBitmap hR) fun _ => ?_
    dsimp only
    split
    · exact keeps_bind hR (keeps_dmaWrite hR _ _) fun _ => keeps_pure hR _
    · exact keeps_raiseClean hR _
  | lutBuildForward =>
    exact keeps_bind hR (keeps_getBitmap hR) fun _ => keeps_bind hR (keeps_modify _ fun s => hR.lut s _ _) fun _ =>
      keeps_pure hR _
  | lutBuildReverse =>
    exact keeps_bind hR (keeps_getBitmap hR) fun _ => keeps_bind hR (keeps_modify _ fun s => hR.lut s _ _) fun _ =>
      keeps_pure hR _
  | lutApply =>
    exact keeps_bind hR (keeps_get hR) fun _ => keeps_bind hR (keeps_getLut hR) fun _ =>
      keeps_bind hR (keeps_applyLut hR _ _ _) fun _ => keeps_pure hR _
  | lutDump =>
    exact keeps_bind hR (keeps_get hR) fun _ => keeps_bind hR (keeps_getLut hR) fun _ =>
      keeps_bind hR (keeps_dmaWrite hR _ _) fun _ => keeps_pure hR _
  | wavEncode =>
    exact keeps_bind hR (keeps_get hR) fun _ => keeps_bind hR (keeps_wavEncode2D hR _ _) fun _ => keeps_pure hR _
  | wavDecode =>
    exact keeps_bind hR (keeps_get hR) fun _ => keeps_bind hR (keeps_wavDecode2D hR _ _) fun _ => keeps_pure hR _
  | hufCompress =>
    exact keeps_bind hR (keeps_get hR) fun _ => keeps_bind hR (keeps_hufCompress hR _ _ _ _) fun _ => keeps_pure hR _
  | hufUncompress =>
    exact keeps_bind hR (keeps_get hR) fun _ => keeps_bind hR (keeps_hufUncompress hR _ _ _ _) fun _ => keeps_pure hR _
  | hufDumpCodes =>
    exact keeps_bind hR (keeps_get hR) fun _ => keeps_bind hR (keeps_getCodes hR) fun _ =>
      keeps_bind hR (keeps_dmaWrite hR _ _) fun _ => keeps_pure hR _
  | pizCompress =>
    exact keeps_bind hR (keeps_get hR) fun _ => keeps_bind hR (keeps_pizCompress hR _ _ _ _ _ _) fun _ =>
      keeps_pure hR _
  | pizUncompress =>
    exact keeps_bind hR (keeps_get hR) fun _ => keeps_bind hR (keeps_pizUncompress hR _ _ _ _ _ _) fun _ =>
      keeps_pure hR _

/-- A data phase changes memory and the tables and nothing else. -/
def State.dataOnly (s t : State) : Prop :=
  t = { s with mem := t.mem, bitmap := t.bitmap, lut := t.lut, lutKind := t.lutKind, codes := t.codes }

theorem dataRelation_dataOnly : DataRelation State.dataOnly where
  refl _ := rfl
  trans s t u h1 h2 := by
    unfold State.dataOnly at *
    rw [h2, h1]
  write _ _ _ := rfl
  bitmap _ _ := rfl
  lut _ _ _ := rfl
  codes _ _ := rfl

/-- A data phase keeps the canonical form of memory. -/
theorem dataRelation_memWf : DataRelation fun s t => s.mem.wf = true → t.mem.wf = true where
  refl _ h := h
  trans _ _ _ h1 h2 h := h2 (h1 h)
  write _ _ _ h := Memory.write_wf _ _ _ h
  bitmap _ _ h := h
  lut _ _ _ h := h
  codes _ _ h := h

theorem clearValid_dataOnly (s : State) (i : Instr) : s.dataOnly (s.clearValid i) := rfl

/-- All a command can do when it answers a next state: fail a parameter check, complete, or fail in its data phase. -/
theorem runCommand_next {i : Instr} {body : Run Results} {s t : State} (h : runCommand i body s = .next t) :
    touchesDevice i s = false
      ∧ ((∃ e, paramCheck i s = some e ∧ t = s.completeErr e)
        ∨ (paramCheck i s = none ∧ ∃ r s', body (s.clearValid i) = .ok r s' ∧ t = s'.completeOk r)
        ∨ (paramCheck i s = none ∧ ∃ e s', body (s.clearValid i) = .error e s' ∧ t = s'.failData i e)) := by
  unfold runCommand at h
  split at h
  · cases h
  · rename_i hd
    refine ⟨by simpa using hd, ?_⟩
    split at h
    · rename_i e he
      cases h
      exact .inl ⟨e, he, rfl⟩
    · rename_i hn
      split at h
      · rename_i r s' hb
        cases h
        exact .inr (.inl ⟨hn, r, s', hb, rfl⟩)
      · rename_i e s' hb
        cases h
        exact .inr (.inr ⟨hn, e, s', hb, rfl⟩)

/-- A command that touches no device answers a next state. -/
theorem runCommand_completes (i : Instr) (body : Run Results) (s : State) (h : touchesDevice i s = false) :
    ∃ t, runCommand i body s = .next t := by
  unfold runCommand
  rw [if_neg (by simp [h])]
  cases paramCheck i s with
  | some e => exact ⟨_, rfl⟩
  | none =>
    cases hb : body (s.clearValid i) with
    | ok r s' => exact ⟨s'.completeOk r, rfl⟩
    | error e s' => exact ⟨s'.failData i e, rfl⟩

theorem runCommand_paramError {i : Instr} {body : Run Results} {s : State} {e : ErrCode} (hd : touchesDevice i s = false)
    (h : paramCheck i s = some e) : runCommand i body s = .next (s.completeErr e) := by
  unfold runCommand
  rw [if_neg (by simp [hd]), h]

theorem runCommand_ok {i : Instr} {body : Run Results} {s s' : State} {r : Results} (hd : touchesDevice i s = false)
    (h : paramCheck i s = none) (hb : body (s.clearValid i) = .ok r s') :
    runCommand i body s = .next (s'.completeOk r) := by
  unfold runCommand
  rw [if_neg (by simp [hd]), h]
  simp only [hb]

theorem runCommand_error {i : Instr} {body : Run Results} {s s' : State} {e : Raise} (hd : touchesDevice i s = false)
    (h : paramCheck i s = none) (hb : body (s.clearValid i) = .error e s') :
    runCommand i body s = .next (s'.failData i e) := by
  unfold runCommand
  rw [if_neg (by simp [hd]), h]
  simp only [hb]

theorem runCommand_refused {i : Instr} {body : Run Results} {s : State} (hd : touchesDevice i s = true) :
    runCommand i body s = .refused .nonIdempotentRegion := by
  unfold runCommand
  rw [if_pos hd]

/-- No command faults. -/
theorem exec_ne_fault (i : Instr) (s : State) (f : Fault) : exec i s ≠ .fault f := by
  rw [exec_eq]
  intro h
  cases hd : touchesDevice i s with
  | true => rw [runCommand_refused hd] at h; cases h
  | false =>
    obtain ⟨t, ht⟩ := runCommand_completes i (dataPhase i) s hd
    rw [ht] at h
    cases h

/-! ### Byte ranges -/

/-- Two ranges meet exactly when they share a byte (20_memory.md R101). -/
theorem rangesMeet_iff (base size base' size' : Nat) :
    rangesMeet base size base' size' = true ↔
      ∃ a, (base ≤ a ∧ a < base + size) ∧ base' ≤ a ∧ a < base' + size' := by
  unfold rangesMeet
  simp only [Bool.and_eq_true, decide_eq_true_eq]
  constructor
  · rintro ⟨⟨⟨h1, h2⟩, h3⟩, h4⟩
    exact ⟨max base base', ⟨by omega, by omega⟩, by omega, by omega⟩
  · rintro ⟨a, ⟨h1, h2⟩, h3, h4⟩
    omega

/-- A part of a range meets no span that the range does not meet. -/
theorem spansMeet_part (spans : List Span) (base size base' size' : Nat) (h : spansMeet spans base size = false)
    (hb : base ≤ base') (he : base' + size' ≤ base + size) : spansMeet spans base' size' = false := by
  unfold spansMeet at *
  rw [List.any_eq_false] at *
  intro sp hsp hm
  rw [rangesMeet_iff] at hm
  obtain ⟨a, h1, h2⟩ := hm
  exact h sp hsp ((rangesMeet_iff ..).2 ⟨a, h1, by omega, by omega⟩)

theorem spansMeet_zero (spans : List Span) (base : Nat) : spansMeet spans base 0 = false := by
  unfold spansMeet
  rw [List.any_eq_false]
  simp [rangesMeet]

/-! ### The step -/

theorem runEngine_of_ok {s : State} {w : Word32} {i : Instr} (hp : s.phase = .busy w) (hd : decode w = .ok i)
    (hr : s.raced = false) : runEngine s = exec i s := by
  unfold runEngine
  rw [hp]
  simp only [hd, hr, Bool.false_eq_true, if_false]

theorem runEngine_of_error {s : State} {w : Word32} {e : DecodeError} (hp : s.phase = .busy w) (hd : decode w = .error e) :
    runEngine s = .next (s.completeErr .illegalCmd) := by
  unfold runEngine
  rw [hp]
  simp only [hd]

theorem step_of_engineDue {s : State} (h : s.engineDue = true) : step s = runEngine s := by
  unfold step
  rw [if_pos h]

theorem step_of_empty {s : State} (h : s.engineDue = false) (hq : s.hostq = []) : step s = .next s := by
  unfold step
  rw [if_neg (by simp [h]), hq]

theorem step_of_access {s : State} {op : HostOp} {rest : List HostOp} (h : s.engineDue = false)
    (hq : s.hostq = op :: rest) :
    step s = (match hostAccess op (s.arrive rest) with
      | .next s' => if !s.busy && s'.busy && s'.delay == 0 then runEngine s' else .next s'
      | .fault f => .fault f
      | .refused r => .refused r) :=
  (if_neg (by simp [h])).trans (hq ▸ rfl)

/-- All a step can do when it answers a next state: run the engine, stay, or let a host access arrive, which may issue a
command that runs at once. -/
theorem step_next {s t : State} (h : step s = .next t) :
    (s.engineDue = true ∧ runEngine s = .next t) ∨ (s.engineDue = false ∧ s.hostq = [] ∧ t = s)
      ∨ (s.engineDue = false ∧ ∃ op rest s', s.hostq = op :: rest ∧ hostAccess op (s.arrive rest) = .next s'
        ∧ ((t = s' ∧ ¬ (s.busy = false ∧ s'.busy = true ∧ s'.delay = 0))
          ∨ (s.busy = false ∧ s'.busy = true ∧ s'.delay = 0 ∧ runEngine s' = .next t))) := by
  cases hd : s.engineDue with
  | true => exact .inl ⟨rfl, by rw [← step_of_engineDue hd, h]⟩
  | false =>
    cases hq : s.hostq with
    | nil =>
      rw [step_of_empty hd hq] at h
      cases h
      exact .inr (.inl ⟨rfl, rfl, rfl⟩)
    | cons op rest =>
      rw [step_of_access hd hq] at h
      refine .inr (.inr ⟨rfl, op, rest, ?_⟩)
      cases ha : hostAccess op (s.arrive rest) with
      | next s' =>
        rw [ha] at h
        refine ⟨s', rfl, rfl, ?_⟩
        simp only at h
        split at h
        · rename_i hc
          simp only [Bool.and_eq_true, Bool.not_eq_true', beq_iff_eq] at hc
          exact .inr ⟨hc.1.1, hc.1.2, hc.2, h⟩
        · rename_i hc
          cases h
          refine .inl ⟨rfl, fun hcon => hc ?_⟩
          simp [hcon.1, hcon.2.1, hcon.2.2]
      | fault f => rw [ha] at h; cases h
      | refused r => rw [ha] at h; cases h

/-- What the build stage can do: place every entry, or end with the failing entry's code free. -/
theorem buildStage_eq (t : CodeTable) (s : State) :
    buildStage t s = (match buildDecode [] t with
      | (placed, none) => .ok placed s
      | (_, some failing) => .error ⟨.invalidTableEntry, false⟩ (s.withCodes (freeFailing t failing s.fresh))) := by
  rw [buildStage, Run.bind_eq]
  show (match buildDecode [] t with
    | (placed, none) => pure placed
    | (_, some failing) => _ : Run CodeTable) s = _
  cases buildDecode [] t with
  | mk placed failing => cases failing <;> rfl

/-- A code table in the strict form is in the form that State holds. -/
theorem CodeTable.held_of_wf {t : CodeTable} (h : CodeTable.wf t = true) : CodeTable.held t = true := by
  simp only [CodeTable.wf, CodeTable.held, Bool.and_eq_true, List.all_eq_true, decide_eq_true_eq] at h ⊢
  refine ⟨h.1, fun e he => ⟨⟨(h.2 e he).1.1, ?_⟩, (h.2 e he).2⟩⟩
  have hl := (h.2 e he).1.2
  simp only [Bool.or_eq_true, bne_iff_ne]
  exact .inl fun h0 => by simp [h0] at hl

/-- A raced command ends in one of the ways it can. -/
theorem racedEnd_mem (i : Instr) (l : Params) (tick : Nat) : racedEnd i l tick ∈ raceEnds i l := by
  have h : 0 < (raceEnds i l).length := by
    have : okTables i l ≠ [] := by cases i <;> simp only [okTables] <;> (try split) <;> simp
    have := List.length_pos_iff.2 this
    simp only [raceEnds, List.length_append, List.length_map]
    omega
  rw [racedEnd, List.getD_eq_getElem _ _ (Nat.mod_lt _ h)]
  exact List.getElem_mem _

/-- All a raced command does: it ends in one of its ways, with free bytes, results and table contents. -/
theorem runRaced_next {i : Instr} {s : State} (h : touchesDevice i s = false) :
    ∃ e ∈ raceEnds i s.latched, runRaced i s = .next
      (if e.code = .ok then
        ((s.racedTables i e.reached).withMem (forgetRegions s.mem s.fresh (regions i s.latched))).completeOk
          (racedResults s.fresh)
      else
        { ((s.racedTables i e.reached).withMem (forgetRegions s.mem s.fresh (regions i s.latched))).completeErr e.code with
          results := racedResults s.fresh }) := by
  refine ⟨racedEnd i s.latched s.fresh, racedEnd_mem _ _ _, ?_⟩
  rw [runRaced, if_neg (by simp [h])]
  dsimp only
  split <;> rfl

end Sys2Proof.Machine
end

