-- ==== Sys2Proof/Laws/PerInstr.lean ====
section
/-! SUPPORT. Lemmas made for every instruction, one per constructor. -/

namespace Sys2Proof.Laws.EncodeDecode

/-- The command's word decodes to the command. -/
def Statement (i : Instr) : Prop := i.wellFormed = true → decode (encode i) = .ok i

theorem nop : Statement .nop := fun _ => by decide
theorem lutBitmapFromData : Statement .lutBitmapFromData := fun _ => by decide
theorem lutBitmapLoad : Statement .lutBitmapLoad := fun _ => by decide
theorem lutBitmapStore : Statement .lutBitmapStore := fun _ => by decide
theorem lutBuildForward : Statement .lutBuildForward := fun _ => by decide
theorem lutBuildReverse : Statement .lutBuildReverse := fun _ => by decide
theorem lutApply : Statement .lutApply := fun _ => by decide
theorem lutDump : Statement .lutDump := fun _ => by decide
theorem wavEncode : Statement .wavEncode := fun _ => by decide
theorem wavDecode : Statement .wavDecode := fun _ => by decide
theorem hufCompress : Statement .hufCompress := fun _ => by decide
theorem hufUncompress : Statement .hufUncompress := fun _ => by decide
theorem hufDumpCodes : Statement .hufDumpCodes := fun _ => by decide
theorem pizCompress : Statement .pizCompress := fun _ => by decide
theorem pizUncompress : Statement .pizUncompress := fun _ => by decide

end Sys2Proof.Laws.EncodeDecode
end

