-- ==== Sys2Proof/Laws/Views.lean ====
section
/-! SUPPORT. Memory seen sample by sample, byte by byte: how the claims' terms meet the model's reads. -/

namespace Sys2Proof.Machine

/-- Reading `n` samples reads them one by one (20_memory.md R92). -/
theorem Memory.samples_eq (m : Memory) (a n : Nat) (h : m.wf = true) : m.samples a n = m.sampleList a n := by
  rw [Memory.samples, Memory.sampleList, Memory.bytes_eq _ _ _ h]
  induction n generalizing a with
  | zero => rfl
  | succ n ih =>
    rw [show 2 * (n + 1) = 2 * n + 1 + 1 by ring, List.range'_succ, List.range'_succ, List.map_cons, List.map_cons,
      samplesOfBytes, show a + 1 + 1 = a + 2 by rfl, ih (a + 2), List.range_succ_eq_map, List.map_cons, List.map_map]
    congr 1
    apply List.map_congr_left
    intro k _
    show m.sample _ = m.sample _
    congr 1
    simp
    ring

@[simp] theorem Memory.sampleList_length (m : Memory) (a n : Nat) : (m.sampleList a n).length = n := by
  simp [Memory.sampleList]

/-- Byte `2 k` of a sample sequence is the low byte of sample `k` (20_memory.md R93). -/
theorem bytesOfSamples_low (xs : List Sample) (k : Nat) (h : k < xs.length) :
    (bytesOfSamples xs).getD (2 * k) 0 = (xs.getD k 0).extractLsb' 0 8 := by
  induction xs generalizing k with
  | nil => simp at h
  | cons v rest ih =>
    cases k with
    | zero => simp [bytesOfSamples]
    | succ k =>
      rw [show 2 * (k + 1) = 2 * k + 1 + 1 by ring, bytesOfSamples, List.getD_cons_succ, List.getD_cons_succ,
        List.getD_cons_succ]
      exact ih k (by simpa using h)

/-- Byte `2 k + 1` of a sample sequence is the high byte of sample `k` (20_memory.md R93). -/
theorem bytesOfSamples_high (xs : List Sample) (k : Nat) (h : k < xs.length) :
    (bytesOfSamples xs).getD (2 * k + 1) 0 = (xs.getD k 0).extractLsb' 8 8 := by
  induction xs generalizing k with
  | nil => simp at h
  | cons v rest ih =>
    cases k with
    | zero => simp [bytesOfSamples]
    | succ k =>
      rw [show 2 * (k + 1) + 1 = 2 * k + 1 + 1 + 1 by ring, bytesOfSamples, List.getD_cons_succ, List.getD_cons_succ,
        List.getD_cons_succ]
      exact ih k (by simpa using h)

theorem extractLsb'_append_halves (v : Sample) : v.extractLsb' 8 8 ++ v.extractLsb' 0 8 = v := by
  apply BitVec.eq_of_getLsbD_eq
  intro i hi
  rw [BitVec.getLsbD_append, BitVec.getLsbD_extractLsb', BitVec.getLsbD_extractLsb']
  by_cases h : i < 8
  · simp [h]
  · have e : 8 + (i - 8) = i := by omega
    have e2 : i - 8 < 8 := by omega
    simp [h, e, e2]

/-- A sample of a stored sample sequence is the sample stored there. -/
theorem Memory.sample_write (m : Memory) (a k : Nat) (xs : List Sample) (h : m.wf = true) (hk : k < xs.length) :
    (m.write a (bytesOfSamples xs)).sample (a + 2 * k) = xs.getD k 0 := by
  rw [Memory.sample, Memory.read_write _ _ _ _ h, Memory.read_write _ _ _ _ h, bytesOfSamples_length,
    if_pos (by omega), if_pos (by omega), show a + 2 * k + 1 - a = 2 * k + 1 by omega,
    show a + 2 * k - a = 2 * k by omega]
  show ((bytesOfSamples xs).getD (2 * k + 1) (0 : Byte) ++ (bytesOfSamples xs).getD (2 * k) (0 : Byte) : BitVec (8 + 8)) = _
  rw [bytesOfSamples_high _ _ hk, bytesOfSamples_low _ _ hk, extractLsb'_append_halves]

/-- A sample outside the stored bytes is as before. -/
theorem Memory.sample_write_of_disjoint (m : Memory) (a b : Nat) (bs : List Byte) (h : m.wf = true)
    (hd : b + 2 ≤ a ∨ a + bs.length ≤ b) : (m.write a bs).sample b = m.sample b := by
  rw [Memory.sample, Memory.sample, Memory.read_write _ _ _ _ h, Memory.read_write _ _ _ _ h, if_neg (by omega),
    if_neg (by omega)]

/-- A store keeps every byte outside it. -/
theorem Memory.write_keptOutside (m : Memory) (a : Nat) (bs : List Byte) (h : m.wf = true) :
    m.keptOutside (m.write a bs) a bs.length := by
  intro k hk
  rw [Memory.read_write _ _ _ _ h, if_neg (by omega)]

end Sys2Proof.Machine
end

