-- ==== Sys2Proof/Tests/Slice0.lean ====
section
/-! SUPPORT. Tests: the command words written out from the opcode map, the ill-formed terms that well-formedness refuses, the
spec's own vectors (95_test_vectors.md and the examples of the command rules) on one step each, and for each statement about
a next state a state that meets its hypotheses. -/

-- One theorem after the other: evaluated in parallel, their stacks together pass the sandbox's memory limit.
set_option Elab.async false

namespace Sys2Proof.Tests
open Sys2Proof.Machine

/-! ### Command words, bit by bit (30_encoding.md R130, R131, R134) -/

theorem test_control_words : decodeTableWord 32 0b00000000000000000000000000000000 = some .nop := by decide

theorem test_lut_words :
    decodeTableWord 32 0b00000000000000000000000000000001 = some .lutBitmapFromData
      ∧ decodeTableWord 32 0b00000000000000000000000000000010 = some .lutBitmapLoad
      ∧ decodeTableWord 32 0b00000000000000000000000000000011 = some .lutBitmapStore
      ∧ decodeTableWord 32 0b00000000000000000000000000000100 = some .lutBuildForward
      ∧ decodeTableWord 32 0b00000000000000000000000000000101 = some .lutBuildReverse
      ∧ decodeTableWord 32 0b00000000000000000000000000000110 = some .lutApply
      ∧ decodeTableWord 32 0b00000000000000000000000000000111 = some .lutDump := by decide

theorem test_wavelet_words :
    decodeTableWord 32 0b00000000000000000000000000010000 = some .wavEncode
      ∧ decodeTableWord 32 0b00000000000000000000000000010001 = some .wavDecode := by decide

theorem test_huffman_words :
    decodeTableWord 32 0b00000000000000000000000000100000 = some .hufCompress
      ∧ decodeTableWord 32 0b00000000000000000000000000100001 = some .hufUncompress
      ∧ decodeTableWord 32 0b00000000000000000000000000100010 = some .hufDumpCodes := by decide

theorem test_piz_words :
    decodeTableWord 32 0b00000000000000000000000000110000 = some .pizCompress
      ∧ decodeTableWord 32 0b00000000000000000000000000110001 = some .pizUncompress := by decide

theorem test_illegal_words :
    [0x08, 0x0F, 0x12, 0x1F, 0x23, 0x2F, 0x32, 0xFF].all
        (fun w => decode (BitVec.ofNat 32 w) = .error .unassignedOpcode) = true
      ∧ [0x100, 0x80000000, 0x00010001, 0xFFFFFF00].all
        (fun w => decode (BitVec.ofNat 32 w) = .error .mustBeZero) = true := by decide

/-! ### Well-formedness: each check refuses an ill-formed term -/

theorem test_wf_mbz : mbzOk 0x00000100 = false ∧ commandWordOk 0x00000100 = false ∧ commandWordOk 0x31 = true := by decide

theorem test_wf_opcode :
    [0x08, 0x0F, 0x12, 0x1F, 0x23, 0x2F, 0x32, 0xFF].all (fun w => !commandWordOk (BitVec.ofNat 32 w)) = true := by
  decide

theorem test_wf_register_width :
    HostOp.wellFormed (.regWrite .w8 0x020 1) = false ∧ HostOp.wellFormed (.regRead .w64 0x020) = false
      ∧ HostOp.wellFormed (.regRead .w32 0x020) = true := by decide

theorem test_wf_register_alignment :
    HostOp.wellFormed (.regWrite .w32 0x022 1) = false ∧ HostOp.wellFormed (.regRead .w32 0x001) = false := by decide

theorem test_wf_memory_range :
    HostOp.wellFormed (.memRead .w8 0xFFFFFFFF 2 true) = false ∧ HostOp.wellFormed (.memWrite .w8 0x100000000 [1] true) = false
      ∧ HostOp.wellFormed (.memRead .w8 0xFFFFFFFF 1 true) = true := by decide

/-! ### Helpers -/

/-- A machine at rest whose next command has latched `l`, over a memory. -/
def machine (l : Params) (m : Memory) : State := { State.reset with latched := l, mem := m }

/-- Memory with bytes stored at an address. -/
def stored (a : Nat) (bs : List Byte) : Memory := Memory.write [] a bs

/-- An outcome that is a next state. -/
def isNext : Host.Outcome State Fault Refusal → Bool
  | .next _ => true
  | _ => false

/-- The next state of an outcome, reset where there is none. -/
def nextOf : Host.Outcome State Fault Refusal → State
  | .next t => t
  | _ => State.reset

theorem eq_next_of_isNext (o : Host.Outcome State Fault Refusal) (h : isNext o = true) : o = .next (nextOf o) := by
  cases o <;> simp_all [isNext, nextOf]

/-- The state after a command. -/
def after (i : Instr) (s : State) : State := nextOf (exec i s)

/-- The completion code of the first command after reset. -/
def firstCode (w : Nat) : Option ErrCode :=
  match step (State.reset.withFetchWord 32 w) with
  | .next t => if t.done then some t.errcode else none
  | _ => none

/-- The encoding of a sample sequence. -/
def encodingOf (xs : List Sample) : Encoded :=
  match encodeSamples xs with
  | .ok e => e
  | .error _ => ⟨0, 0, [], [], []⟩

/-- What an exception-valued computation answers. -/
def okOf {α : Type} : Except ErrCode α → Option α
  | .ok v => some v
  | .error _ => none

theorem eq_ok_of_okOf {α : Type} (x : Except ErrCode α) (v : α) (h : okOf x = some v) : x = .ok v := by
  cases x <;> simp_all [okOf]

/-- The code an exception-valued computation fails with. -/
def errorOf {α : Type} : Except ErrCode α → Option ErrCode
  | .ok _ => none
  | .error e => some e

theorem eq_error_of_errorOf {α : Type} (x : Except ErrCode α) (e : ErrCode) (h : errorOf x = some e) : x = .error e := by
  cases x <;> simp_all [errorOf]

/-! ### Every word runs as the first instruction after reset -/

theorem test_first_instruction :
    [0x00, 0x01, 0x02, 0x03, 0x04, 0x05, 0x06, 0x07].map firstCode
        = [some .ok, some .ok, some .notEnoughData, some .noTable, some .noTable, some .noTable, some .noTable,
          some .noTable]
      ∧ [0x10, 0x11, 0x20, 0x21, 0x22].map firstCode = [some .ok, some .ok, some .ok, some .ok, some .noTable]
      ∧ [0x30, 0x31, 0x100].map firstCode = [some .dstOverflow, some .notEnoughData, some .illegalCmd] := by
  decide +kernel

/-! ### The LUT family (95_test_vectors.md 2.1) -/

/-- The samples `0, 3, 8, 3` at 0x1000, source and destination set (vector L-1). -/
def lutMachine : State :=
  machine { srcAddr := 0x1000, srcLen := 4, dstAddr := 0x2000, dstLen := 16 } (stored 0x1000 (bytesOfSamples [0, 3, 8, 3]))

/-- `lutMachine` with the BITMAP of the values 3 and 8. -/
def lutMachineBitmap : State := after .lutBitmapFromData lutMachine

theorem test_bitmap_from_data :
    lutMachineBitmap.readReg .status = 0x00010002 ∧ lutMachineBitmap.results = { minnz := 0, maxnz := 1 }
      ∧ lutMachineBitmap.bitmap = some 0x108 := by decide +kernel

theorem test_bitmap_from_no_data :
    (after .lutBitmapFromData (machine { srcAddr := 1 } [])).results = { minnz := 8191, maxnz := 0 } := by decide +kernel

theorem test_bitmap_load :
    (after .lutBitmapLoad (machine { srcAddr := 0x1000, srcLen := 6 } (stored 0x1000 [0, 0, 1, 0, 9, 1]))).bitmap
        = some 0x108
      ∧ (after .lutBitmapLoad (machine { srcAddr := 0x1000, srcLen := 6 } (stored 0x1000 [0, 0, 1, 0, 9, 1]))).results
        = { len := 6, minnz := 0, maxnz := 1 } := by decide +kernel

theorem test_bitmap_load_cut_off :
    (after .lutBitmapLoad (machine { srcAddr := 0x1000, srcLen := 5 } (stored 0x1000 [0, 0, 1, 0, 9]))).errcode
        = .notEnoughData
      ∧ (after .lutBitmapLoad (machine { srcAddr := 0x1000, srcLen := 4 } (stored 0x1000 [0, 0, 0, 0x20]))).readReg .status
        = 0x00001002 := by decide +kernel

theorem test_bitmap_store :
    (after .lutBitmapStore lutMachineBitmap).mem.bytes 0x2000 7 = [0, 0, 1, 0, 8, 1, 0]
      ∧ (after .lutBitmapStore lutMachineBitmap).results = { len := 6, minnz := 0, maxnz := 1 } := by decide +kernel

theorem test_bitmap_store_too_small :
    (after .lutBitmapStore { lutMachineBitmap with latched := { dstAddr := 0x2000, dstLen := 5 } }).errcode = .dstOverflow
      ∧ (after .lutBitmapStore { lutMachineBitmap with latched := { dstAddr := 0x2000, dstLen := 5 } }).mem
        = lutMachine.mem := by decide +kernel

theorem test_build_forward :
    (after .lutBuildForward lutMachineBitmap).readReg .status = 0x00030002
      ∧ (after .lutBuildForward lutMachineBitmap).lut = some [(3, 1), (8, 2)]
      ∧ (after .lutBuildForward lutMachineBitmap).results = { maxval := 2 } := by decide +kernel

theorem test_build_reverse :
    (after .lutBuildReverse lutMachineBitmap).readReg .status = 0x00070002
      ∧ (after .lutBuildReverse lutMachineBitmap).lut = some [(1, 3), (2, 8)] := by decide +kernel

theorem test_lut_apply :
    (after .lutApply (after .lutBuildForward lutMachineBitmap)).mem.samples 0x1000 4 = [0, 1, 2, 1] := by decide +kernel

theorem test_lut_apply_checks_table_first :
    (after .lutApply (machine { srcAddr := 0x1001, srcLen := 4 } [])).errcode = .noTable := by decide +kernel

theorem test_lut_dump_checks :
    (after .lutDump { (after .lutBuildForward lutMachineBitmap) with
        latched := { dstAddr := 0x2000, dstLen := 131071 } }).errcode = .dstOverflow
      ∧ (after .lutDump { (after .lutBuildForward lutMachineBitmap) with
        latched := { dstAddr := 0x2001, dstLen := 131072 } }).errcode = .misaligned := by decide +kernel

/-! ### The wavelet family (95_test_vectors.md 2.2) -/

theorem test_butterflies_14 :
    wenc14 0xFFFF 0 = (0xFFFF, 0xFFFF) ∧ wdec14 0 0xFFFF = (0, 1) ∧ wenc14 2 5 = (3, 0xFFFD) ∧ wdec14 0xFFFF 0xFFFF = (0xFFFF, 0) := by
  decide +kernel

theorem test_butterflies_16 :
    wenc16 0xFFFF 0 = (0x3FFF, 0x7FFF) ∧ wenc16 0 0xFFFF = (0x3FFF, 0x8001) ∧ wenc16 0x1234 0xFEDC = (0x4888, 0x9358)
      ∧ wdec16 0 0 = (0x8000, 0) := by decide +kernel

/-- A grid of samples at 0x1000 with unit element stride. -/
def gridMachine (nx ny : Nat) (maxval : BitVec 16) (xs : List Sample) : State :=
  machine { srcAddr := 0x1000, nx := BitVec.ofNat 32 nx, ny := BitVec.ofNat 32 ny, ox := 1, oy := BitVec.ofNat 32 nx, maxval := maxval }
    (stored 0x1000 (bytesOfSamples xs))

theorem test_wav_encode :
    (after .wavEncode (gridMachine 3 3 9 [1, 2, 3, 4, 5, 6, 7, 8, 9])).mem.samples 0x1000 9
        = [2, 0xFFFF, 4, 0xFFFD, 0, 0xFFFD, 7, 0xFFFF, 9]
      ∧ (after .wavEncode (gridMachine 3 3 40000 [1, 2, 3, 4, 5, 6, 7, 8, 9])).mem.samples 0x1000 9
        = [0x8002, 0xBFFF, 0x4004, 0x7FFD, 0x8000, 0x7FFD, 0x4007, 0x7FFF, 9] := by decide +kernel

theorem test_wav_encode_two_levels :
    (after .wavEncode (gridMachine 4 4 16 [1, 2, 3, 4, 5, 6, 7, 8, 9, 10, 11, 12, 13, 14, 15, 16])).mem.samples 0x1000 16
      = [8, 0xFFFF, 0xFFFE, 0xFFFF, 0xFFFC, 0, 0xFFFC, 0, 0xFFF8, 0xFFFF, 0, 0xFFFF, 0xFFFC, 0, 0xFFFC, 0] := by
  decide +kernel

theorem test_wav_decode :
    (after .wavDecode (gridMachine 2 2 20000 [0x8002, 0xBFFF, 0x7FFE, 0x8000])).mem.samples 0x1000 4 = [1, 2, 3, 4]
      ∧ (after .wavDecode (gridMachine 2 2 4 [0x8002, 0xBFFF, 0x7FFE, 0x8000])).mem.samples 0x1000 4
        = [1, 0x8002, 0x4003, 0x4004] := by decide +kernel

theorem test_wav_decode_checks :
    (after .wavDecode (machine { srcAddr := 0x1000, nx := 2, ny := 2, ox := 1, oy := 1 } [])).errcode = .badParam
      ∧ (after .wavDecode (machine { srcAddr := 0x1001, ny := 5 } [])).errcode = .ok := by decide +kernel

/-! ### The Huffman family (41_huffman_encode.md R262, R264; 42_huffman_decode.md R320) -/

/-- The block of the samples `1, 1, 1, 1, 2` (41_huffman_encode.md R262). -/
def block11112 : List Byte :=
  [1, 0, 0, 0, 3, 0, 0, 0, 3, 0, 0, 0, 6, 0, 0, 0, 0, 0, 0, 0, 4, 0x20, 0x80, 0xF0]

/-- The samples `1, 1, 1, 1, 2` at 0x1000, 24 bytes of room at 0x2001. -/
def hufMachine : State :=
  machine { srcAddr := 0x1000, srcLen := 5, dstAddr := 0x2001, dstLen := 24 } (stored 0x1000 (bytesOfSamples [1, 1, 1, 1, 2]))

/-- The block at 0x3001, its five samples expected at 0x1000. -/
def unhufMachine : State :=
  machine { srcAddr := 0x3001, srcLen := 24, dstAddr := 0x1000, dstLen := 5 } (stored 0x3001 block11112)

theorem test_huf_compress :
    (after .hufCompress hufMachine).mem.bytes 0x2001 24 = block11112
      ∧ (after .hufCompress hufMachine).results = { len := 24, nbits := 6, im := 1, imax := 3, tablen := 3 }
      ∧ (after .hufCompress hufMachine).readReg .status = 0x00080002 := by decide +kernel

theorem test_huf_compress_run :
    (encodingOf (List.replicate 11 5)).stream.length = 11 ∧ (encodingOf (List.replicate 12 5)).stream.length = 10
      ∧ (after .hufCompress { hufMachine with latched := { hufMachine.latched with dstLen := 23 } }).readReg .status
        = 0x00080702 := by decide +kernel

theorem test_huf_uncompress :
    (after .hufUncompress unhufMachine).mem.samples 0x1000 5 = [1, 1, 1, 1, 2]
      ∧ (after .hufUncompress unhufMachine).results = { len := 5, nbits := 6, im := 1, imax := 3, tablen := 3 } := by
  decide +kernel

theorem test_huf_uncompress_errors :
    (after .hufUncompress { unhufMachine with latched := { unhufMachine.latched with dstLen := 4 } }).errcode
        = .tooMuchData
      ∧ (after .hufUncompress { unhufMachine with latched := { unhufMachine.latched with dstLen := 6 } }).errcode
        = .notEnoughData := by decide +kernel

theorem test_huf_code_entries :
    (encodingOf [1, 1, 1, 1, 2]).codes.map (fun e => (e.sym, e.dumpWord)) = [(1, 0x41), (2, 0x02), (3, 0x42)] := by
  decide +kernel

/-- A length 0 with a code that is not 0, which a race can leave (70_reset_and_hazards.md R620), dumps as the code alone. -/
theorem test_huf_code_of_length_zero :
    CodeTable.hlen [⟨5, 0, 9⟩] 5 = 0 ∧ CodeTable.hcode [⟨5, 0, 9⟩] 5 = 9 ∧ CodeEntry.dumpWord ⟨5, 0, 9⟩ = 9 * 2 ^ 6
      ∧ CodeTable.wf [⟨5, 0, 9⟩] = false := by decide

theorem test_huf_dump_checks :
    (after .hufDumpCodes { (after .hufCompress hufMachine) with latched := { dstLen := 524295 } }).errcode = .dstOverflow
      ∧ (after .hufDumpCodes { (after .hufCompress hufMachine) with latched := { dstAddr := 4, dstLen := 524296 } }).errcode
        = .misaligned := by decide +kernel

/-! ### The PIZ family (44_piz.md R395, R397) -/

/-- One descriptor `(4, 1, 1)` at 0x500 and the samples `0, 3, 8, 3` at 0x1000. -/
def pizMachine : State :=
  machine { srcAddr := 0x1000, srcLen := 4, dstAddr := 0x2000, dstLen := 64, auxAddr := 0x500, auxLen := 1 }
    ((stored 0x1000 (bytesOfSamples [0, 3, 8, 3])).write 0x500 [4, 0, 0, 0, 1, 0, 0, 0, 1, 0, 0, 0])

/-- `pizMachine` after PIZ_COMPRESS, set to decode the block at 0x2000 to 0x4000. -/
def unpizMachine : State :=
  { (after .pizCompress pizMachine) with
    latched := { srcAddr := 0x2000, srcLen := 34, dstAddr := 0x4000, dstLen := 4, auxAddr := 0x500, auxLen := 1 } }

theorem test_piz_compress :
    (after .pizCompress pizMachine).mem.bytes 0x2000 10 = [0, 0, 1, 0, 8, 1, 0x18, 0, 0, 0]
      ∧ (after .pizCompress pizMachine).mem.samples 0x1000 4 = [0, 1, 2, 1]
      ∧ (after .pizCompress pizMachine).results.len = 34
      ∧ (after .pizCompress pizMachine).readReg .status = 0x000B0002 := by decide +kernel

theorem test_piz_compress_bad_descriptor :
    (after .pizCompress { pizMachine with mem := pizMachine.mem.write 0x508 [3] }).errcode = .badParam
      ∧ (after .pizCompress { pizMachine with latched := { pizMachine.latched with dstLen := 9 } }).errcode = .dstOverflow := by
  decide +kernel

theorem test_piz_uncompress :
    (after .pizUncompress unpizMachine).mem.samples 0x4000 4 = [0, 3, 8, 3]
      ∧ (after .pizUncompress unpizMachine).results.len = 34
      ∧ (after .pizUncompress unpizMachine).results.maxval = 2 := by decide +kernel

theorem test_piz_uncompress_length :
    (after .pizUncompress { unpizMachine with mem := unpizMachine.mem.write 0x2009 [0x80] }).errcode = .pizLength := by
  decide +kernel

/-! ### The register window, reset, interrupts -/

/-- After a NOP from reset with the CMD_DONE interrupt enabled. -/
def nopDone : State := nextOf (step { (State.reset.withFetchWord 32 0) with irqEnable := 1 })

theorem test_irq_clear_and_level :
    nopDone.irqLevel = true ∧ (nopDone.writeReg .irqStatus 1).irqLevel = false
      ∧ (nopDone.writeReg .irqStatus 6).irqLevel = true := by decide +kernel

theorem test_soft_reset :
    (nextOf (step { lutMachineBitmap with hostq := expandStmt .srst })).bitmap = none
      ∧ (nextOf (step { lutMachineBitmap with hostq := expandStmt .srst })).mem = lutMachine.mem := by decide +kernel

/-! ### Witnesses: for each statement, states that meet its hypotheses, clause by clause -/

theorem twoPow_bit (v u : Nat) (hv : v < 65536) : Bitmap.bit (BitVec.twoPow 65536 v) u = true ↔ u = v := by
  rw [Bitmap.bit, BitVec.getLsbD_twoPow]
  simp only [Bool.and_eq_true, decide_eq_true_eq]
  omega

theorem twoPow_byte_ne_zero (v j : Nat) (hv : v < 65536) :
    Bitmap.byte (BitVec.twoPow 65536 v) j ≠ 0 ↔ j = v / 8 := by
  constructor
  · intro h
    by_contra hj
    apply h
    apply BitVec.eq_of_getLsbD_eq
    intro t ht
    rw [Bitmap.byte_getLsbD _ _ _ ht]
    by_contra hc
    have := (twoPow_bit v (8 * j + t) hv).1 (by simpa using hc)
    omega
  · rintro rfl h
    have h1 := (twoPow_bit v v hv).2 rfl
    rw [show v = 8 * (v / 8) + v % 8 by omega] at h1
    have h2 := Bitmap.byte_getLsbD (BitVec.twoPow 65536 v) (v / 8) (v % 8) (Nat.mod_lt _ (by decide))
    rw [h, ← show v = 8 * (v / 8) + v % 8 by omega] at h2
    rw [← show v = 8 * (v / 8) + v % 8 by omega] at h1
    rw [h1] at h2
    simp at h2

/-- The bounds of a BITMAP with one value. -/
theorem twoPow_isMinMax (v : Nat) (hv : v < 65536) : Bitmap.isMinMax (BitVec.twoPow 65536 v) (v / 8) (v / 8) := by
  refine .inr ⟨(twoPow_byte_ne_zero v _ hv).2 rfl, (twoPow_byte_ne_zero v _ hv).2 rfl, fun j hj => ?_⟩
  have := (twoPow_byte_ne_zero v j hv).1 hj
  omega

theorem twoPow_rank (v u : Nat) (h : 0 < v) (hv : v ≤ u) (hu : u < 65536) :
    Bitmap.rank (BitVec.twoPow 65536 v) u = 1 := by
  have : Bitmap.rank (BitVec.twoPow 65536 v) u = (List.range (u + 1)).count v := by
    rw [Bitmap.rank, List.count]
    refine List.countP_congr fun k _ => ?_
    have := twoPow_bit v k (by omega)
    simp only [Bool.and_eq_true, decide_eq_true_eq, this, beq_iff_eq]
    omega
  rw [this, List.nodup_range.count, if_pos (List.mem_range.2 (by omega))]

theorem zero_isMinMax : Bitmap.isMinMax 0 8191 0 := by
  refine .inl ⟨fun j => ?_, rfl, rfl⟩
  apply BitVec.eq_of_getLsbD_eq
  intro t ht
  rw [Bitmap.byte_getLsbD _ _ _ ht]
  simp [Bitmap.bit]

/-- A state whose next host access is a write of CMD. -/
def cmdNext (w : Word32) (delays : List Nat) : State :=
  { State.reset with hostq := [.regWrite .w32 (regOffset .cmd) w], delays := delays }

/-- A state in which the word `w` runs, with `k` accesses to arrive before it completes. -/
def busyWith (w : Word32) (k : Nat) (q : List HostOp) : State :=
  { State.reset with phase := .busy w, delay := k, hostq := q }

theorem test_witness_IllegalWordCompletesAtOnce :
    (cmdNext 0x100 [3]).phase = .idle ∧ (cmdNext 0x100 [3]).hostq = .regWrite .w32 (regOffset .cmd) 0x100 :: []
      ∧ (0x100 : Word32).extractLsb' 8 24 ≠ 0 ∧ (0xFFFFFFFF : Word32).extractLsb' 8 24 ≠ 0
      ∧ (cmdNext 0x08 [3]).phase = .idle ∧ (0x08 ≤ (0x08 : Word32).toNat ∧ (0x08 : Word32).toNat ≤ 0x0F)
      ∧ (0x12 ≤ (0x1F : Word32).toNat ∧ (0x1F : Word32).toNat ≤ 0x1F)
      ∧ (0x23 ≤ (0x23 : Word32).toNat ∧ (0x23 : Word32).toNat ≤ 0x2F)
      ∧ (0x32 ≤ (0xFF : Word32).toNat ∧ (0xFF : Word32).toNat ≤ 0xFF) :=
  ⟨rfl, rfl, by decide, by decide, rfl, by decide, by decide, by decide, by decide⟩

theorem test_witness_StepRunsTheDecodedCommand :
    decode 0 = .ok .nop ∧ Instr.nop.wellFormed = true
      ∧ ((cmdNext 0 []).phase = .idle ∧ (cmdNext 0 []).hostq = .regWrite .w32 (regOffset .cmd) 0 :: []
        ∧ (cmdNext 0 []).delays.headD 0 = 0)
      ∧ ((cmdNext 0 [1]).phase = .idle ∧ (cmdNext 0 [1]).hostq = .regWrite .w32 (regOffset .cmd) 0 :: []
        ∧ 0 < (cmdNext 0 [1]).delays.headD 0)
      ∧ ((busyWith 0 0 [.wait]).phase = .busy 0 ∧ ((busyWith 0 0 [.wait]).delay = 0 ∨ (busyWith 0 0 [.wait]).hostq = [])
        ∧ (busyWith 0 0 [.wait]).raced = false)
      ∧ ((busyWith 0 2 []).phase = .busy 0 ∧ ((busyWith 0 2 []).delay = 0 ∨ (busyWith 0 2 []).hostq = [])
        ∧ (busyWith 0 2 []).raced = false) := by decide

theorem test_witness_IssueLatchesAndStartsOver : State.reset.phase = .idle := rfl

theorem test_witness_IdleEngineNeverStartsWork :
    (State.reset.phase = .idle ∧ State.reset.hostq = [])
      ∧ (∀ op ∈ [HostOp.regRead .w32 0, .regWrite .w32 (regOffset .ctrl) 0xFFFFFFFE],
        ({ State.reset with hostq := [op] } : State).phase = .idle
          ∧ isNext (step { State.reset with hostq := [op] }) = true)
      ∧ (step (cmdNext 0x20 [2]) = .next (nextOf (step (cmdNext 0x20 [2]))) ∧ (cmdNext 0x20 [2]).phase = .idle
        ∧ (nextOf (step (cmdNext 0x20 [2]))).phase = .busy 0x20) :=
  ⟨by decide, by decide +kernel, eq_next_of_isNext _ (by decide +kernel), by decide, by decide +kernel⟩

theorem test_witness_BitmapFromDataResult :
    ∀ s ∈ [lutMachine, machine { srcAddr := 1 } [], machine { srcAddr := 0xFFFFFFFC, srcLen := 2 } []],
      s.mem.wf = true ∧ s.usable s.latched.srcAddr.toNat (2 * s.latched.srcLen.toNat) 2
        ∧ s.readFails s.latched.srcAddr.toNat (2 * s.latched.srcLen.toNat) = false := by decide +kernel

/-- The size of the slice of the block at 0x1000. -/
def sliceAt (s : State) (a : Nat) : Nat :=
  if (s.mem.sample a).toNat ≤ (s.mem.sample (a + 2)).toNat then
    (s.mem.sample (a + 2)).toNat - (s.mem.sample a).toNat + 1
  else 0

theorem test_witness_BitmapLoadResult :
    (∀ s ∈ [machine { srcAddr := 0x1000, srcLen := 6 } (stored 0x1000 [0, 0, 1, 0, 9, 1]),
        machine { srcAddr := 0x1000, srcLen := 4 } (stored 0x1000 [0xFF, 0xFF, 0, 0]),
        machine { srcAddr := 0x1000, srcLen := 5 } (stored 0x1000 [0xFF, 0x1F, 0xFF, 0x1F, 0x80])],
      s.mem.wf = true ∧ s.usable s.latched.srcAddr.toNat s.latched.srcLen.toNat 1
        ∧ s.readFails s.latched.srcAddr.toNat s.latched.srcLen.toNat = false
        ∧ (s.mem.sample (s.latched.srcAddr.toNat + 2)).toNat < 8192
        ∧ 4 + sliceAt s s.latched.srcAddr.toNat ≤ s.latched.srcLen.toNat)
      ∧ ∀ s ∈ [machine { srcAddr := 0x1000, srcLen := 3 } [],
          machine { srcAddr := 0x1000, srcLen := 4 } (stored 0x1000 [0, 0, 0, 0x20]),
          machine { srcAddr := 0x1000, srcLen := 5 } (stored 0x1000 [0, 0, 1, 0, 9])],
        s.mem.wf = true ∧ s.usable s.latched.srcAddr.toNat s.latched.srcLen.toNat 1
          ∧ s.readFails s.latched.srcAddr.toNat s.latched.srcLen.toNat = false
          ∧ (s.latched.srcLen.toNat < 4 ∨ 8192 ≤ (s.mem.sample (s.latched.srcAddr.toNat + 2)).toNat
            ∨ s.latched.srcLen.toNat < 4 + sliceAt s s.latched.srcAddr.toNat) := by decide +kernel

/-- A destination of `cap` bytes at 0x2001 for a BITMAP. -/
def storeMachine (b : Bitmap) (cap : Word32) : State :=
  { machine { dstAddr := 0x2001, dstLen := cap } [] with bitmap := some b }

theorem test_witness_BitmapStoreResult :
    Bitmap.isMinMax 0 8191 0 ∧ Bitmap.isMinMax (BitVec.twoPow 65536 65535) 8191 8191
      ∧ (storeMachine 0 4).mem.wf = true ∧ (storeMachine 0 4).bitmap = some 0 ∧ (storeMachine 0 4).usable 0x2001 4 1
      ∧ (storeMachine 0 4).writeFails 0x2001 4 = false
      ∧ (storeMachine (BitVec.twoPow 65536 65535) 5).usable 0x2001 5 1
      ∧ (storeMachine (BitVec.twoPow 65536 65535) 5).writeFails 0x2001 5 = false
      ∧ (storeMachine (BitVec.twoPow 65536 65535) 4).usable 0x2001 4 1 :=
  ⟨zero_isMinMax, twoPow_isMinMax 65535 (by decide), by decide +kernel, rfl, by decide +kernel, by decide +kernel,
    by decide +kernel, by decide +kernel, by decide +kernel⟩

theorem test_witness_LutBuildResults :
    lutMachineBitmap.bitmap = some 0x108 ∧ (storeMachine 0 0).bitmap = some 0 := by decide +kernel

theorem test_witness_ReverseLutUndoesForward :
    ∀ x ∈ [(0 : Sample), 65535], Bitmap.occurs (BitVec.twoPow 65536 65535) x.toNat := by
  intro x hx
  simp only [List.mem_cons, List.not_mem_nil, or_false] at hx
  rcases hx with rfl | rfl
  · exact .inl rfl
  · exact .inr ((twoPow_bit 65535 65535 (by decide)).2 rfl)

theorem test_witness_LutApplyResult :
    let s := after .lutBuildForward lutMachineBitmap
    s.mem.wf = true ∧ s.lut = some [(3, 1), (8, 2)] ∧ s.usable 0x1000 8 2 ∧ s.readFails 0x1000 8 = false
      ∧ s.writeFails 0x1000 8 = false ∧ s.latched.srcAddr.toNat = 0x1000 ∧ s.latched.srcLen.toNat = 4 := by
  dsimp only
  decide +kernel

/-- A destination of `cap` bytes at `d` and a LUT. -/
def dumpMachine (d cap : Word32) : State := { machine { dstAddr := d, dstLen := cap } [] with lut := some [(3, 1), (8, 2)] }

theorem test_witness_LutDumpResult :
    (dumpMachine 0x2000 131072).mem.wf = true ∧ Lut.wf [(3, 1), (8, 2)] = true
      ∧ (dumpMachine 0x2000 131072).usable 0x2000 131072 2 ∧ (dumpMachine 0x2000 131072).writeFails 0x2000 131072 = false
      ∧ (dumpMachine 0xFFFE0000 131072).usable 0xFFFE0000 131072 2 :=
  ⟨by decide +kernel, by decide +kernel, by decide +kernel, by decide +kernel, by decide +kernel⟩

/-- The size of the region of a wavelet command. -/
def gridSize (s : State) : Nat :=
  let g := gridOfParams s.latched
  if g.nx = 0 ∨ g.ny = 0 then 0 else 2 * ((g.nx - 1) * g.ox + (g.ny - 1) * g.oy + 1)

/-- Grids that meet the wavelet statements' hypotheses: 3 x 3, 1 x 1, empty at an odd address, at the top of memory. -/
def grids : List State :=
  [gridMachine 3 3 9 [1, 2, 3, 4, 5, 6, 7, 8, 9], gridMachine 1 1 16383 [7], machine { srcAddr := 0x1001, ny := 5 } [],
    machine { srcAddr := 0xFFFFFFF8, nx := 2, ny := 2, ox := 1, oy := 2, maxval := 16384 } []]

theorem test_witness_WaveletCommandsComplete :
    ∀ s ∈ grids, s.mem.wf = true ∧ (gridOfParams s.latched).legal
      ∧ s.usable (gridOfParams s.latched).base (gridSize s) 2
      ∧ s.readFails (gridOfParams s.latched).base (gridSize s) = false
      ∧ s.writeFails (gridOfParams s.latched).base (gridSize s) = false := by decide +kernel

theorem test_witness_WaveletCommandsComputeTheTransform :
    ∀ s ∈ grids, s.mem.wf = true ∧ (gridOfParams s.latched).legal
      ∧ s.usable (gridOfParams s.latched).base (gridSize s) 2
      ∧ s.readFails (gridOfParams s.latched).base (gridSize s) = false
      ∧ s.writeFails (gridOfParams s.latched).base (gridSize s) = false := test_witness_WaveletCommandsComplete

theorem test_witness_WaveletRoundTrip :
    (∀ s ∈ grids, 16384 ≤ s.latched.maxval.toNat
      ∨ ∀ x < (gridOfParams s.latched).nx, ∀ y < (gridOfParams s.latched).ny,
        (s.mem.grid (gridOfParams s.latched) x y).toNat < 16384)
      ∧ ∀ s ∈ grids, s.mem.wf = true ∧ (gridOfParams s.latched).legal
        ∧ s.usable (gridOfParams s.latched).base (gridSize s) 2
        ∧ s.readFails (gridOfParams s.latched).base (gridSize s) = false
        ∧ s.writeFails (gridOfParams s.latched).base (gridSize s) = false :=
  ⟨by decide +kernel, test_witness_WaveletCommandsComplete⟩

theorem test_witness_LevelSchedule : 0 < 2 ^ 32 ∧ 4294967295 < 2 ^ 32 := by decide

theorem test_witness_ButterfliesInvert :
    ((0 : Sample).toNat < 16384 ∧ (16383 : Sample).toNat < 16384) := by decide

theorem test_witness_HufCompressResult :
    (∀ s ∈ [hufMachine, { hufMachine with latched := { hufMachine.latched with srcLen := 0 } },
        { hufMachine with latched := { hufMachine.latched with dstLen := 23 } }],
      s.mem.wf = true ∧ s.usable s.latched.srcAddr.toNat (2 * s.latched.srcLen.toNat) 2
        ∧ s.usable s.latched.dstAddr.toNat s.latched.dstLen.toNat 1
        ∧ rangesMeet s.latched.srcAddr.toNat (2 * s.latched.srcLen.toNat) s.latched.dstAddr.toNat s.latched.dstLen.toNat
          = false
        ∧ s.readFails s.latched.srcAddr.toNat (2 * s.latched.srcLen.toNat) = false)
      ∧ encodeSamples (hufMachine.mem.sampleList 0x1000 5) = .ok (encodingOf [1, 1, 1, 1, 2])
      ∧ (encodingOf [1, 1, 1, 1, 2]).stream.length ≤ 2147483647 ∧ (encodingOf [1, 1, 1, 1, 2]).blockLength = 24
      ∧ hufMachine.writeFails 0x2001 24 = false :=
  ⟨by decide +kernel, eq_ok_of_okOf _ _ (by decide +kernel), by decide +kernel, by decide +kernel, by decide +kernel⟩

theorem test_witness_EncodingBoundsAndParts :
    [(1 : Sample), 1, 1, 1, 2] ≠ [] ∧ encodeSamples [1, 1, 1, 1, 2] = .ok (encodingOf [1, 1, 1, 1, 2]) :=
  ⟨by decide, eq_ok_of_okOf _ _ (by decide +kernel)⟩

/-- The code table of `block11112`: the codes 1, 00 and 01. -/
def codes123 : CodeTable := canonicalCodes [(1, 1), (2, 2), (3, 2)]

/-- A code table with the lengths 1 to 8. -/
def codesDeep : CodeTable :=
  canonicalCodes [(0, 1), (1, 2), (2, 3), (3, 4), (4, 5), (5, 6), (6, 7), (7, 8), (8, 8)]

theorem hlen_mem (t : CodeTable) (k : Nat) (h : t.hlen k ≠ 0) : k ∈ t.map (·.sym) := by
  unfold CodeTable.hlen at h
  split at h
  · next e he =>
    have := List.find?_some he
    exact List.mem_map.2 ⟨e, List.mem_of_find?_eq_some he, by simpa using this⟩
  · exact absurd rfl h

theorem prefixFree_of_syms (t : CodeTable)
    (h : ∀ j ∈ t.map (·.sym), ∀ k ∈ t.map (·.sym), j ≠ k → ¬ t.codeBits j <+: t.codeBits k) : t.prefixFree :=
  fun j k hjk hj hk => h j (hlen_mem t j hj) k (hlen_mem t k hk) hjk

theorem hcode_fits_of_syms (t : CodeTable) (h : ∀ k ∈ t.map (·.sym), t.hcode k < 2 ^ t.hlen k) (k : Nat) :
    t.hcode k < 2 ^ t.hlen k := by
  by_cases hk : k ∈ t.map (·.sym)
  · exact h k hk
  · have : t.find? (fun e => e.sym == k) = none := by
      rw [List.find?_eq_none]
      intro e he hs
      exact hk (List.mem_map.2 ⟨e, he, by simpa using hs⟩)
    simp [CodeTable.hcode, CodeTable.hlen, this]

theorem no_code_of_syms (t : CodeTable) (b : Bits) (h : ∀ k ∈ t.map (·.sym), ¬ t.codeBits k <+: b) (k : Nat)
    (hk : t.hlen k ≠ 0) : ¬ t.codeBits k <+: b := h k (hlen_mem t k hk)

theorem test_witness_PackTableAndEncodeBitsTurns :
    (CodeTable.wf codes123 = true ∧ (∀ c ∈ codes123, 0 ≤ c.sym ∧ c.sym ≤ 3) ∧ codes123.hlen 0 = 0 ∧ codes123.hlen 1 ≠ 0
        ∧ 3 < 4)
      ∧ (CodeTable.wf [] = true ∧ 0 + 261 ≤ 260 + 1 ∧ ∀ k < 261, CodeTable.hlen [] (0 + k) = 0)
      ∧ (CodeTable.wf [⟨6, 1, 0⟩] = true ∧ (∀ c ∈ [(⟨6, 1, 0⟩ : CodeEntry)], 0 ≤ c.sym ∧ c.sym ≤ 8)
        ∧ (∀ k < 6, CodeTable.hlen [⟨6, 1, 0⟩] (0 + k) = 0) ∧ CodeTable.hlen [⟨6, 1, 0⟩] (0 + 6) ≠ 0
        ∧ ∀ k < 2, CodeTable.hlen [⟨6, 1, 0⟩] (7 + k) = 0)
      ∧ (255 = 255 ∨ [(1 : Sample)].head? ≠ some 1) ∧ (0 = 255 ∨ [(2 : Sample)].head? ≠ some 1) := by decide +kernel

theorem test_witness_CodeLengthsAreBounded : [(65535 : Sample)] ≠ [] ∧ [(65535 : Sample)].length ≤ 2 ^ 31 := by decide

theorem test_witness_CanonicalCodesArePrefixFree :
    ([(0, 1), (7, 58), (65536, 58)].Pairwise (fun p q : Nat × Nat => p.1 < q.1)
        ∧ ∀ p ∈ [((0 : Nat), (1 : Nat)), (7, 58), (65536, 58)], p.1 < 65537 ∧ 1 ≤ p.2 ∧ p.2 ≤ 58)
      ∧ [(65535 : Sample)] ≠ [] ∧ encodeSamples [65535] = .ok (encodingOf [65535]) :=
  ⟨by decide, by decide, eq_ok_of_okOf _ _ (by decide +kernel)⟩

theorem test_witness_PackedTableUnpacks :
    CodeTable.wf (encodingOf [1, 1, 1, 1, 2]).codes = true ∧ 1 ≤ 3 ∧ 3 < 65537
      ∧ (∀ c ∈ (encodingOf [1, 1, 1, 1, 2]).codes, 1 ≤ c.sym ∧ c.sym ≤ 3)
      ∧ CodeTable.wf (encodingOf [65535]).codes = true
      ∧ ∀ c ∈ (encodingOf [65535]).codes, 65535 ≤ c.sym ∧ c.sym ≤ 65536 := by decide +kernel

/-- What the Huffman decoder statements ask of the regions. -/
abbrev decoderRegions (s : State) : Prop :=
  s.mem.wf = true ∧ s.usable s.latched.srcAddr.toNat s.latched.srcLen.toNat 1
    ∧ s.usable s.latched.dstAddr.toNat (2 * s.latched.dstLen.toNat) 2
    ∧ rangesMeet s.latched.srcAddr.toNat s.latched.srcLen.toNat s.latched.dstAddr.toNat (2 * s.latched.dstLen.toNat)
      = false
    ∧ s.readFails s.latched.srcAddr.toNat s.latched.srcLen.toNat = false
    ∧ s.writeFails s.latched.dstAddr.toNat (2 * s.latched.dstLen.toNat) = false

/-- The lengths of the packed table of `block11112`. -/
theorem block11112_unpacks :
    unpackTable (fun _ => false) (unhufMachine.mem.bytes (0x3001 + 20) (24 - 20)) 1 3 = .ok ([(1, 1), (2, 2), (3, 2)], 3) :=
  eq_ok_of_okOf _ _ (by decide +kernel)

theorem block11112_holds :
    unhufMachine.mem.holdsHuffman 0x3001 24 5 6 3 1 3 (canonicalCodes [(1, 1), (2, 2), (3, 2)]) [1, 1, 1, 1, 2] where
  header := by decide
  bounds := by decide +kernel
  bitCount := by decide +kernel
  table := ⟨_, block11112_unpacks, rfl⟩
  room := by decide
  build := by decide +kernel
  stream := eq_ok_of_okOf _ _ (by decide +kernel)

theorem test_witness_HufUncompressResult :
    decoderRegions unhufMachine ∧ decoderRegions (machine { srcAddr := 0x3001, srcLen := 19, dstAddr := 0x1001 } [])
      ∧ decoderRegions (machine { srcAddr := 0x3001, srcLen := 19, dstAddr := 0x1000, dstLen := 1 } [])
      ∧ unhufMachine.mem.holdsHuffman 0x3001 24 5 6 3 1 3 (canonicalCodes [(1, 1), (2, 2), (3, 2)]) [1, 1, 1, 1, 2] :=
  ⟨by decide +kernel, by decide +kernel, by decide +kernel, block11112_holds⟩

/-- A block header of `im`, `iM` and `nBits` at 0x3000 in a source of 20 bytes, `no` samples expected. -/
def headerMachine (im iM nBits : Nat) (no : Word32) : State :=
  machine { srcAddr := 0x3000, srcLen := 20, dstAddr := 0x1000, dstLen := no }
    (stored 0x3000 (leBytes 4 im ++ leBytes 4 iM ++ leBytes 4 0 ++ leBytes 4 nBits ++ leBytes 4 0))

theorem test_witness_HufHeaderErrors :
    (decoderRegions (headerMachine 65537 3 0 1) ∧ 65537 ≤ (headerMachine 65537 3 0 1).mem.word 0x3000)
      ∧ (decoderRegions (headerMachine 3 65537 0 1) ∧ 65537 ≤ (headerMachine 3 65537 0 1).mem.word 0x3004)
      ∧ (decoderRegions (headerMachine 65536 65536 1 1) ∧ (headerMachine 65536 65536 1 1).mem.word 0x3000 < 65537
        ∧ (headerMachine 65536 65536 1 1).mem.word 0x3004 < 65537
        ∧ 20 < 20 + ((headerMachine 65536 65536 1 1).mem.word 0x300C + 7) / 8)
      ∧ (headerMachine 1 3 2147483648 1).mem.word 0x300C = 2147483648
      ∧ (decoderRegions (headerMachine 5 4 0 0) ∧ (headerMachine 5 4 0 0).mem.word 0x3000 = 5
        ∧ (headerMachine 5 4 0 0).mem.word 0x3004 = 4 ∧ (headerMachine 5 4 0 0).mem.word 0x300C = 0)
      ∧ decoderRegions (headerMachine 5 4 0 1)
      ∧ (∀ s ∈ [{ headerMachine 5 4 8 1 with latched := { (headerMachine 5 4 8 1).latched with srcLen := 21 } }],
        decoderRegions s ∧ s.mem.word 0x3000 = 5 ∧ s.mem.word 0x3004 = 4 ∧ s.mem.word 0x300C = 8 ∧ 20 + (8 + 7) / 8 ≤ 21)
      ∧ (decoderRegions (headerMachine 1 3 0 1) ∧ (headerMachine 1 3 0 1).mem.word 0x3004 = 3
        ∧ unpackTable (fun _ => false) ((headerMachine 1 3 0 1).mem.bytes (0x3000 + 20) (20 - 20)) 1 3 = .error .tableEnd)
      ∧ (CodeTable.wf codes123 = true ∧ (∀ c ∈ codes123, 1 ≤ c.sym ∧ c.sym ≤ 3)
        ∧ 2 < byteCount (packTable 1 3 codes123).length)
      ∧ (CodeTable.wf [] = true ∧ 0 + 1 < 0 + 2 ∧ packZeros 2 <+: bitsOfBytes [0xEC])
      ∧ (CodeTable.wf [⟨1, 1, 0⟩] = true ∧ (∀ c ∈ [(⟨1, 1, 0⟩ : CodeEntry)], 1 ≤ c.sym ∧ c.sym < 2) ∧ 2 + 1 < 2 + 261
        ∧ packTable 1 (2 - 1) [⟨1, 1, 0⟩] ++ packZeros 261 <+: bitsOfBytes [0x07, 0xFF, 0xF0]) :=
  ⟨by decide +kernel, by decide +kernel, by decide +kernel, by decide +kernel, by decide +kernel, by decide +kernel,
    by decide +kernel, ⟨by decide +kernel, by decide +kernel, eq_error_of_errorOf _ _ (by decide +kernel)⟩,
    by decide +kernel, by decide +kernel, by decide +kernel⟩

/-- A block whose three symbols 1, 2, 3 all claim a code of one bit. -/
def crowdedMachine : State :=
  machine { srcAddr := 0x3000, srcLen := 23, dstAddr := 0x1000, dstLen := 1 }
    (stored 0x3000 [1, 0, 0, 0, 3, 0, 0, 0, 3, 0, 0, 0, 0, 0, 0, 0, 0, 0, 0, 0, 0x04, 0x10, 0x40])

/-- The block of `crowdedMachine` with 8 coded bits claimed where no byte is left for them. -/
def shortStream : State := { crowdedMachine with mem := crowdedMachine.mem.write 0x300C [8] }

theorem test_invalid_nbits_keeps_canonical_codes :
    (after .hufUncompress shortStream).errcode = .invalidNbits
      ∧ (after .hufUncompress shortStream).codes = some (canonicalCodes [(1, 1), (2, 1), (3, 1)]) := by decide +kernel

theorem test_witness_HufBadTableLeavesCodesValid :
    (∀ s ∈ [crowdedMachine, shortStream], decoderRegions s ∧ s.mem.word 0x3000 = 1 ∧ s.mem.word 0x3004 = 3
        ∧ s.mem.word 0x300C ≤ 8 ∧ 20 + (s.mem.word 0x300C + 7) / 8 ≤ 23)
      ∧ crowdedMachine.mem.word 0x300C = 0 ∧ shortStream.mem.word 0x300C = 8
      ∧ unpackTable (fun _ => false) (crowdedMachine.mem.bytes (0x3000 + 20) (23 - 20)) 1 3
        = .ok ([(1, 1), (2, 1), (3, 1)], 3)
      ∧ unpackTable (fun _ => false) (shortStream.mem.bytes (0x3000 + 20) (23 - 20)) 1 3
        = .ok ([(1, 1), (2, 1), (3, 1)], 3)
      ∧ (buildDecode [] (canonicalCodes [(1, 1), (2, 1), (3, 1)])).2 = some ⟨3, 1, 2⟩
      ∧ CodeTable.wf codesDeep = true ∧ (buildDecode [] codesDeep).2 = none :=
  ⟨by decide +kernel, by decide +kernel, by decide +kernel, eq_ok_of_okOf _ _ (by decide +kernel),
    eq_ok_of_okOf _ _ (by decide +kernel), by decide +kernel, by decide +kernel, by decide +kernel⟩

/-- What the stream statement asks of a table, `gs` and what follows. -/
abbrev streamMeets (c : CodeTable) (iM no nBits : Nat) (gs : List (Sample × Option Byte)) (rest : Bits) : Prop :=
  (gs.all fun g => decide (g.1.toNat ≠ iM ∧ c.hlen g.1.toNat ≠ 0 ∧ (g.2.isSome = true → c.hlen iM ≠ 0))) = true
    ∧ (c.groupBits iM gs ++ rest).length = 8 * byteCount nBits ∧ (c.groupBits iM gs).length ≤ nBits
    ∧ (groupSamples gs).length ≤ no

theorem test_witness_HufStreamErrors :
    (∀ s ∈ [{ unhufMachine with latched := { unhufMachine.latched with dstLen := 4 } }], decoderRegions s
        ∧ s.mem.word 0x3001 = 1 ∧ s.mem.word 0x3005 = 3 ∧ s.mem.word 0x300D = 6 ∧ 20 + (6 + 7) / 8 ≤ 24
        ∧ (buildDecode [] codes123).2 = none)
      ∧ unpackTable (fun _ => false) (unhufMachine.mem.bytes (0x3001 + 20) (24 - 20)) 1 3
        = .ok ([(1, 1), (2, 2), (3, 2)], 3)
      ∧ decodeStream (fun _ _ => false) (fun _ _ => false) (buildDecode [] codes123).1 3 4 6
        (bitsOfBytes (unhufMachine.mem.bytes (0x3001 + 20 + 3) (byteCount 6))) = .error .tooMuchData
      ∧ (∀ c ∈ [codes123, codesDeep, [⟨1, 2, 0⟩]],
        CodeTable.wf c = true ∧ (∀ k, c.hcode k < 2 ^ c.hlen k) ∧ c.prefixFree)
      ∧ (∀ no ∈ [5, 6], streamMeets codes123 3 no 12 [(1, some 3), (1, none)] (bits 0 4)
        ∧ (codes123.groupBits 3 [(1, some 3), (1, none)]).length = 12)
      ∧ (streamMeets codes123 3 0 1 [] (bits 0x80 8) ∧ codes123.hlen (1 : Sample).toNat ≠ 0
        ∧ codes123.codeBits (1 : Sample).toNat <+: bits 0x80 8 ∧ 0 + codes123.hlen (1 : Sample).toNat ≤ 1)
      ∧ (streamMeets codesDeep 8 2 9 [(1, none)] (bits 0 14) ∧ codesDeep.codeBits (7 : Sample).toNat <+: bits 0 14
        ∧ 14 ≤ 16 - (codesDeep.groupBits 8 [(1, none)]).length
        ∧ 9 < (codesDeep.groupBits 8 [(1, none)]).length + codesDeep.hlen (7 : Sample).toNat)
      ∧ (streamMeets codes123 3 1 11 [(1, none)] (bits 0b010000000100000 15)
        ∧ codes123.codeBits 3 ++ bits (1 : Byte).toNat 8 <+: bits 0b010000000100000 15
        ∧ (codes123.groupBits 3 [(1, none)]).length + codes123.hlen 3 + 8 ≤ 11)
      ∧ (streamMeets codes123 3 0 10 [] (bits 0x4000 16) ∧ codes123.codeBits 3 ++ bits (0 : Byte).toNat 8 <+: bits 0x4000 16)
      ∧ (streamMeets codes123 3 0 2 [] (bits 0x40 8) ∧ codes123.codeBits 3 <+: bits 0x40 8 ∧ 0 + codes123.hlen 3 ≤ 2)
      ∧ (streamMeets codes123 3 0 1 [] (bits 0 8) ∧ ∀ k, codes123.hlen k ≠ 0 → ¬ codes123.codeBits k <+: (bits 0 8).take 1)
      ∧ (streamMeets [⟨1, 2, 0⟩] 3 0 16 [] (bits 0xFFFF 16)
        ∧ ∀ k, CodeTable.hlen [⟨1, 2, 0⟩] k ≠ 0 → ¬ CodeTable.codeBits [⟨1, 2, 0⟩] k <+: bits 0xFFFF 16) := by
  refine ⟨by decide +kernel, eq_ok_of_okOf _ _ (by decide +kernel), eq_error_of_errorOf _ _ (by decide +kernel), ?_,
    by decide +kernel, by decide +kernel, by decide +kernel, by decide +kernel, by decide +kernel, by decide +kernel,
    ⟨by decide +kernel, no_code_of_syms _ _ (by decide +kernel)⟩,
    ⟨by decide +kernel, no_code_of_syms _ _ (by decide +kernel)⟩⟩
  intro c hc
  have h : CodeTable.wf c = true ∧ (∀ k ∈ c.map (·.sym), c.hcode k < 2 ^ c.hlen k)
      ∧ ∀ j ∈ c.map (·.sym), ∀ k ∈ c.map (·.sym), j ≠ k → ¬ c.codeBits j <+: c.codeBits k := by
    revert c
    decide +kernel
  exact ⟨h.1, hcode_fits_of_syms c h.2.1, prefixFree_of_syms c h.2.2⟩

theorem test_witness_HuffmanRoundTrip :
    decoderRegions unhufMachine ∧ [(1 : Sample), 1, 1, 1, 2].length = unhufMachine.latched.dstLen.toNat
      ∧ encodeSamples [1, 1, 1, 1, 2] = .ok (encodingOf [1, 1, 1, 1, 2])
      ∧ (encodingOf [1, 1, 1, 1, 2]).stream.length ≤ 2147483647
      ∧ unhufMachine.latched.srcLen.toNat = (encodingOf [1, 1, 1, 1, 2]).blockLength
      ∧ unhufMachine.mem.bytes 0x3001 24 = (encodingOf [1, 1, 1, 1, 2]).block :=
  ⟨by decide +kernel, by decide +kernel, eq_ok_of_okOf _ _ (by decide +kernel), by decide +kernel, by decide +kernel,
    by decide +kernel⟩

/-- A destination of 524296 bytes at `d` and a code table. -/
def dumpCodesMachine (d : Word32) : State :=
  { machine { dstAddr := d, dstLen := 524296 } [] with codes := some (canonicalCodes [(1, 1), (2, 2), (3, 2)]) }

theorem test_witness_HufDumpCodesResult :
    (dumpCodesMachine 0x2000).mem.wf = true ∧ CodeTable.held (canonicalCodes [(1, 1), (2, 2), (3, 2)]) = true
      ∧ CodeTable.held [⟨5, 0, 9⟩] = true
      ∧ (dumpCodesMachine 0x2000).usable 0x2000 524296 8 ∧ (dumpCodesMachine 0x2000).writeFails 0x2000 524296 = false
      ∧ (dumpCodesMachine 0xFFF7FFF8).usable 0xFFF7FFF8 524296 8 :=
  ⟨by decide +kernel, by decide +kernel, by decide +kernel, by decide +kernel, by decide +kernel, by decide +kernel⟩

/-- One empty channel descriptor `(0, 5, 2)` at 0x500, eight bytes at 0x2001. -/
def emptyPiz : State :=
  machine { srcAddr := 1, dstAddr := 0x2001, dstLen := 8, auxAddr := 0x500, auxLen := 1 }
    (stored 0x500 [0, 0, 0, 0, 5, 0, 0, 0, 2, 0, 0, 0])

/-- The eight-byte block at 0x2001, the same descriptor, no samples expected. -/
def emptyUnpiz : State :=
  machine { srcAddr := 0x2001, srcLen := 8, dstAddr := 1, auxAddr := 0x500, auxLen := 1 }
    ((stored 0x500 [0, 0, 0, 0, 5, 0, 0, 0, 2, 0, 0, 0]).write 0x2001 [0xFF, 0x1F])

theorem test_witness_PizEmptyBlocks :
    (emptyPiz.mem.wf = true ∧ emptyPiz.latched.srcLen = 0 ∧ describes (emptyPiz.mem.descriptors 0x500 1) 0
        ∧ emptyPiz.usable 0x2001 8 1 ∧ emptyPiz.usable 0x500 12 4 ∧ rangesMeet 0x2001 8 0x500 12 = false
        ∧ emptyPiz.readFails 0x500 12 = false ∧ emptyPiz.writeFails 0x2001 8 = false)
      ∧ (emptyUnpiz.mem.wf = true ∧ emptyUnpiz.latched.dstLen = 0 ∧ describes (emptyUnpiz.mem.descriptors 0x500 1) 0
        ∧ emptyUnpiz.usable 0x2001 8 1 ∧ emptyUnpiz.usable 0x500 12 4 ∧ emptyUnpiz.readFails 0x500 12 = false
        ∧ emptyUnpiz.readFails 0x2001 8 = false
        ∧ emptyUnpiz.mem.bytes 0x2001 8 = [0xFF, 0x1F, 0, 0, 0, 0, 0, 0]) := by decide +kernel

/-- One descriptor `(2, 1, 1)` at 0x500 and the samples `1, 0` at 0x1000. -/
def smallPiz : State :=
  machine { srcAddr := 0x1000, srcLen := 2, dstAddr := 0x2000, dstLen := 64, auxAddr := 0x500, auxLen := 1 }
    ((stored 0x1000 (bytesOfSamples [1, 0])).write 0x500 [2, 0, 0, 0, 1, 0, 0, 0, 1, 0, 0, 0])

/-- What PIZ_COMPRESS asks of its regions. -/
abbrev pizRegions (s : State) : Prop :=
  s.usable s.latched.srcAddr.toNat (2 * s.latched.srcLen.toNat) 2
    ∧ s.usable s.latched.dstAddr.toNat s.latched.dstLen.toNat 1
    ∧ s.usable s.latched.auxAddr.toNat (12 * s.latched.auxLen.toNat) 4
    ∧ rangesMeet s.latched.srcAddr.toNat (2 * s.latched.srcLen.toNat) s.latched.dstAddr.toNat s.latched.dstLen.toNat
      = false
    ∧ rangesMeet s.latched.srcAddr.toNat (2 * s.latched.srcLen.toNat) s.latched.auxAddr.toNat
      (12 * s.latched.auxLen.toNat) = false
    ∧ rangesMeet s.latched.dstAddr.toNat s.latched.dstLen.toNat s.latched.auxAddr.toNat (12 * s.latched.auxLen.toNat)
      = false
    ∧ s.readFails s.latched.srcAddr.toNat (2 * s.latched.srcLen.toNat) = false
    ∧ s.writeFails s.latched.srcAddr.toNat (2 * s.latched.srcLen.toNat) = false
    ∧ s.readFails s.latched.auxAddr.toNat (12 * s.latched.auxLen.toNat) = false

theorem smallPiz_bitmap (v : Nat) :
    Bitmap.bit (BitVec.twoPow 65536 1) v = true ↔ 0 < v ∧ ∃ k < 2, (smallPiz.mem.sample (0x1000 + 2 * k)).toNat = v := by
  rw [twoPow_bit 1 v (by decide)]
  constructor
  · rintro rfl
    exact ⟨by decide, 0, by decide, by decide +kernel⟩
  · rintro ⟨h, k, hk, rfl⟩
    have h0 : (smallPiz.mem.sample (0x1000 + 2 * 1)).toNat = 0 := by decide +kernel
    have h1 : (smallPiz.mem.sample (0x1000 + 2 * 0)).toNat = 1 := by decide +kernel
    have : k = 0 ∨ k = 1 := by omega
    rcases this with rfl | rfl
    · exact h1
    · omega

theorem test_witness_PizCompressResult :
    smallPiz.mem.wf = true ∧ 0 < smallPiz.latched.srcLen.toNat ∧ describes (smallPiz.mem.descriptors 0x500 1) 2
      ∧ pizRegions smallPiz
      ∧ (∀ v, Bitmap.bit (BitVec.twoPow 65536 1) v = true ↔
        0 < v ∧ ∃ k < 2, (smallPiz.mem.sample (0x1000 + 2 * k)).toNat = v)
      ∧ Bitmap.isMinMax (BitVec.twoPow 65536 1) 0 0
      ∧ (∀ g ∈ planes 0 (smallPiz.mem.descriptors 0x500 1), ∀ x < g.nx, ∀ y < g.ny,
        [(1 : Sample), 0].getD (g.addr x y / 2) 0 =
          encGrid 1 g.nx g.ny
            (fun x' y' => BitVec.ofNat 16
              (Bitmap.rank (BitVec.twoPow 65536 1) (smallPiz.mem.sample (0x1000 + g.addr x' y')).toNat)) x y)
      ∧ Bitmap.rank (BitVec.twoPow 65536 1) 65535 = 1
      ∧ encodeSamples [1, 0] = .ok (encodingOf [1, 0]) ∧ (encodingOf [1, 0]).stream.length ≤ 2147483647
      ∧ 8 + 1 + (encodingOf [1, 0]).blockLength ≤ 64
      ∧ smallPiz.writeFails 0x2000 (8 + 1 + (encodingOf [1, 0]).blockLength) = false :=
  ⟨by decide +kernel, by decide +kernel, by decide +kernel, by decide +kernel, smallPiz_bitmap,
    twoPow_isMinMax 1 (by decide), by decide +kernel, twoPow_rank 1 65535 (by decide) (by decide) (by decide), eq_ok_of_okOf _ _ (by decide +kernel),
    by decide +kernel, by decide +kernel, by decide +kernel⟩

/-- What PIZ_UNCOMPRESS asks of its regions. -/
abbrev unpizRegions (s : State) : Prop :=
  s.usable s.latched.srcAddr.toNat s.latched.srcLen.toNat 1
    ∧ s.usable s.latched.dstAddr.toNat (2 * s.latched.dstLen.toNat) 2
    ∧ s.usable s.latched.auxAddr.toNat (12 * s.latched.auxLen.toNat) 4
    ∧ rangesMeet s.latched.srcAddr.toNat s.latched.srcLen.toNat s.latched.dstAddr.toNat (2 * s.latched.dstLen.toNat)
      = false
    ∧ rangesMeet s.latched.dstAddr.toNat (2 * s.latched.dstLen.toNat) s.latched.auxAddr.toNat
      (12 * s.latched.auxLen.toNat) = false
    ∧ s.readFails s.latched.srcAddr.toNat s.latched.srcLen.toNat = false
    ∧ s.readFails s.latched.dstAddr.toNat (2 * s.latched.dstLen.toNat) = false
    ∧ s.writeFails s.latched.dstAddr.toNat (2 * s.latched.dstLen.toNat) = false
    ∧ s.readFails s.latched.auxAddr.toNat (12 * s.latched.auxLen.toNat) = false

/-- The block that PIZ_COMPRESS makes of `0, 3, 8, 3`, at 0x2000. -/
def blockMachine : State :=
  machine { srcAddr := 0x2000, srcLen := 34, dstAddr := 0x4000, dstLen := 4, auxAddr := 0x500, auxLen := 1 }
    ((stored 0x2000 ([0, 0, 1, 0, 8, 1, 0x18, 0, 0, 0] ++ (encodingOf [0, 1, 2, 1]).block)).write 0x500
      [4, 0, 0, 0, 1, 0, 0, 0, 1, 0, 0, 0])

theorem blockMachine_holds :
    blockMachine.mem.holdsHuffman (0x2000 + 8 + 2) 24 4 (encodingOf [0, 1, 2, 1]).stream.length 3 0 3
      (encodingOf [0, 1, 2, 1]).codes [0, 1, 2, 1] where
  header := by decide
  bounds := by decide +kernel
  bitCount := by decide +kernel
  table := ⟨(encodingOf [0, 1, 2, 1]).codes.map fun c => (c.sym, c.len.toNat),
    eq_ok_of_okOf _ _ (by decide +kernel), by decide +kernel⟩
  room := by decide +kernel
  build := by decide +kernel
  stream := eq_ok_of_okOf _ _ (by decide +kernel)

theorem blockMachine_loads : Bitmap.isLoaded 0x108 blockMachine.mem (0x2000 + 4) 0 1 := by
  intro j hj
  by_cases h2 : j < 2
  · have : j = 0 ∨ j = 1 := by omega
    rcases this with rfl | rfl <;> decide +kernel
  · rw [if_neg (by omega), if_neg (by omega)]
    apply BitVec.eq_of_getLsbD_eq
    intro t ht
    rw [Bitmap.byte_getLsbD _ _ _ ht, Bitmap.bit, show (0x108 : Bitmap) = BitVec.ofNat 65536 0x108 from rfl,
      BitVec.getLsbD_ofNat]
    have : Nat.testBit 0x108 (8 * j + t) = false :=
      Nat.testBit_lt_two_pow (lt_of_lt_of_le (by decide : 0x108 < 2 ^ 16) (Nat.pow_le_pow_right (by decide) (by omega)))
    simp [this]

theorem test_witness_PizUncompressResult :
    blockMachine.mem.wf = true ∧ describes (blockMachine.mem.descriptors 0x500 1) 4 ∧ unpizRegions blockMachine
      ∧ (blockMachine.mem.sample 0x2002).toNat < 8192 ∧ sliceAt blockMachine 0x2000 = 2
      ∧ blockMachine.mem.word (0x2000 + 4 + 2) = 24 ∧ Bitmap.isLoaded 0x108 blockMachine.mem (0x2000 + 4) 0 1
      ∧ blockMachine.mem.holdsHuffman (0x2000 + 8 + 2) 24 4 (encodingOf [0, 1, 2, 1]).stream.length 3 0 3
        (encodingOf [0, 1, 2, 1]).codes [0, 1, 2, 1] :=
  ⟨by decide +kernel, by decide +kernel, by decide +kernel, by decide +kernel, by decide +kernel, by decide +kernel,
    blockMachine_loads, blockMachine_holds⟩

/-- A platform whose bus answers a read of the byte `r` and a write of the byte `w` with errors. -/
def badBus (r w : Nat) (s : State) : State :=
  { s with platform := { Platform.initial with readErr := [⟨r, 1⟩], writeErr := [⟨w, 1⟩] } }

/-- A bus that fails a read of 0x1007 and a write of 0x2000. -/
abbrev faultyBus : State → State := badBus 0x1007 0x2000

/-- `smallPiz` with a destination of `cap` bytes. -/
def smallPizTo (cap : Word32) : State := { smallPiz with latched := { smallPiz.latched with dstLen := cap } }

/-- `blockMachine` with a source of `n` bytes and `no` samples expected. -/
def blockTo (n no : Word32) : State :=
  { blockMachine with latched := { blockMachine.latched with srcLen := n, dstLen := no } }

/-- What PIZ_COMPRESS makes of `smallPiz` before the Huffman stage. -/
theorem smallPiz_transformed :
    ∀ g ∈ planes 0 (smallPiz.mem.descriptors 0x500 1), ∀ x < g.nx, ∀ y < g.ny,
      [(1 : Sample), 0].getD (g.addr x y / 2) 0 =
        encGrid (Bitmap.rank (BitVec.twoPow 65536 1) 65535) g.nx g.ny
          (fun x' y' => BitVec.ofNat 16
            (Bitmap.rank (BitVec.twoPow 65536 1) (smallPiz.mem.sample (0x1000 + g.addr x' y')).toNat)) x y := by
  rw [twoPow_rank 1 65535 (by decide) (by decide) (by decide)]
  decide +kernel

theorem test_witness_PizErrors :
    (∀ s ∈ [{ pizMachine with latched := { pizMachine.latched with srcLen := 3 } }],
        s.mem.wf = true ∧ pizRegions s ∧ ¬ describes (s.mem.descriptors 0x500 1) 3)
      ∧ (∀ s ∈ [smallPizTo 8, smallPizTo 9], s.mem.wf = true ∧ pizRegions s ∧ describes (s.mem.descriptors 0x500 1) 2
        ∧ s.mem = smallPiz.mem ∧ s.writeFails 0x2000 (4 + 1) = false)
      ∧ (∀ v, Bitmap.bit (BitVec.twoPow 65536 1) v = true ↔
        0 < v ∧ ∃ k < 2, (smallPiz.mem.sample (0x1000 + 2 * k)).toNat = v)
      ∧ Bitmap.isMinMax (BitVec.twoPow 65536 1) 0 0
      ∧ (∀ g ∈ planes 0 (smallPiz.mem.descriptors 0x500 1), ∀ x < g.nx, ∀ y < g.ny,
        [(1 : Sample), 0].getD (g.addr x y / 2) 0 =
          encGrid (Bitmap.rank (BitVec.twoPow 65536 1) 65535) g.nx g.ny
            (fun x' y' => BitVec.ofNat 16
              (Bitmap.rank (BitVec.twoPow 65536 1) (smallPiz.mem.sample (0x1000 + g.addr x' y')).toNat)) x y)
      ∧ encodeSamples [1, 0] = .ok (encodingOf [1, 0]) ∧ 9 < 8 + 1 + (encodingOf [1, 0]).blockLength
      ∧ (∀ s ∈ [blockTo 34 3, blockTo 3 4, blockTo 5 4, blockTo 9 4, blockTo 33 4,
          { blockMachine with mem := blockMachine.mem.write 0x2003 [0x20] },
          { blockMachine with mem := blockMachine.mem.write 0x2009 [0x80] }], s.mem.wf = true ∧ unpizRegions s)
      ∧ ¬ describes ((blockTo 34 3).mem.descriptors 0x500 1) 3
      ∧ describes ((blockTo 34 4).mem.descriptors 0x500 1) 4 ∧ sliceAt (blockTo 5 4) 0x2000 = 2
      ∧ 8192 ≤ (({ blockMachine with mem := blockMachine.mem.write 0x2003 [0x20] } : State).mem.sample 0x2002).toNat
      ∧ 2 ^ 31 ≤ ({ blockMachine with mem := blockMachine.mem.write 0x2009 [0x80] } : State).mem.word (0x2000 + 4 + 2)
      ∧ Bitmap.isLoaded 0x108 (blockTo 9 4).mem (0x2000 + 4) 0 1
      ∧ (∀ s ∈ [{ blockMachine with mem := blockMachine.mem.write 0x200A [1, 0, 1] }],
        s.mem.wf = true ∧ unpizRegions s ∧ s.mem.word (0x2000 + 4 + 2) = 24
          ∧ isNext (exec .hufUncompress { s with latched := { s.latched with srcAddr := 0x200A, srcLen := 24 } }) = true
          ∧ (after .hufUncompress { s with latched := { s.latched with srcAddr := 0x200A, srcLen := 24 } }).errcode
            = .invalidTableSize
          ∧ (after .pizUncompress s).errcode = .invalidTableSize)
      ∧ ((badBus 0x200A 0 blockMachine).readFails 0x2000 (8 + 2) = false
        ∧ isNext (exec .hufUncompress { badBus 0x200A 0 blockMachine with
          latched := { blockMachine.latched with srcAddr := 0x200A, srcLen := 24 } }) = true
        ∧ (after .hufUncompress { badBus 0x200A 0 blockMachine with
          latched := { blockMachine.latched with srcAddr := 0x200A, srcLen := 24 } }).errcode = .busError
        ∧ (after .pizUncompress (badBus 0x200A 0 blockMachine)).errcode = .busError) :=
  ⟨by decide +kernel, by decide +kernel, smallPiz_bitmap, twoPow_isMinMax 1 (by decide), smallPiz_transformed,
    eq_ok_of_okOf _ _ (by decide +kernel), by decide +kernel, by decide +kernel, by decide +kernel, by decide +kernel,
    by decide +kernel, by decide +kernel, by decide +kernel, blockMachine_loads, by decide +kernel, by decide +kernel⟩

theorem test_witness_PizRoundTrip :
    exec .pizCompress pizMachine = .next (after .pizCompress pizMachine) ∧ pizMachine.mem.wf = true
      ∧ (after .pizCompress pizMachine).errcode = .ok ∧ unpizMachine.mem.wf = true
      ∧ unpizMachine.latched.srcLen = (after .pizCompress pizMachine).results.len
      ∧ unpizMachine.latched.dstLen = pizMachine.latched.srcLen
      ∧ unpizMachine.mem.bytes 0x2000 34 = (after .pizCompress pizMachine).mem.bytes 0x2000 34
      ∧ unpizMachine.mem.descriptors 0x500 1 = pizMachine.mem.descriptors 0x500 1 ∧ unpizRegions unpizMachine :=
  ⟨eq_next_of_isNext _ (by decide +kernel), by decide +kernel, by decide +kernel, by decide +kernel, by decide +kernel,
    by decide +kernel, by decide +kernel, by decide +kernel, by decide +kernel⟩

/-- HUF_COMPRESS with a destination that shares its last byte with the source. -/
def overlapping : State := machine { srcAddr := 0x1000, srcLen := 2, dstAddr := 0x1003, dstLen := 24 } []

theorem test_witness_ParameterChecksInOrder :
    State.reset.lut = none
      ∧ 2 ^ 32 < (machine { srcAddr := 0xFFFFFFFE, srcLen := 2 } []).latched.srcAddr.toNat + 2 * 2
      ∧ (let l : Params := { nx := 2, ny := 2, ox := 1, oy := 1 }; l.oy.toNat < l.nx.toNat * l.ox.toNat)
      ∧ (0x1001 % 2 ≠ 0 ∧ 0x2002 % 4 ≠ 0 ∧ 0x2004 % 8 ≠ 0)
      ∧ (List.Sublist [(0x1000, 4, Access.r, 2), (0x1003, 24, .w, 1)] [(0x1000, 4, .r, 2), (0x1003, 24, .w, 1)]
        ∧ paramCheck .hufCompress overlapping = some .overlap ∧ 0x1003 < 0x1000 + 4)
      ∧ paramCheck .lutDump { machine { dstLen := 131071 } [] with lut := some [] } = some .dstOverflow
      ∧ paramCheck .hufDumpCodes { machine { dstLen := 524295 } [] with codes := some [] } = some .dstOverflow
      ∧ (∀ r ∈ [(0x1000, 4, Access.r, 2), (0x1003, 24, .w, 1)], ∀ a < 2 ^ 32, r.1 ≤ a → a < r.1 + r.2.1 →
        ∀ sp : Span, sp = ⟨overlapping.platform.regBase, 4096⟩ ∨ sp ∈ overlapping.platform.devices →
          a < sp.base ∨ sp.base + sp.size ≤ a) := by
  refine ⟨rfl, by decide, by decide, by decide, ⟨List.Sublist.refl _, by decide, by decide⟩, by decide, by decide, ?_⟩
  rintro r - a ha - - sp (rfl | hs)
  · exact .inl ha
  · cases hs

theorem test_witness_UnbuiltTableIsNoTable :
    (∀ i ∈ [Instr.lutBitmapStore, .lutBuildForward, .lutBuildReverse, .lutApply, .lutDump, .hufDumpCodes],
      touchesDevice i State.reset = false ∧ isNext (exec i State.reset) = true
        ∧ (after i State.reset).errcode = .noTable)
      ∧ State.reset.bitmap = none ∧ State.reset.lut = none ∧ State.reset.codes = none := by decide +kernel

theorem test_witness_BusErrorsEndTheCommand :
    (lutMachine.platform.readErr = [] ∧ lutMachine.platform.writeErr = []
        ∧ isNext (exec .lutBitmapFromData lutMachine) = true)
      ∧ ((faultyBus lutMachine).usable 0x1000 8 2 ∧ (faultyBus lutMachine).readFails 0x1000 8 = true)
      ∧ (∀ s ∈ [faultyBus (machine { srcAddr := 0x1004, srcLen := 4 } [])],
        s.mem.wf = true ∧ s.usable 0x1004 4 1 ∧ s.readFails 0x1004 4 = true)
      ∧ (∀ s ∈ [faultyBus (machine { srcAddr := 0x1002, srcLen := 6 } (stored 0x1002 [0, 0, 1, 0, 8, 1]))],
        s.mem.wf = true ∧ s.usable 0x1002 6 1 ∧ s.readFails 0x1002 4 = false ∧ (s.mem.sample 0x1002).toNat = 0
          ∧ (s.mem.sample 0x1004).toNat = 1 ∧ s.readFails (0x1002 + 4) 2 = true)
      ∧ (∀ s ∈ [badBus 0 0x2004 (storeMachine 0 4)], s.mem.wf = true ∧ s.bitmap = some 0 ∧ s.usable 0x2001 4 1
        ∧ s.writeFails 0x2001 4 = true)
      ∧ (∀ s ∈ [faultyBus (after .lutBuildForward lutMachineBitmap),
          badBus 0 0x1000 (after .lutBuildForward lutMachineBitmap)],
        s.mem.wf = true ∧ s.lut = some [(3, 1), (8, 2)] ∧ s.usable 0x1000 8 2
          ∧ (s.readFails 0x1000 8 = true ∨ s.writeFails 0x1000 8 = true))
      ∧ (∀ s ∈ [faultyBus (dumpMachine 0x2000 131072)], s.mem.wf = true ∧ s.lut = some [(3, 1), (8, 2)]
        ∧ s.usable 0x2000 131072 2 ∧ s.writeFails 0x2000 131072 = true)
      ∧ ∀ s ∈ [badBus 0x1007 0 (gridMachine 2 2 9 [1, 2, 3, 4]), badBus 0 0x1006 (gridMachine 2 2 9 [1, 2, 3, 4])],
        s.mem.wf = true ∧ (gridOfParams s.latched).legal ∧ s.usable 0x1000 8 2 ∧ (gridOfParams s.latched).addr 1 1 = 0x1006
          ∧ (s.readFails 0x1006 2 = true ∨ s.writeFails 0x1006 2 = true) :=
  ⟨by decide +kernel, by decide +kernel, by decide +kernel, by decide +kernel,
    fun s hs => by cases List.mem_singleton.1 hs; exact ⟨by decide, rfl, by decide, by decide⟩, by decide +kernel,
    by decide +kernel, by decide +kernel⟩

/-- `block11112` at 0xFF3, so that its packed table begins at 0x1007. -/
def unhufLow : State :=
  machine { srcAddr := 0xFF3, srcLen := 24, dstAddr := 0x4000, dstLen := 5 } (stored 0xFF3 block11112)

theorem unhufLow_unpacks :
    unpackTable (fun _ => false) (unhufLow.mem.bytes (0xFF3 + 20) (24 - 20)) 1 3 = .ok ([(1, 1), (2, 2), (3, 2)], 3) :=
  eq_ok_of_okOf _ _ (by decide +kernel)

theorem unhufLow_holds : unhufLow.mem.holdsHuffman 0xFF3 24 5 6 3 1 3 codes123 [1, 1, 1, 1, 2] where
  header := by decide
  bounds := by decide +kernel
  bitCount := by decide +kernel
  table := ⟨_, unhufLow_unpacks, rfl⟩
  room := by decide
  build := by decide +kernel
  stream := eq_ok_of_okOf _ _ (by decide +kernel)

theorem test_witness_HuffmanAndPizBusErrors :
    (∀ s ∈ [faultyBus hufMachine, badBus 0 0x2001 hufMachine], s.mem.wf = true ∧ s.usable 0x1000 10 2
        ∧ s.usable 0x2001 24 1 ∧ rangesMeet 0x1000 10 0x2001 24 = false)
      ∧ ((faultyBus hufMachine).readFails 0x1000 10 = true ∧ (badBus 0 0x2001 hufMachine).readFails 0x1000 10 = false
        ∧ (badBus 0 0x2001 hufMachine).writeFails 0x2001 24 = true)
      ∧ (encodeSamples (hufMachine.mem.sampleList 0x1000 5) = .ok (encodingOf [1, 1, 1, 1, 2])
        ∧ (encodingOf [1, 1, 1, 1, 2]).blockLength = 24)
      ∧ (∀ s ∈ [badBus 0x3001 0 unhufMachine, badBus 0x3010 0 unhufMachine, badBus 0 0x1000 unhufMachine],
        s.mem.wf = true ∧ s.usable 0x3001 24 1 ∧ s.usable 0x1000 10 2 ∧ rangesMeet 0x3001 24 0x1000 10 = false)
      ∧ ((badBus 0x3001 0 unhufMachine).readFails 0x3001 8 = true
        ∧ (badBus 0x3010 0 unhufMachine).readFails (0x3001 + 12) 4 = true
        ∧ (badBus 0 0x1000 unhufMachine).writeFails 0x1000 10 = true)
      ∧ ((faultyBus unhufLow).readFails 0xFF3 8 = false ∧ (faultyBus unhufLow).readFails (0xFF3 + 12) 4 = false
        ∧ (faultyBus unhufLow).readFails (0xFF3 + 20) (3 + byteCount 6) = true
        ∧ unhufLow.mem.holdsHuffman 0xFF3 24 5 6 3 1 3 codes123 [1, 1, 1, 1, 2])
      ∧ (∀ s ∈ [faultyBus (dumpCodesMachine 0x2000)], s.mem.wf = true ∧ s.codes = some codes123
        ∧ CodeTable.held codes123 = true ∧ s.usable 0x2000 524296 8 ∧ s.writeFails 0x2000 524296 = true)
      ∧ ((badBus 0x50B 0 smallPiz).readFails 0x500 12 = true ∧ (badBus 0x1003 0 smallPiz).readFails 0x1000 4 = true
        ∧ (badBus 0 0x1003 smallPiz).writeFails 0x1000 4 = true ∧ (badBus 0 0x2004 smallPiz).writeFails 0x2000 5 = true
        ∧ (badBus 0 0x2005 smallPiz).writeFails 0x2000 5 = false
        ∧ (badBus 0 0x2005 smallPiz).writeFails 0x2000 (8 + 1 + (encodingOf [1, 0]).blockLength) = true)
      ∧ (∀ s ∈ [badBus 0x50B 0 smallPiz, badBus 0x1003 0 smallPiz, badBus 0 0x1003 smallPiz, badBus 0 0x2004 smallPiz,
          badBus 0 0x2005 smallPiz], s.usable 0x1000 4 2 ∧ s.usable 0x2000 64 1 ∧ s.usable 0x500 12 4)
      ∧ (∀ g ∈ planes 0 (smallPiz.mem.descriptors 0x500 1), ∀ x < g.nx, ∀ y < g.ny,
        [(1 : Sample), 0].getD (g.addr x y / 2) 0 =
          encGrid (Bitmap.rank (BitVec.twoPow 65536 1) 65535) g.nx g.ny
            (fun x' y' => BitVec.ofNat 16
              (Bitmap.rank (BitVec.twoPow 65536 1) (smallPiz.mem.sample (0x1000 + g.addr x' y')).toNat)) x y)
      ∧ ((badBus 0x500 0 blockMachine).readFails 0x500 12 = true ∧ (badBus 0x2003 0 blockMachine).readFails 0x2000 4 = true
        ∧ (badBus 0x2005 0 blockMachine).readFails 0x2000 4 = false
        ∧ (badBus 0x2005 0 blockMachine).readFails (0x2000 + 4) 2 = true
        ∧ (badBus 0x2009 0 blockMachine).readFails 0x2000 (4 + 2) = false
        ∧ (badBus 0x2009 0 blockMachine).readFails (0x2000 + 4 + 2) 4 = true
        ∧ (badBus 0x4000 0x4007 blockMachine).readFails 0x2000 34 = false
        ∧ (badBus 0x4000 0x4007 blockMachine).readFails 0x4000 8 = true
        ∧ (badBus 0x4000 0x4007 blockMachine).writeFails 0x4000 8 = true)
      ∧ blockMachine.mem.holdsHuffman (0x2000 + 8 + 2) 24 4 (encodingOf [0, 1, 2, 1]).stream.length 3 0 3
        (encodingOf [0, 1, 2, 1]).codes [0, 1, 2, 1] :=
  ⟨by decide +kernel, by decide +kernel, ⟨eq_ok_of_okOf _ _ (by decide +kernel), by decide +kernel⟩, by decide +kernel,
    by decide +kernel, ⟨by decide +kernel, by decide +kernel, by decide +kernel, unhufLow_holds⟩, by decide +kernel,
    by decide +kernel, by decide +kernel, smallPiz_transformed, by decide +kernel, blockMachine_holds⟩

/-- A platform with the register window at 0x1000 and a device at 0x3000. -/
def withDevices (s : State) : State :=
  { s with platform := { Platform.initial with regBase := 0x1000, devices := [⟨0x3000, 4⟩] } }

theorem test_witness_EveryCommandCompletes :
    (touchesDevice .lutBitmapFromData (withDevices lutMachine) = true
        ∧ touchesDevice .lutBitmapLoad (withDevices (machine { srcAddr := 0x2FFF, srcLen := 2 } [])) = true)
      ∧ touchesDevice .lutBitmapLoad (withDevices (machine { srcAddr := 0x2FFF, srcLen := 1 } [])) = false
      ∧ touchesDevice .pizCompress pizMachine = false := by decide +kernel

theorem test_witness_CommandsStayInTheirRegions :
    hufMachine.mem.wf = true ∧ exec .hufCompress hufMachine = .next (after .hufCompress hufMachine) :=
  ⟨by decide +kernel, eq_next_of_isNext _ (by decide +kernel)⟩

theorem test_witness_ErrorsFreeTheWrittenRegions :
    (∀ p ∈ [(Instr.hufCompress, { hufMachine with latched := { hufMachine.latched with dstLen := 23 } }),
        (.lutBitmapStore, storeMachine 0 3), (.pizCompress, { pizMachine with latched := { pizMachine.latched with srcLen := 3 } })],
      p.2.mem.wf = true ∧ paramCheck p.1 p.2 = none ∧ isNext (exec p.1 p.2) = true ∧ (after p.1 p.2).errcode ≠ .ok) := by
  decide +kernel

theorem test_witness_CommandsWriteOnlyTheirTables :
    exec .lutBuildForward lutMachineBitmap = .next (after .lutBuildForward lutMachineBitmap)
      ∧ exec .hufUncompress unhufMachine = .next (after .hufUncompress unhufMachine)
      ∧ (after .hufUncompress unhufMachine).errcode = .ok ∧ unhufMachine.latched.dstLen ≠ 0
      ∧ exec .pizCompress pizMachine = .next (after .pizCompress pizMachine)
      ∧ (after .pizCompress pizMachine).errcode = .ok ∧ pizMachine.latched.srcLen ≠ 0
      ∧ exec .pizUncompress unpizMachine = .next (after .pizUncompress unpizMachine)
      ∧ (after .pizUncompress unpizMachine).errcode = .ok ∧ unpizMachine.latched.dstLen ≠ 0 :=
  ⟨eq_next_of_isNext _ (by decide +kernel), eq_next_of_isNext _ (by decide +kernel), by decide +kernel, by decide +kernel,
    eq_next_of_isNext _ (by decide +kernel), by decide +kernel, by decide +kernel, eq_next_of_isNext _ (by decide +kernel),
    by decide +kernel, by decide +kernel⟩

theorem test_witness_ResultRegistersLifeCycle :
    (busyWith 0 1 []).Inv ∧ (busyWith 0 1 []).busy = true
      ∧ exec .lutBitmapFromData lutMachine = .next (after .lutBitmapFromData lutMachine) :=
  ⟨⟨by decide, (fun _ h => by cases h), (fun _ h => by cases h), fun _ => ⟨rfl, rfl, rfl⟩⟩, rfl,
    eq_next_of_isNext _ (by decide +kernel)⟩

theorem test_witness_ParameterWritesAnyTime :
    ∀ r ∈ [Reg.srcAddr, .srcLen, .dstAddr, .dstLen, .auxAddr, .auxLen, .nx, .ny, .ox, .oy, .maxval, .irqEnable,
        .irqStatus],
      (busyWith 0x30 1 [.regWrite .w32 (regOffset r) 0xFFFFFFFF]).engineDue = false
        ∧ isNext (step (busyWith 0x30 1 [.regWrite .w32 (regOffset r) 0xFFFFFFFF])) = true := by decide +kernel

theorem test_witness_ReservedAndMalformedAccesses :
    (Width.w16 ≠ .w32 ∧ (0x021 : BitVec 12).toNat % 4 ≠ 0)
      ∧ ∀ off ∈ [(0x01C : BitVec 12), 0x04C, 0x070, 0xFFC], off.toNat % 4 = 0
        ∧ (off.toNat = 0x01C ∨ off.toNat = 0x04C ∨ 0x070 ≤ off.toNat) := by decide +kernel

theorem reset_inv : State.reset.Inv :=
  ⟨by decide, (fun _ h => by cases h), (fun _ h => by cases h), fun h => by cases h⟩

theorem test_witness_RegisterReads :
    State.reset.Inv ∧ lutMachine.completed lutMachineBitmap .ok { minnz := 0, maxnz := 1 }
      ∧ (0xFFFFFFFE : Word32).getLsbD 0 = false :=
  ⟨reset_inv, ⟨by decide +kernel, by decide +kernel, by decide +kernel, by decide +kernel, by decide +kernel,
    ⟨by decide +kernel, by decide +kernel, by decide +kernel, by decide +kernel, by decide +kernel, by decide +kernel,
      by decide +kernel⟩⟩, by decide⟩

theorem test_witness_CmdWriteWhileBusyIsDropped :
    (busyWith 0x30 1 [.regWrite .w32 (regOffset .cmd) 0]).phase = .busy 0x30
      ∧ 0 < (busyWith 0x30 1 [.regWrite .w32 (regOffset .cmd) 0]).delay := by decide

theorem test_witness_InterruptOutputAndClearing : (0b111 : BitVec 3).getLsbD 2 = true := by decide

theorem test_witness_ResetValues : (0x00000001 : Word32).getLsbD 0 = true := by decide

theorem test_witness_ResetAbandonsTheCommand :
    ∀ op ∈ [HostOp.hardReset, .regWrite .w32 (regOffset .ctrl) 1],
      (busyWith 0x30 1 [op]).mem.wf = true ∧ (busyWith 0x30 1 [op]).engineDue = false
        ∧ ({ State.reset with hostq := [op] } : State).engineDue = false := by decide

/-- A machine with the register window at 0x1000, a device at 0x3000 to 0x3003 and host accesses to make. -/
def windowed (q : List HostOp) : State := { withDevices (machine {} []) with hostq := q }

theorem test_window_store_by_address :
    (nextOf (step (windowed [.memWrite .w32 0x1010 [0, 0, 0, 0] true]))).done = true
      ∧ (nextOf (step (windowed [.memWrite .w8 0x1020 [1, 2, 3, 4] true]))).hostq = [.memWrite .w8 0x1021 [2, 3, 4] true]
      ∧ (nextOf (step (windowed [.memWrite .w16 0x1020 [1, 2] true]))).responses = [.busError]
      ∧ (nextOf (step (windowed [.memWrite .w32 0x1020 [1, 2, 3, 4, 5, 6, 7, 8] true]))).params.srcAddr = 0x04030201
      ∧ (nextOf (step (windowed [.memRead .w32 0x1000 4 true]))).responses = [.data 0x50495A01] := by decide +kernel

theorem test_device_store_and_read :
    (nextOf (step (windowed [.memWrite .w8 0x2FFF [7, 8] true]))).mem = [(0x2FFF, 7)]
      ∧ (nextOf (step (windowed [.memRead .w8 0x3000 1 true]))).fresh = 1 := by decide +kernel

theorem test_witness_HostStoreWritesItsBytes :
    (∀ s ∈ [{ State.reset with hostq := [.memWrite .w8 0xFFFFFFFF [1] true] },
        { busyWith 0x02 1 [.memWrite .w8 0x1010 [1] true] with latched := { srcAddr := 0x1000, srcLen := 16 } },
        { busyWith 0x06 1 [.memWrite .w16 0xFFF [1, 2] true] with latched := { srcAddr := 0x1000, srcLen := 1 } },
        windowed [.memWrite .w8 0x2FFF [7, 8] true]],
      s.mem.wf = true ∧ s.engineDue = false ∧ isNext (step s) = true ∧ s.platform.dmaCoherent = true
        ∧ (s.phase = .busy 0x06 ↔ (nextOf (step s)).raced = true))
      ∧ ∀ op ∈ [HostOp.memWrite .w32 0x1FFC [1, 2, 3, 4] true, .memWrite .w32 0xFFD [1, 2, 3, 4] true,
          .memWrite .w32 0x1022 [1, 2, 3, 4] true, .memWrite .w8 0xFFF [1, 2] false],
        (windowed [op]).mem.wf = true ∧ (windowed [op]).engineDue = false ∧ (windowed [op]).platform.regBase = 0x1000
          ∧ isNext (step (windowed [op])) = true := by decide +kernel

theorem test_witness_HostReadReturnsMemory :
    (∀ s ∈ [{ State.reset with hostq := [.memRead .w8 0xFFFFFFFF 1 true] },
        { busyWith 0x06 1 [.memRead .w8 0xFFF 3 true] with latched := { srcAddr := 0x1000, srcLen := 1 } },
        { busyWith 0x02 1 [.memRead .w8 0x1000 4 true] with latched := { srcAddr := 0x1000, srcLen := 4 } },
        windowed [.memRead .w8 0x2FFF 2 true]],
      s.mem.wf = true ∧ s.engineDue = false ∧ isNext (step s) = true ∧ s.platform.dmaCoherent = true
        ∧ (s.phase = .busy 0x06 ↔ (nextOf (step s)).raced = true))
      ∧ ∀ op ∈ [HostOp.memRead .w32 0x1FFC 4 true, .memRead .w32 0xFFD 4 true, .memRead .w64 0x1020 8 true,
          .memRead .w8 0xFFF 2 false],
        (windowed [op]).mem.wf = true ∧ (windowed [op]).engineDue = false ∧ (windowed [op]).platform.regBase = 0x1000
          ∧ isNext (step (windowed [op])) = true := by decide +kernel

theorem test_witness_RacedCommandStaysInBounds :
    decode 0x30 = .ok .pizCompress ∧ ({ busyWith 0x30 0 [] with raced := true } : State).mem.wf = true
      ∧ ({ busyWith 0x30 0 [] with raced := true } : State).delay = 0
      ∧ touchesDevice .pizCompress { busyWith 0x30 0 [] with raced := true } = false := by decide

theorem test_witness_WaitEndsAfterCompletion :
    decode 0x10 = .ok .wavEncode ∧ (busyWith 0x10 3 [.wait]).done = false
      ∧ touchesDevice .wavEncode (busyWith 0x10 3 [.wait]) = false
      ∧ (busyWith 0x10 3 [.wait]).hostq = .wait :: [] := by decide

theorem test_witness_EveryStepKeepsTheInvariant :
    State.reset.Inv ∧ step (State.reset.withFetchWord 32 0x01) = .next (nextOf (step (State.reset.withFetchWord 32 0x01)))
      ∧ (State.reset.withFetchWord 32 0x01).Inv :=
  ⟨reset_inv, eq_next_of_isNext _ (by decide +kernel),
    ⟨by decide, (fun _ h => by cases h), (fun _ h => by cases h), fun h => by cases h⟩⟩

theorem test_witness_EveryStepKeepsMemoryInSpace :
    (State.reset.withFetchWord 32 0x01).mem.wf = true ∧ (State.reset.withFetchWord 32 0x01).mem.inSpace
      ∧ step (State.reset.withFetchWord 32 0x01) = .next (nextOf (step (State.reset.withFetchWord 32 0x01))) :=
  ⟨by decide, fun _ _ => rfl, eq_next_of_isNext _ (by decide +kernel)⟩

end Sys2Proof.Tests
end

section
/-! SUPPORT and the proof of O6: what the engine's turn and each host access leave alone, and which host access issues a
command. -/

namespace Sys2Proof.Machine

/-! ### What the engine's turn leaves alone -/

theorem State.hostSideKept.refl (s : State) : s.hostSideKept s := ⟨rfl, rfl, rfl, rfl, rfl, rfl, rfl⟩

theorem State.hostSideKept.trans {s t u : State} (h : s.hostSideKept t) (h' : t.hostSideKept u) : s.hostSideKept u :=
  ⟨h'.params.trans h.params, h'.latched.trans h.latched, h'.irqEnable.trans h.irqEnable, h'.platform.trans h.platform,
    h'.hostq.trans h.hostq, h'.responses.trans h.responses, h'.delays.trans h.delays⟩

theorem State.dataOnly.hostSideKept {s t : State} (h : s.dataOnly t) : s.hostSideKept t := by
  rw [State.dataOnly] at h
  rw [h]
  exact ⟨rfl, rfl, rfl, rfl, rfl, rfl, rfl⟩

theorem State.hostSideKept_completeOk (s : State) (r : Results) : s.hostSideKept (s.completeOk r) :=
  ⟨rfl, rfl, rfl, rfl, rfl, rfl, rfl⟩

theorem State.hostSideKept_completeErr (s : State) (e : ErrCode) : s.hostSideKept (s.completeErr e) :=
  ⟨rfl, rfl, rfl, rfl, rfl, rfl, rfl⟩

theorem State.hostSideKept_failData (s : State) (i : Instr) (e : Raise) : s.hostSideKept (s.failData i e) := by
  unfold State.failData
  split <;> exact ⟨rfl, rfl, rfl, rfl, rfl, rfl, rfl⟩

@[simp] theorem State.failData_phase (s : State) (i : Instr) (e : Raise) : (s.failData i e).phase = .idle := rfl

/-- A command ends in phase IDLE and leaves the hosts' side and the platform alone (30_encoding.md R146). -/
theorem exec_next {i : Instr} {s t : State} (h : exec i s = .next t) : t.phase = .idle ∧ s.hostSideKept t := by
  have keeps := keeps_dataPhase dataRelation_dataOnly i (s.clearValid i)
  have cleared := clearValid_dataOnly s i
  rw [exec_eq] at h
  obtain ⟨-, ⟨e, -, rfl⟩ | ⟨-, r, s', hb, rfl⟩ | ⟨-, e, s', hb, rfl⟩⟩ := runCommand_next h
  · exact ⟨rfl, s.hostSideKept_completeErr e⟩
  · have body := dataRelation_dataOnly.trans _ _ _ cleared (keeps.1 r s' hb)
    exact ⟨rfl, body.hostSideKept.trans (s'.hostSideKept_completeOk r)⟩
  · have body := dataRelation_dataOnly.trans _ _ _ cleared (keeps.2 e s' hb)
    exact ⟨rfl, body.hostSideKept.trans (s'.hostSideKept_failData i e)⟩

/-- Whichever way a raced command ends, its phase is IDLE then and the hosts' side is as before (70_reset_and_hazards.md
R620). -/
theorem runRaced_idle_hostSideKept {i : Instr} {s t : State} (h : runRaced i s = .next t) :
    t.phase = .idle ∧ s.hostSideKept t := by
  cases hd : touchesDevice i s with
  | true => rw [runRaced, if_pos hd] at h; cases h
  | false =>
    obtain ⟨e, -, he⟩ := runRaced_next hd
    rw [he] at h
    split at h <;> cases h <;> exact ⟨rfl, rfl, rfl, rfl, rfl, rfl, rfl, rfl⟩

/-- After the engine's turn its phase is IDLE, and the hosts' side and the platform are as before. -/
theorem runEngine_next {s t : State} (h : runEngine s = .next t) : t.phase = .idle ∧ s.hostSideKept t := by
  unfold runEngine at h
  split at h
  · rename_i idle
    cases h
    exact ⟨idle, .refl s⟩
  · split at h
    · cases h
      exact ⟨rfl, s.hostSideKept_completeErr _⟩
    · split at h
      · exact runRaced_idle_hostSideKept h
      · exact exec_next h

/-! ### The register window -/

/-- The engine, memory, the tables and the platform are as before: only the parameter and interrupt registers and the model's
own fields may have changed. -/
structure State.engineKept (s t : State) : Prop where
  phase : t.phase = s.phase
  done : t.done = s.done
  errcode : t.errcode = s.errcode
  results : t.results = s.results
  latched : t.latched = s.latched
  mem : t.mem = s.mem
  tables : s.tablesKept t
  platform : t.platform = s.platform

theorem State.engineKept.trans {s t u : State} (h : s.engineKept t) (h' : t.engineKept u) : s.engineKept u :=
  ⟨h'.phase.trans h.phase, h'.done.trans h.done, h'.errcode.trans h.errcode, h'.results.trans h.results,
    h'.latched.trans h.latched, h'.mem.trans h.mem,
    ⟨h'.tables.bitmap.trans h.tables.bitmap, h'.tables.lut.trans h.tables.lut, h'.tables.lutKind.trans h.tables.lutKind,
      h'.tables.codes.trans h.tables.codes⟩, h'.platform.trans h.platform⟩

/-- The fields that a host access which leaves the engine alone may still change. -/
theorem State.engineKept_update (s : State) (params : Params) (irqStatus irqEnable : BitVec 3) (hostq : List HostOp)
    (responses : List Response) (delay : Nat) (raced : Bool) (fresh : Nat) :
    s.engineKept { s with params, irqStatus, irqEnable, hostq, responses, delay, raced, fresh } :=
  ⟨rfl, rfl, rfl, rfl, rfl, rfl, ⟨rfl, rfl, rfl, rfl⟩, rfl⟩

theorem State.engineKept.refl (s : State) : s.engineKept s := s.engineKept_update ..

theorem State.engineKept_respond (s : State) (r : Response) : s.engineKept (s.respond r) := s.engineKept_update ..

theorem State.engineKept_arrive (s : State) (rest : List HostOp) : s.engineKept (s.arrive rest) :=
  s.engineKept_update ..

theorem State.engineKept_queue (s : State) (q : List HostOp) : s.engineKept { s with hostq := q } :=
  s.engineKept_update ..

/-- The register at an offset is the one the map puts there (10_state.md R32). -/
theorem regOffset_of_regAt {off : BitVec 12} {r : Reg} (h : regAt off = some r) : off = regOffset r := by
  have := List.find?_some h
  exact (eq_of_beq this).symm

/-- A register write leaves the engine alone unless it writes CMD, or 1 to CTRL.SRST. -/
theorem State.engineKept_writeReg (s : State) (r : Reg) (v : Word32) (hcmd : r ≠ .cmd)
    (hctrl : r = .ctrl → v.getLsbD 0 = false) : s.engineKept (s.writeReg r v) := by
  cases r with
  | cmd => exact absurd rfl hcmd
  | ctrl => rw [State.writeReg, if_neg (by simpa using hctrl rfl)]; exact .refl s
  | _ => exact s.engineKept_update ..

/-- All a host write to the window can do: write the register at its offset, or be answered and nothing more (10_state.md
R55). -/
theorem hostRegWrite_cases (width : Width) (off : BitVec 12) (v : Word32) (s : State) :
    (∃ r, width = .w32 ∧ off = regOffset r ∧ hostRegWrite width off v s = (s.writeReg r v).respond .written)
      ∨ ∃ a, hostRegWrite width off v s = s.respond a := by
  unfold hostRegWrite
  split
  · rename_i hok
    simp only [registerAccessOk, Bool.and_eq_true, beq_iff_eq] at hok
    split
    · rename_i r hr
      exact .inl ⟨r, hok.1, regOffset_of_regAt hr, rfl⟩
    · exact .inr ⟨_, rfl⟩
  · exact .inr ⟨_, rfl⟩

/-- A host read of the window is answered and changes nothing else (10_state.md R55). -/
theorem hostRegRead_eq_respond (width : Width) (off : BitVec 12) (s : State) :
    ∃ a, hostRegRead width off s = s.respond a := by
  unfold hostRegRead
  split
  · split <;> exact ⟨_, rfl⟩
  · exact ⟨_, rfl⟩

theorem hostRegRead_engineKept (width : Width) (off : BitVec 12) (s : State) :
    s.engineKept (hostRegRead width off s) := by
  obtain ⟨a, ha⟩ := hostRegRead_eq_respond width off s
  rw [ha]
  exact s.engineKept_respond a

theorem State.writeReg_platform (s : State) (r : Reg) (v : Word32) : (s.writeReg r v).platform = s.platform := by
  cases r with
  | cmd => rw [State.writeReg, State.writeCmd]; split <;> rfl
  | ctrl => rw [State.writeReg]; split <;> rfl
  | _ => rfl

theorem hostRegWrite_platform (width : Width) (off : BitVec 12) (v : Word32) (s : State) :
    (hostRegWrite width off v s).platform = s.platform := by
  obtain ⟨r, -, -, h⟩ | ⟨a, h⟩ := hostRegWrite_cases width off v s <;> rw [h]
  · exact s.writeReg_platform r v
  · rfl

/-- The only register write that takes the engine out of IDLE is that of CMD, which issues its word (10_state.md R37). -/
theorem State.writeReg_busy {s : State} {r : Reg} {v w : Word32} (hs : s.phase = .idle)
    (h : (s.writeReg r v).phase = .busy w) : r = .cmd ∧ v = w ∧ (s.writeReg r v).latched = s.params := by
  by_cases hcmd : r = .cmd
  · subst hcmd
    have issued : s.writeReg .cmd v = s.issue v := by rw [State.writeReg, State.writeCmd, hs]
    rw [issued] at h ⊢
    exact ⟨rfl, by simpa using h, rfl⟩
  · by_cases hrst : r = .ctrl ∧ v.getLsbD 0 = true
    · rw [hrst.1, State.writeReg, if_pos hrst.2] at h
      cases h
    · rw [(s.engineKept_writeReg r v hcmd (by simpa using hrst)).phase, hs] at h
      cases h

theorem hostRegWrite_busy {width : Width} {off : BitVec 12} {v w : Word32} {s : State} (hs : s.phase = .idle)
    (h : (hostRegWrite width off v s).phase = .busy w) :
    width = .w32 ∧ off = regOffset .cmd ∧ v = w ∧ (hostRegWrite width off v s).latched = s.params := by
  obtain ⟨r, hw, hoff, hr⟩ | ⟨a, ha⟩ := hostRegWrite_cases width off v s
  · rw [hr] at h ⊢
    obtain ⟨rfl, hv, hl⟩ := State.writeReg_busy hs h
    exact ⟨hw, hoff, hv, hl⟩
  · rw [ha, State.respond_phase, hs] at h
    cases h

/-! ### Host accesses to memory -/

/-- An access that has a window offset is one of four bytes, at that offset of the window. -/
theorem State.windowOffset_eq_some {s : State} {a n : Nat} {off : BitVec 12} (h : s.windowOffset a n = some off) :
    n = 4 ∧ a = s.platform.regBase + off.toNat := by
  unfold State.windowOffset at h
  split at h
  · rename_i hin
    cases h
    obtain ⟨rfl, hlo, hhi⟩ := hin
    refine ⟨rfl, ?_⟩
    rw [BitVec.toNat_ofNat, Nat.mod_eq_of_lt]
    all_goals simp only [Config.windowSize] at hhi; omega
  · cases h

/-- What stops a host access to memory answers no next state. -/
theorem hostMemStop_ne_next (a n : Nat) (c : Bool) (s t : State) : hostMemStop a n c s ≠ some (.next t) := by
  unfold hostMemStop
  split
  · simp
  · split <;> simp

/-- All a host store can do when it answers a next state: write a register at its address in the window, be answered with a
bus error, or store its bytes. -/
theorem hostStore_next {a : Nat} {bs : List Byte} {c : Bool} {s t : State} (h : hostStore a bs c s = .next t) :
    (s.meetsWindow a bs.length = true
        ∧ ∃ off, s.windowOffset a bs.length = some off ∧ t = hostRegWrite .w32 off (BitVec.ofNat 32 (leNat bs)) s)
      ∨ (s.meetsWindow a bs.length = true ∧ s.windowOffset a bs.length = none ∧ t = s.respond .busError)
      ∨ (s.meetsWindow a bs.length = false ∧ hostMemStop a bs.length c s = none
        ∧ t = ({ s with mem := s.mem.write a (s.storedBytes a bs),
                        raced := s.raced || s.writeRaces a bs.length } : State).respond .written) := by
  unfold hostStore at h
  split at h
  · rename_i hm
    split at h
    · rename_i off hoff
      cases h
      exact .inl ⟨hm, off, hoff, rfl⟩
    · rename_i hoff
      cases h
      exact .inr (.inl ⟨hm, hoff, rfl⟩)
  · rename_i hm
    split at h
    · rename_i o ho
      exact absurd (h ▸ ho) (hostMemStop_ne_next a _ c s t)
    · rename_i hn
      cases h
      exact .inr (.inr ⟨by simpa using hm, hn, rfl⟩)

/-- A host store is the store of its first element, or of its bytes all at once outside the window (log 13). -/
theorem hostMemWrite_eq_hostStore (width : Width) (a : Nat) (bs : List Byte) (c : Bool) (s : State) :
    (∃ q, hostMemWrite width a bs c s = hostStore a (bs.take width.bytes) c { s with hostq := q })
      ∨ (s.meetsWindow a bs.length = false ∧ hostMemWrite width a bs c s = hostStore a bs c s) := by
  cases hm : s.meetsWindow a bs.length with
  | false => exact .inr ⟨rfl, by simp [hostMemWrite, hm]⟩
  | true =>
    by_cases hl : width.bytes < bs.length
    · exact .inl ⟨_, by rw [hostMemWrite, hm, if_pos (by simpa using hl)]⟩
    · refine .inl ⟨s.hostq, ?_⟩
      rw [hostMemWrite, hm, if_neg (by simpa using hl), List.take_of_length_le (by omega)]

/-- A host read leaves the engine alone, in the window and outside it. -/
theorem hostLoad_engineKept {a n : Nat} {c : Bool} {s t : State} (h : hostLoad a n c s = .next t) : s.engineKept t := by
  unfold hostLoad at h
  split at h
  · split at h
    · cases h
      exact hostRegRead_engineKept _ _ s
    · cases h
      exact s.engineKept_respond _
  · split at h
    · rename_i o ho
      exact absurd (h ▸ ho) (hostMemStop_ne_next a n c s t)
    · cases h
      exact s.engineKept_update ..

theorem hostMemRead_engineKept {width : Width} {a n : Nat} {c : Bool} {s t : State}
    (h : hostMemRead width a n c s = .next t) : s.engineKept t := by
  unfold hostMemRead at h
  split at h
  · exact (s.engineKept_queue _).trans (hostLoad_engineKept h)
  · exact hostLoad_engineKept h

theorem hostWait_engineKept (s : State) : s.engineKept (hostWait s) := by
  unfold hostWait
  split
  · exact s.engineKept_respond _
  · exact s.engineKept_queue _

/-! ### Stores to the window by address -/

theorem hostStore_platform {a : Nat} {bs : List Byte} {c : Bool} {s t : State} (h : hostStore a bs c s = .next t) :
    t.platform = s.platform := by
  obtain ⟨-, off, -, rfl⟩ | ⟨-, -, rfl⟩ | ⟨-, -, rfl⟩ := hostStore_next h
  · exact hostRegWrite_platform _ _ _ _
  · rfl
  · rfl

theorem hostMemWrite_platform {width : Width} {a : Nat} {bs : List Byte} {c : Bool} {s t : State}
    (h : hostMemWrite width a bs c s = .next t) : t.platform = s.platform := by
  obtain ⟨q, hq⟩ | ⟨-, ho⟩ := hostMemWrite_eq_hostStore width a bs c s
  · rw [hq] at h
    exact hostStore_platform (s := { s with hostq := q }) h
  · rw [ho] at h
    exact hostStore_platform h

theorem toNat_append_byte {n : Nat} (x : BitVec n) (b : Byte) : (x ++ b).toNat = x.toNat * 256 + b.toNat := by
  rw [BitVec.toNat_append, ← Nat.shiftLeft_add_eq_or_of_lt b.isLt, Nat.shiftLeft_eq]

/-- Four bytes as a little-endian word (20_memory.md R92). -/
theorem ofNat_leNat_four (b0 b1 b2 b3 : Byte) : BitVec.ofNat 32 (leNat [b0, b1, b2, b3]) = b3 ++ b2 ++ b1 ++ b0 := by
  apply BitVec.eq_of_toNat_eq
  simp only [toNat_append_byte, leNat, BitVec.toNat_ofNat]
  omega

/-- The word an element of four bytes stands for, read off the bytes it is the first element of. -/
theorem ofNat_leNat_take {bs : List Byte} {k : Nat} (h : (bs.take k).length = 4) :
    BitVec.ofNat 32 (leNat (bs.take k)) = bs.getD 3 0 ++ bs.getD 2 0 ++ bs.getD 1 0 ++ bs.getD 0 0 := by
  obtain ⟨b0, b1, b2, b3, hb⟩ := List.length_eq_four.1 h
  rw [hb, ofNat_leNat_four, ← List.take_append_drop k bs, hb]
  rfl

/-- A store takes the engine out of IDLE only as a 32-bit write of CMD at its address. -/
theorem hostStore_busy {a : Nat} {bs : List Byte} {c : Bool} {s t : State} {w : Word32} (hs : s.phase = .idle)
    (h : hostStore a bs c s = .next t) (ht : t.phase = .busy w) :
    s.meetsWindow a bs.length = true ∧ a = s.platform.regBase + (regOffset .cmd).toNat ∧ bs.length = 4
      ∧ w = BitVec.ofNat 32 (leNat bs) ∧ t.latched = s.params := by
  obtain ⟨hm, off, hoff, rfl⟩ | ⟨-, -, rfl⟩ | ⟨-, -, rfl⟩ := hostStore_next h
  · obtain ⟨hlen, ha⟩ := State.windowOffset_eq_some hoff
    obtain ⟨-, rfl, hw, hl⟩ := hostRegWrite_busy hs ht
    exact ⟨hm, ha, hlen, hw.symm, hl⟩
  all_goals exact absurd (hs.symm.trans ht) (by simp)

theorem hostMemWrite_busy {width : Width} {a : Nat} {bs : List Byte} {c : Bool} {s t : State} {w : Word32}
    (hs : s.phase = .idle) (h : hostMemWrite width a bs c s = .next t) (ht : t.phase = .busy w) :
    s.platform.windowWrite (.memWrite width a bs c) (regOffset .cmd) w ∧ t.latched = s.params := by
  obtain ⟨q, hq⟩ | ⟨hm, ho⟩ := hostMemWrite_eq_hostStore width a bs c s
  · rw [hq] at h
    obtain ⟨-, rfl, hlen, rfl, hl⟩ := hostStore_busy (s := { s with hostq := q }) hs h ht
    exact ⟨.inr ⟨width, bs, c, rfl, hlen, ofNat_leNat_take hlen⟩, hl⟩
  · rw [ho] at h
    obtain ⟨hm', -⟩ := hostStore_busy hs h ht
    rw [hm] at hm'
    cases hm'

/-! ### The step -/

theorem hostAccess_platform {op : HostOp} {s t : State} (h : hostAccess op s = .next t) : t.platform = s.platform := by
  cases op with
  | regWrite width off v => cases h; exact hostRegWrite_platform width off v s
  | regRead width off => cases h; exact (hostRegRead_engineKept width off s).platform
  | memWrite width a bs c => exact hostMemWrite_platform h
  | memRead width a n c => exact (hostMemRead_engineKept h).platform
  | wait => cases h; exact (hostWait_engineKept s).platform
  | hardReset => cases h; rfl

/-- A host access leaves the engine alone unless it writes CMD, writes 1 to CTRL.SRST, stores to memory or drives the reset
input. -/
theorem hostAccess_engineKept {op : HostOp} {s t : State} (h : hostAccess op s = .next t)
    (hcmd : ∀ v, op ≠ .regWrite .w32 (regOffset .cmd) v)
    (hrst : ∀ v, v.getLsbD 0 = true → op ≠ .regWrite .w32 (regOffset .ctrl) v)
    (hmem : ∀ width a bs c, op ≠ .memWrite width a bs c) (hhard : op ≠ .hardReset) : s.engineKept t := by
  cases op with
  | regWrite width off v =>
    cases h
    obtain ⟨r, rfl, rfl, hr⟩ | ⟨a, ha⟩ := hostRegWrite_cases width off v s
    · rw [hr]
      refine (s.engineKept_writeReg r v (fun hc => hcmd v (hc ▸ rfl)) fun hc => ?_).trans (State.engineKept_respond _ _)
      exact Bool.eq_false_iff.2 fun hv => hrst v hv (hc ▸ rfl)
    · rw [ha]
      exact s.engineKept_respond a
  | regRead width off => cases h; exact hostRegRead_engineKept width off s
  | memWrite width a bs c => exact absurd rfl (hmem width a bs c)
  | memRead width a n c => exact hostMemRead_engineKept h
  | wait => cases h; exact hostWait_engineKept s
  | hardReset => exact absurd rfl hhard

/-- The only host access that makes an idle engine busy is a 32-bit write of CMD, by its offset or its address; it latches the
parameters (10_state.md R37, 30_encoding.md R141). -/
theorem hostAccess_busy {op : HostOp} {s t : State} {w : Word32} (hs : s.phase = .idle) (h : hostAccess op s = .next t)
    (ht : t.phase = .busy w) : s.platform.windowWrite op (regOffset .cmd) w ∧ t.latched = s.params := by
  have quiet (kept : s.engineKept t) : s.platform.windowWrite op (regOffset .cmd) w ∧ t.latched = s.params := by
    rw [kept.phase, hs] at ht
    cases ht
  cases op with
  | regWrite width off v =>
    cases h
    obtain ⟨rfl, rfl, rfl, latched⟩ := hostRegWrite_busy hs ht
    exact ⟨.inl rfl, latched⟩
  | regRead width off => cases h; exact quiet (hostRegRead_engineKept width off s)
  | memWrite width a bs c => exact hostMemWrite_busy hs h ht
  | memRead width a n c => exact quiet (hostMemRead_engineKept h)
  | wait => cases h; exact quiet (hostWait_engineKept s)
  | hardReset => cases h; cases ht

theorem State.engineDue_of_idle {s : State} (hs : s.phase = .idle) : s.engineDue = false := by
  simp [State.engineDue, hs]

/-- No step changes what the platform fixes (00_scope.md R9). -/
theorem step_platform {s t : State} (h : step s = .next t) : t.platform = s.platform := by
  obtain ⟨-, engine⟩ | ⟨-, -, rfl⟩ | ⟨-, op, rest, s', -, access, ⟨rfl, -⟩ | ⟨-, -, -, engine⟩⟩ := step_next h
  · exact (runEngine_next engine).2.platform
  · rfl
  · exact hostAccess_platform (s := s.arrive rest) access
  · exact (runEngine_next engine).2.platform.trans (hostAccess_platform (s := s.arrive rest) access)

/-- A step of an idle engine whose host access leaves the engine alone leaves it alone as well. -/
theorem step_engineKept {s t : State} {op : HostOp} {rest : List HostOp} (hs : s.phase = .idle)
    (hq : s.hostq = op :: rest) (h : step s = .next t)
    (access : ∀ s', hostAccess op (s.arrive rest) = .next s' → (s.arrive rest).engineKept s') : s.engineKept t := by
  obtain ⟨due, -⟩ | ⟨-, empty, -⟩ | ⟨-, op', rest', s', hq', ha, ends⟩ := step_next h
  · rw [State.engineDue_of_idle hs] at due
    cases due
  · rw [hq] at empty
    cases empty
  · obtain ⟨rfl, rfl⟩ := List.cons.inj (hq.symm.trans hq')
    have kept := (s.engineKept_arrive rest).trans (access s' ha)
    obtain ⟨rfl, -⟩ | ⟨-, busy, -⟩ := ends
    · exact kept
    · rw [State.busy_of_idle s' (kept.phase.trans hs)] at busy
      cases busy

/-- A step that makes an idle engine busy takes a write of CMD off the hosts' list; a command that runs at once has left the
engine idle again. -/
theorem step_busy {s t : State} {w : Word32} (hs : s.phase = .idle) (h : step s = .next t) (ht : t.phase = .busy w) :
    ∃ op rest, s.hostq = op :: rest ∧ s.platform.windowWrite op (regOffset .cmd) w ∧ t.latched = s.params := by
  have notIdle : t.phase ≠ .idle := by simp [ht]
  obtain ⟨-, engine⟩ | ⟨-, -, rfl⟩ | ⟨-, op, rest, s', hq, access, ⟨rfl, -⟩ | ⟨-, -, -, engine⟩⟩ := step_next h
  · exact absurd (runEngine_next engine).1 notIdle
  · exact absurd hs notIdle
  · exact ⟨op, rest, hq, hostAccess_busy (s := s.arrive rest) hs access ht⟩
  · exact absurd (runEngine_next engine).1 notIdle

/-- Settles O6: while the engine is idle a step only lets a host access arrive, and of the host accesses only a write of CMD
takes it out of IDLE. -/
theorem idleEngineNeverStartsWork : Obligations.IdleEngineNeverStartsWork := by
  unfold Obligations.IdleEngineNeverStartsWork
  refine ⟨fun s hs hq => step_of_empty (State.engineDue_of_idle hs) hq, ?_, ?_⟩
  · intro s t op rest hs hq h hcmd hrst hmem hhard
    have kept := step_engineKept hs hq h fun _ ha => hostAccess_engineKept ha hcmd hrst hmem hhard
    exact ⟨kept.phase.trans hs, kept.mem, kept.tables, kept.done, kept.errcode, kept.results, kept.latched⟩
  · intro s t h
    exact ⟨step_platform h, fun hs w ht => step_busy hs h ht⟩

end Sys2Proof.Machine
end

section
/-! SUPPORT. The tables a command builds are in their strict forms: the LUT (40_lut.md R206, R207) and the code table of the
encoder and of the decoder (41_huffman_encode.md R254, 42_huffman_decode.md R306). -/

namespace Sys2Proof.Machine

/-! ### The LUT -/

theorem Lut.wf_iff (t : Lut) :
    Lut.wf t = true ↔ t.Pairwise (fun c d => c.1 < d.1) ∧ ∀ e ∈ t, e.1 < 65536 ∧ e.2 ≠ 0 := by
  rw [Lut.wf, Bool.and_eq_true, keysRise_iff_pairwise, List.all_eq_true]
  simp

theorem Bitmap.mem_nonZeroValues {b : Bitmap} {v : Nat} (h : v ∈ b.nonZeroValues) : 0 < v ∧ v < 65536 := by
  simp only [Bitmap.nonZeroValues, List.mem_filter, bne_iff_ne, Bitmap.setBits_eq, List.mem_range] at h
  omega

theorem Bitmap.nonZeroValues_pairwise (b : Bitmap) : b.nonZeroValues.Pairwise (· < ·) :=
  b.setBits_pairwise.filter _

/-- There are at most 65535 values other than 0, so a rank fits 16 bits. -/
theorem Bitmap.nonZeroValues_length_lt (b : Bitmap) : b.nonZeroValues.length < 65536 := by
  have nodup : b.nonZeroValues.Nodup := b.nonZeroValues_pairwise.imp fun h => Nat.ne_of_lt h
  have inRange : b.nonZeroValues ⊆ List.range' 1 65535 := fun v hv => by
    have := Bitmap.mem_nonZeroValues hv
    exact List.mem_range'_1.2 (by omega)
  have := (nodup.subperm inRange).length_le
  rw [List.length_range'] at this
  omega

/-- A value that occurs and its rank, both from 1 to 65535. -/
theorem Bitmap.mem_zipIdx_nonZeroValues {b : Bitmap} {p : Nat × Nat} (h : p ∈ b.nonZeroValues.zipIdx 1) :
    (0 < p.1 ∧ p.1 < 65536) ∧ 0 < p.2 ∧ p.2 < 65536 := by
  have value := Bitmap.mem_nonZeroValues (List.fst_mem_of_mem_zipIdx h)
  have low := List.le_snd_of_mem_zipIdx h
  have high := List.snd_lt_add_of_mem_zipIdx h
  have := b.nonZeroValues_length_lt
  exact ⟨value, by omega, by omega⟩

theorem ofNat16_ne_zero {n : Nat} (h0 : 0 < n) (h : n < 65536) : BitVec.ofNat 16 n ≠ 0 := fun hz => by
  have := congrArg BitVec.toNat hz
  simp at this
  omega

theorem Bitmap.forwardLut_wf (b : Bitmap) : Lut.wf b.forwardLut = true := by
  refine (Lut.wf_iff _).2 ⟨?_, ?_⟩
  · have := b.nonZeroValues_pairwise
    rw [← List.zipIdx_map_fst 1 b.nonZeroValues, List.pairwise_map] at this
    exact List.pairwise_map.2 this
  · intro e he
    obtain ⟨p, hp, rfl⟩ := List.mem_map.1 he
    obtain ⟨⟨-, value⟩, pos, rank⟩ := Bitmap.mem_zipIdx_nonZeroValues hp
    exact ⟨value, ofNat16_ne_zero pos rank⟩

theorem Bitmap.reverseLut_wf (b : Bitmap) : Lut.wf b.reverseLut = true := by
  refine (Lut.wf_iff _).2 ⟨?_, ?_⟩
  · have := List.pairwise_lt_range' (s := 1) (n := b.nonZeroValues.length) (step := 1)
    rw [← List.zipIdx_map_snd 1 b.nonZeroValues, List.pairwise_map] at this
    exact List.pairwise_map.2 this
  · intro e he
    obtain ⟨p, hp, rfl⟩ := List.mem_map.1 he
    obtain ⟨⟨pos, value⟩, -, rank⟩ := Bitmap.mem_zipIdx_nonZeroValues hp
    exact ⟨rank, ofNat16_ne_zero pos value⟩

/-! ### Code tables by their lengths -/

/-- The lengths of a code table by symbol: all that the strict form asks about. -/
def CodeTable.lengths (t : CodeTable) : List (Nat × BitVec 6) := t.map fun e => (e.sym, e.len)

theorem CodeTable.wf_iff (t : CodeTable) :
    CodeTable.wf t = true ↔ t.lengths.Pairwise (fun c d => c.1 < d.1)
      ∧ ∀ p ∈ t.lengths, p.1 < 65537 ∧ 0 < p.2.toNat ∧ p.2.toNat ≤ 58 := by
  simp [CodeTable.wf, CodeTable.lengths, keysRise_iff_pairwise, List.pairwise_map, and_assoc]

/-- Code lengths by rising symbol as the code table can hold them (10_state.md R62). -/
structure LengthsWf (lens : List (Nat × Nat)) : Prop where
  rise : lens.Pairwise fun c d => c.1 < d.1
  range : ∀ p ∈ lens, p.1 < 65537 ∧ 0 < p.2 ∧ p.2 ≤ 58

theorem assignCodes_lengths (n : List Nat) (lens : List (Nat × Nat)) :
    (assignCodes n lens).lengths = lens.map fun p => (p.1, BitVec.ofNat 6 p.2) := by
  induction lens generalizing n with
  | nil => rfl
  | cons p rest ih => exact congrArg _ (ih _)

/-- Canonical codes of lengths that the table can hold make a table in the strict form. -/
theorem canonicalCodes_wf {lens : List (Nat × Nat)} (h : LengthsWf lens) : CodeTable.wf (canonicalCodes lens) = true := by
  rw [CodeTable.wf_iff, canonicalCodes, assignCodes_lengths]
  refine ⟨List.pairwise_map.2 h.rise, fun p hp => ?_⟩
  obtain ⟨q, hq, rfl⟩ := List.mem_map.1 hp
  obtain ⟨sym, pos, max⟩ := h.range q hq
  have fits : (BitVec.ofNat 6 q.2).toNat = q.2 := by simp; omega
  exact ⟨sym, by rwa [fits], by rwa [fits]⟩

/-- Freeing the code of an entry leaves the lengths (log 9). -/
theorem freeFailing_lengths (t : CodeTable) (failing : CodeEntry) (tick : Nat) :
    (freeFailing t failing tick).lengths = t.lengths := by
  unfold freeFailing CodeTable.lengths
  rw [List.map_map]
  apply List.map_congr_left
  intro e _
  simp only [Function.comp]
  split <;> rfl

theorem freeFailing_wf {t : CodeTable} (failing : CodeEntry) (tick : Nat) (h : CodeTable.wf t = true) :
    CodeTable.wf (freeFailing t failing tick) = true := by
  rw [CodeTable.wf_iff, freeFailing_lengths, ← CodeTable.wf_iff]
  exact h

/-! ### The encoder's lengths -/

theorem heapInsert_perm (n : HeapNode) (heap : List HeapNode) : (heapInsert n heap).Perm (n :: heap) := by
  induction heap with
  | nil => exact .refl _
  | cons m rest ih =>
    rw [heapInsert]
    split
    · exact .refl _
    · exact (ih.cons m).trans (.swap n m rest)

/-- The leaf of the heap that stands for a symbol of a frequency (41_huffman_encode.md R252). -/
def HeapNode.leaf (e : Nat × Nat) : HeapNode := ⟨e.2, e.1, [(e.1, 0)]⟩

theorem foldl_heapInsert_perm (frq : List (Nat × Nat)) (heap : List HeapNode) :
    (frq.foldl (fun h e => heapInsert (.leaf e) h) heap).Perm (frq.map HeapNode.leaf ++ heap) := by
  induction frq generalizing heap with
  | nil => exact .refl _
  | cons e rest ih =>
    exact (ih _).trans (((heapInsert_perm _ heap).append_left _).trans List.perm_middle)

theorem initialHeap_perm (frq : List (Nat × Nat)) : (initialHeap frq).Perm (frq.map HeapNode.leaf) := by
  have := foldl_heapInsert_perm frq []
  rwa [List.append_nil] at this

/-- The symbol is on the chain of a member of the heap. -/
def onHeap (heap : List HeapNode) (sym : Nat) : Prop := ∃ n ∈ heap, ∃ p ∈ n.chain, p.1 = sym

/-- What is known of the chain that the merges end with: lengths of at least 1 and at most 58, and every symbol of the heap. -/
structure ChainOf (heap : List HeapNode) (chain : List (Nat × Nat)) : Prop where
  pos : ∀ p ∈ chain, 0 < p.2
  max : ∀ p ∈ chain, p.2 ≤ 58
  syms : ∀ sym, onHeap heap sym → ∃ p ∈ chain, p.1 = sym

theorem mergedChain_pos {m mm : HeapNode} {p : Nat × Nat} (h : p ∈ mergedChain m mm) : 0 < p.2 := by
  obtain ⟨q, -, rfl⟩ := List.mem_map.1 h
  exact Nat.succ_pos _

/-- A merge keeps every symbol on the heap. -/
theorem onHeap_merge {mm m : HeapNode} {rest : List HeapNode} {sym : Nat} (freq s : Nat)
    (h : onHeap (mm :: m :: rest) sym) : onHeap (heapInsert ⟨freq, s, mergedChain m mm⟩ rest) sym := by
  obtain ⟨n, hn, p, hp, rfl⟩ := h
  have merged (hp : p ∈ m.chain ++ mm.chain) : onHeap (heapInsert ⟨freq, s, mergedChain m mm⟩ rest) p.1 :=
    ⟨_, (heapInsert_perm _ rest).mem_iff.2 List.mem_cons_self, _, List.mem_map_of_mem hp, rfl⟩
  rcases List.mem_cons.1 hn with rfl | hn
  · exact merged (List.mem_append_right _ hp)
  rcases List.mem_cons.1 hn with rfl | hn
  · exact merged (List.mem_append_left _ hp)
  · exact ⟨n, (heapInsert_perm _ rest).mem_iff.2 (List.mem_cons_of_mem _ hn), p, hp, rfl⟩

/-- The merges of two or more members end with a chain of all symbols. One member is the end of the merges before it. -/
theorem mergeAll_chainOf {fuel : Nat} {heap : List HeapNode} {chain : List (Nat × Nat)} (hfuel : heap.length ≤ fuel)
    (merged : 2 ≤ heap.length ∨ ∃ n, heap = [n] ∧ ∀ p ∈ n.chain, 0 < p.2 ∧ p.2 ≤ 58)
    (h : mergeAll fuel heap = .ok chain) : ChainOf heap chain := by
  induction fuel generalizing heap with
  | zero =>
    obtain two | ⟨n, rfl, -⟩ := merged
    · omega
    · simp at hfuel
  | succ fuel ih =>
    match heap, merged with
    | [], merged => simp at merged
    | [n], merged =>
      simp only [List.length_singleton, Nat.not_ofNat_le_one, false_or] at merged
      obtain ⟨m, hm, range⟩ := merged
      cases hm
      cases h
      refine ⟨fun p hp => (range p hp).1, fun p hp => (range p hp).2, ?_⟩
      rintro sym ⟨k, hk, p, hp, rfl⟩
      cases List.mem_singleton.1 hk
      exact ⟨p, hp, rfl⟩
    | mm :: m :: rest, _ =>
      rw [mergeAll] at h
      split at h
      · rename_i fits
        have size := (heapInsert_perm ⟨m.freq + mm.freq, m.sym, mergedChain m mm⟩ rest).length_eq
        simp only [List.length_cons] at size hfuel
        have next := ih (by omega) (by
          cases rest with
          | nil =>
            refine .inr ⟨_, rfl, fun p hp => ⟨mergedChain_pos hp, ?_⟩⟩
            simpa using List.all_eq_true.1 fits p hp
          | cons r rest => exact .inl (by simp only [List.length_cons] at size; omega)) h
        exact ⟨next.pos, next.max, fun sym hs => next.syms sym (onHeap_merge _ _ hs)⟩
      · cases h

theorem mergeAll_error {fuel : Nat} {heap : List HeapNode} {e : ErrCode} (h : mergeAll fuel heap = .error e) :
    e = .codeLengthOverflow := by
  induction fuel generalizing heap with
  | zero => match heap with
    | [] | [_] | _ :: _ :: _ => cases h
  | succ fuel ih => match heap with
    | [] | [_] => cases h
    | mm :: m :: rest =>
      rw [mergeAll] at h
      split at h
      · exact ih h
      · cases h
        rfl

theorem sparseGet_mem_of_key {α : Type} (d : α) {m : List (Nat × α)} {k : Nat} (h : ∃ p ∈ m, p.1 = k) :
    (k, sparseGet d m k) ∈ m := by
  induction m with
  | nil => simp at h
  | cons c rest ih =>
    obtain ⟨j, v⟩ := c
    rw [sparseGet_cons]
    by_cases hj : j = k
    · simp [hj]
    · rw [if_neg hj]
      simp only [List.exists_mem_cons_iff, hj, false_or] at h
      exact List.mem_cons_of_mem _ (ih h)

/-- The lengths of an alphabet of two symbols or more are lengths that the code table can hold (41_huffman_encode.md R252). -/
theorem lengthsOf_wf {frq lens : List (Nat × Nat)} (two : 2 ≤ frq.length) (rise : frq.Pairwise fun c d => c.1 < d.1)
    (range : ∀ p ∈ frq, p.1 < 65537) (h : lengthsOf frq = .ok lens) : LengthsWf lens := by
  unfold lengthsOf at h
  split at h
  · rename_i chain hc
    cases h
    have perm := initialHeap_perm frq
    have size : (initialHeap frq).length = frq.length := by simpa using perm.length_eq
    have ends := mergeAll_chainOf size.le (.inl (size ▸ two)) hc
    refine ⟨List.pairwise_map.2 rise, fun p hp => ?_⟩
    obtain ⟨e, he, rfl⟩ := List.mem_map.1 hp
    have leaf : onHeap (initialHeap frq) e.1 :=
      ⟨.leaf e, perm.mem_iff.2 (List.mem_map_of_mem he), (e.1, 0), List.mem_singleton.2 rfl, rfl⟩
    have found := sparseGet_mem_of_key 0 (ends.syms _ leaf)
    exact ⟨range e he, ends.pos _ found, ends.max _ found⟩
  · cases h

theorem lengthsOf_error {frq : List (Nat × Nat)} {e : ErrCode} (h : lengthsOf frq = .error e) :
    e = .codeLengthOverflow := by
  unfold lengthsOf at h
  split at h
  · cases h
  · rename_i he
    cases h
    exact mergeAll_error he

/-- The non-zero frequencies of samples by rising symbol (41_huffman_encode.md R251). -/
structure FrequenciesWf (frq : List (Nat × Nat)) : Prop where
  rise : frq.Pairwise fun c d => c.1 < d.1
  range : ∀ p ∈ frq, p.1 < 65536

theorem mem_bumpFrequency {frq : List (Nat × Nat)} {v : Nat} {p : Nat × Nat} (h : p ∈ bumpFrequency frq v) :
    p.1 = v ∨ ∃ q ∈ frq, q.1 = p.1 := by
  induction frq with
  | nil => simp [bumpFrequency] at h; simp [h]
  | cons c rest ih =>
    obtain ⟨s, n⟩ := c
    rw [bumpFrequency] at h
    split at h
    · rcases List.mem_cons.1 h with rfl | h
      · exact .inr ⟨_, List.mem_cons_self, rfl⟩
      · exact (ih h).imp_right fun ⟨q, hq, e⟩ => ⟨q, List.mem_cons_of_mem _ hq, e⟩
    · split at h
      · rename_i hs
        rcases List.mem_cons.1 h with rfl | h
        · exact .inl hs
        · exact .inr ⟨p, List.mem_cons_of_mem _ h, rfl⟩
      · rcases List.mem_cons.1 h with rfl | h
        · exact .inl rfl
        · exact .inr ⟨p, h, rfl⟩

theorem bumpFrequency_wf {frq : List (Nat × Nat)} (v : Sample) (h : FrequenciesWf frq) :
    FrequenciesWf (bumpFrequency frq v.toNat) := by
  constructor
  · have rise := h.rise
    clear h
    induction frq with
    | nil => simp [bumpFrequency]
    | cons c rest ih =>
      obtain ⟨s, n⟩ := c
      obtain ⟨first, rest_rise⟩ := List.pairwise_cons.1 rise
      rw [bumpFrequency]
      split
      · rename_i hs
        refine List.pairwise_cons.2 ⟨fun p hp => ?_, ih rest_rise⟩
        rcases mem_bumpFrequency hp with hv | ⟨q, hq, e⟩
        · exact hv ▸ hs
        · exact e ▸ first q hq
      · split
        · exact List.pairwise_cons.2 ⟨first, rest_rise⟩
        · refine List.pairwise_cons.2 ⟨fun p hp => ?_, rise⟩
          rcases List.mem_cons.1 hp with rfl | hp
          · show v.toNat < s; omega
          · have := first p hp
            show v.toNat < p.1
            simp only at this
            omega
  · intro p hp
    rcases mem_bumpFrequency hp with hv | ⟨q, hq, e⟩
    · exact hv ▸ v.isLt
    · exact e ▸ h.range q hq

theorem countFrequencies_wf (xs : List Sample) : FrequenciesWf (countFrequencies xs) := by
  have step : ∀ frq, FrequenciesWf frq → FrequenciesWf (xs.foldl (fun frq v => bumpFrequency frq v.toNat) frq) := by
    induction xs with
    | nil => exact fun _ h => h
    | cons v rest ih => exact fun frq h => ih _ (bumpFrequency_wf v h)
  exact step [] ⟨List.Pairwise.nil, by simp⟩

theorem bumpFrequency_ne_nil (frq : List (Nat × Nat)) (v : Nat) : bumpFrequency frq v ≠ [] := by
  cases frq with
  | nil => simp [bumpFrequency]
  | cons c rest =>
    rw [bumpFrequency]
    split
    · simp
    · split <;> simp

theorem countFrequencies_ne_nil {xs : List Sample} (h : xs ≠ []) : countFrequencies xs ≠ [] := by
  obtain ⟨rest, v, rfl⟩ := List.eq_nil_or_concat xs |>.resolve_left h
  rw [countFrequencies, List.concat_eq_append, List.foldl_append]
  exact bumpFrequency_ne_nil _ _

/-- The escape is greater than every symbol that occurs (41_huffman_encode.md R250). -/
theorem lt_escapeSymbol {frq : List (Nat × Nat)} (rise : frq.Pairwise fun c d => c.1 < d.1) :
    ∀ p ∈ frq, p.1 < escapeSymbol frq := by
  intro p hp
  obtain ⟨rest, last, rfl⟩ := List.eq_nil_or_concat frq |>.resolve_left (List.ne_nil_of_mem hp)
  rw [List.concat_eq_append] at hp rise ⊢
  rw [escapeSymbol, List.getLastD_eq_getLast?, List.getLast?_append]
  simp only [List.getLast?_singleton, Option.some_or, Option.getD_some]
  rcases List.mem_append.1 hp with hp | hp
  · exact Nat.lt_succ_of_lt ((List.pairwise_append.1 rise).2.2 p hp last (by simp))
  · cases List.mem_singleton.1 hp
    exact Nat.lt_succ_self _

theorem escapeSymbol_le {frq : List (Nat × Nat)} (h : FrequenciesWf frq) : escapeSymbol frq ≤ 65536 := by
  rw [escapeSymbol]
  cases hl : frq.getLast? with
  | none => simp [List.getLastD_eq_getLast?, hl]
  | some last =>
    have := h.range last (List.mem_of_getLast? hl)
    simp only [List.getLastD_eq_getLast?, hl, Option.getD_some]
    omega

theorem buildLengths_wf {frq lens : List (Nat × Nat)} (hf : FrequenciesWf frq) (hne : frq ≠ [])
    (h : buildLengths frq = .ok lens) : LengthsWf lens := by
  have := List.length_pos_iff.2 hne
  refine lengthsOf_wf (by simp; omega) (List.pairwise_append.2 ⟨hf.rise, by simp, fun p hp q hq => ?_⟩) ?_ h
  · cases List.mem_singleton.1 hq
    exact lt_escapeSymbol hf.rise p hp
  · intro p hp
    rcases List.mem_append.1 hp with hp | hp
    · exact Nat.lt_succ_of_lt (hf.range p hp)
    · cases List.mem_singleton.1 hp
      exact Nat.lt_succ_of_le (escapeSymbol_le hf)

/-- The encoder's code table is in the strict form, when there is a sample to encode. -/
theorem encodeSamples_codes_wf {xs : List Sample} {e : Encoded} (hne : xs ≠ []) (h : encodeSamples xs = .ok e) :
    CodeTable.wf e.codes = true := by
  unfold encodeSamples at h
  dsimp only at h
  split at h
  · cases h
  · rename_i lens hl
    cases h
    exact canonicalCodes_wf (buildLengths_wf (countFrequencies_wf xs) (countFrequencies_ne_nil hne) hl)

theorem encodeSamples_error {xs : List Sample} {e : ErrCode} (h : encodeSamples xs = .error e) :
    e = .codeLengthOverflow := by
  unfold encodeSamples at h
  dsimp only at h
  split at h
  · rename_i he
    cases h
    exact lengthsOf_error he
  · cases h

/-! ### The decoder's lengths and errors -/

theorem TableReader.get_error {rd : Nat → Bool} {k : Nat} {r : TableReader} {e : ErrCode} (h : r.get rd k = .error e) :
    e = .tableEnd ∨ e = .busError := by
  unfold TableReader.get at h
  split at h
  · cases h
  · split at h
    · cases h
      exact .inl rfl
    · split at h
      · cases h
        exact .inr rfl
      · cases h

theorem LengthsWf.cons {i l : Nat} {lens : List (Nat × Nat)} (h : LengthsWf lens) (hi : i < 65537) (pos : 0 < l)
    (max : l ≤ 58) (above : ∀ p ∈ lens, i < p.1) : LengthsWf ((i, l) :: lens) where
  rise := List.pairwise_cons.2 ⟨above, h.rise⟩
  range p hp := by
    rcases List.mem_cons.1 hp with rfl | hp
    · exact ⟨hi, pos, max⟩
    · exact h.range p hp

/-- The lengths that a packed table unpacks to from symbol `i` on (42_huffman_decode.md R303). -/
theorem unpackFrom_wf {rd : Nat → Bool} {iM fuel i q : Nat} {r : TableReader} {lens : List (Nat × Nat)} (hM : iM < 65537)
    (h : unpackFrom rd iM fuel i r = .ok (lens, q)) : LengthsWf lens ∧ ∀ p ∈ lens, i ≤ p.1 := by
  have empty : LengthsWf [] ∧ ∀ p ∈ ([] : List (Nat × Nat)), i ≤ p.1 := ⟨⟨List.Pairwise.nil, by simp⟩, by simp⟩
  induction fuel generalizing i r lens q with
  | zero =>
    cases h
    exact empty
  | succ fuel ih =>
    have later (j : Nat) (hj : i ≤ j) (r' : TableReader) (h : unpackFrom rd iM fuel j r' = .ok (lens, q)) :
        LengthsWf lens ∧ ∀ p ∈ lens, i ≤ p.1 :=
      (ih h ⟨empty.1, by simp⟩).imp_right fun above p hp => hj.trans (above p hp)
    rw [unpackFrom] at h
    split at h
    · cases h
      exact empty
    · rename_i hi
      split at h
      · cases h
      · split at h
        · split at h
          · cases h
          · split at h
            · exact later _ (by omega) _ h
            · cases h
        · split at h
          · split at h
            · exact later _ (by omega) _ h
            · cases h
          · rename_i l r' _ _ hl
            split at h
            · cases h
            · rename_i lens' q' hrest
              cases h
              obtain ⟨wf, above⟩ := ih hrest ⟨empty.1, by simp⟩
              simp only [Config.shortZerocodeRun] at hl
              split
              · exact ⟨wf, fun p hp => (above p hp).trans' (by omega)⟩
              · refine ⟨wf.cons (by omega) (by omega) (by omega) above, fun p hp => ?_⟩
                rcases List.mem_cons.1 hp with rfl | hp
                · exact le_refl i
                · exact (above p hp).trans' (by omega)

theorem unpackTable_wf {rd : Nat → Bool} {area : List Byte} {im iM q : Nat} {lens : List (Nat × Nat)} (hM : iM < 65537)
    (h : unpackTable rd area im iM = .ok (lens, q)) : LengthsWf lens :=
  (unpackFrom_wf hM h).1

/-- The errors of the unpacking of a table (42_huffman_decode.md R302, R303). -/
abbrev unpackErrors : List ErrCode := [.tableEnd, .tableTooLong, .busError]

theorem unpackFrom_error {rd : Nat → Bool} {iM fuel i : Nat} {r : TableReader} {e : ErrCode}
    (h : unpackFrom rd iM fuel i r = .error e) : e ∈ unpackErrors := by
  have fetch {k : Nat} {r : TableReader} (h : r.get rd k = .error e) : e ∈ unpackErrors := by
    obtain rfl | rfl := TableReader.get_error h <;> simp
  induction fuel generalizing i r with
  | zero => cases h
  | succ fuel ih =>
    rw [unpackFrom] at h
    split at h
    · cases h
    · split at h
      · rename_i he
        cases h
        exact fetch he
      · split at h
        · split at h
          · rename_i he
            cases h
            exact fetch he
          · split at h
            · exact ih h
            · cases h
              simp
        · split at h
          · split at h
            · exact ih h
            · cases h
              simp
          · split at h
            · rename_i he
              cases h
              exact ih he
            · cases h

/-- The errors of the decoding of a coded stream (42_huffman_decode.md R313 to R317). -/
abbrev streamErrors : List ErrCode := [.invalidCode, .tooMuchData, .notEnoughData, .busError]

theorem emit_error {rd wr : Nat → Nat → Bool} {iM no sym stop : Nat} {d : Decoding} {e : ErrCode}
    (h : emit rd wr iM no sym stop d = .error e) : e ∈ streamErrors := by
  unfold emit at h
  dsimp only at h
  split at h
  · split at h
    · cases h; simp
    · split at h
      · cases h; simp
      · split at h
        · cases h; simp
        · split at h
          · cases h; simp
          · split_ifs at h
            cases h; simp
  · split_ifs at h
    · cases h; simp
    · cases h; simp

theorem findLong_error {rd : Nat → Nat → Bool} {stop : Nat} {d : Decoding} {t : CodeTable} {e : ErrCode}
    (h : findLong rd stop d t = .error e) : e ∈ streamErrors := by
  induction t with
  | nil => cases h; simp
  | cons c rest ih =>
    rw [findLong] at h
    split_ifs at h
    · cases h; simp
    · exact ih h
    · exact ih h

theorem phase1Step_error {rd wr : Nat → Nat → Bool} {placed : CodeTable} {iM no stop : Nat} {d : Decoding}
    {e : ErrCode} (h : phase1Step rd wr placed iM no stop d = .error e) : e ∈ streamErrors := by
  unfold phase1Step at h
  dsimp only at h
  split at h
  · cases h; simp
  · split at h
    · exact emit_error h
    · split at h
      · rename_i he
        cases h
        exact findLong_error he
      · exact emit_error h

theorem phase1_error {rd wr : Nat → Nat → Bool} {placed : CodeTable} {iM no stop fuel : Nat} {d : Decoding}
    {e : ErrCode} (h : phase1 rd wr placed iM no stop fuel d = .error e) : e ∈ streamErrors := by
  induction fuel generalizing d with
  | zero => cases h
  | succ fuel ih =>
    rw [phase1] at h
    split at h
    · split at h
      · rename_i he
        cases h
        exact phase1Step_error he
      · exact ih h
    · cases h

theorem phase2Step_error {rd wr : Nat → Nat → Bool} {placed : CodeTable} {iM no nBits : Nat} {d : Decoding}
    {e : ErrCode} (h : phase2Step rd wr placed iM no nBits d = .error e) : e ∈ streamErrors := by
  unfold phase2Step at h
  dsimp only at h
  split at h
  · cases h; simp
  · split at h
    · split at h
      · exact emit_error h
      · cases h; simp
    · cases h; simp

theorem phase2_error {rd wr : Nat → Nat → Bool} {placed : CodeTable} {iM no nBits fuel : Nat} {d : Decoding}
    {e : ErrCode} (h : phase2 rd wr placed iM no nBits fuel d = .error e) : e ∈ streamErrors := by
  induction fuel generalizing d with
  | zero => cases h
  | succ fuel ih =>
    rw [phase2] at h
    split at h
    · split at h
      · rename_i he
        cases h
        exact phase2Step_error he
      · exact ih h
    · cases h

theorem decodeStream_error {rd wr : Nat → Nat → Bool} {placed : CodeTable} {iM no nBits : Nat} {stream : Bits}
    {e : ErrCode} (h : decodeStream rd wr placed iM no nBits stream = .error e) : e ∈ streamErrors := by
  unfold decodeStream at h
  split at h
  · rename_i he
    cases h
    exact phase1_error he
  · split at h
    · cases h; simp
    · split at h
      · rename_i he
        cases h
        exact phase2_error he
      · split at h
        · cases h
        · cases h; simp

end Sys2Proof.Machine
end

section
/-! SUPPORT. Two runs of a data phase side by side: what they end with from states that agree on memory, the platform and the
latched operands. Runs from the same state say what a data phase keeps; runs from states that differ in a register or a
table say that the data phase does not look there. -/

namespace Sys2Proof.Machine

/-! ### Answers -/

/-- Every value that the data phase can answer has the property. -/
def Run.Returns {α : Type} (Q : α → Prop) (x : Run α) : Prop := ∀ s a s', x s = .ok a s' → Q a

theorem returns_pure {α : Type} {Q : α → Prop} {a : α} (h : Q a) : Run.Returns Q (pure a) := by
  intro s b s' hb
  cases hb
  exact h

theorem returns_bind {α β : Type} {Q : β → Prop} {x : Run α} {f : α → Run β} (h : ∀ a, Run.Returns Q (f a)) :
    Run.Returns Q (x >>= f) := by
  intro s b s' hb
  obtain ⟨a, s1, -, h1⟩ := Run.bind_ok hb
  exact h a s1 b s' h1

theorem returns_raiseClean {α : Type} {Q : α → Prop} (e : ErrCode) : Run.Returns Q (raiseClean e) := by
  intro s b s' hb
  cases hb

theorem returns_require (c : Bool) (e : ErrCode) : Run.Returns (fun _ => c = true) (require c e) := by
  intro s b s' hb
  rw [require_eq] at hb
  split at hb
  · assumption
  · cases hb

theorem returns_ofExcept {α : Type} (v : Except ErrCode α) : Run.Returns (fun a => v = .ok a) (ofExcept v) := by
  intro s b s' hb
  cases v <;> cases hb
  rfl

theorem samplesOfBytes_length (n : Nat) {bs : List Byte} (h : bs.length = 2 * n) : (samplesOfBytes bs).length = n := by
  induction n generalizing bs with
  | zero => rw [List.length_eq_zero_iff.1 h]; rfl
  | succ n ih =>
    match bs with
    | [] => simp at h
    | [_] => simp at h; omega
    | lo :: hi :: rest => exact congrArg (· + 1) (ih (by simp at h; omega))

theorem returns_readSamples (a n : Nat) : Run.Returns (fun xs => xs.length = n) (readSamples a n) := by
  intro s xs s' h
  rw [readSamples_eq] at h
  split at h
  · cases h
  · cases h
    exact samplesOfBytes_length n (Memory.bytes_length ..)

/-! ### Two runs -/

/-- Two runs end alike: with one answer, or one raise whose code is allowed, in states that are related. -/
inductive Run.EndsAlike {α : Type} (S : State → State → Prop) (E : ErrCode → Prop) :
    EStateM.Result Raise State α → EStateM.Result Raise State α → Prop
  | ok {a : α} {s t : State} (states : S s t) : EndsAlike S E (.ok a s) (.ok a t)
  | error {e : Raise} {s t : State} (states : S s t) (code : E e.code) : EndsAlike S E (.error e s) (.error e t)

/-- Two runs of the data phase from related states end alike. -/
def Run.Agrees {α : Type} (S : State → State → Prop) (E : ErrCode → Prop) (x : Run α) : Prop :=
  ∀ s t, S s t → Run.EndsAlike S E (x s) (x t)

/-- The codes that a data phase can raise once its tables are there: none that the checks before it answer only. -/
def dataCodes : List ErrCode :=
  [.badParam, .busError, .dstOverflow, .invalidTableSize, .tableEnd, .tableTooLong, .invalidTableEntry, .invalidCode,
    .tooMuchData, .notEnoughData, .invalidNbits, .bitmapSize, .pizLength, .codeLengthOverflow]

/-- A relation between states that agree on what a DMA access and the command see, that a DMA write keeps; and codes among
which are all that a data phase can raise. -/
structure SideBySide (S : State → State → Prop) (E : ErrCode → Prop) : Prop where
  mem : ∀ {s t}, S s t → t.mem = s.mem
  platform : ∀ {s t}, S s t → t.platform = s.platform
  latched : ∀ {s t}, S s t → t.latched = s.latched
  fresh : ∀ {s t}, S s t → t.fresh = s.fresh
  write : ∀ {s t}, S s t → ∀ a bs, S (s.withMem (s.mem.write a bs)) (t.withMem (s.mem.write a bs))
  codes : ∀ e ∈ dataCodes, E e

theorem unpackErrors_subset : unpackErrors ⊆ dataCodes := by decide

theorem streamErrors_subset : streamErrors ⊆ dataCodes := by decide

/-- The relation is kept by a new BITMAP. -/
def TakesBitmap (S : State → State → Prop) : Prop := ∀ s t b, S s t → S (s.withBitmap b) (t.withBitmap b)

/-- The relation is kept by a new LUT in its strict form. -/
def TakesLut (S : State → State → Prop) : Prop :=
  ∀ s t k l, Lut.wf l = true → S s t → S (s.withLut k l) (t.withLut k l)

/-- The relation is kept by a new code table in its strict form. -/
def TakesCodes (S : State → State → Prop) : Prop :=
  ∀ s t c, CodeTable.wf c = true → S s t → S (s.withCodes c) (t.withCodes c)

section
variable {S : State → State → Prop} {E : ErrCode → Prop}

theorem agrees_pure {α : Type} (a : α) : Run.Agrees S E (pure a) := fun _ _ h => .ok h

theorem agrees_modify (f : State → State) (hf : ∀ s t, S s t → S (f s) (f t)) :
    Run.Agrees S E (modify f : Run Unit) := fun s t h => .ok (hf s t h)

/-- A sequence of parts that agree agrees; the second part only for what the first can answer. -/
theorem agrees_bind_returns {α β : Type} {Q : α → Prop} {x : Run α} {f : α → Run β} (hx : Run.Agrees S E x)
    (hq : Run.Returns Q x) (hf : ∀ a, Q a → Run.Agrees S E (f a)) : Run.Agrees S E (x >>= f) := by
  intro s t h
  have first := hx s t h
  rw [Run.bind_eq, Run.bind_eq]
  cases hs : x s <;> cases ht : x t <;> rw [hs, ht] at first <;> cases first
  case ok.ok.ok a s1 t1 states => exact hf a (hq s a s1 hs) s1 t1 states
  case error.error.error code states => exact .error states code

theorem agrees_bind {α β : Type} {x : Run α} {f : α → Run β} (hx : Run.Agrees S E x)
    (hf : ∀ a, Run.Agrees S E (f a)) : Run.Agrees S E (x >>= f) :=
  agrees_bind_returns (Q := fun _ => True) hx (fun _ _ _ _ => trivial) fun a _ => hf a

/-- A part that looks at the state and goes on in the same way from related states. -/
theorem agrees_get_bind {β : Type} {f : State → Run β} (look : ∀ s t, S s t → f t = f s)
    (hf : ∀ s, Run.Agrees S E (f s)) : Run.Agrees S E (get >>= f) := by
  intro s t h
  show Run.EndsAlike S E (f s s) (f t t)
  rw [look s t h]
  exact hf s s t h

theorem agrees_forUpTo (n : Nat) (f : Nat → Run Unit) (hf : ∀ k, Run.Agrees S E (f k)) :
    Run.Agrees S E (forUpTo n f) := by
  induction n with
  | zero => exact agrees_pure _
  | succ n ih => exact agrees_bind ih fun _ => hf n

theorem agrees_forEach {α : Type} (l : List α) (f : α → Run Unit) (hf : ∀ a, Run.Agrees S E (f a)) :
    Run.Agrees S E (forEach l f) := by
  induction l with
  | nil => exact agrees_pure _
  | cons a rest ih => exact agrees_bind (hf a) fun _ => ih

/-- The BITMAP a command works from, where the two states hold the same. -/
theorem agrees_getBitmap (same : ∀ s t, S s t → t.bitmap = s.bitmap)
    (valid : E .noTable ∨ ∀ s t, S s t → s.bitmap ≠ none) :
    Run.Agrees S E getBitmap := by
  intro s t h
  unfold getBitmap
  rw [same s t h]
  cases hb : s.bitmap with
  | some b => exact .ok h
  | none => exact .error h (valid.resolve_right fun v => v s t h hb)

theorem agrees_getLut (same : ∀ s t, S s t → t.lut = s.lut) (valid : E .noTable ∨ ∀ s t, S s t → s.lut ≠ none) :
    Run.Agrees S E getLut := by
  intro s t h
  unfold getLut
  rw [same s t h]
  cases hb : s.lut with
  | some b => exact .ok h
  | none => exact .error h (valid.resolve_right fun v => v s t h hb)

theorem agrees_getCodes (same : ∀ s t, S s t → t.codes = s.codes) (valid : E .noTable ∨ ∀ s t, S s t → s.codes ≠ none) :
    Run.Agrees S E getCodes := by
  intro s t h
  unfold getCodes
  rw [same s t h]
  cases hb : s.codes with
  | some b => exact .ok h
  | none => exact .error h (valid.resolve_right fun v => v s t h hb)

theorem agrees_ofExcept {α : Type} (v : Except ErrCode α) (hv : ∀ e, v = .error e → E e) :
    Run.Agrees S E (ofExcept v) := by
  intro s t h
  cases v with
  | ok a => exact .ok h
  | error e => exact .error h (hv e rfl)

variable (hS : SideBySide S E)
include hS

theorem agrees_raise {α : Type} {e : ErrCode} (he : e ∈ dataCodes) : Run.Agrees S E (raise e : Run α) :=
  fun _ _ h => .error h (hS.codes e he)

theorem agrees_raiseClean {α : Type} {e : ErrCode} (he : e ∈ dataCodes) : Run.Agrees S E (raiseClean e : Run α) :=
  fun _ _ h => .error h (hS.codes e he)

theorem agrees_require (c : Bool) {e : ErrCode} (he : e ∈ dataCodes) : Run.Agrees S E (require c e) := by
  unfold require
  split
  · exact agrees_pure _
  · exact agrees_raise hS he

theorem SideBySide.readFails {s t : State} (h : S s t) (a n : Nat) : t.readFails a n = s.readFails a n := by
  rw [State.readFails, State.readFails, hS.platform h]

theorem SideBySide.writeFails {s t : State} (h : S s t) (a n : Nat) : t.writeFails a n = s.writeFails a n := by
  rw [State.writeFails, State.writeFails, hS.platform h]

theorem SideBySide.bitsFail {s t : State} (h : S s t) : t.bitsFail = s.bitsFail :=
  funext fun _ => funext fun _ => funext fun _ => hS.readFails h _ _

theorem agrees_dmaRead (a n : Nat) : Run.Agrees S E (dmaRead a n) := by
  intro s t h
  rw [dmaRead_eq, dmaRead_eq, hS.readFails h, hS.mem h]
  split
  · exact .error h (hS.codes _ (by decide))
  · exact .ok h

theorem agrees_dmaWrite (a : Nat) (bs : List Byte) : Run.Agrees S E (dmaWrite a bs) := by
  intro s t h
  rw [dmaWrite_eq, dmaWrite_eq, hS.writeFails h, hS.mem h]
  split
  · exact .error h (hS.codes _ (by decide))
  · exact .ok (hS.write h a bs)

theorem agrees_rdLe (a n : Nat) : Run.Agrees S E (rdLe a n) :=
  agrees_bind (agrees_dmaRead hS a n) fun _ => agrees_pure _

theorem agrees_rd16 (a : Nat) : Run.Agrees S E (rd16 a) := agrees_bind (agrees_dmaRead hS a 2) fun _ => agrees_pure _

theorem agrees_readSamples (a n : Nat) : Run.Agrees S E (readSamples a n) :=
  agrees_bind (agrees_dmaRead hS _ _) fun _ => agrees_pure _

theorem agrees_bitmapFromSamples (a n : Nat) : Run.Agrees S E (bitmapFromSamples a n) :=
  agrees_bind (agrees_readSamples hS a n) fun _ => agrees_pure _

theorem agrees_bitmapLoad (a n : Nat) : Run.Agrees S E (bitmapLoad a n) := by
  refine agrees_bind (agrees_require hS _ (by decide)) fun _ => agrees_bind (agrees_rdLe hS _ _) fun _ =>
    agrees_bind (agrees_rdLe hS _ _) fun _ => agrees_bind (agrees_require hS _ (by decide)) fun _ => ?_
  split
  · exact agrees_bind (agrees_require hS _ (by decide)) fun _ => agrees_bind (agrees_dmaRead hS _ _) fun _ =>
      agrees_pure _
  · exact agrees_pure _

theorem agrees_applyLut (t : Lut) (a n : Nat) : Run.Agrees S E (applyLut t a n) :=
  agrees_bind (agrees_readSamples hS a n) fun _ => agrees_dmaWrite hS _ _

/-! ### The wavelet -/

theorem agrees_pairStep (f : Sample → Sample → Sample × Sample) (i j : Nat) : Run.Agrees S E (pairStep f i j) :=
  agrees_bind (agrees_rd16 hS _) fun _ => agrees_bind (agrees_rd16 hS _) fun _ =>
    agrees_bind (agrees_dmaWrite hS _ _) fun _ => agrees_dmaWrite hS _ _

/-- Four samples read and then written: the shape of a 2x2 box, in either direction. -/
theorem agrees_box (i j k l : Nat) (at0 at1 at2 at3 : Nat) (v : Sample → Sample → Sample → Sample → Fin 4 → Sample) :
    Run.Agrees S E (do
      let a ← rd16 i
      let b ← rd16 j
      let c ← rd16 k
      let d ← rd16 l
      wr16 at0 (v a b c d 0)
      wr16 at1 (v a b c d 1)
      wr16 at2 (v a b c d 2)
      wr16 at3 (v a b c d 3)) :=
  agrees_bind (agrees_rd16 hS _) fun _ => agrees_bind (agrees_rd16 hS _) fun _ =>
    agrees_bind (agrees_rd16 hS _) fun _ => agrees_bind (agrees_rd16 hS _) fun _ =>
      agrees_bind (agrees_dmaWrite hS _ _) fun _ => agrees_bind (agrees_dmaWrite hS _ _) fun _ =>
        agrees_bind (agrees_dmaWrite hS _ _) fun _ => agrees_dmaWrite hS _ _

theorem agrees_encBox (f : Sample → Sample → Sample × Sample) (g : Grid) (p x y : Nat) :
    Run.Agrees S E (encBox f g p x y) :=
  agrees_box hS _ _ _ _ _ _ _ _ fun a b c d =>
    ![(f (f a b).1 (f c d).1).1, (f (f a b).1 (f c d).1).2, (f (f a b).2 (f c d).2).1, (f (f a b).2 (f c d).2).2]

theorem agrees_decBox (f : Sample → Sample → Sample × Sample) (g : Grid) (p x y : Nat) :
    Run.Agrees S E (decBox f g p x y) :=
  agrees_box hS _ _ _ _ _ _ _ _ fun a b c d =>
    ![(f (f a b).1 (f c d).1).1, (f (f a b).1 (f c d).1).2, (f (f a b).2 (f c d).2).1, (f (f a b).2 (f c d).2).2]

theorem agrees_levelPass (f : Sample → Sample → Sample × Sample) (box : Nat → Nat → Run Unit) (g : Grid) (p : Nat)
    (hb : ∀ x y, Run.Agrees S E (box x y)) : Run.Agrees S E (levelPass f box g p) := by
  refine agrees_bind (agrees_forUpTo _ _ fun _ => agrees_bind (agrees_forUpTo _ _ fun _ => hb _ _) fun _ => ?_)
    fun _ => ?_
  · split
    · exact agrees_pairStep hS _ _ _
    · exact agrees_pure _
  · split
    · exact agrees_forUpTo _ _ fun _ => agrees_pairStep hS _ _ _
    · exact agrees_pure _

theorem agrees_wavEncode2D (m : Nat) (g : Grid) : Run.Agrees S E (wavEncode2D m g) :=
  agrees_forEach _ _ fun _ => agrees_levelPass hS _ _ _ _ fun _ _ => agrees_encBox hS _ _ _ _ _

theorem agrees_wavDecode2D (m : Nat) (g : Grid) : Run.Agrees S E (wavDecode2D m g) :=
  agrees_forEach _ _ fun _ => agrees_levelPass hS _ _ _ _ fun _ _ => agrees_decBox hS _ _ _ _ _

/-! ### The Huffman coders and the PIZ sequencer -/

theorem agrees_hufCompress (tables : TakesCodes S) (a n d cap : Nat) : Run.Agrees S E (hufCompress a n d cap) := by
  unfold hufCompress
  split
  · exact agrees_pure _
  · rename_i hn
    refine agrees_bind_returns (agrees_readSamples hS _ _) (returns_readSamples _ _) fun xs hxs =>
      agrees_bind_returns (agrees_ofExcept _ fun e he => ?_) (returns_ofExcept _) fun e he =>
        agrees_bind (agrees_modify _ fun s t => tables s t _ ?_) fun _ =>
          agrees_bind (agrees_require hS _ (by decide)) fun _ =>
            agrees_bind (agrees_require hS _ (by decide)) fun _ => agrees_bind (agrees_dmaWrite hS _ _) fun _ =>
              agrees_pure _
    · exact hS.codes e (by rw [encodeSamples_error he]; decide)
    · exact encodeSamples_codes_wf (List.length_pos_iff.1 (by omega)) he

theorem agrees_buildStage (tables : TakesCodes S) {c : CodeTable} (hc : CodeTable.wf c = true) :
    Run.Agrees S E (buildStage c) := by
  intro s t h
  rw [buildStage_eq, buildStage_eq, hS.fresh h]
  split
  · exact .ok h
  · exact .error (tables _ _ _ (freeFailing_wf _ _ hc) h) (hS.codes _ (by decide))

theorem agrees_hufUncompress (tables : TakesCodes S) (a n d no : Nat) : Run.Agrees S E (hufUncompress a n d no) := by
  unfold hufUncompress
  split
  · exact agrees_bind (agrees_require hS _ (by decide)) fun _ => agrees_pure _
  · refine agrees_bind (agrees_rdLe hS _ _) fun im => agrees_bind (agrees_rdLe hS _ _) fun iM =>
      agrees_bind (agrees_rdLe hS _ _) fun nBits =>
        agrees_bind_returns (agrees_require hS _ (by decide)) (returns_require _ _) fun _ bounds =>
          agrees_bind (agrees_require hS _ (by decide)) fun _ => agrees_get_bind (fun s t h => ?_) fun s => ?_
    · simp only [hS.mem h, hS.readFails h, hS.writeFails h, hS.bitsFail h]
    · simp only [Bool.and_eq_true, decide_eq_true_eq] at bounds
      refine agrees_bind_returns (agrees_ofExcept _ fun e he => hS.codes e (unpackErrors_subset (unpackFrom_error he)))
        (returns_ofExcept _) fun p hp => ?_
      have wf := canonicalCodes_wf (unpackTable_wf bounds.2 hp)
      refine agrees_bind (agrees_modify _ fun s t => tables s t _ wf) fun _ =>
        agrees_bind (agrees_require hS _ (by decide)) fun _ => agrees_bind (agrees_buildStage hS tables wf) fun _ =>
          agrees_bind (agrees_ofExcept _ fun e he => hS.codes e (streamErrors_subset (decodeStream_error he))) fun xs =>
            agrees_bind (agrees_modify _ fun s t h => ?_) fun _ => agrees_pure _
      rw [hS.mem h]
      exact hS.write h _ _

theorem agrees_readDescriptors (a count n : Nat) : Run.Agrees S E (readDescriptors a count n) := by
  refine agrees_bind (agrees_dmaRead hS _ _) fun _ => ?_
  dsimp only
  split
  · exact agrees_pure _
  · exact agrees_raiseClean hS (by decide)

end

/-- PIZ_COMPRESS once its descriptors are read and BITMAP and the LUT are built (44_piz.md R394). -/
def pizCompressBuilt (a n d cap : Nat) (ds : List Desc) (b : Bitmap) : Run PizInfo := do
  let m := b.minMaxNonZero
  applyLut b.forwardLut a n
  forEach (planes a ds) (wavEncode2D b.maxValue)
  let size := sliceSize m.1 m.2
  require (8 + size ≤ cap) .dstOverflow
  dmaWrite d (b.block m.1 m.2)
  let h ← hufCompress a n (d + 8 + size) (cap - 8 - size)
  require (h.count ≤ 2147483647) .dstOverflow
  dmaWrite (d + 4 + size) (leBytes 4 h.count)
  pure { count := 8 + size + h.count, mn := m.1, mx := m.2, maxValue := b.maxValue, huf := h }

theorem pizCompress_eq (a n d cap aux count : Nat) :
    pizCompress a n d cap aux count = (do
      let ds ← readDescriptors aux count n
      let b ← bitmapFromSamples a n
      modify (·.withBitmap b)
      modify (·.withLut .forward b.forwardLut)
      pizCompressBuilt a n d cap ds b) := rfl

/-- PIZ_UNCOMPRESS once its descriptors and its bitmap block are read and BITMAP and the LUT are built (44_piz.md R396). -/
def pizUncompressBuilt (a len d n : Nat) (ds : List Desc) (b : Bitmap) (p mn mx : Nat) : Run PizInfo := do
  require (p + 4 ≤ len) .notEnoughData
  let w ← rdLe (a + p) 4
  require (0 ≤ s32 w && s32 w ≤ ((len - (p + 4) : Nat) : Int)) .pizLength
  let h ← hufUncompress (a + p + 4) (s32 w).toNat d n
  forEach (planes d ds) (wavDecode2D b.maxValue)
  applyLut b.reverseLut d n
  pure { count := p + 4 + (s32 w).toNat, mn := mn, mx := mx, maxValue := b.maxValue, huf := h }

theorem pizUncompress_eq (a len d n aux count : Nat) :
    pizUncompress a len d n aux count = (do
      let ds ← readDescriptors aux count n
      let (b, p, mn, mx) ← bitmapLoad a len
      modify (·.withBitmap b)
      modify (·.withLut .reverse b.reverseLut)
      pizUncompressBuilt a len d n ds b p mn mx) := rfl

section
variable {S : State → State → Prop} {E : ErrCode → Prop} (hS : SideBySide S E)
include hS

theorem agrees_pizCompressBuilt (tables : TakesCodes S) (a n d cap : Nat) (ds : List Desc) (b : Bitmap) :
    Run.Agrees S E (pizCompressBuilt a n d cap ds b) :=
  agrees_bind (agrees_applyLut hS _ _ _) fun _ =>
    agrees_bind (agrees_forEach _ _ fun _ => agrees_wavEncode2D hS _ _) fun _ =>
      agrees_bind (agrees_require hS _ (by decide)) fun _ => agrees_bind (agrees_dmaWrite hS _ _) fun _ =>
        agrees_bind (agrees_hufCompress hS tables _ _ _ _) fun _ =>
          agrees_bind (agrees_require hS _ (by decide)) fun _ => agrees_bind (agrees_dmaWrite hS _ _) fun _ =>
            agrees_pure _

theorem agrees_pizUncompressBuilt (tables : TakesCodes S) (a len d n : Nat) (ds : List Desc) (b : Bitmap)
    (p mn mx : Nat) : Run.Agrees S E (pizUncompressBuilt a len d n ds b p mn mx) :=
  agrees_bind (agrees_require hS _ (by decide)) fun _ => agrees_bind (agrees_rdLe hS _ _) fun _ =>
    agrees_bind (agrees_require hS _ (by decide)) fun _ =>
      agrees_bind (agrees_hufUncompress hS tables _ _ _ _) fun _ =>
        agrees_bind (agrees_forEach _ _ fun _ => agrees_wavDecode2D hS _ _) fun _ =>
          agrees_bind (agrees_applyLut hS _ _ _) fun _ => agrees_pure _

theorem agrees_pizCompress (hb : TakesBitmap S) (hl : TakesLut S) (hc : TakesCodes S) (a n d cap aux count : Nat) :
    Run.Agrees S E (pizCompress a n d cap aux count) :=
  agrees_bind (agrees_readDescriptors hS _ _ _) fun _ => agrees_bind (agrees_bitmapFromSamples hS _ _) fun b =>
    agrees_bind (agrees_modify _ fun s t => hb s t b) fun _ =>
      agrees_bind (agrees_modify _ fun s t => hl s t _ _ b.forwardLut_wf) fun _ =>
        agrees_pizCompressBuilt hS hc _ _ _ _ _ b

theorem agrees_pizUncompress (hb : TakesBitmap S) (hl : TakesLut S) (hc : TakesCodes S) (a len d n aux count : Nat) :
    Run.Agrees S E (pizUncompress a len d n aux count) :=
  agrees_bind (agrees_readDescriptors hS _ _ _) fun _ => agrees_bind (agrees_bitmapLoad hS _ _) fun r =>
    agrees_bind (agrees_modify _ fun s t => hb s t r.1) fun _ =>
      agrees_bind (agrees_modify _ fun s t => hl s t _ _ r.1.reverseLut_wf) fun _ =>
        agrees_pizUncompressBuilt hS hc _ _ _ _ _ r.1 _ _ _

/-- A part that looks at the latched operands and goes on. -/
theorem agrees_operands {f : State → Run Results} (look : ∀ s t : State, t.latched = s.latched → f t = f s)
    (hf : ∀ s, Run.Agrees S E (f s)) : Run.Agrees S E (get >>= f) :=
  agrees_get_bind (fun s t h => look s t (hS.latched h)) hf

end

/-! ### Commands -/

/-- A relation that the data phase of the command keeps: a table that the command's rule writes may be written, one that it
requires is the same in both states, and valid unless NO_TABLE is an allowed code (10_state.md R60 to R65). -/
structure CommandSideBySide (i : Instr) (S : State → State → Prop) (E : ErrCode → Prop) : Prop
    extends SideBySide S E where
  takesBitmap : .bitmap ∈ tablesWritten i → TakesBitmap S
  takesLut : .lut ∈ tablesWritten i → TakesLut S
  takesCodes : .codes ∈ tablesWritten i → TakesCodes S
  sameBitmap : .bitmap ∈ tablesRequired i → ∀ s t, S s t → t.bitmap = s.bitmap
  sameLut : .lut ∈ tablesRequired i → ∀ s t, S s t → t.lut = s.lut
  sameCodes : .codes ∈ tablesRequired i → ∀ s t, S s t → t.codes = s.codes
  valid : E .noTable ∨ ∀ T ∈ tablesRequired i, ∀ s t, S s t → s.tableValid T = true

section
variable {i : Instr} {S : State → State → Prop} {E : ErrCode → Prop} (hS : CommandSideBySide i S E)
include hS

theorem agrees_requiredBitmap (h : .bitmap ∈ tablesRequired i) : Run.Agrees S E getBitmap :=
  agrees_getBitmap (hS.sameBitmap h) (hS.valid.imp_right fun valid s t hst hn => by
    simpa [State.tableValid, hn] using valid _ h s t hst)

theorem agrees_requiredLut (h : .lut ∈ tablesRequired i) : Run.Agrees S E getLut :=
  agrees_getLut (hS.sameLut h) (hS.valid.imp_right fun valid s t hst hn => by
    simpa [State.tableValid, hn] using valid _ h s t hst)

theorem agrees_requiredCodes (h : .codes ∈ tablesRequired i) : Run.Agrees S E getCodes :=
  agrees_getCodes (hS.sameCodes h) (hS.valid.imp_right fun valid s t hst hn => by
    simpa [State.tableValid, hn] using valid _ h s t hst)

/-- Two runs of a command's data phase from related states end alike. -/
theorem agrees_dataPhase : Run.Agrees S E (dataPhase i) := by
  have base := hS.toSideBySide
  cases i with
  | nop => exact agrees_pure _
  | lutBitmapFromData =>
    exact agrees_operands base (fun _ _ h => by rw [h]) fun _ =>
      agrees_bind (agrees_bitmapFromSamples base _ _) fun b =>
      agrees_bind (agrees_modify _ fun s t => hS.takesBitmap (by decide) s t b) fun _ => agrees_pure _
  | lutBitmapLoad =>
    exact agrees_operands base (fun _ _ h => by rw [h]) fun _ => agrees_bind (agrees_bitmapLoad base _ _) fun r =>
      agrees_bind (agrees_modify _ fun s t => hS.takesBitmap (by decide) s t r.1) fun _ => agrees_pure _
  | lutBitmapStore =>
    refine agrees_operands base (fun _ _ h => by rw [h]) fun _ =>
      agrees_bind (agrees_requiredBitmap hS (by decide)) fun _ => ?_
    dsimp only
    split
    · exact agrees_bind (agrees_dmaWrite base _ _) fun _ => agrees_pure _
    · exact agrees_raiseClean base (by decide)
  | lutBuildForward =>
    exact agrees_bind (agrees_requiredBitmap hS (by decide)) fun b =>
      agrees_bind (agrees_modify _ fun s t => hS.takesLut (by decide) s t _ _ b.forwardLut_wf) fun _ => agrees_pure _
  | lutBuildReverse =>
    exact agrees_bind (agrees_requiredBitmap hS (by decide)) fun b =>
      agrees_bind (agrees_modify _ fun s t => hS.takesLut (by decide) s t _ _ b.reverseLut_wf) fun _ => agrees_pure _
  | lutApply =>
    exact agrees_operands base (fun _ _ h => by rw [h]) fun _ =>
      agrees_bind (agrees_requiredLut hS (by decide)) fun _ =>
      agrees_bind (agrees_applyLut base _ _ _) fun _ => agrees_pure _
  | lutDump =>
    exact agrees_operands base (fun _ _ h => by rw [h]) fun _ =>
      agrees_bind (agrees_requiredLut hS (by decide)) fun _ =>
      agrees_bind (agrees_dmaWrite base _ _) fun _ => agrees_pure _
  | wavEncode =>
    exact agrees_operands base (fun _ _ h => by rw [h]) fun _ =>
      agrees_bind (agrees_wavEncode2D base _ _) fun _ => agrees_pure _
  | wavDecode =>
    exact agrees_operands base (fun _ _ h => by rw [h]) fun _ =>
      agrees_bind (agrees_wavDecode2D base _ _) fun _ => agrees_pure _
  | hufCompress =>
    exact agrees_operands base (fun _ _ h => by rw [h]) fun _ =>
      agrees_bind (agrees_hufCompress base (hS.takesCodes (by decide)) _ _ _ _) fun _ => agrees_pure _
  | hufUncompress =>
    exact agrees_operands base (fun _ _ h => by rw [h]) fun _ =>
      agrees_bind (agrees_hufUncompress base (hS.takesCodes (by decide)) _ _ _ _) fun _ => agrees_pure _
  | hufDumpCodes =>
    exact agrees_operands base (fun _ _ h => by rw [h]) fun _ =>
      agrees_bind (agrees_requiredCodes hS (by decide)) fun _ =>
      agrees_bind (agrees_dmaWrite base _ _) fun _ => agrees_pure _
  | pizCompress =>
    exact agrees_operands base (fun _ _ h => by rw [h]) fun _ =>
      agrees_bind (agrees_pizCompress base (hS.takesBitmap (by decide))
      (hS.takesLut (by decide)) (hS.takesCodes (by decide)) _ _ _ _ _ _) fun _ => agrees_pure _
  | pizUncompress =>
    exact agrees_operands base (fun _ _ h => by rw [h]) fun _ =>
      agrees_bind (agrees_pizUncompress base (hS.takesBitmap (by decide))
      (hS.takesLut (by decide)) (hS.takesCodes (by decide)) _ _ _ _ _ _) fun _ => agrees_pure _

end

end Sys2Proof.Machine
end

section
/-! SUPPORT and the proof of O59: what a command keeps, and that every step keeps the invariant. -/

namespace Sys2Proof.Machine

/-! ### What a command keeps -/

/-- Two runs from one state, of which something is known. -/
def Alone (P : State → Prop) : State → State → Prop := fun s t => t = s ∧ P s

/-- A property of the state that every DMA write keeps, and every table in its strict form that the command's rule writes. -/
structure DataInvariant (i : Instr) (P : State → Prop) : Prop where
  write : ∀ s a bs, P s → P (s.withMem (s.mem.write a bs))
  bitmap : .bitmap ∈ tablesWritten i → ∀ s b, P s → P (s.withBitmap b)
  lut : .lut ∈ tablesWritten i → ∀ s k l, Lut.wf l = true → P s → P (s.withLut k l)
  codes : .codes ∈ tablesWritten i → ∀ s c, CodeTable.wf c = true → P s → P (s.withCodes c)

section
variable {i : Instr} {P : State → Prop} {E : ErrCode → Prop}

theorem DataInvariant.commandSideBySide (hP : DataInvariant i P) (codes : ∀ e ∈ dataCodes, E e)
    (valid : E .noTable ∨ ∀ T ∈ tablesRequired i, ∀ s, P s → s.tableValid T = true) :
    CommandSideBySide i (Alone P) E where
  mem h := h.1 ▸ rfl
  platform h := h.1 ▸ rfl
  latched h := h.1 ▸ rfl
  fresh h := h.1 ▸ rfl
  write h a bs := ⟨h.1 ▸ rfl, hP.write _ a bs h.2⟩
  codes := codes
  takesBitmap hi s _ b h := ⟨h.1 ▸ rfl, hP.bitmap hi s b h.2⟩
  takesLut hi s _ k l hl h := ⟨h.1 ▸ rfl, hP.lut hi s k l hl h.2⟩
  takesCodes hi s _ c hc h := ⟨h.1 ▸ rfl, hP.codes hi s c hc h.2⟩
  sameBitmap _ _ _ h := h.1 ▸ rfl
  sameLut _ _ _ h := h.1 ▸ rfl
  sameCodes _ _ _ h := h.1 ▸ rfl
  valid := valid.imp_right fun v T hT s _ h => v T hT s h.2

/-- What a run from one state answers in. -/
theorem Run.Agrees.ok {α : Type} {x : Run α} (hx : Run.Agrees (Alone P) E x) {s s' : State} {a : α} (hs : P s)
    (h : x s = .ok a s') : P s' := by
  have ends := hx s s ⟨rfl, hs⟩
  rw [h] at ends
  cases ends with
  | ok states => exact states.2

/-- What a run from one state raises in, and which code. -/
theorem Run.Agrees.error {α : Type} {x : Run α} (hx : Run.Agrees (Alone P) E x) {s s' : State} {e : Raise} (hs : P s)
    (h : x s = .error e s') : P s' ∧ E e.code := by
  have ends := hx s s ⟨rfl, hs⟩
  rw [h] at ends
  cases ends with
  | error states code => exact ⟨states.2, code⟩

/-- A data phase keeps its invariants. -/
theorem DataInvariant.agrees (hP : DataInvariant i P) : Run.Agrees (Alone P) (fun _ => True) (dataPhase i) :=
  agrees_dataPhase (hP.commandSideBySide (fun _ _ => trivial) (.inl trivial))

/-- Freeing regions is a number of writes. -/
theorem DataInvariant.forgetRegions (hP : DataInvariant i P) (tick : Nat) (rs : List Region) {s : State} (hs : P s) :
    P (s.withMem (forgetRegions s.mem tick rs)) := by
  induction rs generalizing s with
  | nil => exact hs
  | cons r rest ih =>
    rw [Machine.forgetRegions]
    split
    · exact ih (hP.write s _ _ hs)
    · exact ih hs

/-- What holds through the data phase, its start and its completion holds after the command. -/
theorem DataInvariant.exec_keeps (hP : DataInvariant i P) (clear : ∀ s, P s → P (s.clearValid i))
    (ok : ∀ s r, P s → P (s.completeOk r)) (err : ∀ s e, P s → P (s.completeErr e)) {s t : State}
    (h : exec i s = .next t) (hs : P s) : P t := by
  have start := clear s hs
  obtain ⟨-, ⟨e, -, rfl⟩ | ⟨-, r, s', hb, rfl⟩ | ⟨-, e, s', hb, rfl⟩⟩ := runCommand_next (exec_eq i s ▸ h)
  · exact err s e hs
  · exact ok s' r (hP.agrees.ok start hb)
  · have raised := (hP.agrees.error start hb).1
    unfold State.failData
    split
    · exact err s' _ raised
    · exact err _ _ (hP.forgetRegions _ _ raised)

end

/-! ### Canonical memory and tables -/

/-- Memory and the tables are in their canonical forms: the invariant without its last clause. -/
structure State.canonical (s : State) : Prop where
  mem : s.mem.wf = true
  lut : s.lutWf
  codes : s.codesWf

theorem State.Inv.canonical {s : State} (h : s.Inv) : s.canonical := ⟨h.mem, h.lut, h.codes⟩

theorem State.canonical.inv {s : State} (h : s.canonical) (quiet : s.busyQuiet) : s.Inv := ⟨h.mem, h.lut, h.codes, quiet⟩

theorem State.busyQuiet_of_idle {s : State} (h : s.phase = .idle) : s.busyQuiet := fun busy => by
  rw [State.busy_of_idle s h] at busy
  cases busy

/-- What is known of a table in either branch is known of it after a choice between them. -/
theorem forall_ite_some {α : Type} {p : α → Prop} {c : Prop} [Decidable c] {x y : Option α} (hx : ∀ a, x = some a → p a)
    (hy : ∀ a, y = some a → p a) : ∀ a, (if c then x else y) = some a → p a := by
  split
  · exact hx
  · exact hy

theorem dataInvariant_canonical (i : Instr) : DataInvariant i State.canonical where
  write _ a bs h := ⟨Memory.write_wf _ a bs h.mem, h.lut, h.codes⟩
  bitmap _ _ _ h := ⟨h.mem, h.lut, h.codes⟩
  lut _ _ _ _ hl h := ⟨h.mem, fun _ ht => Option.some.inj ht ▸ hl, h.codes⟩
  codes _ _ _ hc h := ⟨h.mem, h.lut, fun _ ht => Option.some.inj ht ▸ CodeTable.held_of_wf hc⟩

theorem State.canonical.clearValid {s : State} (h : s.canonical) (i : Instr) : (s.clearValid i).canonical :=
  ⟨h.mem, forall_ite_some (by simp) h.lut, forall_ite_some (by simp) h.codes⟩

theorem exec_canonical {i : Instr} {s t : State} (h : exec i s = .next t) (hs : s.canonical) : t.canonical :=
  (dataInvariant_canonical i).exec_keeps (fun _ h => h.clearValid i) (fun _ _ h => ⟨h.mem, h.lut, h.codes⟩)
    (fun _ _ h => ⟨h.mem, h.lut, h.codes⟩) h hs

/-! ### A raced command -/

theorem pairwise_filterMap_range {α : Type} {f : Nat → Option α} {key : α → Nat} (n : Nat)
    (hf : ∀ k a, f k = some a → key a = k) :
    ((List.range n).filterMap f).Pairwise fun a b => key a < key b := by
  refine List.pairwise_filterMap.2 (List.pairwise_lt_range.imp fun hlt a ha b hb => ?_)
  rw [hf _ _ ha, hf _ _ hb]
  exact hlt

theorem racedLut_entry {tick k : Nat} {e : Nat × BitVec 16}
    (h : (if Config.raceLut tick k = 0 then none else some (k, Config.raceLut tick k)) = some e) :
    e.1 = k ∧ e.2 ≠ 0 := by
  split at h
  · cases h
  · cases h
    exact ⟨rfl, by assumption⟩

theorem racedLut_wf (tick : Nat) : Lut.wf (racedLut tick) = true := by
  refine (Lut.wf_iff _).2 ⟨pairwise_filterMap_range _ fun k e h => (racedLut_entry h).1, fun e he => ?_⟩
  obtain ⟨k, hk, h⟩ := List.mem_filterMap.1 he
  obtain ⟨rfl, nonzero⟩ := racedLut_entry h
  exact ⟨List.mem_range.1 hk, nonzero⟩

theorem CodeTable.held_iff (t : CodeTable) :
    CodeTable.held t = true ↔ t.Pairwise (fun c d => c.sym < d.sym)
      ∧ ∀ e ∈ t, e.sym < 65537 ∧ (e.len ≠ 0 ∨ e.code ≠ 0) ∧ e.len.toNat ≤ 58 := by
  simp [CodeTable.held, keysRise_iff_pairwise, List.pairwise_map, and_assoc]

theorem racedCodes_entry {tick k : Nat} {e : CodeEntry}
    (h : (if Config.raceLen tick k = 0 ∧ Config.raceCode tick k = 0 then none
      else some ⟨k, BitVec.ofNat 6 (Config.raceLen tick k).val, Config.raceCode tick k⟩) = some e) :
    e.sym = k ∧ (e.len ≠ 0 ∨ e.code ≠ 0) ∧ e.len.toNat ≤ 58 := by
  have max := (Config.raceLen tick k).isLt
  have len : (BitVec.ofNat 6 (Config.raceLen tick k).val).toNat = (Config.raceLen tick k).val := by
    rw [BitVec.toNat_ofNat]
    omega
  split at h
  · cases h
  · rename_i nonzero
    cases h
    refine ⟨rfl, (not_and_or.1 nonzero).imp_left fun hl h0 => hl (Fin.ext ?_), by dsimp only; omega⟩
    have zero : BitVec.ofNat 6 (Config.raceLen tick k).val = 0 := h0
    rw [zero] at len
    exact len.symm

theorem racedCodes_held (tick : Nat) : CodeTable.held (racedCodes tick) = true := by
  refine (CodeTable.held_iff _).2 ⟨pairwise_filterMap_range _ fun k e h => (racedCodes_entry h).1, fun e he => ?_⟩
  obtain ⟨k, hk, h⟩ := List.mem_filterMap.1 he
  obtain ⟨rfl, entry⟩ := racedCodes_entry h
  exact ⟨List.mem_range.1 hk, entry⟩

theorem State.canonical.racedTables {s : State} (h : s.canonical) (i : Instr) (reached : Option (List Table)) :
    (s.racedTables i reached).canonical where
  mem := h.mem
  lut := forall_ite_some (forall_ite_some (fun _ ht => Option.some.inj ht ▸ racedLut_wf _) (by simp)) h.lut
  codes := forall_ite_some (forall_ite_some (fun _ ht => Option.some.inj ht ▸ racedCodes_held _) (by simp)) h.codes

theorem runRaced_canonical {i : Instr} {s t : State} (h : runRaced i s = .next t) (hs : s.canonical) : t.canonical := by
  cases hd : touchesDevice i s with
  | true => rw [runRaced, if_pos hd] at h; cases h
  | false =>
    obtain ⟨e, -, he⟩ := runRaced_next hd
    have tables := hs.racedTables i e.reached
    have mem := forgetRegions_wf s.mem s.fresh (regions i s.latched) hs.mem
    rw [he] at h
    split at h <;> cases h <;> exact ⟨mem, tables.lut, tables.codes⟩

/-! ### Host accesses and the step -/

/-- The engine's turn keeps the invariant, and leaves the engine idle. -/
theorem runEngine_inv {s t : State} (h : runEngine s = .next t) (hs : s.Inv) : t.Inv := by
  refine State.canonical.inv ?_ (State.busyQuiet_of_idle (runEngine_next h).1)
  unfold runEngine at h
  split at h
  · cases h
    exact hs.canonical
  · split at h
    · cases h
      exact ⟨hs.mem, hs.lut, hs.codes⟩
    · split at h
      · exact runRaced_canonical h hs.canonical
      · exact exec_canonical h hs.canonical

theorem State.engineKept.inv {s t : State} (h : s.engineKept t) (hs : s.Inv) : t.Inv where
  mem := h.mem ▸ hs.mem
  lut l hl := hs.lut l (h.tables.lut ▸ hl)
  codes c hc := hs.codes c (h.tables.codes ▸ hc)
  quiet := by
    intro busy
    rw [State.busy, h.phase] at busy
    rw [h.done, h.errcode, h.results]
    exact hs.quiet busy

theorem State.abandonedMem_wf {s : State} (h : s.mem.wf = true) : s.abandonedMem.wf = true := by
  unfold State.abandonedMem
  split
  · exact h
  · split
    · exact h
    · exact forgetRegions_wf _ _ _ h

/-- Reset meets the invariant again (10_state.md R67): nothing is left in the tables. -/
theorem State.Inv.blockReset {s : State} (h : s.Inv) : s.blockReset.Inv where
  mem := State.abandonedMem_wf h.mem
  lut _ hl := by cases hl
  codes _ hc := by cases hc
  quiet := State.busyQuiet_of_idle rfl

/-- An issued command is quiet (30_encoding.md R141). -/
theorem State.Inv.issue {s : State} (h : s.Inv) (w : Word32) : (s.issue w).Inv :=
  ⟨h.mem, h.lut, h.codes, fun _ => ⟨rfl, rfl, rfl⟩⟩

theorem State.Inv.writeReg {s : State} (h : s.Inv) (r : Reg) (v : Word32) : (s.writeReg r v).Inv := by
  by_cases hcmd : r = .cmd
  · subst hcmd
    rw [State.writeReg, State.writeCmd]
    split
    · exact h.issue v
    · exact ⟨h.mem, h.lut, h.codes, h.quiet⟩
  · by_cases hrst : r = .ctrl ∧ v.getLsbD 0 = true
    · rw [hrst.1, State.writeReg, if_pos hrst.2]
      exact h.blockReset
    · exact (s.engineKept_writeReg r v hcmd (by simpa using hrst)).inv h

theorem hostRegWrite_inv {s : State} (h : s.Inv) (width : Width) (off : BitVec 12) (v : Word32) :
    (hostRegWrite width off v s).Inv := by
  obtain ⟨r, -, -, hr⟩ | ⟨a, ha⟩ := hostRegWrite_cases width off v s
  · rw [hr]
    exact (State.engineKept_respond _ _).inv (h.writeReg r v)
  · rw [ha]
    exact (s.engineKept_respond a).inv h

theorem hostStore_inv {a : Nat} {bs : List Byte} {c : Bool} {s t : State} (h : hostStore a bs c s = .next t)
    (hs : s.Inv) : t.Inv := by
  obtain ⟨-, off, -, rfl⟩ | ⟨-, -, rfl⟩ | ⟨-, -, rfl⟩ := hostStore_next h
  · exact hostRegWrite_inv hs _ _ _
  · exact (s.engineKept_respond _).inv hs
  · exact ⟨Memory.write_wf _ _ _ hs.mem, hs.lut, hs.codes, hs.quiet⟩

theorem hostMemWrite_inv {width : Width} {a : Nat} {bs : List Byte} {c : Bool} {s t : State}
    (h : hostMemWrite width a bs c s = .next t) (hs : s.Inv) : t.Inv := by
  obtain ⟨q, hq⟩ | ⟨-, ho⟩ := hostMemWrite_eq_hostStore width a bs c s
  · rw [hq] at h
    exact hostStore_inv h ((s.engineKept_queue q).inv hs)
  · rw [ho] at h
    exact hostStore_inv h hs

theorem hostAccess_inv {op : HostOp} {s t : State} (h : hostAccess op s = .next t) (hs : s.Inv) : t.Inv := by
  cases op with
  | regWrite width off v => cases h; exact hostRegWrite_inv hs width off v
  | regRead width off => cases h; exact (hostRegRead_engineKept width off s).inv hs
  | memWrite width a bs c => exact hostMemWrite_inv h hs
  | memRead width a n c => exact (hostMemRead_engineKept h).inv hs
  | wait => cases h; exact (hostWait_engineKept s).inv hs
  | hardReset => cases h; exact hs.blockReset

/-- Settles O59: the engine's turn and each host access keep the invariant, so every step does. -/
theorem everyStepKeepsTheInvariant : Obligations.EveryStepKeepsTheInvariant := by
  unfold Obligations.EveryStepKeepsTheInvariant
  intro s t hs h
  have arrived (rest : List HostOp) : (s.arrive rest).Inv := (s.engineKept_arrive rest).inv hs
  obtain ⟨-, engine⟩ | ⟨-, -, rfl⟩ | ⟨-, op, rest, s', -, access, ⟨rfl, -⟩ | ⟨-, -, -, engine⟩⟩ := step_next h
  · exact runEngine_inv engine hs
  · exact hs
  · exact hostAccess_inv access (arrived rest)
  · exact runEngine_inv engine (hostAccess_inv access (arrived rest))

end Sys2Proof.Machine
end

section
/-! SUPPORT and the proofs of O38, O44 and O45: the tables a command requires, the tables it writes, and the results it
reports. -/

namespace Sys2Proof.Machine

/-! ### Tables required -/

theorem irqNext_no_clear (status set : BitVec 3) : irqNext status 0 set = status ||| set := by
  rw [irqNext, show ~~~(0 : BitVec 3) = BitVec.allOnes 3 by decide, BitVec.and_allOnes]

/-- An error completion before the data phase (30_encoding.md R146). -/
theorem State.completed_completeErr (s : State) {e : ErrCode} (he : e ≠ .ok) : s.completed (s.completeErr e) e {} where
  phase := rfl
  done := rfl
  errcode := rfl
  results := rfl
  irqStatus := by
    rw [if_neg he]
    exact irqNext_no_clear _ _
  kept := s.hostSideKept_completeErr e

/-- The parameter check answers NO_TABLE exactly where a required table is not valid (10_state.md R65). -/
theorem paramCheck_eq_noTable (i : Instr) (s : State) :
    paramCheck i s = some .noTable ↔ ∃ T ∈ tablesRequired i, s.tableValid T = false := by
  have missing : (!(tablesRequired i).all s.tableValid) = true ↔ ∃ T ∈ tablesRequired i, s.tableValid T = false := by
    simp
  rw [← missing]
  unfold paramCheck
  dsimp only
  split_ifs <;> simp_all

/-- The tables that each command requires, by command (10_state.md R65). -/
theorem exists_required_invalid_iff (i : Instr) (s : State) :
    (∃ T ∈ tablesRequired i, s.tableValid T = false) ↔
      ((i = .lutBitmapStore ∨ i = .lutBuildForward ∨ i = .lutBuildReverse) ∧ s.bitmap = none)
        ∨ ((i = .lutApply ∨ i = .lutDump) ∧ s.lut = none) ∨ (i = .hufDumpCodes ∧ s.codes = none) := by
  cases i <;> simp [tablesRequired, State.tableValid]

/-- No command requires a table that its rule writes. -/
theorem clearValid_tableValid {i : Instr} {T : Table} (s : State) (hT : T ∈ tablesRequired i) :
    (s.clearValid i).tableValid T = s.tableValid T := by
  have notWritten : (tablesWritten i).contains T = false := by
    revert hT
    cases i <;> cases T <;> decide
  cases T <;> simp only [State.tableValid, State.clearValid, notWritten] <;> rfl

/-- With its required tables valid a command's data phase does not raise NO_TABLE, nor a code that only a check before it
answers. -/
theorem dataPhase_error_code {i : Instr} {s s' : State} {e : Raise} (hs : ∀ T ∈ tablesRequired i, s.tableValid T = true)
    (h : dataPhase i s = .error e s') : e.code ∈ dataCodes := by
  have inv : DataInvariant i fun s => ∀ T ∈ tablesRequired i, s.tableValid T = true :=
    { write := fun _ _ _ h => h
      bitmap := fun _ _ _ h T hT => by
        cases T with
        | bitmap => rfl
        | _ => exact h _ hT
      lut := fun _ _ _ _ _ h T hT => by
        cases T with
        | lut => rfl
        | _ => exact h _ hT
      codes := fun _ _ _ _ h T hT => by
        cases T with
        | codes => rfl
        | _ => exact h _ hT }
  have hS := inv.commandSideBySide (E := (· ∈ dataCodes)) (fun _ h => h) (.inr fun T hT _ h => h T hT)
  exact ((agrees_dataPhase hS).error hs h).2

theorem tableValid_of_paramCheck {i : Instr} {s : State} (h : paramCheck i s = none) :
    ∀ T ∈ tablesRequired i, (s.clearValid i).tableValid T = true := by
  intro T hT
  rw [clearValid_tableValid s hT]
  by_contra hv
  have := (paramCheck_eq_noTable i s).2 ⟨T, hT, by simpa using hv⟩
  rw [h] at this
  cases this

/-- Settles O38: the parameter check finds a required table that is not valid, and no data phase raises NO_TABLE. -/
theorem unbuiltTableIsNoTable : Obligations.UnbuiltTableIsNoTable := by
  unfold Obligations.UnbuiltTableIsNoTable
  refine ⟨fun i s hd hmissing => ?_, fun i s t h hcode => ?_⟩
  · rw [← exists_required_invalid_iff, ← paramCheck_eq_noTable] at hmissing
    exact ⟨_, (exec_eq i s).trans (runCommand_paramError hd hmissing), s.completed_completeErr (by decide), rfl,
      ⟨rfl, rfl, rfl, rfl⟩⟩
  · rw [← exists_required_invalid_iff, ← paramCheck_eq_noTable]
    obtain ⟨-, ⟨e, he, rfl⟩ | ⟨-, r, s', -, rfl⟩ | ⟨hn, e, s', hb, rfl⟩⟩ := runCommand_next (exec_eq i s ▸ h)
    · exact hcode ▸ he
    · cases hcode
    · have := dataPhase_error_code (tableValid_of_paramCheck hn) hb
      rw [show e.code = .noTable from hcode] at this
      exact absurd this (by decide)

/-! ### Tables that a command does not write -/

theorem mem_tablesWritten_bitmap (i : Instr) :
    .bitmap ∈ tablesWritten i ↔ i ∈ [Instr.lutBitmapFromData, .lutBitmapLoad, .pizCompress, .pizUncompress] := by
  cases i <;> decide

theorem mem_tablesWritten_lut (i : Instr) :
    .lut ∈ tablesWritten i ↔ i ∈ [Instr.lutBuildForward, .lutBuildReverse, .pizCompress, .pizUncompress] := by
  cases i <;> decide

theorem mem_tablesWritten_codes (i : Instr) :
    .codes ∈ tablesWritten i ↔ i ∈ [Instr.hufCompress, .hufUncompress, .pizCompress, .pizUncompress] := by
  cases i <;> decide

theorem clearValid_ite_of_notMem {α : Type} {T : Table} {i : Instr} (h : T ∉ tablesWritten i) (x : Option α) :
    (if (tablesWritten i).contains T then none else x) = x :=
  if_neg (by simpa using h)

theorem exec_bitmap {i : Instr} {s t : State} (hi : .bitmap ∉ tablesWritten i) (h : exec i s = .next t) :
    t.bitmap = s.bitmap := by
  have inv : DataInvariant i fun t => t.bitmap = s.bitmap :=
    ⟨fun _ _ _ h => h, fun h => absurd h hi, fun _ _ _ _ _ h => h, fun _ _ _ _ h => h⟩
  exact inv.exec_keeps (fun _ h => (clearValid_ite_of_notMem hi _).trans h) (fun _ _ h => h) (fun _ _ h => h) h rfl

theorem exec_lut {i : Instr} {s t : State} (hi : .lut ∉ tablesWritten i) (h : exec i s = .next t) :
    t.lut = s.lut ∧ t.lutKind = s.lutKind := by
  have inv : DataInvariant i fun t => t.lut = s.lut ∧ t.lutKind = s.lutKind :=
    ⟨fun _ _ _ h => h, fun _ _ _ h => h, fun h => absurd h hi, fun _ _ _ _ h => h⟩
  exact inv.exec_keeps (fun _ h => h.imp_left (clearValid_ite_of_notMem hi _).trans) (fun _ _ h => h) (fun _ _ h => h) h
    ⟨rfl, rfl⟩

theorem exec_codes {i : Instr} {s t : State} (hi : .codes ∉ tablesWritten i) (h : exec i s = .next t) :
    t.codes = s.codes := by
  have inv : DataInvariant i fun t => t.codes = s.codes :=
    ⟨fun _ _ _ h => h, fun _ _ _ h => h, fun _ _ _ _ _ h => h, fun h => absurd h hi⟩
  exact inv.exec_keeps (fun _ h => (clearValid_ite_of_notMem hi _).trans h) (fun _ _ h => h) (fun _ _ h => h) h rfl

/-! ### Tables that a successful data phase leaves valid -/

/-- Whenever the part answers a value, its last state has the property, whatever the first one was. -/
def Run.Leaves {α : Type} (P : State → Prop) (x : Run α) : Prop := ∀ s a s', x s = .ok a s' → P s'

/-- No write of memory, BITMAP or the code table ends the property. -/
structure Lasting (P : State → Prop) : Prop where
  write : ∀ s m, P s → P (s.withMem m)
  bitmap : ∀ s b, P s → P (s.withBitmap b)
  codes : ∀ s c, P s → P (s.withCodes c)

section
variable {α β : Type} {P : State → Prop}

theorem leaves_modify {f : State → State} (h : ∀ s, P (f s)) : Run.Leaves P (modify f : Run Unit) := by
  intro s a s' hs
  cases hs
  exact h s

/-- The property holds at the end because the second part sees to it, for what the first part can answer. -/
theorem leaves_bind_returns {Q : α → Prop} {x : Run α} {f : α → Run β} (hq : Run.Returns Q x)
    (hf : ∀ a, Q a → Run.Leaves P (f a)) : Run.Leaves P (x >>= f) := by
  intro s b s' h
  obtain ⟨a, s1, hs1, h1⟩ := Run.bind_ok h
  exact hf a (hq s a s1 hs1) s1 b s' h1

theorem leaves_bind {x : Run α} {f : α → Run β} (hf : ∀ a, Run.Leaves P (f a)) : Run.Leaves P (x >>= f) :=
  leaves_bind_returns (Q := fun _ => True) (fun _ _ _ _ => trivial) fun a _ => hf a

/-- The property holds at the end because the first part sees to it and the second one keeps it. -/
theorem leaves_bind_keeps {x : Run α} {f : α → Run β} (hx : Run.Leaves P x)
    (hf : ∀ a, Run.Agrees (Alone P) (fun _ => True) (f a)) : Run.Leaves P (x >>= f) := by
  intro s b s' h
  obtain ⟨a, s1, hs1, h1⟩ := Run.bind_ok h
  exact (hf a).ok (hx s a s1 hs1) h1

theorem Lasting.sideBySide (hP : Lasting P) : SideBySide (Alone P) fun _ => True where
  mem h := h.1 ▸ rfl
  platform h := h.1 ▸ rfl
  latched h := h.1 ▸ rfl
  fresh h := h.1 ▸ rfl
  write h _ _ := ⟨h.1 ▸ rfl, hP.write _ _ h.2⟩
  codes _ _ := trivial

theorem Lasting.takesCodes (hP : Lasting P) : TakesCodes (Alone P) :=
  fun s _ c _ h => ⟨h.1 ▸ rfl, hP.codes s c h.2⟩

end

theorem bitmapValid_lasting : Lasting fun s => s.bitmap.isSome = true :=
  ⟨fun _ _ h => h, fun _ _ _ => rfl, fun _ _ h => h⟩

theorem lutValid_lasting (k : LutKind) : Lasting fun s => s.lut.isSome = true ∧ s.lutKind = k :=
  ⟨fun _ _ h => h, fun _ _ h => h, fun _ _ h => h⟩

theorem codesValid_lasting : Lasting fun s => s.codes.isSome = true :=
  ⟨fun _ _ h => h, fun _ _ h => h, fun _ _ _ => rfl⟩

/-- A successful command leaves the BITMAP that its rule writes valid (10_state.md R60, R64). -/
theorem leaves_dataPhase_bitmap {i : Instr} (hi : .bitmap ∈ tablesWritten i) :
    Run.Leaves (fun s => s.bitmap.isSome = true) (dataPhase i) := by
  have base := bitmapValid_lasting.sideBySide
  have set (b : Bitmap) : Run.Leaves (fun s => s.bitmap.isSome = true) (modify (·.withBitmap b)) :=
    leaves_modify fun _ => rfl
  have lut (k : LutKind) (l : Lut) :
      Run.Agrees (Alone fun s => s.bitmap.isSome = true) (fun _ => True) (modify (·.withLut k l)) :=
    agrees_modify _ fun _ _ h => ⟨h.1 ▸ rfl, h.2⟩
  simp only [mem_tablesWritten_bitmap, List.mem_cons, List.not_mem_nil, or_false] at hi
  obtain rfl | rfl | rfl | rfl := hi
  · exact leaves_bind fun _ => leaves_bind fun b => leaves_bind_keeps (set b) fun _ => agrees_pure _
  · exact leaves_bind fun _ => leaves_bind fun r => leaves_bind_keeps (set r.1) fun _ => agrees_pure _
  · exact leaves_bind fun _ => leaves_bind_keeps (leaves_bind fun _ => leaves_bind fun b =>
      leaves_bind_keeps (set b) fun _ => agrees_bind (lut _ _) fun _ =>
        agrees_pizCompressBuilt base bitmapValid_lasting.takesCodes _ _ _ _ _ b) fun _ => agrees_pure _
  · exact leaves_bind fun _ => leaves_bind_keeps (leaves_bind fun _ => leaves_bind fun r =>
      leaves_bind_keeps (set r.1) fun _ => agrees_bind (lut _ _) fun _ =>
        agrees_pizUncompressBuilt base bitmapValid_lasting.takesCodes _ _ _ _ _ r.1 _ _ _) fun _ => agrees_pure _

/-- A successful command leaves the LUT that its rule writes valid, with its kind (10_state.md R36, R61, R64). -/
theorem leaves_dataPhase_lut {i : Instr} (hi : .lut ∈ tablesWritten i) :
    Run.Leaves (fun s => s.lut.isSome = true ∧ s.lutKind = lutKindWritten i .forward) (dataPhase i) := by
  have base (k : LutKind) := (lutValid_lasting k).sideBySide
  have set (k : LutKind) (l : Lut) :
      Run.Leaves (fun s => s.lut.isSome = true ∧ s.lutKind = k) (modify (·.withLut k l)) :=
    leaves_modify fun _ => ⟨rfl, rfl⟩
  simp only [mem_tablesWritten_lut, List.mem_cons, List.not_mem_nil, or_false] at hi
  obtain rfl | rfl | rfl | rfl := hi
  · exact leaves_bind fun b => leaves_bind_keeps (set _ _) fun _ => agrees_pure _
  · exact leaves_bind fun b => leaves_bind_keeps (set _ _) fun _ => agrees_pure _
  · exact leaves_bind fun _ => leaves_bind_keeps (leaves_bind fun _ => leaves_bind fun b => leaves_bind fun _ =>
      leaves_bind_keeps (set _ _) fun _ =>
        agrees_pizCompressBuilt (base _) (lutValid_lasting _).takesCodes _ _ _ _ _ b) fun _ => agrees_pure _
  · exact leaves_bind fun _ => leaves_bind_keeps (leaves_bind fun _ => leaves_bind fun r => leaves_bind fun _ =>
      leaves_bind_keeps (set _ _) fun _ =>
        agrees_pizUncompressBuilt (base _) (lutValid_lasting _).takesCodes _ _ _ _ _ r.1 _ _ _) fun _ => agrees_pure _

section
variable {a d : Nat}

/-- The encoder sets the code table whenever there is a sample (41_huffman_encode.md R261). -/
theorem leaves_hufCompress {n cap : Nat} (hn : n ≠ 0) :
    Run.Leaves (fun s => s.codes.isSome = true) (hufCompress a n d cap) := by
  have base := codesValid_lasting.sideBySide
  rw [hufCompress, if_neg hn]
  exact leaves_bind fun _ => leaves_bind fun _ => leaves_bind_keeps (leaves_modify fun _ => rfl) fun _ =>
    agrees_bind (agrees_require base _ (by decide)) fun _ => agrees_bind (agrees_require base _ (by decide)) fun _ =>
      agrees_bind (agrees_dmaWrite base _ _) fun _ => agrees_pure _

/-- The decoder sets the code table whenever there is a sample to decode (42_huffman_decode.md R301, R306). -/
theorem leaves_hufUncompress {n no : Nat} (hno : no ≠ 0) :
    Run.Leaves (fun s => s.codes.isSome = true) (hufUncompress a n d no) := by
  have base := codesValid_lasting.sideBySide
  unfold hufUncompress
  split
  · exact leaves_bind_returns (returns_require _ _) fun _ h0 => absurd (by simpa using h0) hno
  · refine leaves_bind fun _ => leaves_bind fun _ => leaves_bind fun _ =>
      leaves_bind_returns (returns_require _ _) fun _ bounds => leaves_bind fun _ => leaves_bind fun _ =>
        leaves_bind_returns (returns_ofExcept _) fun p hp => leaves_bind_keeps (leaves_modify fun _ => rfl) fun _ => ?_
    simp only [Bool.and_eq_true, decide_eq_true_eq] at bounds
    have wf := canonicalCodes_wf (unpackTable_wf bounds.2 hp)
    exact agrees_bind (agrees_require base _ (by decide)) fun _ =>
      agrees_bind (agrees_buildStage base codesValid_lasting.takesCodes wf) fun _ =>
        agrees_bind (agrees_ofExcept _ fun _ _ => trivial) fun _ =>
          agrees_bind (agrees_modify _ fun _ _ h => ⟨h.1 ▸ rfl, h.2⟩) fun _ => agrees_pure _

theorem leaves_pizCompress {n cap aux count : Nat} (hn : n ≠ 0) :
    Run.Leaves (fun s => s.codes.isSome = true) (pizCompress a n d cap aux count) := by
  have base := codesValid_lasting.sideBySide
  exact leaves_bind fun _ => leaves_bind fun _ => leaves_bind fun _ => leaves_bind fun _ => leaves_bind fun _ =>
    leaves_bind fun _ => leaves_bind fun _ => leaves_bind fun _ => leaves_bind_keeps (leaves_hufCompress hn) fun _ =>
      agrees_bind (agrees_require base _ (by decide)) fun _ => agrees_bind (agrees_dmaWrite base _ _) fun _ =>
        agrees_pure _

theorem leaves_pizUncompress {len n aux count : Nat} (hn : n ≠ 0) :
    Run.Leaves (fun s => s.codes.isSome = true) (pizUncompress a len d n aux count) := by
  have base := codesValid_lasting.sideBySide
  exact leaves_bind fun _ => leaves_bind fun _ => leaves_bind fun _ => leaves_bind fun _ => leaves_bind fun _ =>
    leaves_bind fun _ => leaves_bind fun _ => leaves_bind_keeps (leaves_hufUncompress hn) fun _ =>
      agrees_bind (agrees_forEach _ _ fun _ => agrees_wavDecode2D base _ _) fun _ =>
        agrees_bind (agrees_applyLut base _ _ _) fun _ => agrees_pure _

end

/-- The samples of a command's Huffman stage: those it encodes, or those it decodes to. -/
def hufSamples (i : Instr) (l : Params) : Word32 :=
  match i with
  | .hufUncompress | .pizUncompress => l.dstLen
  | _ => l.srcLen

/-- A successful command leaves the code table that its rule writes valid, if its Huffman stage has a sample (10_state.md R62,
R64). -/
theorem dataPhase_codes {i : Instr} (hi : .codes ∈ tablesWritten i) {s s' : State} {r : Results}
    (hn : hufSamples i s.latched ≠ 0) (h : dataPhase i s = .ok r s') : s'.codes.isSome = true := by
  have hn0 : (hufSamples i s.latched).toNat ≠ 0 := fun h0 => hn (BitVec.eq_of_toNat_eq h0)
  have report {α : Type} {x : Run α} {f : α → Results} (hx : Run.Leaves (fun s => s.codes.isSome = true) x)
      (h : (x >>= fun a => pure (f a)) s = .ok r s') : s'.codes.isSome = true :=
    leaves_bind_keeps hx (fun _ => agrees_pure _) s r s' h
  simp only [mem_tablesWritten_codes, List.mem_cons, List.not_mem_nil, or_false] at hi
  obtain rfl | rfl | rfl | rfl := hi
  · exact report (leaves_hufCompress hn0) h
  · exact report (leaves_hufUncompress hn0) h
  · exact report (leaves_pizCompress hn0) h
  · exact report (leaves_pizUncompress hn0) h

/-- A command that ends with OK completed its data phase. -/
theorem exec_ok {i : Instr} {s t : State} (h : exec i s = .next t) (hok : t.errcode = .ok) :
    ∃ r s', dataPhase i (s.clearValid i) = .ok r s' ∧ t = s'.completeOk r := by
  obtain ⟨-, ⟨e, he, rfl⟩ | ⟨-, r, s', hb, rfl⟩ | ⟨hn, e, s', hb, rfl⟩⟩ := runCommand_next (exec_eq i s ▸ h)
  · rw [show e = .ok from hok] at he
    unfold paramCheck at he
    dsimp only at he
    split_ifs at he <;> cases he
  · exact ⟨r, s', hb, rfl⟩
  · have := dataPhase_error_code (tableValid_of_paramCheck hn) hb
    rw [show e.code = .ok from hok] at this
    exact absurd this (by decide)

/-- Settles O44: a table outside the command's rule is kept through the whole command; one that it writes is valid from where
its data phase writes it, and stays so. -/
theorem commandsWriteOnlyTheirTables : Obligations.CommandsWriteOnlyTheirTables := by
  unfold Obligations.CommandsWriteOnlyTheirTables
  intro i s t h
  have lut (hok : t.errcode = .ok) (hi : .lut ∈ tablesWritten i) :
      t.lut.isSome = true ∧ t.lutKind = lutKindWritten i .forward := by
    obtain ⟨r, s', hb, rfl⟩ := exec_ok h hok
    exact leaves_dataPhase_lut hi _ r s' hb
  have codes (hok : t.errcode = .ok) (hi : .codes ∈ tablesWritten i) (hn : hufSamples i s.latched ≠ 0) :
      t.codes.isSome = true := by
    obtain ⟨r, s', hb, rfl⟩ := exec_ok h hok
    exact dataPhase_codes (s := s.clearValid i) (s' := s') hi hn hb
  refine ⟨fun hi => exec_bitmap (mt (mem_tablesWritten_bitmap i).1 hi) h,
    fun hi => exec_lut (mt (mem_tablesWritten_lut i).1 hi) h,
    fun hi => exec_codes (mt (mem_tablesWritten_codes i).1 hi) h, fun hok hi => ?_, fun hok hi => ?_, fun hok hi => ?_,
    ?_, ?_, ?_⟩
  · obtain ⟨r, s', hb, rfl⟩ := exec_ok h hok
    exact leaves_dataPhase_bitmap ((mem_tablesWritten_bitmap i).2 hi) _ r s' hb
  · simp only [List.mem_cons, List.not_mem_nil, or_false] at hi
    obtain rfl | rfl := hi <;> exact lut hok (by decide)
  · simp only [List.mem_cons, List.not_mem_nil, or_false] at hi
    obtain rfl | rfl := hi <;> exact lut hok (by decide)
  · rintro hok rfl hn
    exact codes hok (by decide) hn
  · rintro hok rfl hn
    exact codes hok (by decide) hn
  · rintro hok (rfl | rfl) hn
    · exact codes hok (by decide) hn
    · exact codes hok (by decide) hn

/-! ### Results -/

/-- The result registers that the command's row of R138 leaves out are 0 (30_encoding.md R138). -/
def Results.inRow (r : Results) : Instr → Prop
  | .nop | .lutApply | .wavEncode | .wavDecode => r = {}
  | .lutBitmapFromData => r = { minnz := r.minnz, maxnz := r.maxnz }
  | .lutBitmapLoad | .lutBitmapStore => r = { len := r.len, minnz := r.minnz, maxnz := r.maxnz }
  | .lutBuildForward | .lutBuildReverse => r = { maxval := r.maxval }
  | .lutDump | .hufDumpCodes => r = { len := r.len }
  | .hufCompress | .hufUncompress =>
    r = { len := r.len, nbits := r.nbits, im := r.im, imax := r.imax, tablen := r.tablen }
  | .pizCompress | .pizUncompress => True

theorem Results.inRow_zero (i : Instr) : Results.inRow {} i := by cases i <;> trivial

theorem returns_dataPhase (i : Instr) : Run.Returns (fun r => r.inRow i) (dataPhase i) := by
  cases i with
  | nop => exact returns_pure rfl
  | lutBitmapFromData =>
    exact returns_bind fun _ => returns_bind fun _ => returns_bind fun _ => returns_pure rfl
  | lutBitmapLoad => exact returns_bind fun _ => returns_bind fun _ => returns_bind fun _ => returns_pure rfl
  | lutBitmapStore =>
    refine returns_bind fun _ => returns_bind fun _ => ?_
    dsimp only
    split
    · exact returns_bind fun _ => returns_pure rfl
    · exact returns_raiseClean _
  | lutBuildForward => exact returns_bind fun _ => returns_bind fun _ => returns_pure rfl
  | lutBuildReverse => exact returns_bind fun _ => returns_bind fun _ => returns_pure rfl
  | lutApply => exact returns_bind fun _ => returns_bind fun _ => returns_bind fun _ => returns_pure rfl
  | lutDump => exact returns_bind fun _ => returns_bind fun _ => returns_bind fun _ => returns_pure rfl
  | wavEncode => exact returns_bind fun _ => returns_bind fun _ => returns_pure rfl
  | wavDecode => exact returns_bind fun _ => returns_bind fun _ => returns_pure rfl
  | hufCompress => exact returns_bind fun _ => returns_bind fun _ => returns_pure rfl
  | hufUncompress => exact returns_bind fun _ => returns_bind fun _ => returns_pure rfl
  | hufDumpCodes => exact returns_bind fun _ => returns_bind fun _ => returns_bind fun _ => returns_pure rfl
  | pizCompress => exact fun _ _ _ _ => trivial
  | pizUncompress => exact fun _ _ _ _ => trivial

/-- A command that ends with an error leaves all result registers 0 (10_state.md R54). -/
theorem exec_results_of_error {i : Instr} {s t : State} (h : exec i s = .next t) (he : t.errcode ≠ .ok) :
    t.results = {} := by
  obtain ⟨-, ⟨e, -, rfl⟩ | ⟨-, r, s', -, rfl⟩ | ⟨-, e, s', -, rfl⟩⟩ := runCommand_next (exec_eq i s ▸ h)
  · rfl
  · exact absurd rfl he
  · rfl

theorem exec_results_inRow {i : Instr} {s t : State} (h : exec i s = .next t) : t.results.inRow i := by
  by_cases hok : t.errcode = .ok
  · obtain ⟨r, s', hb, rfl⟩ := exec_ok h hok
    exact returns_dataPhase i _ r s' hb
  · rw [exec_results_of_error h hok]
    exact Results.inRow_zero i

/-- Settles O45: issue clears the registers, the invariant keeps them 0 while a command runs, and a data phase answers only
what its row names. -/
theorem resultRegistersLifeCycle : Obligations.ResultRegistersLifeCycle := by
  unfold Obligations.ResultRegistersLifeCycle
  refine ⟨fun _ _ => rfl, fun s hs busy r hr => ?_, fun i s t h => ?_⟩
  · obtain ⟨-, -, zero⟩ := hs.quiet busy
    simp only [List.mem_cons, List.not_mem_nil, or_false] at hr
    obtain rfl | rfl | rfl | rfl | rfl | rfl | rfl | rfl := hr <;> simp only [State.readReg, zero] <;> rfl
  · have row := exec_results_inRow h
    simp only [List.mem_cons, List.not_mem_nil, or_false]
    refine ⟨exec_results_of_error h, ?_, ?_, ?_, ?_, ?_, ?_⟩
    · rintro (rfl | rfl | rfl | rfl) <;> exact row
    · rintro rfl
      exact row
    · rintro (rfl | rfl) <;> exact row
    · rintro (rfl | rfl) <;> exact row
    · rintro (rfl | rfl) <;> exact row
    · rintro (rfl | rfl) <;> exact row

end Sys2Proof.Machine
end

section
/-! SUPPORT and the proofs of O46 to O49, O51 and O58: what each register reads and what a write of it does, the reset values,
and a command's independence of the parameter registers. -/

namespace Sys2Proof.Machine

/-! ### Bits of register words -/

/-- A word and a mask have no bit in common. -/
theorem and_eq_zero_of_bits {w mask : Word32} (h : ∀ i < 32, mask.getLsbD i = true → w.getLsbD i = false) :
    w &&& mask = 0 := by
  refine BitVec.eq_of_getLsbD_eq fun i hi => ?_
  rw [BitVec.getLsbD_and, show (0 : Word32).getLsbD i = false from BitVec.getLsbD_zero]
  cases hm : mask.getLsbD i with
  | false => exact Bool.and_false _
  | true => rw [h i hi hm]; rfl

/-- A field of `k` bits has no bit in common with a mask of higher bits. -/
theorem setWidth_and_eq_zero {k : Nat} (x : BitVec k) {mask : Word32} (h : ∀ i < 32, mask.getLsbD i = true → k ≤ i) :
    x.setWidth 32 &&& mask = 0 :=
  and_eq_zero_of_bits fun i hi hm => by
    rw [BitVec.getLsbD_setWidth, BitVec.getLsbD_of_ge x i (h i hi hm), Bool.and_false]

/-- Bits above a field of `k` bits do not matter to it. -/
theorem setWidth_and_not {k : Nat} (v : Word32) {mask : Word32} (h : ∀ i < 32, mask.getLsbD i = true → k ≤ i) :
    (v &&& ~~~mask).setWidth k = v.setWidth k := by
  refine BitVec.eq_of_getLsbD_eq fun i hi => ?_
  simp only [BitVec.getLsbD_setWidth, BitVec.getLsbD_and, BitVec.getLsbD_not]
  by_cases h32 : i < 32
  · have low : mask.getLsbD i = false := Bool.eq_false_iff.2 fun hm => by have := h i h32 hm; omega
    simp only [low, h32, Bool.not_false, decide_true, Bool.and_true]
  · simp only [BitVec.getLsbD_of_ge v i (by omega), Bool.false_and]

/-- A field of `k` bits that was written reads as the word's low `k` bits. -/
theorem setWidth_setWidth_eq_and (k : Nat) (v : Word32) :
    (v.setWidth k).setWidth 32 = v &&& BitVec.ofNat 32 (2 ^ k - 1) := by
  refine BitVec.eq_of_getLsbD_eq fun i hi => ?_
  simp only [BitVec.getLsbD_setWidth, BitVec.getLsbD_and, BitVec.getLsbD_ofNat, Nat.testBit_two_pow_sub_one, hi,
    decide_true, Bool.true_and]
  exact Bool.and_comm _ _

/-- Writing 1 to a bit of IRQ_STATUS clears it, writing 0 leaves it (10_state.md R38). -/
theorem irqNext_clear_setWidth (status : BitVec 3) (v : Word32) :
    (irqNext status (v.setWidth 3) 0).setWidth 32 = status.setWidth 32 &&& ~~~v := by
  refine BitVec.eq_of_getLsbD_eq fun i hi => ?_
  by_cases h3 : i < 3
  · simp [irqNext, hi, h3]
  · simp [BitVec.getLsbD_of_ge _ i (Nat.le_of_not_lt h3)]

/-! ### STATUS -/

theorem State.statusWord_busy (s : State) : s.statusWord.getLsbD 0 = s.busy := by
  simp only [State.statusWord, BitVec.getLsbD_append, BitVec.getLsbD_ofBool]
  simp

theorem State.statusWord_done (s : State) : s.statusWord.getLsbD 1 = s.done := by
  simp only [State.statusWord, BitVec.getLsbD_append, BitVec.getLsbD_ofBool]
  simp

theorem State.statusWord_errcode (s : State) : s.statusWord.extractLsb' 8 8 = s.errcode.toByte := by
  refine BitVec.eq_of_getLsbD_eq fun i hi => ?_
  rw [BitVec.getLsbD_extractLsb', State.statusWord]
  simp only [BitVec.getLsbD_append]
  rw [if_neg (by omega), if_neg (by omega), if_neg (by omega), if_pos (by omega),
    show 8 + i - 1 - 1 - 6 = i by omega, decide_eq_true hi, Bool.true_and]

theorem State.statusWord_bitmap (s : State) : s.statusWord.getLsbD 16 = s.bitmap.isSome := by
  simp only [State.statusWord, BitVec.getLsbD_append, BitVec.getLsbD_ofBool]
  simp

theorem State.statusWord_lut (s : State) : s.statusWord.getLsbD 17 = s.lut.isSome := by
  simp only [State.statusWord, BitVec.getLsbD_append, BitVec.getLsbD_ofBool]
  simp

theorem State.statusWord_lutKind (s : State) : s.statusWord.getLsbD 18 = decide (s.lutKind = .reverse) := by
  have bit : s.statusWord.getLsbD 18 = s.lutKind.toBit := by
    simp only [State.statusWord, BitVec.getLsbD_append, BitVec.getLsbD_ofBool]
    simp
  rw [bit]
  cases s.lutKind <;> rfl

theorem State.statusWord_codes (s : State) : s.statusWord.getLsbD 19 = s.codes.isSome := by
  simp only [State.statusWord, BitVec.getLsbD_append, BitVec.getLsbD_ofBool]
  simp

/-- The reserved bits of STATUS are 0 (10_state.md R36, R55). -/
theorem State.statusWord_reserved (s : State) {i : Nat} (h : (2 ≤ i ∧ i < 8) ∨ 20 ≤ i) :
    s.statusWord.getLsbD i = false := by
  rw [State.statusWord]
  simp only [BitVec.getLsbD_append]
  obtain ⟨lo, hi⟩ | hi := h
  · rw [if_neg (by omega), if_neg (by omega), if_pos (by omega), BitVec.getLsbD_zero]
  · rw [if_neg (by omega), if_neg (by omega), if_neg (by omega), if_neg (by omega), if_neg (by omega), if_neg (by omega),
      if_neg (by omega), if_neg (by omega), BitVec.getLsbD_zero]

/-! ### The register map -/

theorem regAt_regOffset (r : Reg) : regAt (regOffset r) = some r := by cases r <;> rfl

theorem registerAccessOk_regOffset (r : Reg) : registerAccessOk .w32 (regOffset r) = true := by cases r <;> rfl

theorem hostRegWrite_regOffset (r : Reg) (v : Word32) (s : State) :
    hostRegWrite .w32 (regOffset r) v s = (s.writeReg r v).respond .written := by
  rw [hostRegWrite, if_pos (registerAccessOk_regOffset r), regAt_regOffset]

theorem hostRegRead_regOffset (r : Reg) (s : State) :
    hostRegRead .w32 (regOffset r) s = s.respond (.data (s.readReg r)) := by
  rw [hostRegRead, if_pos (registerAccessOk_regOffset r), regAt_regOffset]

theorem registerAccessOk_eq_false {width : Width} {off : BitVec 12} (h : width ≠ .w32 ∨ off.toNat % 4 ≠ 0) :
    registerAccessOk width off = false := by
  obtain h | h := h <;> simp [registerAccessOk, h]

/-- No register stands at a reserved offset (10_state.md R55). -/
theorem regAt_eq_none {off : BitVec 12} (h : off.toNat = 0x01C ∨ off.toNat = 0x04C ∨ 0x070 ≤ off.toNat) :
    regAt off = none := by
  refine List.find?_eq_none.2 fun r _ hr => ?_
  rw [← eq_of_beq hr] at h
  revert h
  cases r <;> decide

@[simp] theorem State.respond_readReg (s : State) (a : Response) (r : Reg) : (s.respond a).readReg r = s.readReg r := by
  cases r <;> rfl

@[simp] theorem State.arrive_readReg (s : State) (rest : List HostOp) (r : Reg) :
    (s.arrive rest).readReg r = s.readReg r := by
  cases r <;> rfl

/-- A step in which the next access is a register write that does not issue a command. -/
theorem step_regWrite {s : State} {r : Reg} {v : Word32} {rest : List HostOp} (due : s.engineDue = false)
    (hq : s.hostq = .regWrite .w32 (regOffset r) v :: rest)
    (busy : ((s.arrive rest).writeReg r v).busy = true → s.busy = true) :
    step s = .next (((s.arrive rest).writeReg r v).respond .written) := by
  rw [step_of_access due hq, hostAccess, hostRegWrite_regOffset]
  refine if_neg fun issues => ?_
  simp only [Bool.and_eq_true, Bool.not_eq_true'] at issues
  obtain ⟨⟨idle, issued⟩, -⟩ := issues
  rw [busy issued] at idle
  cases idle

/-! ### Registers that can be written at any time -/

/-- The registers that a host can write at any time (10_state.md R38 to R47). -/
abbrev anyTimeRegs : List Reg :=
  [.srcAddr, .srcLen, .dstAddr, .dstLen, .auxAddr, .auxLen, .nx, .ny, .ox, .oy, .maxval, .irqEnable, .irqStatus]

/-- Such a register reads what was written, as far as its bits go (10_state.md R38 to R47). -/
theorem State.readReg_writeReg_same (s : State) {r : Reg} (v : Word32) (hr : r ∈ anyTimeRegs) :
    (s.writeReg r v).readReg r = if r = .maxval then v &&& 0xFFFF else if r = .irqEnable then v &&& 0x7
      else if r = .irqStatus then s.readReg .irqStatus &&& ~~~v else v := by
  cases r with
  | maxval => exact setWidth_setWidth_eq_and _ v
  | irqEnable => exact setWidth_setWidth_eq_and _ v
  | irqStatus => exact irqNext_clear_setWidth _ v
  | id | caps | ctrl | status | cmd => exact absurd hr (by decide)
  | resLen | resMinnz | resMaxnz | resMaxval | resNbits | resIm | resImax | resTablen => exact absurd hr (by decide)
  | _ => rfl

/-- Every other register reads as before. -/
theorem State.readReg_writeReg_of_ne (s : State) {r r' : Reg} (v : Word32) (hr : r ∈ anyTimeRegs) (hne : r' ≠ r) :
    (s.writeReg r v).readReg r' = s.readReg r' := by
  cases r with
  | id | caps | ctrl | status | cmd => exact absurd hr (by decide)
  | resLen | resMinnz | resMaxnz | resMaxval | resNbits | resIm | resImax | resTablen => exact absurd hr (by decide)
  | _ => cases r' <;> first | rfl | exact absurd rfl hne

theorem State.writeReg_anyTime_kept (s : State) {r : Reg} (v : Word32) (hr : r ∈ anyTimeRegs) :
    s.engineKept (s.writeReg r v) ∧ (s.writeReg r v).raced = s.raced ∧ (s.writeReg r v).hostq = s.hostq := by
  refine ⟨s.engineKept_writeReg r v (by rintro rfl; exact absurd hr (by decide))
    (by rintro rfl; exact absurd hr (by decide)), ?_⟩
  cases r with
  | ctrl | cmd => exact absurd hr (by decide)
  | _ => exact ⟨rfl, rfl⟩

/-- The running command does not look at the parameter registers (10_state.md R56). -/
theorem commandSideBySide_withParams (i : Instr) (p : Params) :
    CommandSideBySide i (fun s t => t = s.withParams p) fun _ => True where
  mem h := h ▸ rfl
  platform h := h ▸ rfl
  latched h := h ▸ rfl
  fresh h := h ▸ rfl
  write h _ _ := h ▸ rfl
  codes _ _ := trivial
  takesBitmap _ _ _ _ h := h ▸ rfl
  takesLut _ _ _ _ _ _ h := h ▸ rfl
  takesCodes _ _ _ _ _ h := h ▸ rfl
  sameBitmap _ _ _ h := h ▸ rfl
  sameLut _ _ _ h := h ▸ rfl
  sameCodes _ _ _ h := h ▸ rfl
  valid := .inl trivial

theorem State.failData_withParams (s : State) (i : Instr) (e : Raise) (p : Params) :
    (s.withParams p).failData i e = (s.failData i e).withParams p := by
  unfold State.failData
  split <;> rfl

theorem exec_withParams_of_next {i : Instr} {s t : State} (p : Params) (h : exec i s = .next t) :
    exec i (s.withParams p) = .next (t.withParams p) := by
  rw [exec_eq] at h ⊢
  obtain ⟨hd, ⟨e, he, rfl⟩ | ⟨hn, r, s', hb, rfl⟩ | ⟨hn, e, s', hb, rfl⟩⟩ := runCommand_next h
  · exact runCommand_paramError (s := s.withParams p) hd he
  · have ends := agrees_dataPhase (commandSideBySide_withParams i p) (s.clearValid i) _ rfl
    rw [hb] at ends
    generalize hb' : dataPhase i ((s.clearValid i).withParams p) = result at ends
    cases ends with
    | ok states =>
      subst states
      exact runCommand_ok (s := s.withParams p) hd hn hb'
  · have ends := agrees_dataPhase (commandSideBySide_withParams i p) (s.clearValid i) _ rfl
    rw [hb] at ends
    generalize hb' : dataPhase i ((s.clearValid i).withParams p) = result at ends
    cases ends with
    | error states =>
      subst states
      rw [← State.failData_withParams]
      exact runCommand_error (s := s.withParams p) hd hn hb'

theorem exec_eq_refused {i : Instr} {s : State} {r : Refusal} (h : exec i s = .refused r) :
    touchesDevice i s = true ∧ r = .nonIdempotentRegion := by
  rw [exec_eq] at h
  cases hd : touchesDevice i s with
  | true =>
    rw [runCommand_refused hd] at h
    cases h
    exact ⟨rfl, rfl⟩
  | false =>
    obtain ⟨t, ht⟩ := runCommand_completes i (dataPhase i) s hd
    rw [ht] at h
    cases h

/-- Settles O46: a write of such a register reaches that register only, and a command runs alike with other parameters. -/
theorem parameterWritesAnyTime : Obligations.ParameterWritesAnyTime := by
  unfold Obligations.ParameterWritesAnyTime
  refine ⟨fun s r v rest due hq hr => ?_, fun i s p => ?_⟩
  · obtain ⟨kept, raced, queue⟩ := (s.arrive rest).writeReg_anyTime_kept v hr
    have stays : ((s.arrive rest).writeReg r v).busy = s.busy := by rw [State.busy, kept.phase]; rfl
    refine ⟨_, step_regWrite due hq fun busy => stays ▸ busy, ?_, fun r' hne => ?_, kept.latched, kept.phase, kept.mem,
      ⟨kept.tables.bitmap, kept.tables.lut, kept.tables.lutKind, kept.tables.codes⟩, raced, queue⟩
    · rw [State.respond_readReg, State.readReg_writeReg_same _ v hr, State.arrive_readReg]
    · rw [State.respond_readReg, State.readReg_writeReg_of_ne _ v hr hne, State.arrive_readReg]
  · cases h : exec i s with
    | next t => exact exec_withParams_of_next p h
    | fault f => exact absurd h (exec_ne_fault i s f)
    | refused r =>
      obtain ⟨hd, rfl⟩ := exec_eq_refused h
      exact (exec_eq i _).trans (runCommand_refused (s := s.withParams p) hd)

/-! ### Reserved offsets and bits -/

/-- Settles O47: no register answers such an access, and no register holds or stores a reserved bit. -/
theorem reservedAndMalformedAccesses : Obligations.ReservedAndMalformedAccesses := by
  unfold Obligations.ReservedAndMalformedAccesses
  refine ⟨fun s width off v h => ?_, fun s off v aligned reserved => ?_, fun s r reserved h => ?_⟩
  · have malformed := registerAccessOk_eq_false h
    exact ⟨by simp [hostRegWrite, malformed], by simp [hostRegRead, malformed]⟩
  · have ok : registerAccessOk .w32 off = true := by simp [registerAccessOk, aligned]
    have noReg := regAt_eq_none reserved
    exact ⟨by simp [hostRegWrite, ok, noReg], by simp [hostRegRead, ok, noReg]⟩
  · have statusMask : ∀ i < 32, (0xFFF000FC : Word32).getLsbD i = true → (2 ≤ i ∧ i < 8) ∨ 20 ≤ i := by decide
    have high16 : ∀ i < 32, (0xFFFF0000 : Word32).getLsbD i = true → 16 ≤ i := by decide
    simp only [List.mem_cons, List.not_mem_nil, or_false, Prod.mk.injEq] at h
    obtain ⟨rfl, rfl⟩ | ⟨rfl, rfl⟩ | ⟨rfl, rfl⟩ | ⟨rfl, rfl⟩ | ⟨rfl, rfl⟩ | ⟨rfl, rfl⟩ | ⟨rfl, rfl⟩ | ⟨rfl, rfl⟩
      | ⟨rfl, rfl⟩ := h
    · exact ⟨show Config.capsValue &&& _ = 0 by decide, fun _ => rfl⟩
    · refine ⟨show (0 : Word32) &&& _ = 0 by decide, fun v => ?_⟩
      have bit : (v &&& ~~~0xFFFFFFFE).getLsbD 0 = v.getLsbD 0 := by
        rw [BitVec.getLsbD_and, show (~~~0xFFFFFFFE : Word32).getLsbD 0 = true by decide, Bool.and_true]
      rw [State.writeReg, State.writeReg, bit]
    · exact ⟨and_eq_zero_of_bits fun i hi hm => s.statusWord_reserved (statusMask i hi hm), fun _ => rfl⟩
    · have high : ∀ i < 32, (0xFFFFFFF8 : Word32).getLsbD i = true → 3 ≤ i := by decide
      exact ⟨setWidth_and_eq_zero _ high, fun v => by rw [State.writeReg, State.writeReg, setWidth_and_not v high]⟩
    · have high : ∀ i < 32, (0xFFFFFFF8 : Word32).getLsbD i = true → 3 ≤ i := by decide
      exact ⟨setWidth_and_eq_zero _ high, fun v => by rw [State.writeReg, State.writeReg, setWidth_and_not v high]⟩
    · exact ⟨setWidth_and_eq_zero _ high16, fun v => by rw [State.writeReg, State.writeReg, setWidth_and_not v high16]⟩
    all_goals exact ⟨setWidth_and_eq_zero _ high16, fun _ => rfl⟩

/-! ### The map as a whole, and CMD while busy -/

/-- STATUS shows BUSY and DONE never together in a sound state (10_state.md R36). -/
theorem State.Inv.not_busy_and_done {s : State} (h : s.Inv) : ¬ (s.busy = true ∧ s.done = true) := fun ⟨busy, done⟩ => by
  rw [(h.quiet busy).1] at done
  cases done

/-- Settles O48: each register stands at its offset and reads its field. -/
theorem registerReads : Obligations.RegisterReads := by
  unfold Obligations.RegisterReads
  refine ⟨fun s v p hp => ?_, fun s => ?_, fun s t e r h => ?_, fun s v => ⟨fun r hr => ?_, fun hv => ?_⟩⟩
  · have offset : regOffset p.1 = p.2 := by
      revert p
      decide
    rw [← offset]
    exact ⟨rfl, hostRegRead_regOffset p.1 s, hostRegWrite_regOffset p.1 v s⟩
  · have fill : s.statusWord.extractLsb' 2 6 = 0 := BitVec.eq_of_getLsbD_eq fun i hi => by
      rw [BitVec.getLsbD_extractLsb', s.statusWord_reserved (.inl (by omega)), Bool.and_false]
      exact BitVec.getLsbD_zero.symm
    have top : s.statusWord.extractLsb' 20 12 = 0 := BitVec.eq_of_getLsbD_eq fun i hi => by
      rw [BitVec.getLsbD_extractLsb', s.statusWord_reserved (.inr (by omega)), Bool.and_false]
      exact BitVec.getLsbD_zero.symm
    have exclusive (hs : s.Inv) : ¬ (s.statusWord.getLsbD 0 = true ∧ s.statusWord.getLsbD 1 = true) := by
      rw [s.statusWord_busy, s.statusWord_done]
      exact hs.not_busy_and_done
    exact ⟨rfl, rfl, rfl, rfl, s.statusWord_busy, s.statusWord_done, s.statusWord_errcode, s.statusWord_bitmap,
      s.statusWord_lut, s.statusWord_lutKind, s.statusWord_codes, fill, top, exclusive, rfl, rfl, rfl, rfl, rfl, rfl, rfl,
      rfl, rfl, rfl, rfl, rfl, rfl⟩
  · simp only [State.readReg, h.results, and_self]
  · simp only [List.mem_cons, List.not_mem_nil, or_false] at hr
    obtain rfl | rfl | rfl | rfl | rfl | rfl | rfl | rfl | rfl | rfl | rfl := hr <;> rfl
  · exact if_neg (Bool.eq_false_iff.1 hv)

theorem State.writeReg_cmd_of_busy {s : State} {w : Word32} (v : Word32) (h : s.phase = .busy w) :
    s.writeReg .cmd v = { s with irqStatus := s.irqStatus ||| 0b100 } := by
  rw [State.writeReg, State.writeCmd, h]
  simp only [irqNext_no_clear]
  rfl

/-- Settles O49: a CMD write that finds the engine busy sets OVERRUN and no more. -/
theorem cmdWriteWhileBusyIsDropped : Obligations.CmdWriteWhileBusyIsDropped := by
  unfold Obligations.CmdWriteWhileBusyIsDropped
  intro s w v rest hw hdelay hq
  have due : s.engineDue = false := by simp [State.engineDue, hq, Nat.ne_of_gt hdelay]
  have write := State.writeReg_cmd_of_busy (s := s.arrive rest) v hw
  refine ⟨_, step_regWrite due hq fun _ => s.busy_of_busy w hw, ?_⟩
  rw [write]
  exact ⟨rfl, hw, rfl, rfl, rfl, rfl, rfl, rfl, rfl, ⟨rfl, rfl, rfl, rfl⟩, rfl, rfl⟩

/-! ### Reset -/

/-- What a reset leaves, whatever the state before it (10_state.md R67). -/
theorem State.blockReset_readReg (s : State) {r : Reg} (hid : r ≠ .id) (hcaps : r ≠ .caps) :
    s.blockReset.readReg r = 0 := by
  cases r with
  | id => exact absurd rfl hid
  | caps => exact absurd rfl hcaps
  | status =>
    simp only [State.readReg, State.statusWord, State.busy, State.blockReset_phase, State.blockReset_done,
      State.blockReset_errcode, State.blockReset_bitmap, State.blockReset_lut, State.blockReset_lutKind,
      State.blockReset_codes]
    decide
  | _ => rfl

/-- Settles O51: hardware and soft reset are one operation, which leaves the reset values. -/
theorem resetValues : Obligations.ResetValues := by
  unfold Obligations.ResetValues
  have values (s : State) : s.blockReset.phase = .idle ∧ s.blockReset.irqLevel = false ∧ s.blockReset.bitmap = none
      ∧ s.blockReset.lut = none ∧ s.blockReset.codes = none ∧ s.blockReset.readReg .id = 0x50495A01
      ∧ s.blockReset.readReg .caps = 0x00013A0E ∧ ∀ r, r ≠ Reg.id → r ≠ .caps → s.blockReset.readReg r = 0 :=
    ⟨rfl, by simp [State.irqLevel], rfl, rfl, rfl, rfl, rfl, fun _ hid hcaps => s.blockReset_readReg hid hcaps⟩
  rintro s t (rfl | rfl | ⟨v, hv, rfl⟩)
  -- The start state is a reset one but for the model's own count, which no register shows.
  · exact values State.reset
  · exact values s
  · rw [State.writeReg, if_pos hv]
    exact values s

/-- Settles O58: after reset nothing is stored, no table is there and no command runs. -/
theorem invariantHoldsAtReset : Obligations.InvariantHoldsAtReset := by
  unfold Obligations.InvariantHoldsAtReset
  have start : State.reset.canonical := ⟨rfl, (fun _ h => by cases h), (fun _ h => by cases h)⟩
  exact ⟨start.inv (State.busyQuiet_of_idle rfl), fun a _ => Memory.read_nil a⟩

end Sys2Proof.Machine
end

section
/-! SUPPORT and the proof of O42: where a data phase writes, and that a bus without errors raises no BUS_ERROR. -/

namespace Sys2Proof.Machine

/-! ### A bus without errors -/

theorem TableReader.get_ne_busError {k : Nat} {r : TableReader} : r.get (fun _ => false) k ≠ .error .busError := by
  unfold TableReader.get
  split
  · simp
  · split <;> simp

/-- A packed table that is read without bus errors is not ended by one. -/
theorem unpackFrom_ne_busError {iM fuel i : Nat} {r : TableReader} :
    unpackFrom (fun _ => false) iM fuel i r ≠ .error .busError := by
  induction fuel generalizing i r with
  | zero => simp [unpackFrom]
  | succ fuel ih =>
    intro h
    rw [unpackFrom] at h
    split at h
    · cases h
    · split at h
      · rename_i he
        cases h
        exact TableReader.get_ne_busError he
      · split at h
        · split at h
          · rename_i he
            cases h
            exact TableReader.get_ne_busError he
          · split at h
            · exact ih h
            · cases h
        · split at h
          · split at h
            · exact ih h
            · cases h
          · split at h
            · rename_i he
              cases h
              exact ih he
            · cases h

/-- No access of the stream decoder fails on the bus. -/
abbrev noFault : Nat → Nat → Bool := fun _ _ => false

theorem emit_ne_busError {iM no sym stop : Nat} {d : Decoding} :
    emit noFault noFault iM no sym stop d ≠ .error .busError := by
  unfold emit
  dsimp only
  split
  · split
    · simp
    · rw [if_neg Bool.false_ne_true]
      split
      · simp
      · split <;> simp
  · split <;> simp

theorem findLong_ne_busError {stop : Nat} {d : Decoding} {t : CodeTable} :
    findLong noFault stop d t ≠ .error .busError := by
  induction t with
  | nil => simp [findLong]
  | cons c rest ih =>
    rw [findLong, if_neg Bool.false_ne_true]
    split
    · split
      · simp
      · exact ih
    · exact ih

theorem phase1_ne_busError {placed : CodeTable} {iM no stop fuel : Nat} {d : Decoding} :
    phase1 noFault noFault placed iM no stop fuel d ≠ .error .busError := by
  have turn (d : Decoding) : phase1Step noFault noFault placed iM no stop d ≠ .error .busError := by
    unfold phase1Step
    rw [if_neg Bool.false_ne_true]
    dsimp only
    split
    · exact emit_ne_busError
    · split
      · rename_i he
        intro h
        cases h
        exact findLong_ne_busError he
      · exact emit_ne_busError
  induction fuel generalizing d with
  | zero => simp [phase1]
  | succ fuel ih =>
    rw [phase1]
    split
    · split
      · rename_i he
        intro h
        cases h
        exact turn d he
      · exact ih
    · simp

theorem phase2_ne_busError {placed : CodeTable} {iM no nBits fuel : Nat} {d : Decoding} :
    phase2 noFault noFault placed iM no nBits fuel d ≠ .error .busError := by
  have turn (d : Decoding) : phase2Step noFault noFault placed iM no nBits d ≠ .error .busError := by
    unfold phase2Step
    rw [if_neg Bool.false_ne_true]
    split
    · split
      · exact emit_ne_busError
      · simp
    · simp
  induction fuel generalizing d with
  | zero => simp [phase2]
  | succ fuel ih =>
    rw [phase2]
    split
    · split
      · rename_i he
        intro h
        cases h
        exact turn d he
      · exact ih
    · simp

/-- A coded stream that is read and decoded without bus errors is not ended by one. -/
theorem decodeStream_ne_busError {placed : CodeTable} {iM no nBits : Nat} {stream : Bits} :
    decodeStream noFault noFault placed iM no nBits stream ≠ .error .busError := by
  intro h
  unfold decodeStream at h
  split at h
  · rename_i he
    cases h
    exact phase1_ne_busError he
  · split at h
    · cases h
    · split at h
      · rename_i he
        cases h
        exact phase2_ne_busError he
      · split at h <;> cases h

/-! ### Lengths of what is written -/

/-- All that Emit does when it answers: samples written after an access for them that does not fail, and for a count eight
bits read (42_huffman_decode.md R316). -/
theorem emit_ok {rd wr : Nat → Nat → Bool} {iM no sym stop : Nat} {d d' : Decoding}
    (h : emit rd wr iM no sym stop d = .ok d') :
    (∃ xs : List Sample, d'.written = xs ++ d.written ∧ d'.out = d.out + xs.length ∧ wr d.out xs.length = false)
      ∧ (d'.pos = d.pos ∨ (d'.pos = d.pos + 8 ∧ rd d.pos 8 = false)) := by
  unfold emit at h
  dsimp only at h
  split at h
  · split at h
    · cases h
    · split at h
      · cases h
      · rename_i hrd
        split at h
        · cases h
        · split at h
          · cases h
          · rename_i prev _ _
            split at h
            · cases h
            · rename_i hwr
              cases h
              exact ⟨⟨List.replicate _ prev, rfl, by rw [List.length_replicate]; rfl, by
                rw [List.length_replicate]; exact eq_false_of_ne_true hwr⟩, .inr ⟨rfl, eq_false_of_ne_true hrd⟩⟩
  · split at h
    · cases h
    · split at h
      · cases h
      · rename_i hwr
        cases h
        exact ⟨⟨[_], rfl, rfl, eq_false_of_ne_true hwr⟩, .inl rfl⟩

/-- The code that the search of DLIST finds was read without a bus error (42_huffman_decode.md R314). -/
theorem findLong_ok {rd : Nat → Nat → Bool} {stop : Nat} {d : Decoding} {t : CodeTable} {e : CodeEntry}
    (h : findLong rd stop d t = .ok e) : rd d.pos e.len.toNat = false := by
  induction t with
  | nil => cases h
  | cons c rest ih =>
    rw [findLong] at h
    split at h
    · split at h
      · cases h
      · rename_i hrd
        split at h
        · cases h
          exact eq_false_of_ne_true hrd
        · exact ih h
    · exact ih h

/-- A turn of phase 1 reads fourteen bits, then the bits of a longer code if it is one, and emits. -/
theorem phase1Step_ok {rd wr : Nat → Nat → Bool} {placed : CodeTable} {iM no stop : Nat} {d d' : Decoding}
    (h : phase1Step rd wr placed iM no stop d = .ok d') :
    rd d.pos 14 = false ∧ ∃ e : CodeEntry, (e.len.toNat ≤ 14 ∨ rd d.pos e.len.toNat = false)
      ∧ emit rd wr iM no e.sym stop (d.skip e.len.toNat) = .ok d' := by
  unfold phase1Step at h
  dsimp only at h
  split at h
  · cases h
  · rename_i hrd
    refine ⟨eq_false_of_ne_true hrd, ?_⟩
    split at h
    · rename_i e he
      have short := List.find?_some he
      simp only [CodeEntry.isShort, Bool.and_eq_true, decide_eq_true_eq] at short
      exact ⟨e, .inl short.1, h⟩
    · split at h
      · cases h
      · rename_i e he
        exact ⟨e, .inr (findLong_ok he), h⟩

/-- A turn of phase 2 reads all bits that remain, takes a code no longer than they are, and emits. -/
theorem phase2Step_ok {rd wr : Nat → Nat → Bool} {placed : CodeTable} {iM no nBits : Nat} {d d' : Decoding}
    (h : phase2Step rd wr placed iM no nBits d = .ok d') :
    rd d.pos (nBits - d.pos) = false ∧ ∃ e : CodeEntry, e.len.toNat ≤ nBits - d.pos
      ∧ emit rd wr iM no e.sym nBits (d.skip e.len.toNat) = .ok d' := by
  unfold phase2Step at h
  dsimp only at h
  split at h
  · cases h
  · rename_i hrd
    refine ⟨eq_false_of_ne_true hrd, ?_⟩
    split at h
    · split at h
      · rename_i e _ fits
        exact ⟨e, fits, h⟩
      · cases h
    · cases h

/-- What every turn of phase 1 keeps holds after it. -/
theorem phase1_keeps {rd wr : Nat → Nat → Bool} {placed : CodeTable} {iM no stop fuel : Nat} {Q : Decoding → Prop}
    (turn : ∀ d d', Q d → phase1Step rd wr placed iM no stop d = .ok d' → Q d') {d d' : Decoding} (hd : Q d)
    (h : phase1 rd wr placed iM no stop fuel d = .ok d') : Q d' := by
  induction fuel generalizing d with
  | zero => cases h; exact hd
  | succ fuel ih =>
    rw [phase1] at h
    split at h
    · split at h
      · cases h
      · rename_i hs
        exact ih (turn _ _ hd hs) h
    · cases h; exact hd

/-- What every turn of phase 2 keeps holds after it. -/
theorem phase2_keeps {rd wr : Nat → Nat → Bool} {placed : CodeTable} {iM no nBits fuel : Nat} {Q : Decoding → Prop}
    (turn : ∀ d d', Q d → phase2Step rd wr placed iM no nBits d = .ok d' → Q d') {d d' : Decoding} (hd : Q d)
    (h : phase2 rd wr placed iM no nBits fuel d = .ok d') : Q d' := by
  induction fuel generalizing d with
  | zero => cases h; exact hd
  | succ fuel ih =>
    rw [phase2] at h
    split at h
    · split at h
      · cases h
      · rename_i hs
        exact ih (turn _ _ hd hs) h
    · cases h; exact hd

/-- A stream that decodes went through both phases, to the end of its bits or past none of them. -/
theorem decodeStream_ok {rd wr : Nat → Nat → Bool} {placed : CodeTable} {iM no nBits : Nat} {stream : Bits}
    {xs : List Sample} (h : decodeStream rd wr placed iM no nBits stream = .ok xs) :
    ∃ d d', phase1 rd wr placed iM no stream.length stream.length ⟨0, stream, 0, []⟩ = .ok d ∧ d.pos ≤ nBits
      ∧ phase2 rd wr placed iM no nBits (nBits - d.pos) d = .ok d' ∧ d'.out = no ∧ xs = d'.written.reverse := by
  unfold decodeStream at h
  split at h
  · cases h
  · rename_i d h1
    split at h
    · cases h
    · rename_i hpos
      split at h
      · cases h
      · rename_i d' h2
        split at h
        · rename_i hout
          cases h
          exact ⟨d, d', h1, not_not.1 hpos, h2, hout, rfl⟩
        · cases h

/-- The decoder counts the samples that it has written (42_huffman_decode.md R313). -/
abbrev Decoding.counted (d : Decoding) : Prop := d.written.length = d.out

theorem emit_counted {rd wr : Nat → Nat → Bool} {iM no sym stop l : Nat} {d d' : Decoding} (hd : d.counted)
    (h : emit rd wr iM no sym stop (d.skip l) = .ok d') : d'.counted := by
  obtain ⟨⟨xs, written, out, -⟩, -⟩ := emit_ok h
  rw [Decoding.counted, written, out, List.length_append, Nat.add_comm]
  exact congrArg (· + _) hd

/-- A stream decodes to as many samples as were asked for (42_huffman_decode.md R317). -/
theorem decodeStream_length {rd wr : Nat → Nat → Bool} {placed : CodeTable} {iM no nBits : Nat} {stream : Bits}
    {xs : List Sample} (h : decodeStream rd wr placed iM no nBits stream = .ok xs) : xs.length = no := by
  obtain ⟨d, d', h1, -, h2, rfl, rfl⟩ := decodeStream_ok h
  have start : Decoding.counted ⟨0, stream, 0, []⟩ := rfl
  have middle := phase1_keeps (fun _ _ hd hs => have ⟨_, _, _, he⟩ := phase1Step_ok hs; emit_counted hd he) start h1
  have last := phase2_keeps (fun _ _ hd hs => have ⟨_, _, _, he⟩ := phase2Step_ok hs; emit_counted hd he) middle h2
  rw [List.length_reverse, last]

theorem bytesOfBitsFrom_length (s : Bits) (k acc : Nat) (hk : k < 8) :
    (bytesOfBitsFrom s k acc).length = byteCount (k + s.length) := by
  induction s generalizing k acc with
  | nil =>
    rw [bytesOfBitsFrom, byteCount]
    split <;> simp only [List.length_nil, List.length_singleton] <;> omega
  | cons b rest ih =>
    rw [bytesOfBitsFrom]
    split
    · rw [List.length_cons, ih 0 0 (by omega)]
      simp only [byteCount, List.length_cons]
      omega
    · rw [ih _ _ (by omega)]
      simp only [byteCount, List.length_cons]
      omega

/-- A bit string takes whole bytes (00_scope.md R15). -/
theorem bytesOfBits_length (s : Bits) : (bytesOfBits s).length = byteCount s.length := by
  rw [bytesOfBits, bytesOfBitsFrom_length s 0 0 (by omega), Nat.zero_add]

theorem Encoded.block_length (e : Encoded) : e.block.length = e.blockLength := by
  simp only [Encoded.block, huffmanBlock, Encoded.blockLength, List.length_append, leBytes_length, bytesOfBits_length]

theorem Bitmap.block_length (b : Bitmap) (mn mx : Nat) : (b.block mn mx).length = 4 + sliceSize mn mx := by
  simp only [Bitmap.block, List.length_append, leBytes_length, List.length_map, List.length_range']

theorem Lut.entries_length (t : Lut) : t.entries.length = 65536 := sparseRun_length ..

theorem CodeTable.dump_length (t : CodeTable) : t.dump.length = 524296 := by
  rw [CodeTable.dump, List.length_flatMap, List.map_congr_left (g := fun _ => 8) fun w _ => leBytes_length 8 _,
    List.map_const', List.sum_replicate, sparseRun_length]
  rfl

/-! ### Grids -/

/-- A leftover column or row of a level is a whole pair of points (43_wavelet.md R359). -/
theorem leftover_iff {p : Nat} (hp : ∃ j, p = 2 ^ j) (n : Nat) :
    n &&& p ≠ 0 ↔ n / (2 * p) * (2 * p) + p ≤ n := by
  obtain ⟨j, rfl⟩ := hp
  have pos : 0 < 2 ^ j := Nat.two_pow_pos j
  have half : n / (2 * 2 ^ j) = n / 2 ^ j / 2 := by rw [Nat.mul_comm, Nat.div_div_eq_div_mul]
  have whole : n / 2 ^ j * 2 ^ j ≤ n := Nat.div_mul_le_self ..
  have next : n < (n / 2 ^ j + 1) * 2 ^ j := by
    have := Nat.lt_div_mul_add (a := n) pos
    rwa [Nat.add_mul, Nat.one_mul]
  rw [Nat.and_two_pow, Nat.testBit_eq_decide_div_mod_eq, half]
  generalize n / 2 ^ j = q at *
  generalize 2 ^ j = p at *
  have split : q / 2 * (2 * p) = 2 * (q / 2) * p := by ring
  by_cases odd : q % 2 = 1
  · have e : q = 2 * (q / 2) + 1 := by omega
    have : q / 2 * (2 * p) + p = q * p := by rw [split]; conv_rhs => rw [e, Nat.add_mul, Nat.one_mul]
    simp only [odd, decide_true, Bool.toNat_true]
    omega
  · have e : q = 2 * (q / 2) := by omega
    have : q / 2 * (2 * p) = q * p := by rw [split, ← e]
    rw [Nat.add_mul, Nat.one_mul] at next
    simp only [odd, decide_false, Bool.toNat_false]
    omega

theorem mem_levels {nx ny p : Nat} (h : p ∈ levels nx ny) : (∃ j, p = 2 ^ j) ∧ 2 * p ≤ min nx ny := by
  simp only [levels, List.mem_filter, List.mem_map, decide_eq_true_eq] at h
  obtain ⟨⟨j, -, rfl⟩, fits⟩ := h
  exact ⟨⟨j, rfl⟩, fits⟩

/-- The corner of a box of a level, with the opposite corner inside the grid. -/
theorem box_lt {n p k : Nat} (hp : 0 < p) (h : k < n / (2 * p)) : k * (2 * p) + p < n := by
  have := Nat.div_mul_le_self n (2 * p)
  have : (k + 1) * (2 * p) ≤ n / (2 * p) * (2 * p) := Nat.mul_le_mul_right _ h
  rw [Nat.add_mul] at this
  omega

/-- The points of a grid lie in its region (43_wavelet.md R360). -/
theorem Grid.addr_lt (g : Grid) {x y : Nat} (hx : x < g.nx) (hy : y < g.ny) :
    g.addr x y + 2 ≤ g.base + 2 * ((g.nx - 1) * g.ox + (g.ny - 1) * g.oy + 1) := by
  have h1 : x * g.ox ≤ (g.nx - 1) * g.ox := Nat.mul_le_mul_right _ (by omega)
  have h2 : y * g.oy ≤ (g.ny - 1) * g.oy := Nat.mul_le_mul_right _ (by omega)
  simp only [Grid.addr]
  omega

theorem gridExtent_of_pos {l : Params} (hx : 0 < l.nx.toNat) (hy : 0 < l.ny.toNat) :
    gridExtent l = 2 * ((l.nx.toNat - 1) * l.ox.toNat + (l.ny.toNat - 1) * l.oy.toNat + 1) := by
  refine if_neg ?_
  rintro (h | h) <;> simp [h] at hx hy

/-- The planes of a channel lie in the channel's samples (44_piz.md R392). -/
theorem mem_planes {a : Nat} {ds : List Desc} {start : Nat} {g : Grid} (h : g ∈ planesFrom a start ds) :
    ∃ s c j, c ∈ ds ∧ j < c.size ∧ start ≤ s ∧ s + c.samples ≤ start + (ds.map Desc.samples).sum
      ∧ g = ⟨a + 2 * (s + j), c.nx, c.ny, c.size, c.nx * c.size⟩ := by
  induction ds generalizing start with
  | nil => cases h
  | cons c rest ih =>
    rw [planesFrom] at h
    rcases List.mem_append.1 h with h | h
    · obtain ⟨j, hj, rfl⟩ := List.mem_map.1 h
      exact ⟨start, c, j, List.mem_cons_self, List.mem_range.1 hj, le_rfl, by simp, rfl⟩
    · obtain ⟨s, c', j, hc, hj, lo, hi, rfl⟩ := ih h
      exact ⟨s, c', j, List.mem_cons_of_mem _ hc, hj, by omega, by simp only [List.map_cons, List.sum_cons]; omega, rfl⟩

/-- The points of a plane lie in the sample buffer that the descriptors describe (44_piz.md R391, R392). -/
theorem plane_addr {a n : Nat} {ds : List Desc} (hn : (ds.map Desc.samples).sum = n) {g : Grid} (h : g ∈ planes a ds)
    {x y : Nat} (hx : x < g.nx) (hy : y < g.ny) : a ≤ g.addr x y ∧ g.addr x y + 2 ≤ a + 2 * n := by
  obtain ⟨s, c, j, -, hj, -, hi, rfl⟩ := mem_planes h
  simp only at hx hy
  have row : y * (c.nx * c.size) + c.nx * c.size ≤ c.samples := by
    have : (y + 1) * (c.nx * c.size) ≤ c.ny * (c.nx * c.size) := Nat.mul_le_mul_right _ hy
    have e : c.samples = c.ny * (c.nx * c.size) := by rw [Desc.samples]; ring
    rw [e]
    rwa [Nat.add_mul, Nat.one_mul] at this
  have column : x * c.size + c.size ≤ c.nx * c.size := by
    have : (x + 1) * c.size ≤ c.nx * c.size := Nat.mul_le_mul_right _ hx
    rwa [Nat.add_mul, Nat.one_mul] at this
  simp only [Grid.addr]
  omega

/-! ### Where a data phase writes -/

/-- A property of states that a data phase keeps as long as it writes bytes of `W` only; BUS_ERROR is among the codes `E` unless
the property excludes it. -/
structure Confined (W : Nat → Prop) (P : State → Prop) (E : ErrCode → Prop) : Prop where
  write : ∀ s a bs, (∀ k, a ≤ k → k < a + bs.length → W k) → P s → P (s.withMem (s.mem.write a bs))
  bitmap : ∀ s b, P s → P (s.withBitmap b)
  lut : ∀ s k t, P s → P (s.withLut k t)
  codes : ∀ s t, P s → P (s.withCodes t)
  bus : E .busError ∨ ∀ s a n, P s → s.readFails a n = false ∧ s.writeFails a n = false

/-- Every code but BUS_ERROR is among the codes. -/
abbrev AllButBus (E : ErrCode → Prop) : Prop := ∀ e, e ≠ .busError → E e

/-- The loop's turns are below its bound. -/
theorem agrees_forUpTo_of_lt {S : State → State → Prop} {E : ErrCode → Prop} (n : Nat) (f : Nat → Run Unit)
    (hf : ∀ k < n, Run.Agrees S E (f k)) : Run.Agrees S E (forUpTo n f) := by
  induction n with
  | zero => exact agrees_pure _
  | succ n ih => exact agrees_bind (ih fun k hk => hf k (by omega)) fun _ => hf n (by omega)

theorem agrees_forEach_of_mem {S : State → State → Prop} {E : ErrCode → Prop} {α : Type} (l : List α)
    (f : α → Run Unit) (hf : ∀ a ∈ l, Run.Agrees S E (f a)) : Run.Agrees S E (forEach l f) := by
  induction l with
  | nil => exact agrees_pure _
  | cons a rest ih =>
    exact agrees_bind (hf a List.mem_cons_self) fun _ => ih fun b hb => hf b (List.mem_cons_of_mem _ hb)

/-- A part that looks at the state goes on knowing what is known of it. -/
theorem confined_get {P : State → Prop} {E : ErrCode → Prop} {β : Type} {f : State → Run β}
    (hf : ∀ s, P s → Run.Agrees (Alone P) E (f s)) : Run.Agrees (Alone P) E (get >>= f) := by
  rintro s t ⟨rfl, hs⟩
  exact hf t hs t t ⟨rfl, hs⟩

section
variable {W : Nat → Prop} {P : State → Prop} {E : ErrCode → Prop} (hP : Confined W P E)
include hP

omit hP in
theorem confined_modify {f : State → State} (hf : ∀ s, P s → P (f s)) : Run.Agrees (Alone P) E (modify f : Run Unit) :=
  agrees_modify f fun s _ h => ⟨h.1 ▸ rfl, hf s h.2⟩

omit hP in
theorem confined_require (others : AllButBus E) (c : Bool) {e : ErrCode} (he : e ≠ .busError) :
    Run.Agrees (Alone P) E (require c e) := by
  unfold require
  split
  · exact agrees_pure _
  · exact fun _ _ h => .error h (others e he)

omit hP in
theorem confined_raiseClean (others : AllButBus E) {α : Type} {e : ErrCode} (he : e ≠ .busError) :
    Run.Agrees (Alone P) E (raiseClean e : Run α) :=
  fun _ _ h => .error h (others e he)

theorem confined_dmaRead (a n : Nat) : Run.Agrees (Alone P) E (dmaRead a n) := by
  rintro s t ⟨rfl, hs⟩
  rw [dmaRead_eq]
  split
  · rename_i fails
    refine .error ⟨rfl, hs⟩ (hP.bus.resolve_right fun none => ?_)
    rw [(none t a n hs).1] at fails
    cases fails
  · exact .ok ⟨rfl, hs⟩

theorem confined_dmaWrite (a : Nat) (bs : List Byte) (h : ∀ k, a ≤ k → k < a + bs.length → W k) :
    Run.Agrees (Alone P) E (dmaWrite a bs) := by
  rintro s t ⟨rfl, hs⟩
  rw [dmaWrite_eq]
  split
  · rename_i fails
    refine .error ⟨rfl, hs⟩ (hP.bus.resolve_right fun none => ?_)
    rw [(none t a _ hs).2] at fails
    cases fails
  · exact .ok ⟨rfl, hP.write t a bs h hs⟩

theorem confined_rdLe (a n : Nat) : Run.Agrees (Alone P) E (rdLe a n) :=
  agrees_bind (confined_dmaRead hP a n) fun _ => agrees_pure _

theorem confined_rd16 (a : Nat) : Run.Agrees (Alone P) E (rd16 a) :=
  agrees_bind (confined_dmaRead hP a 2) fun _ => agrees_pure _

theorem confined_wr16 {a : Nat} (v : Sample) (h : W a ∧ W (a + 1)) : Run.Agrees (Alone P) E (wr16 a v) := by
  refine confined_dmaWrite hP _ _ fun k lo hi => ?_
  rw [bytesOfSamples_length, List.length_singleton] at hi
  obtain rfl | rfl : k = a ∨ k = a + 1 := by omega
  · exact h.1
  · exact h.2

theorem confined_readSamples (a n : Nat) : Run.Agrees (Alone P) E (readSamples a n) :=
  agrees_bind (confined_dmaRead hP _ _) fun _ => agrees_pure _

theorem confined_bitmapFromSamples (a n : Nat) : Run.Agrees (Alone P) E (bitmapFromSamples a n) :=
  agrees_bind (confined_readSamples hP a n) fun _ => agrees_pure _

theorem confined_bitmapLoad (others : AllButBus E) (a n : Nat) : Run.Agrees (Alone P) E (bitmapLoad a n) := by
  refine agrees_bind (confined_require others _ (by decide)) fun _ => agrees_bind (confined_rdLe hP _ _) fun _ =>
    agrees_bind (confined_rdLe hP _ _) fun _ => agrees_bind (confined_require others _ (by decide)) fun _ => ?_
  split
  · exact agrees_bind (confined_require others _ (by decide)) fun _ => agrees_bind (confined_dmaRead hP _ _) fun _ =>
      agrees_pure _
  · exact agrees_pure _

theorem confined_applyLut (t : Lut) {a n : Nat} (h : ∀ k, a ≤ k → k < a + 2 * n → W k) :
    Run.Agrees (Alone P) E (applyLut t a n) := by
  refine agrees_bind_returns (confined_readSamples hP a n) (returns_readSamples a n) fun xs hxs =>
    confined_dmaWrite hP _ _ ?_
  rwa [bytesOfSamples_length, List.length_map, hxs]

/-! ### The wavelet -/

theorem confined_pairStep (f : Sample → Sample → Sample × Sample) {i j : Nat} (hi : W i ∧ W (i + 1))
    (hj : W j ∧ W (j + 1)) : Run.Agrees (Alone P) E (pairStep f i j) :=
  agrees_bind (confined_rd16 hP _) fun _ => agrees_bind (confined_rd16 hP _) fun _ =>
    agrees_bind (confined_wr16 hP _ hi) fun _ => confined_wr16 hP _ hj

/-- Four samples read and then written: the shape of a 2x2 box, in either direction. -/
theorem confined_box (i j k l : Nat) {at0 at1 at2 at3 : Nat} (v : Sample → Sample → Sample → Sample → Fin 4 → Sample)
    (h0 : W at0 ∧ W (at0 + 1)) (h1 : W at1 ∧ W (at1 + 1)) (h2 : W at2 ∧ W (at2 + 1)) (h3 : W at3 ∧ W (at3 + 1)) :
    Run.Agrees (Alone P) E (do
      let a ← rd16 i
      let b ← rd16 j
      let c ← rd16 k
      let d ← rd16 l
      wr16 at0 (v a b c d 0)
      wr16 at1 (v a b c d 1)
      wr16 at2 (v a b c d 2)
      wr16 at3 (v a b c d 3)) :=
  agrees_bind (confined_rd16 hP _) fun _ => agrees_bind (confined_rd16 hP _) fun _ =>
    agrees_bind (confined_rd16 hP _) fun _ => agrees_bind (confined_rd16 hP _) fun _ =>
      agrees_bind (confined_wr16 hP _ h0) fun _ => agrees_bind (confined_wr16 hP _ h1) fun _ =>
        agrees_bind (confined_wr16 hP _ h2) fun _ => confined_wr16 hP _ h3

theorem confined_encBox (f : Sample → Sample → Sample × Sample) {g : Grid} {p x y : Nat}
    (hg : ∀ x < g.nx, ∀ y < g.ny, W (g.addr x y) ∧ W (g.addr x y + 1)) (hx : x + p < g.nx) (hy : y + p < g.ny) :
    Run.Agrees (Alone P) E (encBox f g p x y) :=
  confined_box hP _ _ _ _
    (fun a b c d =>
      ![(f (f a b).1 (f c d).1).1, (f (f a b).1 (f c d).1).2, (f (f a b).2 (f c d).2).1, (f (f a b).2 (f c d).2).2])
    (hg _ (by omega) _ (by omega)) (hg _ (by omega) _ hy) (hg _ hx _ (by omega)) (hg _ hx _ hy)

theorem confined_decBox (f : Sample → Sample → Sample × Sample) {g : Grid} {p x y : Nat}
    (hg : ∀ x < g.nx, ∀ y < g.ny, W (g.addr x y) ∧ W (g.addr x y + 1)) (hx : x + p < g.nx) (hy : y + p < g.ny) :
    Run.Agrees (Alone P) E (decBox f g p x y) :=
  confined_box hP _ _ _ _
    (fun a b c d =>
      ![(f (f a b).1 (f c d).1).1, (f (f a b).1 (f c d).1).2, (f (f a b).2 (f c d).2).1, (f (f a b).2 (f c d).2).2])
    (hg _ (by omega) _ (by omega)) (hg _ hx _ (by omega)) (hg _ (by omega) _ hy) (hg _ hx _ hy)

/-- A level stays in the grid: its boxes lie whole in it, and so do its leftover pairs (43_wavelet.md R359). -/
theorem confined_levelPass (f : Sample → Sample → Sample × Sample) {box : Nat → Nat → Run Unit} {g : Grid} {p : Nat}
    (hp : ∃ j, p = 2 ^ j) (hg : ∀ x < g.nx, ∀ y < g.ny, W (g.addr x y) ∧ W (g.addr x y + 1))
    (hb : ∀ x y, x + p < g.nx → y + p < g.ny → Run.Agrees (Alone P) E (box x y)) :
    Run.Agrees (Alone P) E (levelPass f box g p) := by
  have pos : 0 < p := by obtain ⟨j, rfl⟩ := hp; exact Nat.two_pow_pos j
  refine agrees_bind (agrees_forUpTo_of_lt _ _ fun ky hky => agrees_bind (agrees_forUpTo_of_lt _ _ fun kx hkx =>
    hb _ _ (box_lt pos hkx) (box_lt pos hky)) fun _ => ?_) fun _ => ?_
  · have := box_lt pos hky
    split
    · rename_i left
      have := (leftover_iff hp _).1 left
      exact confined_pairStep hP _ (hg _ (by omega) _ (by omega)) (hg _ (by omega) _ (by omega))
    · exact agrees_pure _
  · split
    · rename_i left
      have := (leftover_iff hp _).1 left
      refine agrees_forUpTo_of_lt _ _ fun kx hkx => ?_
      have := box_lt pos hkx
      exact confined_pairStep hP _ (hg _ (by omega) _ (by omega)) (hg _ (by omega) _ (by omega))
    · exact agrees_pure _

theorem confined_wavEncode2D (m : Nat) {g : Grid}
    (hg : ∀ x < g.nx, ∀ y < g.ny, W (g.addr x y) ∧ W (g.addr x y + 1)) :
    Run.Agrees (Alone P) E (wavEncode2D m g) :=
  agrees_forEach_of_mem _ _ fun _ hp => confined_levelPass hP _ (mem_levels hp).1 hg fun _ _ =>
    confined_encBox hP _ hg

theorem confined_wavDecode2D (m : Nat) {g : Grid}
    (hg : ∀ x < g.nx, ∀ y < g.ny, W (g.addr x y) ∧ W (g.addr x y + 1)) :
    Run.Agrees (Alone P) E (wavDecode2D m g) :=
  agrees_forEach_of_mem _ _ fun _ hp => confined_levelPass hP _ (mem_levels (List.mem_reverse.1 hp)).1 hg fun _ _ =>
    confined_decBox hP _ hg

/-! ### The Huffman coders -/

theorem confined_hufCompress (others : AllButBus E) {a n d cap : Nat} (hd : ∀ k, d ≤ k → k < d + cap → W k) :
    Run.Agrees (Alone P) E (hufCompress a n d cap) := by
  unfold hufCompress
  split
  · exact agrees_pure _
  · refine agrees_bind (confined_readSamples hP _ _) fun xs =>
      agrees_bind (agrees_ofExcept _ fun e he => others e (by rw [encodeSamples_error he]; decide)) fun e =>
        agrees_bind (confined_modify fun s => hP.codes s _) fun _ =>
          agrees_bind (confined_require others _ (by decide)) fun _ =>
            agrees_bind_returns (confined_require others _ (by decide)) (returns_require _ _) fun _ fits =>
              agrees_bind (confined_dmaWrite hP _ _ fun k lo hi => hd k lo ?_) fun _ => agrees_pure _
    rw [decide_eq_true_eq] at fits
    rw [e.block_length] at hi
    omega

theorem confined_buildStage (others : AllButBus E) (t : CodeTable) : Run.Agrees (Alone P) E (buildStage t) := by
  rintro s _ ⟨rfl, hs⟩
  rw [buildStage_eq]
  split
  · exact .ok ⟨rfl, hs⟩
  · exact .error ⟨rfl, hP.codes _ _ hs⟩ (others _ (by simp))

/-- The decoder stores as many samples as it was asked for, and meets a bus error only where the bus answers one. -/
theorem confined_hufUncompress (others : AllButBus E) {a n d no : Nat} (hd : ∀ k, d ≤ k → k < d + 2 * no → W k) :
    Run.Agrees (Alone P) E (hufUncompress a n d no) := by
  have coded (e : ErrCode) (h : e = .busError → E .busError) : E e := by
    by_cases he : e = .busError
    · exact he ▸ h he
    · exact others e he
  unfold hufUncompress
  split
  · exact agrees_bind (confined_require others _ (by decide)) fun _ => agrees_pure _
  · refine agrees_bind (confined_rdLe hP _ _) fun im => agrees_bind (confined_rdLe hP _ _) fun iM =>
      agrees_bind (confined_rdLe hP _ _) fun nBits => agrees_bind (confined_require others _ (by decide)) fun _ =>
        agrees_bind (confined_require others _ (by decide)) fun _ => confined_get fun s hs => ?_
    refine agrees_bind (agrees_ofExcept _ fun e he => coded e ?_) fun p =>
      agrees_bind (confined_modify fun s => hP.codes s _) fun _ =>
        agrees_bind (confined_require others _ (by decide)) fun _ =>
          agrees_bind (confined_buildStage hP others _) fun placed =>
            agrees_bind_returns (agrees_ofExcept _ fun e he => coded e ?_) (returns_ofExcept _) fun xs hxs =>
              agrees_bind (confined_modify fun s => hP.write s _ _ ?_) fun _ => agrees_pure _
    · rintro rfl
      refine hP.bus.resolve_right fun none => ?_
      have ff : (fun j => s.readFails (a + Config.hufHdr + j) 1) = fun _ => false := funext fun j => (none s _ _ hs).1
      rw [ff] at he
      exact unpackFrom_ne_busError he
    · rintro rfl
      refine hP.bus.resolve_right fun none => ?_
      have ffr (base : Nat) : s.bitsFail base = noFault := funext fun pos => funext fun k => (none s _ _ hs).1
      have ffw : (fun k m => s.writeFails (d + 2 * k) (2 * m)) = noFault :=
        funext fun k => funext fun m => (none s _ _ hs).2
      rw [ffr, ffw] at he
      exact decodeStream_ne_busError he
    · rwa [bytesOfSamples_length, decodeStream_length hxs]

/-! ### The PIZ sequencer -/

theorem confined_readDescriptors (others : AllButBus E) (a count n : Nat) :
    Run.Agrees (Alone P) E (readDescriptors a count n) := by
  refine agrees_bind (confined_dmaRead hP _ _) fun _ => ?_
  dsimp only
  split
  · exact agrees_pure _
  · exact confined_raiseClean others (by decide)

omit hP in
/-- Descriptors that were read describe the samples (44_piz.md R391). -/
theorem returns_readDescriptors (a count n : Nat) :
    Run.Returns (fun ds => (ds.map Desc.samples).sum = n) (readDescriptors a count n) := by
  refine returns_bind fun bs => ?_
  dsimp only
  split
  · rename_i valid
    simp only [descsValid, Bool.and_eq_true, beq_iff_eq] at valid
    exact returns_pure valid.2
  · exact returns_raiseClean _

omit hP in
theorem planes_writable {a n : Nat} {ds : List Desc} (hn : (ds.map Desc.samples).sum = n)
    (ha : ∀ k, a ≤ k → k < a + 2 * n → W k) {g : Grid} (hg : g ∈ planes a ds) :
    ∀ x < g.nx, ∀ y < g.ny, W (g.addr x y) ∧ W (g.addr x y + 1) := by
  intro x hx y hy
  obtain ⟨lo, hi⟩ := plane_addr hn hg hx hy
  exact ⟨ha _ lo (by omega), ha _ (by omega) (by omega)⟩

theorem confined_pizCompress (others : AllButBus E) {a n d cap aux count : Nat}
    (ha : ∀ k, a ≤ k → k < a + 2 * n → W k) (hd : ∀ k, d ≤ k → k < d + cap → W k) :
    Run.Agrees (Alone P) E (pizCompress a n d cap aux count) := by
  refine agrees_bind_returns (confined_readDescriptors hP others _ _ _) (returns_readDescriptors _ _ _) fun ds hn =>
    agrees_bind (confined_bitmapFromSamples hP _ _) fun b =>
      agrees_bind (confined_modify fun s => hP.bitmap s b) fun _ =>
        agrees_bind (confined_modify fun s => hP.lut s _ _) fun _ => agrees_bind (confined_applyLut hP _ ha) fun _ =>
          agrees_bind (agrees_forEach_of_mem _ _ fun g hg =>
            confined_wavEncode2D hP _ (planes_writable hn ha hg)) fun _ =>
            agrees_bind_returns (confined_require others _ (by decide)) (returns_require _ _) fun _ fits => ?_
  rw [decide_eq_true_eq] at fits
  refine agrees_bind (confined_dmaWrite hP _ _ fun k lo hi => hd k lo ?_) fun _ =>
    agrees_bind (confined_hufCompress hP others fun k lo hi => hd k (by omega) (by omega)) fun h =>
      agrees_bind (confined_require others _ (by decide)) fun _ =>
        agrees_bind (confined_dmaWrite hP _ _ fun k lo hi => hd k (by omega) ?_) fun _ => agrees_pure _
  · rw [Bitmap.block_length] at hi
    omega
  · rw [leBytes_length] at hi
    omega

theorem confined_pizUncompress (others : AllButBus E) {a len d n aux count : Nat}
    (hd : ∀ k, d ≤ k → k < d + 2 * n → W k) :
    Run.Agrees (Alone P) E (pizUncompress a len d n aux count) :=
  agrees_bind_returns (confined_readDescriptors hP others _ _ _) (returns_readDescriptors _ _ _) fun ds hn =>
    agrees_bind (confined_bitmapLoad hP others _ _) fun r =>
      agrees_bind (confined_modify fun s => hP.bitmap s r.1) fun _ =>
        agrees_bind (confined_modify fun s => hP.lut s _ _) fun _ =>
          agrees_bind (confined_require others _ (by decide)) fun _ => agrees_bind (confined_rdLe hP _ _) fun _ =>
            agrees_bind (confined_require others _ (by decide)) fun _ =>
              agrees_bind (confined_hufUncompress hP others hd) fun _ =>
                agrees_bind (agrees_forEach_of_mem _ _ fun g hg =>
                  confined_wavDecode2D hP _ (planes_writable hn hd hg)) fun _ =>
                  agrees_bind (confined_applyLut hP _ hd) fun _ => agrees_pure _

end

/-! ### Commands -/

/-- The address is a byte of a W or RW region of the command (20_memory.md R95). -/
abbrev writtenByte (i : Instr) (l : Params) (a : Nat) : Prop :=
  ∃ r ∈ regions i l, r.access.writes = true ∧ r.base ≤ a ∧ a < r.base + r.size

theorem Access.writes_iff (a : Access) : a.writes = true ↔ a ≠ .r := by cases a <;> simp [Access.writes]

/-- The points of a wavelet command's grid lie in its region (43_wavelet.md R360). -/
theorem gridOfParams_written {i : Instr} {l : Params} {x y : Nat} (hx : x < (gridOfParams l).nx)
    (hy : y < (gridOfParams l).ny) (hi : i = .wavEncode ∨ i = .wavDecode) :
    writtenByte i l ((gridOfParams l).addr x y) ∧ writtenByte i l ((gridOfParams l).addr x y + 1) := by
  have lo : l.srcAddr.toNat ≤ (gridOfParams l).addr x y := Nat.le_add_right _ _
  have hi' : (gridOfParams l).addr x y + 2 ≤ l.srcAddr.toNat + gridExtent l := by
    rw [gridExtent_of_pos (Nat.zero_lt_of_lt hx) (Nat.zero_lt_of_lt hy)]
    exact (gridOfParams l).addr_lt hx hy
  have region : ⟨l.srcAddr.toNat, gridExtent l, .rw, .sample⟩ ∈ regions i l := by
    rcases hi with rfl | rfl <;> exact List.mem_cons_self
  exact ⟨⟨_, region, rfl, lo, by dsimp only; omega⟩, ⟨_, region, rfl, by dsimp only; omega, by dsimp only; omega⟩⟩

/-- A data phase writes bytes of the command's W and RW regions only, once its fixed-size output fits (20_memory.md R95). -/
theorem confined_dataPhase {i : Instr} {l : Params} {P : State → Prop} {E : ErrCode → Prop}
    (hP : Confined (writtenByte i l) P E) (others : AllButBus E) (operands : ∀ s, P s → s.latched = l)
    (fits : fixedOutputTooLarge i l = false) : Run.Agrees (Alone P) E (dataPhase i) := by
  have noTable : E .noTable := others _ (by decide)
  have latched {f : State → Run Results} (hf : ∀ s : State, s.latched = l → Run.Agrees (Alone P) E (f s)) :
      Run.Agrees (Alone P) E (get >>= f) :=
    confined_get fun s hs => hf s (operands s hs)
  have same {α : Type} (table : State → Option α) (s t : State) (h : Alone P s t) : table t = table s := h.1 ▸ rfl
  cases i with
  | nop => exact agrees_pure _
  | lutBitmapFromData =>
    refine latched ?_
    rintro s rfl
    exact agrees_bind (confined_bitmapFromSamples hP _ _) fun b =>
      agrees_bind (confined_modify fun s => hP.bitmap s b) fun _ => agrees_pure _
  | lutBitmapLoad =>
    refine latched ?_
    rintro s rfl
    exact agrees_bind (confined_bitmapLoad hP others _ _) fun r =>
      agrees_bind (confined_modify fun s => hP.bitmap s r.1) fun _ => agrees_pure _
  | lutBitmapStore =>
    refine latched ?_
    rintro s rfl
    refine agrees_bind (agrees_getBitmap (same _) (.inl noTable)) fun b => ?_
    dsimp only
    split
    · rename_i room
      refine agrees_bind (confined_dmaWrite hP _ _ fun k lo hi => ⟨_, List.mem_cons_self, rfl, lo, ?_⟩) fun _ =>
        agrees_pure _
      rw [Bitmap.block_length] at hi
      exact lt_of_lt_of_le hi (Nat.add_le_add_left room _)
    · exact confined_raiseClean others (by decide)
  | lutBuildForward =>
    exact agrees_bind (agrees_getBitmap (same _) (.inl noTable)) fun b =>
      agrees_bind (confined_modify fun s => hP.lut s _ _) fun _ => agrees_pure _
  | lutBuildReverse =>
    exact agrees_bind (agrees_getBitmap (same _) (.inl noTable)) fun b =>
      agrees_bind (confined_modify fun s => hP.lut s _ _) fun _ => agrees_pure _
  | lutApply =>
    refine latched ?_
    rintro s rfl
    exact agrees_bind (agrees_getLut (same _) (.inl noTable)) fun t =>
      agrees_bind (confined_applyLut hP t fun k lo hi => ⟨_, List.mem_cons_self, rfl, lo, hi⟩) fun _ => agrees_pure _
  | lutDump =>
    refine latched ?_
    rintro s rfl
    refine agrees_bind (agrees_getLut (same _) (.inl noTable)) fun t =>
      agrees_bind (confined_dmaWrite hP _ _ fun k lo hi => ⟨_, List.mem_cons_self, rfl, lo, ?_⟩) fun _ => agrees_pure _
    rw [bytesOfSamples_length, Lut.entries_length] at hi
    simp only [fixedOutputTooLarge, Config.lutDumpSize, decide_eq_false_iff_not] at fits
    show k < s.latched.dstAddr.toNat + s.latched.dstLen.toNat
    omega
  | wavEncode =>
    refine latched ?_
    rintro s rfl
    exact agrees_bind (confined_wavEncode2D hP _ fun x hx y hy => gridOfParams_written hx hy (.inl rfl)) fun _ =>
      agrees_pure _
  | wavDecode =>
    refine latched ?_
    rintro s rfl
    exact agrees_bind (confined_wavDecode2D hP _ fun x hx y hy => gridOfParams_written hx hy (.inr rfl)) fun _ =>
      agrees_pure _
  | hufCompress =>
    refine latched ?_
    rintro s rfl
    exact agrees_bind (confined_hufCompress hP others fun k lo hi =>
      ⟨_, List.mem_cons_of_mem _ List.mem_cons_self, rfl, lo, hi⟩) fun _ => agrees_pure _
  | hufUncompress =>
    refine latched ?_
    rintro s rfl
    exact agrees_bind (confined_hufUncompress hP others fun k lo hi =>
      ⟨_, List.mem_cons_of_mem _ List.mem_cons_self, rfl, lo, hi⟩) fun _ => agrees_pure _
  | hufDumpCodes =>
    refine latched ?_
    rintro s rfl
    refine agrees_bind (agrees_getCodes (same _) (.inl noTable)) fun t =>
      agrees_bind (confined_dmaWrite hP _ _ fun k lo hi => ⟨_, List.mem_cons_self, rfl, lo, ?_⟩) fun _ => agrees_pure _
    rw [CodeTable.dump_length] at hi
    simp only [fixedOutputTooLarge, Config.codeDumpSize, decide_eq_false_iff_not] at fits
    show k < s.latched.dstAddr.toNat + s.latched.dstLen.toNat
    omega
  | pizCompress =>
    refine latched ?_
    rintro s rfl
    exact agrees_bind (confined_pizCompress hP others (fun k lo hi => ⟨_, List.mem_cons_self, rfl, lo, hi⟩)
      fun k lo hi => ⟨_, List.mem_cons_of_mem _ List.mem_cons_self, rfl, lo, hi⟩) fun _ => agrees_pure _
  | pizUncompress =>
    refine latched ?_
    rintro s rfl
    exact agrees_bind (confined_pizUncompress hP others fun k lo hi =>
      ⟨_, List.mem_cons_of_mem _ List.mem_cons_self, rfl, lo, hi⟩) fun _ => agrees_pure _

/-- The parameter check passes when none of its six checks fails (30_encoding.md R143). -/
theorem paramCheck_eq_none_iff (i : Instr) (s : State) :
    paramCheck i s = none ↔ (∀ T ∈ tablesRequired i, s.tableValid T = true)
      ∧ (∀ r ∈ regions i s.latched, r.wraps = false) ∧ commandParamBad i s.latched = false
      ∧ (∀ r ∈ regions i s.latched, r.isMisaligned = false) ∧ someClash (regions i s.latched) = false
      ∧ fixedOutputTooLarge i s.latched = false := by
  have none_of (p : Region → Bool) : (∀ r ∈ regions i s.latched, p r = false) ↔ (regions i s.latched).any p = false := by
    simp
  rw [← List.all_eq_true, none_of, none_of]
  unfold paramCheck
  dsimp only
  generalize (tablesRequired i).all s.tableValid = tables
  generalize (regions i s.latched).any Region.wraps = wraps
  generalize (regions i s.latched).any Region.isMisaligned = misaligned
  split_ifs with missing bad
  · simp_all
  · obtain h | h := Bool.or_eq_true_iff.1 bad <;> simp [h]
  all_goals simp_all

/-- All a command can do, with what its data phase keeps known of the state that it ends in. -/
theorem exec_next_confined {i : Instr} {s t : State} {P : State → Prop} {E : ErrCode → Prop}
    (hP : Confined (writtenByte i s.latched) P E) (others : AllButBus E)
    (operands : ∀ s', P s' → s'.latched = s.latched) (start : P (s.clearValid i)) (h : exec i s = .next t) :
    (∃ e, paramCheck i s = some e ∧ t = s.completeErr e)
      ∨ (paramCheck i s = none ∧ ∃ r s', P s' ∧ t = s'.completeOk r)
      ∨ (paramCheck i s = none ∧ ∃ e s', P s' ∧ E e.code ∧ t = s'.failData i e) := by
  have agrees (hn : paramCheck i s = none) : Run.Agrees (Alone P) E (dataPhase i) :=
    confined_dataPhase hP others operands ((paramCheck_eq_none_iff i s).1 hn).2.2.2.2.2
  obtain ⟨-, checked | ⟨hn, r, s', hb, rfl⟩ | ⟨hn, e, s', hb, rfl⟩⟩ := runCommand_next (exec_eq i s ▸ h)
  · exact .inl checked
  · exact .inr (.inl ⟨hn, r, s', (agrees hn).ok start hb, rfl⟩)
  · obtain ⟨hs', code⟩ := (agrees hn).error start hb
    exact .inr (.inr ⟨hn, e, s', hs', code, rfl⟩)

/-- Memory is in its canonical form, and differs from `m` in bytes of `W` at most. -/
structure State.memWithin (W : Nat → Prop) (m : Memory) (s : State) : Prop where
  wf : s.mem.wf = true
  read : ∀ a, ¬ W a → s.mem.read a = m.read a

theorem State.memWithin.write {W : Nat → Prop} {m : Memory} {s : State} (h : s.memWithin W m) {a : Nat} {bs : List Byte}
    (hw : ∀ k, a ≤ k → k < a + bs.length → W k) : (s.withMem (s.mem.write a bs)).memWithin W m where
  wf := Memory.write_wf _ _ _ h.wf
  read k hk := by
    rw [State.withMem_mem, Memory.read_write _ _ _ _ h.wf, if_neg fun hin => hk (hw k hin.1 hin.2)]
    exact h.read k hk

/-- The bytes that an error completion frees are bytes of the written regions. -/
theorem State.memWithin.failData {i : Instr} {m : Memory} {s : State} (h : s.memWithin (writtenByte i s.latched) m)
    (e : Raise) : (s.failData i e).memWithin (writtenByte i s.latched) m := by
  unfold State.failData
  split
  · exact ⟨h.wf, h.read⟩
  · refine ⟨forgetRegions_wf _ _ _ h.wf, fun a ha => ?_⟩
    rw [State.completeErr_mem, State.withMem_mem, read_forgetRegions _ _ _ _ h.wf, if_neg]
    · exact h.read a ha
    · rintro ⟨r, hr, writes, lo, hi⟩
      exact ha ⟨r, hr, writes, lo, lt_of_lt_of_le hi (Nat.add_le_add_left (min_le_left _ _) _)⟩

/-- A command keeps the canonical form of memory and every byte outside its W and RW regions, whatever its outcome. A command
that its checks end keeps all of memory. -/
theorem exec_memWithin {i : Instr} {s t : State} (wf : s.mem.wf = true) (h : exec i s = .next t) :
    t.memWithin (fun a => paramCheck i s = none ∧ writtenByte i s.latched a) s.mem := by
  have hP : Confined (writtenByte i s.latched)
      (fun s' => s'.latched = s.latched ∧ s'.memWithin (writtenByte i s.latched) s.mem) fun _ => True :=
    { write := fun _ _ _ hw h => ⟨h.1, h.2.write hw⟩
      bitmap := fun _ _ h => ⟨h.1, h.2.wf, h.2.read⟩
      lut := fun _ _ _ h => ⟨h.1, h.2.wf, h.2.read⟩
      codes := fun _ _ h => ⟨h.1, h.2.wf, h.2.read⟩
      bus := .inl trivial }
  obtain ⟨e, -, rfl⟩ | ⟨hn, r, s', ⟨-, within⟩, rfl⟩ | ⟨hn, e, s', ⟨operands, within⟩, -, rfl⟩ :=
    exec_next_confined hP (fun _ _ => trivial) (fun _ h => h.1) ⟨rfl, wf, fun _ _ => rfl⟩ h
  · exact ⟨wf, fun _ _ => rfl⟩
  · exact ⟨within.wf, fun a ha => within.read a fun hw => ha ⟨hn, hw⟩⟩
  · rw [← operands] at within ⊢
    exact ⟨(within.failData e).wf, fun a ha => (within.failData e).read a fun hw => ha ⟨hn, hw⟩⟩

/-- Settles O42: whatever a data phase writes, and whatever an error frees, lies in the command's W and RW regions. -/
theorem commandsStayInTheirRegions : Obligations.CommandsStayInTheirRegions := by
  unfold Obligations.CommandsStayInTheirRegions
  intro i s t wf h a outside
  refine (exec_memWithin wf h).read a ?_
  rintro ⟨-, r, hr, writes, lo, hi⟩
  have := outside r hr ((Access.writes_iff _).1 writes)
  omega

/-- Where the bus answers no error no command ends with BUS_ERROR (20_memory.md R99). -/
theorem exec_ne_busError {i : Instr} {s t : State} (hr : s.platform.readErr = []) (hw : s.platform.writeErr = [])
    (h : exec i s = .next t) : t.errcode ≠ .busError := by
  have hP : Confined (writtenByte i s.latched) (fun s' => s'.latched = s.latched ∧ s'.platform = s.platform)
      (· ≠ .busError) :=
    { write := fun _ _ _ _ h => h
      bitmap := fun _ _ h => h
      lut := fun _ _ _ h => h
      codes := fun _ _ h => h
      bus := .inr fun s' a n h => by simp [State.readFails, State.writeFails, spansMeet, h.2, hr, hw] }
  obtain ⟨e, he, rfl⟩ | ⟨-, r, s', -, rfl⟩ | ⟨-, e, s', -, code, rfl⟩ :=
    exec_next_confined hP (fun _ h => h) (fun _ h => h.1) ⟨rfl, rfl⟩ h
  · rintro rfl
    unfold paramCheck at he
    dsimp only at he
    split_ifs at he <;> cases he
  · simp
  · exact code

end Sys2Proof.Machine
end

section
/-! SUPPORT and the proof of O60: every step keeps memory inside the address space. -/

namespace Sys2Proof.Machine

/-- Memory is in its canonical form and inside the address space. -/
structure Memory.sound (m : Memory) : Prop where
  wf : m.wf = true
  inSpace : m.inSpace

theorem Memory.sound.write {m : Memory} (h : m.sound) {a : Nat} {bs : List Byte}
    (fits : a + bs.length ≤ Config.addrSpace) : (m.write a bs).sound where
  wf := Memory.write_wf _ _ _ h.wf
  inSpace k hk := by
    rw [Memory.read_write _ _ _ _ h.wf, if_neg (by omega)]
    exact h.inSpace k hk

/-- The bytes of a region that exist end at the top of the address space, so freeing them stays in it (20_memory.md R95). -/
theorem Memory.sound.forgetRegions {m : Memory} (h : m.sound) (tick : Nat) (rs : List Region) :
    (forgetRegions m tick rs).sound where
  wf := forgetRegions_wf _ _ _ h.wf
  inSpace k hk := by
    rw [read_forgetRegions _ _ _ _ h.wf, if_neg]
    · exact h.inSpace k hk
    · rintro ⟨r, -, -, lo, hi⟩
      unfold Region.realSize at hi
      omega

/-- A region that passes the checks ends in the address space, so a command's writes do (20_memory.md R95). -/
theorem exec_memSound {i : Instr} {s t : State} (hs : s.mem.sound) (h : exec i s = .next t) : t.mem.sound where
  wf := (exec_memWithin hs.wf h).wf
  inSpace a ha := by
    rw [(exec_memWithin hs.wf h).read a, hs.inSpace a ha]
    rintro ⟨hn, r, hr, -, lo, hi⟩
    obtain ⟨-, noWrap, -⟩ := (paramCheck_eq_none_iff i s).1 hn
    have := noWrap r hr
    rw [Region.wraps, decide_eq_false_iff_not] at this
    omega

theorem runRaced_memSound {i : Instr} {s t : State} (hs : s.mem.sound) (h : runRaced i s = .next t) : t.mem.sound := by
  cases hd : touchesDevice i s with
  | true => rw [runRaced, if_pos hd] at h; cases h
  | false =>
    obtain ⟨e, -, he⟩ := runRaced_next hd
    rw [he] at h
    split at h <;> cases h <;> exact hs.forgetRegions _ _

theorem runEngine_memSound {s t : State} (hs : s.mem.sound) (h : runEngine s = .next t) : t.mem.sound := by
  unfold runEngine at h
  split at h
  · cases h
    exact hs
  · split at h
    · cases h
      exact hs
    · split at h
      · exact runRaced_memSound hs h
      · exact exec_memSound hs h

/-- Reset frees bytes of the abandoned command's regions only (70_reset_and_hazards.md R603). -/
theorem State.blockReset_memSound {s : State} (hs : s.mem.sound) : s.blockReset.mem.sound := by
  rw [State.blockReset_mem, State.abandonedMem]
  split
  · exact hs
  · split
    · exact hs
    · exact hs.forgetRegions _ _

theorem State.writeReg_memSound {s : State} (hs : s.mem.sound) (r : Reg) (v : Word32) : (s.writeReg r v).mem.sound := by
  by_cases hcmd : r = .cmd
  · subst hcmd
    rw [State.writeReg, State.writeCmd]
    split <;> exact hs
  · by_cases hrst : r = .ctrl ∧ v.getLsbD 0 = true
    · rw [hrst.1, State.writeReg, if_pos hrst.2]
      exact State.blockReset_memSound hs
    · rw [(s.engineKept_writeReg r v hcmd (by simpa using hrst)).mem]
      exact hs

theorem hostRegWrite_memSound {s : State} (hs : s.mem.sound) (width : Width) (off : BitVec 12) (v : Word32) :
    (hostRegWrite width off v s).mem.sound := by
  obtain ⟨r, -, -, hr⟩ | ⟨a, ha⟩ := hostRegWrite_cases width off v s
  · rw [hr]
    exact State.writeReg_memSound hs r v
  · rw [ha]
    exact hs

theorem State.storedBytes_length (s : State) (a : Nat) (bs : List Byte) : (s.storedBytes a bs).length = bs.length := by
  unfold State.storedBytes
  split <;> simp

/-- A host access to memory that nothing stops names bytes of the address space (20_memory.md R90). -/
theorem le_addrSpace_of_hostMemStop {a n : Nat} {c : Bool} {s : State} (h : hostMemStop a n c s = none) :
    a + n ≤ Config.addrSpace := by
  unfold hostMemStop at h
  split at h
  · cases h
  · rename_i inSpace
    simpa [bytesInSpace] using inSpace

theorem hostStore_memSound {a : Nat} {bs : List Byte} {c : Bool} {s t : State} (hs : s.mem.sound)
    (h : hostStore a bs c s = .next t) : t.mem.sound := by
  obtain ⟨-, off, -, rfl⟩ | ⟨-, -, rfl⟩ | ⟨-, free, rfl⟩ := hostStore_next h
  · exact hostRegWrite_memSound hs _ _ _
  · exact hs
  · exact hs.write (by rw [State.storedBytes_length]; exact le_addrSpace_of_hostMemStop free)

theorem hostMemWrite_memSound {width : Width} {a : Nat} {bs : List Byte} {c : Bool} {s t : State} (hs : s.mem.sound)
    (h : hostMemWrite width a bs c s = .next t) : t.mem.sound := by
  obtain ⟨q, hq⟩ | ⟨-, ho⟩ := hostMemWrite_eq_hostStore width a bs c s
  · rw [hq] at h
    exact hostStore_memSound (s := { s with hostq := q }) hs h
  · rw [ho] at h
    exact hostStore_memSound hs h

theorem hostAccess_memSound {op : HostOp} {s t : State} (hs : s.mem.sound) (h : hostAccess op s = .next t) :
    t.mem.sound := by
  cases op with
  | regWrite width off v => cases h; exact hostRegWrite_memSound hs width off v
  | regRead width off => cases h; exact (hostRegRead_engineKept width off s).mem ▸ hs
  | memWrite width a bs c => exact hostMemWrite_memSound hs h
  | memRead width a n c => exact (hostMemRead_engineKept h).mem ▸ hs
  | wait => cases h; exact (hostWait_engineKept s).mem ▸ hs
  | hardReset => cases h; exact State.blockReset_memSound hs

/-- Settles O60: commands write in regions that end in the address space, freed bytes are cut off at its top, and a host store
past it faults. -/
theorem everyStepKeepsMemoryInSpace : Obligations.EveryStepKeepsMemoryInSpace := by
  unfold Obligations.EveryStepKeepsMemoryInSpace
  intro s t wf inSpace h
  have hs : s.mem.sound := ⟨wf, inSpace⟩
  have arrived (rest : List HostOp) : (s.arrive rest).mem.sound := hs
  obtain ⟨-, engine⟩ | ⟨-, -, rfl⟩ | ⟨-, op, rest, s', -, access, ⟨rfl, -⟩ | ⟨-, -, -, engine⟩⟩ := step_next h
  · exact (runEngine_memSound hs engine).inSpace
  · exact inSpace
  · exact (hostAccess_memSound (arrived rest) access).inSpace
  · exact (runEngine_memSound (hostAccess_memSound (arrived rest) access) engine).inSpace

end Sys2Proof.Machine
end

section
/-! SUPPORT and the proof of O54: what a host read returns, outside the register window and in it. -/

namespace Sys2Proof.Machine

/-! ### Which bytes are in the window, in a region, in a device -/

theorem rangesMeet_iff_lt (base size a n : Nat) :
    rangesMeet base size a n = true ↔ ∃ k < n, base ≤ a + k ∧ a + k < base + size := by
  rw [rangesMeet_iff]
  constructor
  · rintro ⟨b, ⟨lo, hi⟩, h1, h2⟩
    exact ⟨b - a, by omega, by omega, by omega⟩
  · rintro ⟨k, hk, lo, hi⟩
    exact ⟨a + k, ⟨lo, hi⟩, by omega, by omega⟩

/-- One byte is in a range. -/
theorem rangesMeet_one (base size a : Nat) : rangesMeet base size a 1 = true ↔ base ≤ a ∧ a < base + size := by
  simp [rangesMeet_iff_lt]

theorem State.meetsWindow_iff (s : State) (a n : Nat) :
    s.meetsWindow a n = true ↔ ∃ k < n, s.platform.regBase ≤ a + k ∧ a + k < s.platform.regBase + 4096 :=
  rangesMeet_iff_lt ..

/-- The regions of the running command are those its word declares (30_encoding.md R137). -/
theorem State.mem_busyRegions (s : State) (r : Region) :
    r ∈ s.busyRegions ↔ ∃ w i, s.phase = .busy w ∧ decode w = .ok i ∧ r ∈ regions i s.latched := by
  unfold State.busyRegions
  constructor
  · intro h
    split at h
    · cases h
    · rename_i w hw
      split at h
      · rename_i i hi
        exact ⟨w, i, hw, hi, h⟩
      · cases h
  · rintro ⟨w, i, hw, hi, h⟩
    rw [hw]
    simp only [hi]
    exact h

theorem State.inBusyWritten_iff (s : State) (a : Nat) :
    s.inBusyWritten a = true ↔ ∃ w i, s.phase = .busy w ∧ decode w = .ok i
      ∧ ∃ r ∈ regions i s.latched, r.access ≠ .r ∧ r.base ≤ a ∧ a < r.base + r.size := by
  simp only [State.inBusyWritten, List.any_eq_true, Bool.and_eq_true, rangesMeet_one, Access.writes_iff,
    State.mem_busyRegions]
  constructor
  · rintro ⟨r, ⟨w, i, hw, hi, hr⟩, writes, range⟩
    exact ⟨w, i, hw, hi, r, hr, writes, range⟩
  · rintro ⟨w, i, hw, hi, r, hr, writes, range⟩
    exact ⟨r, ⟨w, i, hw, hi, hr⟩, writes, range⟩

theorem State.inDevice_iff (s : State) (a : Nat) :
    s.inDevice a = true ↔ ∃ sp ∈ s.platform.devices, sp.base ≤ a ∧ a < sp.base + sp.size := by
  simp only [State.inDevice, spansMeet, List.any_eq_true, rangesMeet_one]

/-- A range meets a span exactly when one of its bytes does. -/
theorem spansMeet_iff_byte (spans : List Span) (a n : Nat) :
    spansMeet spans a n = true ↔ ∃ k < n, spansMeet spans (a + k) 1 = true := by
  simp only [spansMeet, List.any_eq_true, rangesMeet_one]
  simp only [rangesMeet_iff_lt]
  constructor
  · rintro ⟨sp, hsp, k, hk, range⟩
    exact ⟨k, hk, sp, hsp, range⟩
  · rintro ⟨k, hk, sp, hsp, range⟩
    exact ⟨sp, hsp, k, hk, range⟩

theorem State.readRaces_iff (s : State) (a n : Nat) :
    s.readRaces a n = true ↔ ∃ k < n, s.inBusyWritten (a + k) = true := by
  simp only [State.readRaces, State.inBusyWritten, List.any_eq_true, Bool.and_eq_true, rangesMeet_one]
  simp only [rangesMeet_iff_lt]
  constructor
  · rintro ⟨r, hr, writes, k, hk, range⟩
    exact ⟨k, hk, r, hr, writes, range⟩
  · rintro ⟨k, hk, r, hr, writes, range⟩
    exact ⟨r, hr, writes, k, hk, range⟩

theorem State.readsFree_iff (s : State) (a n : Nat) :
    s.readsFree a n = true ↔ ∃ k < n, s.inBusyWritten (a + k) = true ∨ s.inDevice (a + k) = true := by
  rw [State.readsFree, Bool.or_eq_true, State.readRaces_iff, spansMeet_iff_byte]
  constructor
  · rintro (⟨k, hk, h⟩ | ⟨k, hk, h⟩)
    · exact ⟨k, hk, .inl h⟩
    · exact ⟨k, hk, .inr h⟩
  · rintro ⟨k, hk, h | h⟩
    · exact .inl ⟨k, hk, h⟩
    · exact .inr ⟨k, hk, h⟩

/-! ### The bytes that a read returns -/

theorem State.hostBytes_length (s : State) (a n : Nat) : (s.hostBytes a n).length = n := by
  unfold State.hostBytes
  split <;> simp

/-- Byte by byte, a read returns a free value in a written region or a device, and memory elsewhere (20_memory.md R98). -/
theorem State.hostBytes_getD (s : State) {a n k : Nat} (wf : s.mem.wf = true) (hk : k < n) :
    (s.hostBytes a n).getD k 0 =
      if s.inBusyWritten (a + k) || s.inDevice (a + k) then Config.freeByte s.fresh (a + k) else s.mem.read (a + k) := by
  unfold State.hostBytes
  split
  · simp [List.getD, hk]
  · rename_i none
    have plain : ¬ (s.inBusyWritten (a + k) || s.inDevice (a + k)) = true := fun h =>
      none ((s.readsFree_iff a n).2 ⟨k, hk, (Bool.or_eq_true_iff).1 h⟩)
    rw [if_neg plain, Memory.bytes_eq _ _ _ wf]
    simp [List.getD, hk]

/-! ### The step -/

/-- A host access that leaves the phase alone is all that its step does. -/
theorem step_of_quiet_access {s s' : State} {op : HostOp} {rest : List HostOp} (due : s.engineDue = false)
    (hq : s.hostq = op :: rest) (access : hostAccess op (s.arrive rest) = .next s') (phase : s'.phase = s.phase) :
    step s = .next s' := by
  have busy : s'.busy = s.busy := by rw [State.busy, phase]; rfl
  rw [step_of_access due hq, access]
  refine if_neg ?_
  rw [busy]
  cases s.busy <;> simp

/-- Two next accesses that do the same make the same step. -/
theorem step_congr_access {s : State} {op op' : HostOp} {rest rest' : List HostOp} (due : s.engineDue = false)
    (hq : s.hostq = op :: rest)
    (same : hostAccess op (s.arrive rest) = hostAccess op' (s.arrive rest')) :
    step s = step { s with hostq := op' :: rest' } := by
  have due' : ({ s with hostq := op' :: rest' } : State).engineDue = false := by
    rw [State.engineDue, hq] at due
    exact due
  rw [step_of_access due hq, step_of_access due' rfl, same]
  rfl

theorem hostMemRead_eq_hostLoad {width : Width} {a n : Nat} {c : Bool} {s : State}
    (h : s.meetsWindow a n = false ∨ n ≤ width.bytes) : hostMemRead width a n c s = hostLoad a n c s := by
  refine if_neg ?_
  rcases h with h | h <;> simp [h]

theorem hostLoad_of_outside {a n : Nat} {c : Bool} {s : State} (h : s.meetsWindow a n = false)
    (free : hostMemStop a n c s = none) :
    hostLoad a n c s = .next (({ s with
      raced := s.raced || s.readRaces a n
      fresh := if s.readsFree a n then s.fresh + 1 else s.fresh } : State).respond (.bytes (s.hostBytes a n))) := by
  rw [hostLoad, if_neg (by simp [h]), free]

theorem hostMemStop_eq_none {a n : Nat} {c : Bool} {s : State} (inSpace : a + n ≤ Config.addrSpace)
    (maintained : c = true ∨ s.platform.dmaCoherent = true) : hostMemStop a n c s = none := by
  rw [hostMemStop, if_neg (by simpa [bytesInSpace] using inSpace), if_neg]
  rintro ⟨incoherent, skipped⟩
  exact maintained.elim skipped incoherent

/-- An access of four bytes at an offset of the window has that offset. -/
theorem State.windowOffset_of_offset {s : State} {off : BitVec 12} (aligned : off.toNat % 4 = 0) :
    s.windowOffset (s.platform.regBase + off.toNat) 4 = some off := by
  have := off.isLt
  rw [State.windowOffset, if_pos ⟨rfl, by omega, by simp only [Config.windowSize]; omega⟩, Nat.add_sub_cancel_left]
  simp

/-- Any other access that meets the window is a bus error that changes nothing (10_state.md R55). -/
theorem hostLoad_malformed {a n : Nat} {c : Bool} {s : State} (meets : s.meetsWindow a n = true)
    (h : ¬ (n = 4 ∧ s.platform.regBase ≤ a ∧ (a - s.platform.regBase) % 4 = 0)) :
    hostLoad a n c s = .next (s.respond .busError) := by
  rw [hostLoad, if_pos meets]
  cases hoff : s.windowOffset a n with
  | none => rfl
  | some off =>
    obtain ⟨rfl, rfl⟩ := State.windowOffset_eq_some hoff
    have misaligned : off.toNat % 4 ≠ 0 := fun aligned => h ⟨rfl, by omega, by rwa [Nat.add_sub_cancel_left]⟩
    simp only [hostRegRead, registerAccessOk_eq_false (.inr misaligned), Bool.false_eq_true, if_false]

/-- Settles O54: outside the window a read is answered by memory and free bytes; in it, element by element, by the registers. -/
theorem hostReadReturnsMemory : Obligations.HostReadReturnsMemory := by
  unfold Obligations.HostReadReturnsMemory
  intro s width a n c rest wf due hq
  dsimp only
  simp only [← s.meetsWindow_iff a n, ← s.inDevice_iff, ← s.inBusyWritten_iff]
  refine ⟨fun outside inSpace maintained => ?_, fun meets long => ?_, fun meets short => ⟨?_, fun malformed => ?_⟩⟩
  · have outside' : (s.arrive rest).meetsWindow a n = false := eq_false_of_ne_true outside
    have access := (hostMemRead_eq_hostLoad (width := width) (.inl outside')).trans
      (hostLoad_of_outside outside' (hostMemStop_eq_none inSpace maintained))
    refine ⟨_, s.hostBytes a n, step_of_quiet_access due hq access rfl, rfl, s.hostBytes_length a n,
      fun k hk hw hd => ?_, fun k hk h => ?_, rfl, ⟨rfl, rfl, rfl, rfl⟩, fun r => by cases r <;> rfl, rfl, rfl, rfl, ?_⟩
    · rw [s.hostBytes_getD wf hk, if_neg (by simp [hw, hd])]
    · rw [s.hostBytes_getD wf hk, if_pos (Bool.or_eq_true_iff.2 h)]
    · rw [← s.readRaces_iff]
      exact Bool.or_eq_true_iff
  · refine step_congr_access due hq (Eq.trans ?_ (hostMemRead_eq_hostLoad (.inr le_rfl)).symm)
    exact if_pos (Bool.and_eq_true_iff.2 ⟨meets, decide_eq_true long⟩)
  · rintro off rfl rfl aligned
    refine step_congr_access due hq ((hostMemRead_eq_hostLoad (.inr short)).trans ?_)
    have offset : (s.arrive rest).windowOffset (s.platform.regBase + off.toNat) 4 = some off :=
      State.windowOffset_of_offset aligned
    exact (if_pos meets).trans (by rw [offset]; rfl)
  · have access := (hostMemRead_eq_hostLoad (.inr short)).trans
      (hostLoad_malformed (c := c) (s := s.arrive rest) meets malformed)
    exact step_of_quiet_access due hq access rfl

end Sys2Proof.Machine
end

section
/-! SUPPORT and the proof of O39: a data phase that meets a bus error, from the checks before it to the command's end; the bitmap
block's bounds; the accesses of the wavelet's first level. -/

namespace Sys2Proof.Machine

/-! ### Runs of a data phase -/

theorem Run.bind_of_ok {α β : Type} {x : Run α} {f : α → Run β} {s s' : State} {a : α} (h : x s = .ok a s') :
    (x >>= f) s = f a s' := by
  rw [Run.bind_eq, h]

theorem Run.bind_of_error {α β : Type} {x : Run α} {f : α → Run β} {s s' : State} {e : Raise} (h : x s = .error e s') :
    (x >>= f) s = .error e s' := by
  rw [Run.bind_eq, h]

/-- The raise of an access that the bus answers with an error. -/
abbrev busError : Raise := ⟨.busError, false⟩

section
variable {s : State} {a n : Nat}

theorem dmaRead_ok (h : s.readFails a n = false) : dmaRead a n s = .ok (s.mem.bytes a n) s := by
  rw [dmaRead_eq, if_neg (by simp [h])]

theorem dmaRead_fails (h : s.readFails a n = true) : dmaRead a n s = .error busError s := by
  rw [dmaRead_eq, if_pos h]

theorem dmaWrite_ok {bs : List Byte} (h : s.writeFails a bs.length = false) :
    dmaWrite a bs s = .ok () (s.withMem (s.mem.write a bs)) := by
  rw [dmaWrite_eq, if_neg (by simp [h])]

theorem dmaWrite_fails {bs : List Byte} (h : s.writeFails a bs.length = true) : dmaWrite a bs s = .error busError s := by
  rw [dmaWrite_eq, if_pos h]

theorem readSamples_ok (h : s.readFails a (2 * n) = false) : readSamples a n s = .ok (s.mem.samples a n) s := by
  rw [readSamples_eq, if_neg (by simp [h])]

theorem readSamples_fails (h : s.readFails a (2 * n) = true) : readSamples a n s = .error busError s := by
  rw [readSamples_eq, if_pos h]

theorem rdLe_ok (h : s.readFails a n = false) : rdLe a n s = .ok (leNat (s.mem.bytes a n)) s :=
  Run.bind_of_ok (dmaRead_ok h)

theorem rdLe_fails (h : s.readFails a n = true) : rdLe a n s = .error busError s :=
  Run.bind_of_error (dmaRead_fails h)

theorem require_ok {c : Bool} (e : ErrCode) (h : c = true) : require c e s = .ok () s := by
  rw [require_eq, if_pos h]

end

theorem getBitmap_ok {s : State} {b : Bitmap} (h : s.bitmap = some b) : getBitmap s = .ok b s := by
  unfold getBitmap
  rw [h]

theorem getLut_ok {s : State} {t : Lut} (h : s.lut = some t) : getLut s = .ok t s := by
  unfold getLut
  rw [h]

theorem getCodes_ok {s : State} {t : CodeTable} (h : s.codes = some t) : getCodes s = .ok t s := by
  unfold getCodes
  rw [h]

theorem Memory.samples_length (m : Memory) (a n : Nat) : (m.samples a n).length = n :=
  samplesOfBytes_length n (Memory.bytes_length ..)

theorem applyLut_fails {s : State} (t : Lut) {a n : Nat}
    (h : s.readFails a (2 * n) = true ∨ s.writeFails a (2 * n) = true) : applyLut t a n s = .error busError s := by
  cases hr : s.readFails a (2 * n) with
  | true => exact Run.bind_of_error (readSamples_fails hr)
  | false =>
    refine (Run.bind_of_ok (readSamples_ok hr)).trans (dmaWrite_fails ?_)
    rw [bytesOfSamples_length, List.length_map, Memory.samples_length]
    exact h.resolve_left (by simp [hr])

/-! ### From the data phase to the end of the command -/

/-- What a data phase that raises leaves of the tables, the command leaves of them. -/
theorem State.failData_bitmap (s : State) (i : Instr) (e : Raise) : (s.failData i e).bitmap = s.bitmap := by
  unfold State.failData
  split <;> rfl

theorem State.failData_lut (s : State) (i : Instr) (e : Raise) : (s.failData i e).lut = s.lut := by
  unfold State.failData
  split <;> rfl

theorem State.failData_lutKind (s : State) (i : Instr) (e : Raise) : (s.failData i e).lutKind = s.lutKind := by
  unfold State.failData
  split <;> rfl

theorem State.failData_codes (s : State) (i : Instr) (e : Raise) : (s.failData i e).codes = s.codes := by
  unfold State.failData
  split <;> rfl

theorem State.failData_irqStatus (s : State) (i : Instr) (e : Raise) :
    (s.failData i e).irqStatus = s.irqStatus ||| 0b010 := by
  unfold State.failData
  split <;> exact irqNext_no_clear _ _

/-- Regions that are read only keep their bytes through an error (60_exceptions.md R520). -/
theorem State.failData_mem {i : Instr} {s : State} (e : Raise) (h : ∀ r ∈ regions i s.latched, r.access = .r) :
    (s.failData i e).mem = s.mem := by
  have kept (rs : List Region) (h : ∀ r ∈ rs, r.access = .r) (m : Memory) (tick : Nat) :
      forgetRegions m tick rs = m := by
    induction rs generalizing m with
    | nil => rfl
    | cons r rest ih =>
      rw [forgetRegions, h r List.mem_cons_self]
      exact ih (fun r hr => h r (List.mem_cons_of_mem _ hr)) m
  unfold State.failData
  split
  · rfl
  · exact kept _ h _ _

/-- A command that passes its checks and touches no device comes to its data phase. -/
abbrev reachesData (i : Instr) (s : State) : Prop := touchesDevice i s = false ∧ paramCheck i s = none

/-- The checks pass where every region is usable, the required tables are valid, and the command's own checks and those of
overlap and output size do (30_encoding.md R143, 20_memory.md R95 to R102). -/
theorem reachesData_of_usable {i : Instr} {s : State} (tables : ∀ T ∈ tablesRequired i, s.tableValid T = true)
    (usable : ∀ r ∈ regions i s.latched, s.usable r.base r.size r.kind.alignment)
    (params : commandParamBad i s.latched = false) (clash : someClash (regions i s.latched) = false)
    (fits : fixedOutputTooLarge i s.latched = false) : reachesData i s := by
  refine ⟨List.any_eq_false.2 fun r hr => ?_, (paramCheck_eq_none_iff i s).2
    ⟨tables, fun r hr => ?_, params, fun r hr => ?_, clash, fits⟩⟩
  · obtain ⟨inSpace, -, idempotent⟩ := usable r hr
    rw [Region.realSize, min_eq_left (by omega), idempotent]
    exact Bool.false_ne_true
  · obtain ⟨inSpace, -⟩ := usable r hr
    exact decide_eq_false (by omega)
  · obtain ⟨-, aligned | aligned, -⟩ := usable r hr <;> simp [Region.isMisaligned, aligned]

/-- A data phase that raises ends the command with its code, results 0, and the tables as they were at the raise
(60_exceptions.md R520). -/
theorem exec_of_raise {i : Instr} {s s' : State} {e : Raise} (reaches : reachesData i s)
    (raises : dataPhase i (s.clearValid i) = .error e s') (he : e.code ≠ .ok) :
    exec i s = .next (s'.failData i e) ∧ s.completed (s'.failData i e) e.code {} := by
  have run := (exec_eq i s).trans (runCommand_error reaches.1 reaches.2 raises)
  have data := dataRelation_dataOnly.trans _ _ _ (clearValid_dataOnly s i)
    ((keeps_dataPhase dataRelation_dataOnly i (s.clearValid i)).2 e s' raises)
  have irq : s'.irqStatus = s.irqStatus := by rw [data]
  refine ⟨run, rfl, rfl, rfl, rfl, ?_, (exec_next run).2⟩
  rw [if_neg he, State.failData_irqStatus, irq]

/-- A command that writes none of the tables keeps them all. -/
theorem exec_tablesKept {i : Instr} {s t : State} (hi : tablesWritten i = []) (h : exec i s = .next t) :
    s.tablesKept t := by
  have none (T : Table) : T ∉ tablesWritten i := by simp [hi]
  obtain ⟨lut, kind⟩ := exec_lut (none _) h
  exact ⟨exec_bitmap (none _) h, lut, kind, exec_codes (none _) h⟩

/-- A command whose only region that it writes is `size` bytes at `base` keeps every byte outside. -/
theorem exec_keptOutside {i : Instr} {s t : State} {r : Region} (wf : s.mem.wf = true) (hr : regions i s.latched = [r])
    (h : exec i s = .next t) : s.mem.keptOutside t.mem r.base r.size := by
  intro a ha
  refine (exec_memWithin wf h).read a ?_
  rintro ⟨-, r', hr', -, lo, hi⟩
  rw [hr, List.mem_singleton] at hr'
  subst hr'
  omega

/-- A bus error ends a command of one region that writes no table: the tables are kept, and so is memory outside the region. -/
theorem exec_busError_of_raise {i : Instr} {s s' : State} {r : Region} {e : Raise} (wf : s.mem.wf = true)
    (hr : regions i s.latched = [r]) (hi : tablesWritten i = []) (reaches : reachesData i s)
    (raises : dataPhase i (s.clearValid i) = .error e s') (he : e.code = .busError) :
    ∃ t, exec i s = .next t ∧ s.completed t .busError {} ∧ s.mem.keptOutside t.mem r.base r.size ∧ s.tablesKept t := by
  obtain ⟨run, ends⟩ := exec_of_raise reaches raises (by simp [he])
  exact ⟨_, run, he ▸ ends, exec_keptOutside wf hr run, exec_tablesKept hi run⟩

/-! ### Bus errors of ranges -/

/-- A range meets a span when one of its two parts does. -/
theorem spansMeet_add (spans : List Span) (a m n : Nat) :
    spansMeet spans a (m + n) = true ↔ spansMeet spans a m = true ∨ spansMeet spans (a + m) n = true := by
  rw [spansMeet_iff_byte spans a (m + n), spansMeet_iff_byte spans a m, spansMeet_iff_byte spans (a + m) n]
  constructor
  · rintro ⟨k, hk, h⟩
    by_cases hm : k < m
    · exact .inl ⟨k, hm, h⟩
    · exact .inr ⟨k - m, by omega, by rwa [show a + m + (k - m) = a + k by omega]⟩
  · rintro (⟨k, hk, h⟩ | ⟨k, hk, h⟩)
    · exact ⟨k, by omega, h⟩
    · exact ⟨m + k, by omega, by rwa [← Nat.add_assoc]⟩

theorem spansMeet_add_eq_false (spans : List Span) (a m n : Nat) :
    spansMeet spans a (m + n) = false ↔ spansMeet spans a m = false ∧ spansMeet spans (a + m) n = false := by
  simp only [← Bool.not_eq_true, spansMeet_add, not_or]

/-! ### The bitmap block -/

theorem Bitmap.byte_ne_zero_iff (b : Bitmap) (j : Nat) : b.byte j ≠ 0 ↔ ∃ v, b.bit v = true ∧ v / 8 = j := by
  constructor
  · intro h
    by_contra none
    refine h (BitVec.eq_of_getLsbD_eq fun t ht => ?_)
    rw [b.byte_getLsbD j t ht, show (0 : Byte).getLsbD t = false from BitVec.getLsbD_zero]
    by_contra set
    exact none ⟨8 * j + t, by simpa using set, by omega⟩
  · rintro ⟨v, hv, rfl⟩ zero
    have := b.byte_getLsbD (v / 8) (v % 8) (by omega)
    rw [zero, Nat.div_add_mod, hv] at this
    simp at this

/-- The bounds that the model computes are the lowest and the highest index of a non-zero byte (40_lut.md R203). -/
theorem Bitmap.minMaxNonZero_isMinMax (b : Bitmap) : b.isMinMax b.minMaxNonZero.1 b.minMaxNonZero.2 := by
  have sorted := b.setBits_pairwise
  have members := b.mem_setBits
  unfold Bitmap.minMaxNonZero
  split
  · rename_i empty
    refine .inl ⟨fun j => ?_, rfl, rfl⟩
    by_contra h
    obtain ⟨v, hv, -⟩ := (b.byte_ne_zero_iff j).1 h
    have := (members v).2 hv
    rw [empty] at this
    cases this
  · rename_i v rest list
    rw [list] at sorted members
    have last := List.getLast_mem (l := v :: rest) (by simp)
    refine .inr ⟨(b.byte_ne_zero_iff _).2 ⟨v, (members v).1 List.mem_cons_self, rfl⟩,
      (b.byte_ne_zero_iff _).2 ⟨_, (members _).1 last, rfl⟩, fun j hj => ?_⟩
    obtain ⟨u, hu, rfl⟩ := (b.byte_ne_zero_iff j).1 hj
    have hu := (members u).2 hu
    refine ⟨Nat.div_le_div_right ?_, Nat.div_le_div_right ?_⟩
    · exact (sorted.imp Nat.le_of_lt).rel_head hu
    · exact (sorted.imp Nat.le_of_lt).rel_getLast hu

/-- There is one pair of bounds. -/
theorem Bitmap.minMaxNonZero_eq {b : Bitmap} {mn mx : Nat} (h : b.isMinMax mn mx) : b.minMaxNonZero = (mn, mx) := by
  have bounds := b.minMaxNonZero_isMinMax
  generalize b.minMaxNonZero = p at bounds
  obtain ⟨zero, rfl, rfl⟩ | ⟨lo, hi, all⟩ := h
  · obtain ⟨-, h1, h2⟩ | ⟨lo, -⟩ := bounds
    · exact Prod.ext h1 h2
    · exact absurd (zero _) lo
  · obtain ⟨zero, -⟩ | ⟨lo', hi', all'⟩ := bounds
    · exact absurd (zero _) lo
    · exact Prod.ext (Nat.le_antisymm (all' _ lo).1 (all _ lo').1) (Nat.le_antisymm (all _ hi').2 (all' _ hi).2)


/-- Two bytes as a little-endian number are the sample there (20_memory.md R92). -/
theorem Memory.leNat_bytes_two {m : Memory} (wf : m.wf = true) (a : Nat) : leNat (m.bytes a 2) = (m.sample a).toNat := by
  rw [Memory.bytes_eq _ _ _ wf, Memory.sample, toNat_append_byte]
  simp only [List.range'_succ, List.range'_zero, List.map_cons, List.map_nil, leNat]
  omega

/-- Four bytes as a little-endian number are the word there (20_memory.md R92). -/
theorem Memory.leNat_bytes_four {m : Memory} (wf : m.wf = true) (a : Nat) : leNat (m.bytes a 4) = m.word a := by
  rw [Memory.bytes_eq _ _ _ wf, Memory.word]
  simp only [List.range'_succ, List.range'_zero, List.map_cons, List.map_nil, leNat, Nat.add_assoc, Nat.reduceAdd]
  omega

section
variable {s : State} {a n : Nat}

/-- A bitmap block is not loaded when a byte of its header fails on the bus. -/
theorem bitmapLoad_headerFails (hn : 4 ≤ n) (h : s.readFails a 4 = true) :
    bitmapLoad a n s = .error busError s := by
  unfold bitmapLoad
  rw [Run.bind_of_ok (require_ok _ (decide_eq_true hn))]
  cases low : s.readFails a 2 with
  | true => exact Run.bind_of_error (rdLe_fails low)
  | false =>
    have high : s.readFails (a + 2) 2 = true := ((spansMeet_add _ a 2 2).1 h).resolve_left (ne_true_of_eq_false low)
    rw [Run.bind_of_ok (rdLe_ok low)]
    exact Run.bind_of_error (rdLe_fails high)

/-- The bitmap block's header, where the bus reads it and its bounds are in range (40_lut.md R205). -/
theorem bitmapLoad_header (wf : s.mem.wf = true) (hn : 4 ≤ n) (h : s.readFails a 4 = false)
    (hmx : (s.mem.sample (a + 2)).toNat < 8192) :
    bitmapLoad a n s =
      (if (s.mem.sample a).toNat ≤ (s.mem.sample (a + 2)).toNat then do
        let size := sliceSize (s.mem.sample a).toNat (s.mem.sample (a + 2)).toNat
        require (4 + size ≤ n) .notEnoughData
        let slice ← dmaRead (a + 4) size
        pure (bitmapOfSlice (s.mem.sample a).toNat slice, 4 + size, (s.mem.sample a).toNat,
          (s.mem.sample (a + 2)).toNat)
      else pure (0, 4, (s.mem.sample a).toNat, (s.mem.sample (a + 2)).toNat) : Run _) s := by
  obtain ⟨low, high⟩ := (spansMeet_add_eq_false _ a 2 2).1 h
  unfold bitmapLoad
  rw [Run.bind_of_ok (require_ok _ (decide_eq_true hn)), Run.bind_of_ok (rdLe_ok low), Run.bind_of_ok (rdLe_ok high),
    Memory.leNat_bytes_two wf, Memory.leNat_bytes_two wf, Run.bind_of_ok (require_ok _ (decide_eq_true hmx))]

/-- A bitmap block is not loaded when a byte of its slice fails on the bus. -/
theorem bitmapLoad_sliceFails {size : Nat} (wf : s.mem.wf = true) (header : s.readFails a 4 = false)
    (hmx : (s.mem.sample (a + 2)).toNat < 8192)
    (hsize : sliceSize (s.mem.sample a).toNat (s.mem.sample (a + 2)).toNat = size) (fits : 4 + size ≤ n)
    (h : s.readFails (a + 4) size = true) : bitmapLoad a n s = .error busError s := by
  have nonempty : size ≠ 0 := by
    rintro rfl
    rw [State.readFails, spansMeet_zero] at h
    cases h
  have ordered : (s.mem.sample a).toNat ≤ (s.mem.sample (a + 2)).toNat := by
    by_contra hc
    exact nonempty (hsize ▸ if_neg hc)
  rw [bitmapLoad_header wf (by omega) header hmx, if_pos ordered, hsize]
  rw [Run.bind_of_ok (require_ok _ (decide_eq_true fits))]
  exact Run.bind_of_error (dmaRead_fails h)

/-- A bitmap block that fits and that the bus reads is loaded (40_lut.md R205). -/
theorem bitmapLoad_ok {size : Nat} (wf : s.mem.wf = true) (hmx : (s.mem.sample (a + 2)).toNat < 8192)
    (hsize : sliceSize (s.mem.sample a).toNat (s.mem.sample (a + 2)).toNat = size) (fits : 4 + size ≤ n)
    (h : s.readFails a (4 + size) = false) :
    ∃ b, bitmapLoad a n s = .ok (b, 4 + size, (s.mem.sample a).toNat, (s.mem.sample (a + 2)).toNat) s := by
  obtain ⟨header, slice⟩ := (spansMeet_add_eq_false _ a 4 size).1 h
  rw [bitmapLoad_header wf (by omega) header hmx, hsize]
  split
  · rw [Run.bind_of_ok (require_ok _ (decide_eq_true fits)), Run.bind_of_ok (dmaRead_ok slice)]
    exact ⟨_, rfl⟩
  · rename_i unordered
    have : size = 0 := hsize ▸ if_neg unordered
    subst this
    exact ⟨0, rfl⟩

end

/-! ### The accesses of the wavelet -/

/-- The bus reads and writes the sample at an address. -/
abbrev State.sampleOk (k : Nat) (s : State) : Prop := s.readFails k 2 = false ∧ s.writeFails k 2 = false

theorem sampleOk_lasting (k : Nat) : Lasting (State.sampleOk k) := ⟨fun _ _ h => h, fun _ _ h => h, fun _ _ h => h⟩

/-- A sample that was read is one that the bus reads. -/
theorem rd16_ok {k : Nat} {s s' : State} {v : Sample} (h : rd16 k s = .ok v s') : s' = s ∧ s.readFails k 2 = false := by
  obtain ⟨bs, s1, h1, h2⟩ := Run.bind_ok h
  cases h2
  cases fails : s.readFails k 2 with
  | true => rw [dmaRead_fails fails] at h1; cases h1
  | false => rw [dmaRead_ok fails] at h1; cases h1; exact ⟨rfl, rfl⟩

theorem wr16_ok {k : Nat} {s s' : State} {v : Sample} {u : Unit} (h : wr16 k v s = .ok u s') :
    (∃ m, s' = s.withMem m) ∧ s.writeFails k 2 = false := by
  cases fails : s.writeFails k 2 with
  | true => rw [wr16, dmaWrite_fails fails] at h; cases h
  | false => rw [wr16, dmaWrite_ok fails] at h; cases h; exact ⟨⟨_, rfl⟩, rfl⟩

/-- A box, in either direction, reads and writes each of its four points. -/
theorem leaves_box (i j k l : Nat) (v : Sample → Sample → Sample → Sample → Fin 4 → Sample) {a : Nat}
    (ha : a = i ∨ a = j ∨ a = k ∨ a = l) :
    Run.Leaves (State.sampleOk a) (do
      let w0 ← rd16 i
      let w1 ← rd16 j
      let w2 ← rd16 k
      let w3 ← rd16 l
      wr16 i (v w0 w1 w2 w3 0)
      wr16 k (v w0 w1 w2 w3 1)
      wr16 j (v w0 w1 w2 w3 2)
      wr16 l (v w0 w1 w2 w3 3)) := by
  intro s u s' h
  obtain ⟨_, _, h0, h⟩ := Run.bind_ok h
  obtain ⟨_, _, h1, h⟩ := Run.bind_ok h
  obtain ⟨_, _, h2, h⟩ := Run.bind_ok h
  obtain ⟨_, _, h3, h⟩ := Run.bind_ok h
  obtain ⟨_, _, h4, h⟩ := Run.bind_ok h
  obtain ⟨_, _, h5, h⟩ := Run.bind_ok h
  obtain ⟨_, _, h6, h7⟩ := Run.bind_ok h
  obtain ⟨rfl, r0⟩ := rd16_ok h0
  obtain ⟨rfl, r1⟩ := rd16_ok h1
  obtain ⟨rfl, r2⟩ := rd16_ok h2
  obtain ⟨rfl, r3⟩ := rd16_ok h3
  obtain ⟨⟨_, rfl⟩, w0⟩ := wr16_ok h4
  obtain ⟨⟨_, rfl⟩, w1⟩ := wr16_ok h5
  obtain ⟨⟨_, rfl⟩, w2⟩ := wr16_ok h6
  obtain ⟨⟨_, rfl⟩, w3⟩ := wr16_ok h7
  obtain rfl | rfl | rfl | rfl := ha
  · exact ⟨r0, w0⟩
  · exact ⟨r1, w2⟩
  · exact ⟨r2, w1⟩
  · exact ⟨r3, w3⟩

theorem leaves_pairStep (f : Sample → Sample → Sample × Sample) (i j : Nat) {a : Nat} (ha : a = i ∨ a = j) :
    Run.Leaves (State.sampleOk a) (pairStep f i j) := by
  intro s u s' h
  obtain ⟨_, _, h0, h⟩ := Run.bind_ok h
  obtain ⟨_, _, h1, h⟩ := Run.bind_ok h
  obtain ⟨_, _, h2, h3⟩ := Run.bind_ok h
  obtain ⟨rfl, r0⟩ := rd16_ok h0
  obtain ⟨rfl, r1⟩ := rd16_ok h1
  obtain ⟨⟨_, rfl⟩, w0⟩ := wr16_ok h2
  obtain ⟨⟨_, rfl⟩, w1⟩ := wr16_ok h3
  obtain rfl | rfl := ha
  · exact ⟨r0, w0⟩
  · exact ⟨r1, w1⟩

theorem leaves_encBox (f : Sample → Sample → Sample × Sample) (g : Grid) (p x y : Nat) {a : Nat}
    (ha : a = g.addr x y ∨ a = g.addr (x + p) y ∨ a = g.addr x (y + p) ∨ a = g.addr (x + p) (y + p)) :
    Run.Leaves (State.sampleOk a) (encBox f g p x y) :=
  leaves_box _ _ _ _
    (fun a b c d =>
      ![(f (f a b).1 (f c d).1).1, (f (f a b).1 (f c d).1).2, (f (f a b).2 (f c d).2).1, (f (f a b).2 (f c d).2).2]) ha

theorem leaves_decBox (f : Sample → Sample → Sample × Sample) (g : Grid) (p x y : Nat) {a : Nat}
    (ha : a = g.addr x y ∨ a = g.addr (x + p) y ∨ a = g.addr x (y + p) ∨ a = g.addr (x + p) (y + p)) :
    Run.Leaves (State.sampleOk a) (decBox f g p x y) :=
  leaves_box _ _ _ _
    (fun a b c d =>
      ![(f (f a b).1 (f c d).1).1, (f (f a b).1 (f c d).1).2, (f (f a b).2 (f c d).2).1, (f (f a b).2 (f c d).2).2])
    (by tauto)

/-- A loop leaves what one of its turns does, when every turn keeps it. -/
theorem leaves_forUpTo {P : State → Prop} {n : Nat} {f : Nat → Run Unit} {k : Nat} (hk : k < n) (hf : Run.Leaves P (f k))
    (keeps : ∀ j, Run.Agrees (Alone P) (fun _ => True) (f j)) : Run.Leaves P (forUpTo n f) := by
  induction n with
  | zero => omega
  | succ n ih =>
    by_cases hn : k = n
    · subst hn
      exact leaves_bind fun _ => hf
    · exact leaves_bind_keeps (ih (by omega)) fun _ => keeps n

theorem leaves_forEach {P : State → Prop} {α : Type} {l : List α} {f : α → Run Unit} {a : α} (ha : a ∈ l)
    (hf : Run.Leaves P (f a)) (keeps : ∀ b, Run.Agrees (Alone P) (fun _ => True) (f b)) :
    Run.Leaves P (forEach l f) := by
  induction l with
  | nil => cases ha
  | cons b rest ih =>
    rcases List.mem_cons.1 ha with rfl | ha
    · exact leaves_bind_keeps hf fun _ => agrees_forEach rest f keeps
    · exact leaves_bind fun _ => ih ha

/-- The first level reads and writes every point of the grid, but for the last one where both sides are odd
(43_wavelet.md R359). -/
theorem leaves_levelPass_one (f : Sample → Sample → Sample × Sample) {box : Nat → Nat → Run Unit} {g : Grid} {x y : Nat}
    (hx : x < g.nx) (hy : y < g.ny) (touched : ¬ (x + 1 = g.nx ∧ y + 1 = g.ny ∧ g.nx % 2 = 1 ∧ g.ny % 2 = 1))
    (hb : ∀ x' y', (x = x' ∨ x = x' + 1) → (y = y' ∨ y = y' + 1) → Run.Leaves (State.sampleOk (g.addr x y)) (box x' y'))
    (keeps : ∀ x' y', Run.Agrees (Alone (State.sampleOk (g.addr x y))) (fun _ => True) (box x' y')) :
    Run.Leaves (State.sampleOk (g.addr x y)) (levelPass f box g 1) := by
  have base := (sampleOk_lasting (g.addr x y)).sideBySide
  have one : ∃ j, 1 = 2 ^ j := ⟨0, rfl⟩
  have leftX := leftover_iff one g.nx
  have leftY := leftover_iff one g.ny
  have rows : Run.Agrees (Alone (State.sampleOk (g.addr x y))) (fun _ => True) (if g.ny &&& 1 ≠ 0 then
      forUpTo (g.nx / (2 * 1)) fun kx => pairStep f (g.addr (kx * (2 * 1)) (g.ny / (2 * 1) * (2 * 1)))
        (g.addr (kx * (2 * 1) + 1) (g.ny / (2 * 1) * (2 * 1)))
      else pure ()) := by
    split
    · exact agrees_forUpTo _ _ fun _ => agrees_pairStep base _ _ _
    · exact agrees_pure _
  have columns (ky : Nat) : Run.Agrees (Alone (State.sampleOk (g.addr x y))) (fun _ => True) (if g.nx &&& 1 ≠ 0 then
      pairStep f (g.addr (g.nx / (2 * 1) * (2 * 1)) (ky * (2 * 1))) (g.addr (g.nx / (2 * 1) * (2 * 1)) (ky * (2 * 1) + 1))
      else pure ()) := by
    split
    · exact agrees_pairStep base _ _ _
    · exact agrees_pure _
  unfold levelPass
  dsimp only
  by_cases hrow : y / 2 < g.ny / (2 * 1)
  · refine leaves_bind_keeps (leaves_forUpTo hrow ?_ fun ky =>
      agrees_bind (agrees_forUpTo _ _ fun _ => keeps _ _) fun _ => columns ky) fun _ => rows
    by_cases hcol : x / 2 < g.nx / (2 * 1)
    · refine leaves_bind_keeps (leaves_forUpTo hcol (hb _ _ ?_ ?_) fun _ => keeps _ _) fun _ => columns _ <;> omega
    · refine leaves_bind fun _ => ?_
      rw [if_pos (leftX.2 (by omega))]
      refine leaves_pairStep f _ _ ?_
      rw [show x = g.nx / (2 * 1) * (2 * 1) by omega]
      obtain e | e : y = y / 2 * (2 * 1) ∨ y = y / 2 * (2 * 1) + 1 := by omega
      · exact .inl (by rw [← e])
      · exact .inr (by rw [← e])
  · refine leaves_bind fun _ => ?_
    rw [if_pos (leftY.2 (by omega))]
    refine leaves_forUpTo (k := x / 2) (by omega) (leaves_pairStep f _ _ ?_) fun _ => agrees_pairStep base _ _ _
    rw [show y = g.ny / (2 * 1) * (2 * 1) by omega]
    obtain e | e : x = x / 2 * (2 * 1) ∨ x = x / 2 * (2 * 1) + 1 := by omega
    · exact .inl (by rw [← e])
    · exact .inr (by rw [← e])

theorem one_mem_levels {nx ny : Nat} (h : 2 ≤ min nx ny) : 1 ∈ levels nx ny := by
  refine List.mem_filter.2 ⟨List.mem_map.2 ⟨0, by simp, rfl⟩, ?_⟩
  simpa using h

/-- The two commands of the wavelet (43_wavelet.md R366, R368) read and write every point that the first level touches. -/
theorem leaves_wavelet {g : Grid} {x y : Nat} (m : Nat) (h2 : 2 ≤ min g.nx g.ny) (hx : x < g.nx) (hy : y < g.ny)
    (touched : ¬ (x + 1 = g.nx ∧ y + 1 = g.ny ∧ g.nx % 2 = 1 ∧ g.ny % 2 = 1)) :
    Run.Leaves (State.sampleOk (g.addr x y)) (wavEncode2D m g)
      ∧ Run.Leaves (State.sampleOk (g.addr x y)) (wavDecode2D m g) := by
  have base := (sampleOk_lasting (g.addr x y)).sideBySide
  have point {x' y' : Nat} (h : x = x' ∨ x = x' + 1) (h' : y = y' ∨ y = y' + 1) :
      g.addr x y = g.addr x' y' ∨ g.addr x y = g.addr (x' + 1) y' ∨ g.addr x y = g.addr x' (y' + 1)
        ∨ g.addr x y = g.addr (x' + 1) (y' + 1) := by
    obtain rfl | rfl := h <;> obtain rfl | rfl := h' <;> simp
  refine ⟨leaves_forEach (one_mem_levels h2) ?_ fun p => ?_,
    leaves_forEach (List.mem_reverse.2 (one_mem_levels h2)) ?_ fun p => ?_⟩
  · exact leaves_levelPass_one _ hx hy touched (fun _ _ h h' => leaves_encBox _ _ _ _ _ (point h h'))
      fun _ _ => agrees_encBox base _ _ _ _ _
  · exact agrees_levelPass base _ _ _ _ fun _ _ => agrees_encBox base _ _ _ _ _
  · exact leaves_levelPass_one _ hx hy touched (fun _ _ h h' => leaves_decBox _ _ _ _ _ (point h h'))
      fun _ _ => agrees_decBox base _ _ _ _ _
  · exact agrees_levelPass base _ _ _ _ fun _ _ => agrees_decBox base _ _ _ _ _

/-- The only code that the wavelet raises is BUS_ERROR. -/
theorem confined_busOnly : Confined (fun _ => True) (fun _ => True) (· = .busError) :=
  ⟨fun _ _ _ _ _ => trivial, fun _ _ _ => trivial, fun _ _ _ _ => trivial, fun _ _ _ => trivial, .inl rfl⟩

theorem wavEncode2D_error {m : Nat} {g : Grid} {s s' : State} {e : Raise} (h : wavEncode2D m g s = .error e s') :
    e.code = .busError :=
  ((confined_wavEncode2D confined_busOnly m fun _ _ _ _ => ⟨trivial, trivial⟩).error trivial h).2

theorem wavDecode2D_error {m : Nat} {g : Grid} {s s' : State} {e : Raise} (h : wavDecode2D m g s = .error e s') :
    e.code = .busError :=
  ((confined_wavDecode2D confined_busOnly m fun _ _ _ _ => ⟨trivial, trivial⟩).error trivial h).2

/-! ### The LUT and wavelet commands -/

/-- A command of one region reaches its data phase where that region is usable. -/
theorem reachesData_of_one {i : Instr} {s : State} {r : Region} (hr : regions i s.latched = [r])
    (tables : ∀ T ∈ tablesRequired i, s.tableValid T = true) (usable : s.usable r.base r.size r.kind.alignment)
    (params : commandParamBad i s.latched = false) (fits : fixedOutputTooLarge i s.latched = false) :
    reachesData i s := by
  refine reachesData_of_usable tables (fun r' hr' => ?_) params (by rw [hr]; rfl) fits
  rw [hr, List.mem_singleton] at hr'
  exact hr' ▸ usable

/-- LUT_BITMAP_FROM_DATA and LUT_BITMAP_LOAD leave BITMAP not valid at a bus error, and everything else as it was. -/
theorem exec_busError_of_bitmapRead {i : Instr} {s : State} (hi : i = .lutBitmapFromData ∨ i = .lutBitmapLoad)
    (reaches : reachesData i s) (raises : dataPhase i (s.clearValid i) = .error busError (s.clearValid i)) :
    ∃ t, exec i s = .next t ∧ s.completed t .busError {} ∧ t.mem = s.mem ∧ t.bitmap = none ∧ t.lut = s.lut
      ∧ t.lutKind = s.lutKind ∧ t.codes = s.codes := by
  obtain ⟨run, ends⟩ := exec_of_raise reaches raises (by decide)
  have readOnly : ∀ r ∈ regions i (s.clearValid i).latched, r.access = .r := by
    rcases hi with rfl | rfl <;> simp [regions]
  obtain ⟨lut, kind⟩ := exec_lut (by rcases hi with rfl | rfl <;> decide) run
  refine ⟨_, run, ends, State.failData_mem _ readOnly, ?_, lut, kind,
    exec_codes (by rcases hi with rfl | rfl <;> decide) run⟩
  rw [State.failData_bitmap]
  rcases hi with rfl | rfl <;> rfl

theorem commandParamBad_of_legal {i : Instr} {l : Params} (hi : i = .wavEncode ∨ i = .wavDecode)
    (legal : (gridOfParams l).legal) : commandParamBad i l = false := by
  have bad : commandParamBad i l = gridIllegal l := by rcases hi with rfl | rfl <;> rfl
  rw [bad, gridIllegal]
  obtain h | h | ⟨h, h'⟩ := legal
  · have h : l.nx.toNat = 0 := h
    simp [h]
  · have h : l.ny.toNat = 0 := h
    simp [h]
  · have h : l.ox.toNat ≠ 0 := h
    have h' : l.nx.toNat * l.ox.toNat ≤ l.oy.toNat := h'
    have hox : l.ox ≠ 0#32 := fun h0 => h (by rw [h0]; rfl)
    simp [hox, h']

/-- A wavelet command whose bus fails at a point that the first level touches ends with BUS_ERROR: it cannot get past it. -/
theorem wavelet_raises {i : Instr} {s : State} (hi : i = .wavEncode ∨ i = .wavDecode) {x y : Nat}
    (h2 : 2 ≤ min (gridOfParams s.latched).nx (gridOfParams s.latched).ny) (hx : x < (gridOfParams s.latched).nx)
    (hy : y < (gridOfParams s.latched).ny)
    (touched : ¬ (x + 1 = (gridOfParams s.latched).nx ∧ y + 1 = (gridOfParams s.latched).ny
      ∧ (gridOfParams s.latched).nx % 2 = 1 ∧ (gridOfParams s.latched).ny % 2 = 1))
    (fails : s.readFails ((gridOfParams s.latched).addr x y) 2 = true
      ∨ s.writeFails ((gridOfParams s.latched).addr x y) 2 = true) :
    ∃ e s', dataPhase i (s.clearValid i) = .error e s' ∧ e.code = .busError := by
  have stuck {r : Results} {s' : State} (hs' : s'.sampleOk ((gridOfParams s.latched).addr x y))
      (h : dataPhase i (s.clearValid i) = .ok r s') : False := by
    have platform : s'.platform = s.platform := by
      rw [(keeps_dataPhase dataRelation_dataOnly i (s.clearValid i)).1 r s' h]
      rfl
    rw [State.sampleOk, State.readFails, State.writeFails, platform] at hs'
    rcases fails with fails | fails
    · exact Bool.false_ne_true (hs'.1.symm.trans fails)
    · exact Bool.false_ne_true (hs'.2.symm.trans fails)
  have touches := leaves_wavelet s.latched.maxval.toNat h2 hx hy touched
  cases hb : dataPhase i (s.clearValid i) with
  | ok r s' =>
    refine (stuck ?_ hb).elim
    rcases hi with rfl | rfl
    · obtain ⟨_, s1, h1, h⟩ := Run.bind_ok (x := wavEncode2D _ _) hb
      cases h
      exact touches.1 _ _ _ h1
    · obtain ⟨_, s1, h1, h⟩ := Run.bind_ok (x := wavDecode2D _ _) hb
      cases h
      exact touches.2 _ _ _ h1
  | error e s' =>
    refine ⟨e, s', rfl, ?_⟩
    rcases hi with rfl | rfl
    · obtain h | ⟨_, _, _, h⟩ := Run.bind_error (x := wavEncode2D _ _) hb
      · exact wavEncode2D_error h
      · cases h
    · obtain h | ⟨_, _, _, h⟩ := Run.bind_error (x := wavDecode2D _ _) hb
      · exact wavDecode2D_error h
      · cases h

/-- Settles O39: each command runs to the access that fails and ends there. -/
theorem busErrorsEndTheCommand : Obligations.BusErrorsEndTheCommand := by
  unfold Obligations.BusErrorsEndTheCommand
  refine ⟨fun i s t hr hw h => exec_ne_busError hr hw h, ?_, ?_, ?_, ?_, ?_, ?_⟩
  · intro s a n usable fails
    exact exec_busError_of_bitmapRead (.inl rfl) (reachesData_of_one rfl (by simp [tablesRequired]) usable rfl rfl)
      (Run.bind_of_error (x := bitmapFromSamples a n) (Run.bind_of_error (readSamples_fails fails)))
  · intro s a n mn mx wf usable hn fails
    refine exec_busError_of_bitmapRead (.inr rfl) (reachesData_of_one rfl (by simp [tablesRequired]) usable rfl rfl)
      (Run.bind_of_error (x := bitmapLoad a n) ?_)
    obtain header | ⟨header, hmx, ordered, fits, slice⟩ := fails
    · exact bitmapLoad_headerFails (s := s.clearValid .lutBitmapLoad) hn header
    · exact bitmapLoad_sliceFails (s := s.clearValid .lutBitmapLoad) wf header hmx (if_pos ordered) fits slice
  · intro s b mn mx d cap size wf hb bounds usable fits fails
    have reaches : reachesData .lutBitmapStore s :=
      reachesData_of_one rfl (by simp [tablesRequired, State.tableValid, hb]) usable rfl rfl
    refine exec_busError_of_raise wf rfl rfl reaches (e := busError) (s' := s.clearValid .lutBitmapStore) ?_ rfl
    have minMax := Bitmap.minMaxNonZero_eq bounds
    refine (Run.bind_of_ok (x := getBitmap) (getBitmap_ok hb)).trans ?_
    rw [minMax]
    exact (congrFun (if_pos fits) _).trans (Run.bind_of_error (dmaWrite_fails (by rw [b.block_length]; exact fails)))
  · intro s f a n wf hf usable fails
    have reaches : reachesData .lutApply s :=
      reachesData_of_one rfl (by simp [tablesRequired, State.tableValid, hf]) usable rfl rfl
    refine exec_busError_of_raise wf rfl rfl reaches (e := busError) (s' := s.clearValid .lutApply) ?_ rfl
    exact (Run.bind_of_ok (x := getLut) (getLut_ok hf)).trans (Run.bind_of_error (applyLut_fails f fails))
  · intro s f d cap wf hf usable fits fails
    have reaches : reachesData .lutDump s :=
      reachesData_of_one rfl (by simp [tablesRequired, State.tableValid, hf]) usable rfl
        (decide_eq_false (Nat.not_lt.2 fits))
    refine exec_busError_of_raise wf rfl rfl reaches (e := busError) (s' := s.clearValid .lutDump) ?_ rfl
    refine (Run.bind_of_ok (x := getLut) (getLut_ok hf)).trans (Run.bind_of_error (dmaWrite_fails ?_))
    rw [bytesOfSamples_length, f.entries_length]
    exact fails
  · intro s i x y hi g size wf legal usable h2 hx hy touched fails
    obtain ⟨e, s', raises, code⟩ := wavelet_raises hi h2 hx hy touched fails
    have extent : gridExtent s.latched = size :=
      gridExtent_of_pos (Nat.zero_lt_of_lt hx) (Nat.zero_lt_of_lt hy)
    have one : regions i s.latched = [⟨g.base, size, .rw, .sample⟩] := by
      rw [← extent]
      rcases hi with rfl | rfl <;> rfl
    exact exec_busError_of_raise wf one (by rcases hi with rfl | rfl <;> rfl)
      (reachesData_of_one one (by rcases hi with rfl | rfl <;> simp [tablesRequired]) usable
        (commandParamBad_of_legal hi legal) (by rcases hi with rfl | rfl <;> rfl)) raises code

end Sys2Proof.Machine
end

section
/-! SUPPORT. The Huffman decoder on a bus that answers some of its accesses with errors: it meets the error exactly where an
access that it makes fails, and decodes as on a bus without errors otherwise. -/

namespace Sys2Proof.Machine

/-! ### The packed table -/

/-- `x` is `y` when none of the fetches from `lo` up to `hi` fails, and BUS_ERROR when one of them does. -/
structure FaultsBetween {α : Type} (rd : Nat → Bool) (lo hi : Nat) (x y : Except ErrCode α) : Prop where
  le : lo ≤ hi
  clean : (∀ j, lo ≤ j → j < hi → rd j = false) → x = y
  faulty : (∃ j, lo ≤ j ∧ j < hi ∧ rd j = true) → x = .error .busError

theorem FaultsBetween.refl {α : Type} (rd : Nat → Bool) (k : Nat) (x : Except ErrCode α) : FaultsBetween rd k k x x where
  le := le_rfl
  clean _ := rfl
  faulty := by
    rintro ⟨j, lo, hi, -⟩
    omega

/-- A fetch before the others, in the reader's order: the rest runs when it does not fail. -/
theorem FaultsBetween.seq {α β : Type} {rd : Nat → Bool} {lo mid hi : Nat} {x : Except ErrCode α} {v : α}
    {f : α → Except ErrCode β} {z y : Except ErrCode β} (hx : FaultsBetween rd lo mid x (.ok v))
    (hf : FaultsBetween rd mid hi (f v) y) (ok : ∀ w, x = .ok w → z = f w)
    (error : ∀ e, x = .error e → z = .error e) : FaultsBetween rd lo hi z y where
  le := hx.le.trans hf.le
  clean h := by
    rw [ok v (hx.clean fun j lo' hi' => h j lo' (hi'.trans_le hf.le))]
    exact hf.clean fun j lo' hi' => h j (hx.le.trans lo') hi'
  faulty := by
    rintro ⟨j, lo', hi', fails⟩
    by_cases first : ∃ j, lo ≤ j ∧ j < mid ∧ rd j = true
    · exact error _ (hx.faulty first)
    · have none : ∀ j, lo ≤ j → j < mid → rd j = false := fun j h1 h2 =>
        eq_false_of_ne_true fun h => first ⟨j, h1, h2, h⟩
      rw [ok v (hx.clean none)]
      refine hf.faulty ⟨j, ?_, hi', fails⟩
      by_contra hlt
      rw [none j lo' (by omega)] at fails
      cases fails

theorem TableReader.get_faults (rd : Nat → Bool) {k : Nat} {r r' : TableReader} {v : Nat}
    (h : r.get (fun _ => false) k = .ok (v, r')) :
    FaultsBetween rd r.fetched r'.fetched (r.get rd k) (.ok (v, r')) := by
  unfold TableReader.get at h ⊢
  split at h
  · rename_i buffered
    rw [if_pos buffered]
    cases h
    exact .refl _ _ _
  · rename_i buffered
    rw [if_neg buffered]
    split at h
    · cases h
    · rw [if_neg Bool.false_ne_true] at h
      cases h
      refine ⟨Nat.le_succ _, fun clean => ?_, ?_⟩
      · rw [clean r.fetched le_rfl (Nat.lt_succ_self _)]
        rfl
      · rintro ⟨j, lo, hi, fails⟩
        obtain rfl : j = r.fetched := by simp only at hi; omega
        rw [fails]
        rfl

/-- The unpacking of a table fetches its bytes in order, each once, and ends at the first fetch that fails (42_huffman_decode.md
R302, R303). -/
theorem unpackFrom_faults (rd : Nat → Bool) {iM fuel i q : Nat} {r : TableReader} {lens : List (Nat × Nat)}
    (h : unpackFrom (fun _ => false) iM fuel i r = .ok (lens, q)) :
    FaultsBetween rd r.fetched q (unpackFrom rd iM fuel i r) (.ok (lens, q)) := by
  induction fuel generalizing i r lens q with
  | zero =>
    cases h
    exact .refl _ _ _
  | succ fuel ih =>
    rw [unpackFrom] at h ⊢
    split at h
    · rename_i done
      rw [if_pos done]
      cases h
      exact .refl _ _ _
    · rename_i more
      rw [if_neg more]
      cases hget : r.get (fun _ => false) 6 with
      | error e => rw [hget] at h; cases h
      | ok p =>
        obtain ⟨l, r'⟩ := p
        rw [hget] at h
        refine .seq (TableReader.get_faults rd hget) (f := fun p : Nat × TableReader => _) ?_ (fun w hw => by rw [hw])
          fun e he => by rw [he]
        dsimp only at h ⊢
        split at h
        · rename_i long
          rw [if_pos long]
          cases hget' : r'.get (fun _ => false) 8 with
          | error e => rw [hget'] at h; cases h
          | ok p =>
            obtain ⟨c, r''⟩ := p
            rw [hget'] at h
            refine .seq (TableReader.get_faults rd hget') (f := fun p : Nat × TableReader => _) ?_
              (fun w hw => by rw [hw]) fun e he => by rw [he]
            dsimp only at h ⊢
            split at h
            · rename_i fits
              rw [if_pos fits]
              exact ih h
            · cases h
        · rename_i long
          rw [if_neg long]
          split at h
          · rename_i short
            rw [if_pos short]
            split at h
            · rename_i fits
              rw [if_pos fits]
              exact ih h
            · cases h
          · rename_i short
            rw [if_neg short]
            cases hrest : unpackFrom (fun _ => false) iM fuel (i + 1) r' with
            | error e => rw [hrest] at h; cases h
            | ok p =>
              obtain ⟨lens', q'⟩ := p
              rw [hrest] at h
              cases h
              exact .seq (ih hrest) (f := fun p => .ok (if l = 0 then p.1 else (i, l) :: p.1, p.2)) (.refl _ _ _)
                (fun w hw => by rw [hw]) fun e he => by rw [he]

theorem unpackTable_faults (rd : Nat → Bool) {area : List Byte} {im iM q : Nat} {lens : List (Nat × Nat)}
    (h : unpackTable (fun _ => false) area im iM = .ok (lens, q)) :
    FaultsBetween rd 0 q (unpackTable rd area im iM) (.ok (lens, q)) :=
  unpackFrom_faults rd h

theorem TableReader.get_budget {rd : Nat → Bool} {k v : Nat} {r r' : TableReader} (h : r.get rd k = .ok (v, r')) :
    r'.fetched + r'.rest.length = r.fetched + r.rest.length := by
  unfold TableReader.get at h
  split at h
  · cases h
    rfl
  · split at h
    · cases h
    · rename_i rest hrest
      split at h
      · cases h
      · cases h
        rw [hrest, List.length_cons]
        dsimp only
        omega

theorem unpackFrom_le {rd : Nat → Bool} {iM fuel i q : Nat} {r : TableReader} {lens : List (Nat × Nat)}
    (h : unpackFrom rd iM fuel i r = .ok (lens, q)) : q ≤ r.fetched + r.rest.length := by
  induction fuel generalizing i r lens q with
  | zero =>
    cases h
    exact Nat.le_add_right _ _
  | succ fuel ih =>
    rw [unpackFrom] at h
    split at h
    · cases h
      exact Nat.le_add_right _ _
    · split at h
      · cases h
      · rename_i hget
        have budget := TableReader.get_budget hget
        split at h
        · split at h
          · cases h
          · rename_i hget'
            have budget' := TableReader.get_budget hget'
            split at h
            · exact (ih h).trans_eq (budget'.trans budget)
            · cases h
        · split at h
          · split at h
            · exact (ih h).trans_eq budget
            · cases h
          · split at h
            · cases h
            · rename_i hrest
              cases h
              exact (ih hrest).trans_eq budget

/-- A packed table lies within the block (42_huffman_decode.md R302). -/
theorem unpackTable_le {rd : Nat → Bool} {area : List Byte} {im iM q : Nat} {lens : List (Nat × Nat)}
    (h : unpackTable rd area im iM = .ok (lens, q)) : q ≤ area.length :=
  (unpackFrom_le h).trans_eq (Nat.zero_add _)

/-! ### The coded stream -/

/-- `x` is `y`, but for a bus error. -/
abbrev ButForBusError {α : Type} (x y : Except ErrCode α) : Prop := x = y ∨ x = .error .busError

section
variable (rd wr : Nat → Nat → Bool)

theorem emit_faults (iM no sym stop : Nat) (d : Decoding) :
    ButForBusError (emit rd wr iM no sym stop d) (emit noFault noFault iM no sym stop d) := by
  unfold emit
  dsimp only
  split
  · split
    · exact .inl rfl
    · split
      · exact .inr rfl
      · rw [if_neg Bool.false_ne_true]
        split
        · exact .inl rfl
        · split
          · exact .inl rfl
          · split
            · exact .inr rfl
            · exact .inl rfl
  · split
    · exact .inl rfl
    · split
      · exact .inr rfl
      · exact .inl rfl

theorem findLong_faults (stop : Nat) (d : Decoding) (t : CodeTable) :
    ButForBusError (findLong rd stop d t) (findLong noFault stop d t) := by
  induction t with
  | nil => exact .inl rfl
  | cons c rest ih =>
    rw [findLong, findLong, if_neg (c := noFault _ _ = true) Bool.false_ne_true]
    split
    · split
      · exact .inr rfl
      · split
        · exact .inl rfl
        · exact ih
    · exact ih

theorem phase1Step_faults (placed : CodeTable) (iM no stop : Nat) (d : Decoding) :
    ButForBusError (phase1Step rd wr placed iM no stop d) (phase1Step noFault noFault placed iM no stop d) := by
  unfold phase1Step
  rw [if_neg (c := noFault _ _ = true) Bool.false_ne_true]
  dsimp only
  split
  · exact .inr rfl
  · split
    · exact emit_faults rd wr _ _ _ _ _
    · rcases findLong_faults rd stop d (longAt placed (natOfBits (d.rest.take Config.hufDecBits))) with h | h
      · rw [h]
        split
        · exact .inl rfl
        · exact emit_faults rd wr _ _ _ _ _
      · rw [h]
        exact .inr rfl

theorem phase1_faults (placed : CodeTable) (iM no stop fuel : Nat) (d : Decoding) :
    ButForBusError (phase1 rd wr placed iM no stop fuel d) (phase1 noFault noFault placed iM no stop fuel d) := by
  induction fuel generalizing d with
  | zero => exact .inl rfl
  | succ fuel ih =>
    rw [phase1, phase1]
    split
    · rcases phase1Step_faults rd wr placed iM no stop d with h | h
      · rw [h]
        split
        · exact .inl rfl
        · exact ih _
      · rw [h]
        exact .inr rfl
    · exact .inl rfl

theorem phase2Step_faults (placed : CodeTable) (iM no nBits : Nat) (d : Decoding) :
    ButForBusError (phase2Step rd wr placed iM no nBits d) (phase2Step noFault noFault placed iM no nBits d) := by
  unfold phase2Step
  rw [if_neg (c := noFault _ _ = true) Bool.false_ne_true]
  dsimp only
  split
  · exact .inr rfl
  · split
    · split
      · exact emit_faults rd wr _ _ _ _ _
      · exact .inl rfl
    · exact .inl rfl

theorem phase2_faults (placed : CodeTable) (iM no nBits fuel : Nat) (d : Decoding) :
    ButForBusError (phase2 rd wr placed iM no nBits fuel d) (phase2 noFault noFault placed iM no nBits fuel d) := by
  induction fuel generalizing d with
  | zero => exact .inl rfl
  | succ fuel ih =>
    rw [phase2, phase2]
    split
    · rcases phase2Step_faults rd wr placed iM no nBits d with h | h
      · rw [h]
        split
        · exact .inl rfl
        · exact ih _
      · rw [h]
        exact .inr rfl
    · exact .inl rfl

/-- A stream decodes as on a bus without errors, or ends with BUS_ERROR. -/
theorem decodeStream_faults (placed : CodeTable) (iM no nBits : Nat) (stream : Bits) :
    ButForBusError (decodeStream rd wr placed iM no nBits stream)
      (decodeStream noFault noFault placed iM no nBits stream) := by
  unfold decodeStream
  rcases phase1_faults rd wr placed iM no stream.length stream.length ⟨0, stream, 0, []⟩ with h | h
  · rw [h]
    split
    · exact .inl rfl
    · rename_i d _
      split
      · exact .inl rfl
      · rcases phase2_faults rd wr placed iM no nBits (nBits - d.pos) d with h | h
        · rw [h]
          exact .inl rfl
        · rw [h]
          exact .inr rfl
  · rw [h]
    exact .inr rfl

variable {rd wr}

/-- A stream that decodes had each of its bytes read without a bus error: every bit is read before it is passed, and the last
ones all at once (42_huffman_decode.md R314, R315). -/
theorem decodeStream_reads {fails : Nat → Bool}
    (hrd : ∀ pos k, rd pos k = false → ∀ j, pos < 8 * j + 8 → 8 * j < pos + k → fails j = false) {placed : CodeTable}
    {iM no nBits : Nat} {stream : Bits} {xs : List Sample}
    (h : decodeStream rd wr placed iM no nBits stream = .ok xs) : ∀ j, 8 * j < nBits → fails j = false := by
  obtain ⟨d, d', h1, hpos, h2, -, -⟩ := decodeStream_ok h
  have passed : ∀ j, 8 * j < d.pos → fails j = false := by
    refine phase1_keeps (Q := fun d => ∀ j, 8 * j < d.pos → fails j = false) (fun d d' hd hs j hj => ?_)
      (fun j hj => absurd hj (by simp)) h1
    obtain ⟨window, e, code, he⟩ := phase1Step_ok hs
    obtain ⟨-, count⟩ := emit_ok he
    simp only [Decoding.skip] at count
    by_cases before : 8 * j < d.pos
    · exact hd j before
    by_cases inCode : 8 * j < d.pos + e.len.toNat
    · rcases code with short | long
      · exact hrd _ _ window j (by omega) (by omega)
      · exact hrd _ _ long j (by omega) inCode
    · obtain same | ⟨eight, read⟩ := count
      · omega
      · exact hrd _ _ read j (by omega) (by omega)
  intro j hj
  by_cases before : 8 * j < d.pos
  · exact passed j before
  · obtain ⟨fuel, hfuel⟩ : ∃ fuel, nBits - d.pos = fuel + 1 := ⟨nBits - d.pos - 1, by omega⟩
    rw [hfuel, phase2, if_pos (by omega)] at h2
    split at h2
    · cases h2
    · rename_i hs
      exact hrd _ _ (phase2Step_ok hs).1 j (by omega) (by omega)

/-- A stream that decodes had each of its samples written without a bus error. -/
theorem decodeStream_writes {fails : Nat → Bool}
    (hwr : ∀ out m, wr out m = false → ∀ k, out ≤ k → k < out + m → fails k = false) {placed : CodeTable}
    {iM no nBits : Nat} {stream : Bits} {xs : List Sample}
    (h : decodeStream rd wr placed iM no nBits stream = .ok xs) : ∀ k < no, fails k = false := by
  obtain ⟨d, d', h1, -, h2, all, -⟩ := decodeStream_ok h
  have emitted {sym stop l : Nat} {d d' : Decoding} (hd : ∀ k < d.out, fails k = false)
      (he : emit rd wr iM no sym stop (d.skip l) = .ok d') : ∀ k < d'.out, fails k = false := by
    intro k hk
    obtain ⟨⟨ys, -, out, written⟩, -⟩ := emit_ok he
    simp only [Decoding.skip] at out written
    by_cases before : k < d.out
    · exact hd k before
    · exact hwr _ _ written k (by omega) (by omega)
  have middle := phase1_keeps (Q := fun d => ∀ k < d.out, fails k = false)
    (fun _ _ hd hs => have ⟨_, _, _, he⟩ := phase1Step_ok hs; emitted hd he) (by simp) h1
  exact all ▸ phase2_keeps (Q := fun d => ∀ k < d.out, fails k = false)
    (fun _ _ hd hs => have ⟨_, _, _, he⟩ := phase2Step_ok hs; emitted hd he) middle h2

end

/-! ### HUF_UNCOMPRESS -/

/-- The decoder after the header of a block that is not too short (42_huffman_decode.md R302 to R317). -/
def hufUncompressBody (a n d no im iM nBits : Nat) : Run HufInfo := do
  let s ← get
  let area := s.mem.bytes (a + 20) (n - 20)
  let (lens, q) ← ofExcept (unpackTable (fun j => s.readFails (a + 20 + j) 1) area im iM)
  modify (·.withCodes (canonicalCodes lens))
  require (nBits ≤ 8 * (n - 20 - q)) .invalidNbits
  let placed ← buildStage (canonicalCodes lens)
  let base := a + 20 + q
  let stream := bitsOfBytes (s.mem.bytes base (byteCount nBits))
  let xs ← ofExcept (decodeStream (s.bitsFail base) (fun k m => s.writeFails (d + 2 * k) (2 * m)) placed iM no nBits
    stream)
  modify fun s' => s'.withMem (s'.mem.write d (bytesOfSamples xs))
  pure { count := no, im := im, iM := iM, tableBytes := q, nBits := nBits }

section
variable {s : State} {a n d no nBits q im iM : Nat} {c : CodeTable} {xs : List Sample}

theorem hufUncompress_headerFails (hn : 20 ≤ n) (h : s.readFails a 8 = true ∨ s.readFails (a + 12) 4 = true) :
    hufUncompress a n d no s = .error busError s := by
  rw [hufUncompress, if_neg (by simp only [Config.hufHdr]; omega)]
  cases first : s.readFails a 4 with
  | true => exact Run.bind_of_error (rdLe_fails first)
  | false =>
    rw [Run.bind_of_ok (rdLe_ok first)]
    cases second : s.readFails (a + 4) 4 with
    | true => exact Run.bind_of_error (rdLe_fails second)
    | false =>
      rw [Run.bind_of_ok (rdLe_ok second)]
      refine Run.bind_of_error (rdLe_fails (h.resolve_left fun both => ?_))
      rcases (spansMeet_add _ a 4 4).1 both with h | h
      · exact Bool.false_ne_true (first.symm.trans h)
      · exact Bool.false_ne_true (second.symm.trans h)

theorem hufUncompress_eq_body (wf : s.mem.wf = true) (holds : s.mem.holdsHuffman a n no nBits q im iM c xs)
    (first : s.readFails a 8 = false) (third : s.readFails (a + 12) 4 = false) :
    hufUncompress a n d no s = hufUncompressBody a n d no im iM nBits s := by
  obtain ⟨him, hiM, imLt, iMLt⟩ := holds.bounds
  obtain ⟨hBits, bitsLe, streamFits⟩ := holds.bitCount
  obtain ⟨low, high⟩ := (spansMeet_add_eq_false _ a 4 4).1 first
  rw [hufUncompress, if_neg (not_lt.2 holds.header), Run.bind_of_ok (rdLe_ok low), Run.bind_of_ok (rdLe_ok high),
    Run.bind_of_ok (rdLe_ok third), Memory.leNat_bytes_four wf, Memory.leNat_bytes_four wf, Memory.leNat_bytes_four wf,
    him, hiM, hBits, Run.bind_of_ok (require_ok _ (by simp [imLt, iMLt])),
    Run.bind_of_ok (require_ok _ (by simp [bitsLe, streamFits]))]
  rfl

/-- A fetch of the packed table that fails ends the decoder before the code table is there. -/
theorem hufUncompress_tableFails (wf : s.mem.wf = true) (holds : s.mem.holdsHuffman a n no nBits q im iM c xs)
    (first : s.readFails a 8 = false) (third : s.readFails (a + 12) 4 = false) (h : s.readFails (a + 20) q = true) :
    hufUncompress a n d no s = .error busError s := by
  obtain ⟨lens, table, -⟩ := holds.table
  obtain ⟨j, hj, fails⟩ := (spansMeet_iff_byte _ _ _).1 h
  have ends := (unpackTable_faults (fun j => s.readFails (a + 20 + j) 1) table).faulty ⟨j, j.zero_le, hj, fails⟩
  rw [hufUncompress_eq_body wf holds first third]
  refine (Run.bind_of_ok (x := get) rfl).trans (Run.bind_of_error ?_)
  rw [ends]
  rfl

/-- Past the packed table the decoder has the block's code table, and decodes the stream unless an access fails. -/
theorem hufUncompress_eq_stream (wf : s.mem.wf = true) (holds : s.mem.holdsHuffman a n no nBits q im iM c xs)
    (first : s.readFails a 8 = false) (third : s.readFails (a + 12) 4 = false) (h : s.readFails (a + 20) q = false) :
    hufUncompress a n d no s = (do
      let ys ← ofExcept (decodeStream (s.bitsFail (a + 20 + q)) (fun k m => s.writeFails (d + 2 * k) (2 * m))
        (buildDecode [] c).1 iM no nBits (bitsOfBytes (s.mem.bytes (a + 20 + q) (byteCount nBits))))
      modify fun s' => s'.withMem (s'.mem.write d (bytesOfSamples ys))
      pure { count := no, im := im, iM := iM, tableBytes := q, nBits := nBits } : Run HufInfo) (s.withCodes c) := by
  obtain ⟨lens, table, rfl⟩ := holds.table
  have clean := (unpackTable_faults (fun j => s.readFails (a + 20 + j) 1) table).clean fun j _ hj =>
    spansMeet_part _ _ _ _ _ h (Nat.le_add_right _ _) (by omega)
  have built : buildStage (canonicalCodes lens) (s.withCodes (canonicalCodes lens)) =
      .ok (buildDecode [] (canonicalCodes lens)).1 (s.withCodes (canonicalCodes lens)) := by
    have complete := holds.build
    rw [buildStage_eq]
    generalize buildDecode [] (canonicalCodes lens) = p at complete
    obtain ⟨placed, failing⟩ := p
    cases complete
    rfl
  rw [hufUncompress_eq_body wf holds first third]
  refine (Run.bind_of_ok (x := get) rfl).trans ?_
  dsimp only
  rw [clean]
  refine (Run.bind_of_ok (ofExcept_ok _ _)).trans ?_
  dsimp only
  rw [Run.bind_of_ok (Run.modify_eq _ _), Run.bind_of_ok (require_ok _ (decide_eq_true holds.room)),
    Run.bind_of_ok built]

/-- An access of the stream or of the samples that fails ends the decoder with the code table valid. -/
theorem hufUncompress_streamFails (wf : s.mem.wf = true) (holds : s.mem.holdsHuffman a n no nBits q im iM c xs)
    (first : s.readFails a 8 = false) (third : s.readFails (a + 12) 4 = false) (table : s.readFails (a + 20) q = false)
    (h : s.readFails (a + 20 + q) (byteCount nBits) = true ∨ s.writeFails d (2 * no) = true) :
    hufUncompress a n d no s = .error busError (s.withCodes c) := by
  rw [hufUncompress_eq_stream wf holds first third table]
  have ends := decodeStream_faults (s.bitsFail (a + 20 + q)) (fun k m => s.writeFails (d + 2 * k) (2 * m))
    (buildDecode [] c).1 iM no nBits (bitsOfBytes (s.mem.bytes (a + 20 + q) (byteCount nBits)))
  rw [show decodeStream noFault noFault _ _ _ _ _ = _ from holds.stream] at ends
  rcases ends with ok | fails
  · exfalso
    rcases h with h | h
    · obtain ⟨j, hj, fails⟩ := (spansMeet_iff_byte _ _ _).1 h
      have clean := decodeStream_reads (fails := fun j => s.readFails (a + 20 + q + j) 1)
        (fun pos k ok j lo hi => spansMeet_part _ _ _ _ _ ok (by omega) (by omega)) ok j
        (by simp only [byteCount] at hj; omega)
      exact Bool.false_ne_true (clean.symm.trans fails)
    · obtain ⟨k, hk, fails⟩ := (spansMeet_iff_byte _ _ _).1 h
      have clean := decodeStream_writes (fails := fun k => s.writeFails (d + 2 * k) 2)
        (fun out m ok k lo hi => spansMeet_part _ _ _ _ _ ok (by omega) (by omega)) ok (k / 2) (by omega)
      have := spansMeet_part _ _ _ (d + k) 1 clean (by omega) (by omega)
      exact Bool.false_ne_true (this.symm.trans fails)
  · rw [fails]
    rfl

/-- A block whose bytes are all read decodes with its code table valid, unless the bus answers a sample with an error. -/
theorem hufUncompress_ends (wf : s.mem.wf = true) (holds : s.mem.holdsHuffman a n no nBits q im iM c xs)
    (source : s.readFails a n = false) :
    hufUncompress a n d no s = .error busError (s.withCodes c)
      ∨ ∃ info, hufUncompress a n d no s =
          .ok info ((s.withCodes c).withMem (s.mem.write d (bytesOfSamples xs))) := by
  have := holds.header
  have := holds.room
  obtain ⟨-, -, streamFits⟩ := holds.bitCount
  have part (b m : Nat) (lo : a ≤ b) (hi : b + m ≤ a + n) : s.readFails b m = false :=
    spansMeet_part _ _ _ _ _ source lo hi
  obtain ⟨lens, table, -⟩ := holds.table
  have tableFits : q ≤ n - 20 := (unpackTable_le table).trans_eq (Memory.bytes_length ..)
  rw [hufUncompress_eq_stream wf holds (part _ _ (by omega) (by omega)) (part _ _ (by omega) (by omega))
    (part _ _ (by omega) (by omega))]
  have ends := decodeStream_faults (s.bitsFail (a + 20 + q)) (fun k m => s.writeFails (d + 2 * k) (2 * m))
    (buildDecode [] c).1 iM no nBits (bitsOfBytes (s.mem.bytes (a + 20 + q) (byteCount nBits)))
  rw [show decodeStream noFault noFault _ _ _ _ _ = _ from holds.stream] at ends
  rcases ends with ok | fails
  · rw [ok]
    exact .inr ⟨_, rfl⟩
  · rw [fails]
    exact .inl rfl

end

end Sys2Proof.Machine
end

section
/-! SUPPORT. The forward wavelet in memory, where the bus serves every point of the grid: each level gives the points the values
of `encPoint`, and the levels together those of `encGrid` (43_wavelet.md R359, R363). -/

namespace Sys2Proof.Machine

/-! ### A grid in memory -/

/-- The bus reads and writes every point of the grid, and no two points share an address. -/
structure Grid.served (g : Grid) (s : State) : Prop where
  points : ∀ x < g.nx, ∀ y < g.ny, s.sampleOk (g.addr x y)
  apart : ∀ x < g.nx, ∀ y < g.ny, ∀ x' < g.nx, ∀ y' < g.ny, g.addr x y = g.addr x' y' → x = x' ∧ y = y'

/-- `s'` is `s` but for the points of the grid, which have the values `w`. -/
structure Grid.holds (g : Grid) (s : State) (w : GridValues) (s' : State) : Prop where
  others : s' = s.withMem s'.mem
  wf : s'.mem.wf = true
  values : ∀ x < g.nx, ∀ y < g.ny, s'.mem.grid g x y = w x y
  outside : ∀ b, ¬ g.covers b → s'.mem.read b = s.mem.read b

/-- The values with another one at a point. -/
def setPoint (w : GridValues) (x y : Nat) (v : Sample) : GridValues := fun x' y' => if x' = x ∧ y' = y then v else w x' y'

/-- The values after a butterfly of two points. -/
def pairValues (f : Sample → Sample → Sample × Sample) (x y x' y' : Nat) (w : GridValues) : GridValues :=
  setPoint (setPoint w x y (f (w x y) (w x' y')).1) x' y' (f (w x y) (w x' y')).2

/-- The values after the 2x2 box of EncLevel (43_wavelet.md R359). -/
def boxValues (f : Sample → Sample → Sample × Sample) (p x y : Nat) (w : GridValues) : GridValues :=
  let top := f (w x y) (w (x + p) y)
  let low := f (w x (y + p)) (w (x + p) (y + p))
  setPoint (setPoint (setPoint (setPoint w x y (f top.1 low.1).1) x (y + p) (f top.1 low.1).2) (x + p) y
    (f top.2 low.2).1) (x + p) (y + p) (f top.2 low.2).2

/-- A part of the wavelet that takes the grid from the values `w` to the values `w'`. -/
def Grid.Maps (g : Grid) (s : State) (x : Run Unit) (w w' : GridValues) : Prop :=
  ∀ t, g.holds s w t → ∃ t', x t = .ok () t' ∧ g.holds s w' t'

section
variable {g : Grid} {s : State} {w w' : GridValues}

theorem Grid.holds.congr {t : State} (h : g.holds s w t) (e : ∀ x < g.nx, ∀ y < g.ny, w x y = w' x y) :
    g.holds s w' t :=
  ⟨h.others, h.wf, fun x hx y hy => (h.values x hx y hy).trans (e x hx y hy), h.outside⟩

theorem Grid.Maps.seq {w'' : GridValues} {x y : Run Unit} (hx : g.Maps s x w w') (hy : g.Maps s y w' w'') :
    g.Maps s (x >>= fun _ => y) w w'' := by
  intro t ht
  obtain ⟨t', run, ht'⟩ := hx t ht
  obtain ⟨t'', run', ht''⟩ := hy t' ht'
  exact ⟨t'', (Run.bind_of_ok run).trans run', ht''⟩

/-- A part that takes the grid to values that are as good as the ones asked for. -/
theorem Grid.Maps.to {w'' : GridValues} {x : Run Unit} (h : g.Maps s x w w')
    (e : ∀ x < g.nx, ∀ y < g.ny, w' x y = w'' x y) : g.Maps s x w w'' := by
  intro t ht
  obtain ⟨t', run, ht'⟩ := h t ht
  exact ⟨t', run, ht'.congr e⟩

/-- Nothing is done where the values are the ones asked for. -/
theorem Grid.maps_pure (e : ∀ x < g.nx, ∀ y < g.ny, w x y = w' x y) : g.Maps s (pure ()) w w' :=
  fun t ht => ⟨t, rfl, ht.congr e⟩

theorem Grid.maps_forUpTo {n : Nat} {f : Nat → Run Unit} (W : Nat → GridValues)
    (hf : ∀ k < n, g.Maps s (f k) (W k) (W (k + 1))) : g.Maps s (forUpTo n f) (W 0) (W n) := by
  induction n with
  | zero => exact Grid.maps_pure fun _ _ _ _ => rfl
  | succ n ih => exact (ih fun k hk => hf k (by omega)).seq (hf n (by omega))

theorem Grid.maps_forEach {α : Type} {l : List α} {f : α → Run Unit} {F : GridValues → α → GridValues}
    (hf : ∀ a ∈ l, ∀ v, g.Maps s (f a) v (F v a)) (w : GridValues) : g.Maps s (forEach l f) w (l.foldl F w) := by
  induction l generalizing w with
  | nil => exact Grid.maps_pure fun _ _ _ _ => rfl
  | cons a rest ih =>
    exact (hf a List.mem_cons_self w).seq (ih (fun b hb => hf b (List.mem_cons_of_mem _ hb)) (F w a))

variable (served : g.served s)
include served

theorem Grid.holds.readPoint {t : State} (h : g.holds s w t) {x y : Nat} (hx : x < g.nx) (hy : y < g.ny) :
    rd16 (g.addr x y) t = .ok (w x y) t := by
  have fails : t.readFails (g.addr x y) 2 = false := by
    rw [h.others]
    exact (served.points x hx y hy).1
  rw [rd16, Run.bind_of_ok (dmaRead_ok fails), Run.pure_eq, ← h.values x hx y hy]
  have := Memory.samples_eq t.mem (g.addr x y) 1 h.wf
  rw [Memory.samples] at this
  rw [this]
  rfl

theorem Grid.maps_writePoint {x y : Nat} (v : Sample) (hx : x < g.nx) (hy : y < g.ny) :
    g.Maps s (wr16 (g.addr x y) v) w (setPoint w x y v) := by
  intro t h
  have fails : t.writeFails (g.addr x y) 2 = false := by
    rw [h.others]
    exact (served.points x hx y hy).2
  refine ⟨_, dmaWrite_ok fails, ?_, Memory.write_wf _ _ _ h.wf, fun x' hx' y' hy' => ?_, fun b hb => ?_⟩
  · conv_lhs => rw [h.others]
    rfl
  · rw [State.withMem_mem, Memory.grid, setPoint]
    split
    · rename_i same
      obtain ⟨rfl, rfl⟩ := same
      exact Memory.sample_write t.mem (g.addr x' y') 0 [v] h.wf Nat.one_pos
    · rename_i other
      rw [Memory.sample_write_of_disjoint _ _ _ _ h.wf]
      · exact h.values x' hx' y' hy'
      · have apart : g.addr x y ≠ g.addr x' y' := fun e =>
          other ((served.apart x hx y hy x' hx' y' hy' e).imp Eq.symm Eq.symm)
        simp only [Grid.addr] at apart ⊢
        rw [bytesOfSamples_length, List.length_singleton]
        omega
  · have kept := h.outside b hb
    rw [State.withMem_mem, Memory.write_keptOutside _ _ _ h.wf b, kept]
    have here : ¬ (b = g.addr x y ∨ b = g.addr x y + 1) := fun hb' => hb ⟨x, hx, y, hy, hb'⟩
    rw [bytesOfSamples_length, List.length_singleton]
    omega

theorem Grid.maps_readPoint {x y : Nat} {f : Sample → Run Unit} (hx : x < g.nx) (hy : y < g.ny)
    (hf : g.Maps s (f (w x y)) w w') : g.Maps s (rd16 (g.addr x y) >>= f) w w' := by
  intro t h
  rw [Run.bind_of_ok (h.readPoint served hx hy)]
  exact hf t h

theorem Grid.maps_pairStep (f : Sample → Sample → Sample × Sample) {x y x' y' : Nat} (hx : x < g.nx) (hy : y < g.ny)
    (hx' : x' < g.nx) (hy' : y' < g.ny) :
    g.Maps s (pairStep f (g.addr x y) (g.addr x' y')) w (pairValues f x y x' y' w) :=
  Grid.maps_readPoint served hx hy <| Grid.maps_readPoint served hx' hy' <|
    (Grid.maps_writePoint served _ hx hy).seq (Grid.maps_writePoint served _ hx' hy')

theorem Grid.maps_encBox (f : Sample → Sample → Sample × Sample) {p x y : Nat} (hx : x + p < g.nx) (hy : y + p < g.ny) :
    g.Maps s (encBox f g p x y) w (boxValues f p x y w) := by
  have hx0 : x < g.nx := by omega
  have hy0 : y < g.ny := by omega
  exact Grid.maps_readPoint served hx0 hy0 <| Grid.maps_readPoint served hx hy0 <|
    Grid.maps_readPoint served hx0 hy <| Grid.maps_readPoint served hx hy <|
      (Grid.maps_writePoint served _ hx0 hy0).seq <| (Grid.maps_writePoint served _ hx0 hy).seq <|
        (Grid.maps_writePoint served _ hx hy0).seq (Grid.maps_writePoint served _ hx hy)

end

/-! ### A level, cell by cell -/

/-- A level of step `p` cuts the grid's sides into cells of `2 p` (43_wavelet.md R359). -/
theorem cell_eq {p k d : Nat} (hd : d < 2 * p) : (k * (2 * p) + d) / (2 * p) = k := by
  rw [Nat.mul_comm, Nat.mul_add_div (by omega), Nat.div_eq_of_lt hd, Nat.add_zero]

theorem cell_fits {p k n : Nat} (hp : 0 < p) : k * (2 * p) + 2 * p ≤ n ↔ k < n / (2 * p) := by
  rw [← Nat.succ_le_iff, Nat.le_div_iff_mul_le (by omega), Nat.succ_mul k]

theorem corner_mod {p k : Nat} : k * (2 * p) % p = 0 :=
  Nat.mod_eq_zero_of_dvd ((Nat.dvd_mul_left p 2).mul_left k)

/-- The cell of a point of the level's lattice. -/
theorem cell_lattice {p k x : Nat} (hp : 0 < p) (h : x = k * (2 * p) ∨ x = k * (2 * p) + p) : x / (2 * p) = k := by
  rcases h with rfl | rfl
  · exact cell_eq (d := 0) (by omega)
  · exact cell_eq (by omega)

/-- A point of a level's lattice is its cell's corner, or `p` past it. -/
theorem lattice_iff {p x : Nat} : x % p = 0 ↔ x = x / (2 * p) * (2 * p) ∨ x = x / (2 * p) * (2 * p) + p := by
  constructor
  · intro h
    obtain ⟨q, rfl⟩ := Nat.dvd_of_mod_eq_zero h
    rcases Nat.eq_zero_or_pos p with rfl | hp
    · simp
    have half : p * q / (2 * p) = q / 2 := by rw [Nat.mul_comm 2 p, Nat.mul_div_mul_left _ _ hp]
    have double : q / 2 * (2 * p) = p * (2 * (q / 2)) := by ring
    rw [half, double]
    rcases Nat.mod_two_eq_zero_or_one q with e | e
    · exact .inl (by congr 1; omega)
    · exact .inr (by rw [← Nat.mul_succ]; congr 1; omega)
  · rintro (h | h) <;> rw [h] <;> simp [corner_mod]

section
variable {f : Sample → Sample → Sample × Sample} {nx ny p x y : Nat} {w : GridValues}

/-- A box writes its four points only. -/
theorem boxValues_other {x' y' : Nat} (h : ¬ ((x' = x ∨ x' = x + p) ∧ (y' = y ∨ y' = y + p))) :
    boxValues f p x y w x' y' = w x' y' := by
  have h1 : ¬ (x' = x ∧ y' = y) := by tauto
  have h2 : ¬ (x' = x ∧ y' = y + p) := by tauto
  have h3 : ¬ (x' = x + p ∧ y' = y) := by tauto
  have h4 : ¬ (x' = x + p ∧ y' = y + p) := by tauto
  simp [boxValues, setPoint, h1, h2, h3, h4]

/-- A box looks at its four points only. -/
theorem boxValues_congr {v : GridValues} {x' y' : Nat}
    (h : ∀ x'', (x'' = x ∨ x'' = x + p) → ∀ y'', (y'' = y ∨ y'' = y + p) → v x'' y'' = w x'' y'')
    (point : v x' y' = w x' y') : boxValues f p x y v x' y' = boxValues f p x y w x' y' := by
  simp only [boxValues, setPoint, point, h x (.inl rfl) y (.inl rfl), h (x + p) (.inr rfl) y (.inl rfl),
    h x (.inl rfl) (y + p) (.inr rfl), h (x + p) (.inr rfl) (y + p) (.inr rfl)]

/-- A butterfly looks at its two points only. -/
theorem pairValues_congr {v : GridValues} {x' y' x'' y'' : Nat} (first : v x y = w x y) (second : v x' y' = w x' y')
    (point : v x'' y'' = w x'' y'') : pairValues f x y x' y' v x'' y'' = pairValues f x y x' y' w x'' y'' := by
  simp only [pairValues, setPoint, point, first, second]

/-- A butterfly writes its two points only. -/
theorem pairValues_other {x' y' x'' y'' : Nat} (h : ¬ (x'' = x ∧ y'' = y)) (h' : ¬ (x'' = x' ∧ y'' = y')) :
    pairValues f x y x' y' w x'' y'' = w x'' y'' := by
  simp [pairValues, setPoint, h, h']

theorem encPoint_off (h : ¬ (x % p = 0 ∧ y % p = 0)) : encPoint f nx ny p w x y = w x y := if_pos (by tauto)

/-- `encPoint` at a point of a box (43_wavelet.md R359). -/
theorem encPoint_box (hp : 0 < p) (hx : x / (2 * p) < nx / (2 * p)) (hy : y / (2 * p) < ny / (2 * p)) :
    encPoint f nx ny p w x y = boxValues f p (x / (2 * p) * (2 * p)) (y / (2 * p) * (2 * p)) w x y := by
  have fitsX := (cell_fits hp).2 hx
  have fitsY := (cell_fits hp).2 hy
  by_cases on : x % p = 0 ∧ y % p = 0
  · have hne : p ≠ 0 := by omega
    have pointX := lattice_iff.1 on.1
    have pointY := lattice_iff.1 on.2
    unfold encPoint boxValues
    dsimp only
    rw [if_neg (by tauto), if_pos ⟨fitsX, fitsY⟩]
    generalize x / (2 * p) * (2 * p) = x0 at *
    generalize y / (2 * p) * (2 * p) = y0 at *
    obtain rfl | rfl := pointX <;> obtain rfl | rfl := pointY <;> simp [setPoint, hne]
  · rw [encPoint_off on, boxValues_other]
    exact fun h => on ⟨lattice_iff.2 h.1, lattice_iff.2 h.2⟩

/-- `encPoint` right of the boxes: the leftover column, if there is one (43_wavelet.md R359). -/
theorem encPoint_column (hp : 0 < p) (hx : ¬ x / (2 * p) < nx / (2 * p)) (hy : y / (2 * p) < ny / (2 * p)) :
    encPoint f nx ny p w x y =
      if nx &&& p ≠ 0 then pairValues f (x / (2 * p) * (2 * p)) (y / (2 * p) * (2 * p)) (x / (2 * p) * (2 * p))
        (y / (2 * p) * (2 * p) + p) w x y
      else w x y := by
  have fitsX := (cell_fits hp).not.2 hx
  have fitsY := (cell_fits hp).2 hy
  by_cases on : x % p = 0 ∧ y % p = 0
  · have hne : p ≠ 0 := by omega
    have pointX := lattice_iff.1 on.1
    have pointY := lattice_iff.1 on.2
    unfold encPoint pairValues
    dsimp only
    rw [if_neg (by tauto), if_neg (by tauto)]
    generalize x / (2 * p) * (2 * p) = x0 at *
    generalize y / (2 * p) * (2 * p) = y0 at *
    obtain rfl | rfl := pointX <;> obtain rfl | rfl := pointY <;> simp [setPoint, hne, fitsX, fitsY]
  · rw [encPoint_off on, pairValues_other, ite_self]
    · exact fun h => on ⟨lattice_iff.2 (.inl h.1), lattice_iff.2 (.inl h.2)⟩
    · exact fun h => on ⟨lattice_iff.2 (.inl h.1), lattice_iff.2 (.inr h.2)⟩

/-- `encPoint` below the boxes: the leftover row, if there is one (43_wavelet.md R359). -/
theorem encPoint_row (hp : 0 < p) (hx : x / (2 * p) < nx / (2 * p)) (hy : ¬ y / (2 * p) < ny / (2 * p)) :
    encPoint f nx ny p w x y =
      if ny &&& p ≠ 0 then pairValues f (x / (2 * p) * (2 * p)) (y / (2 * p) * (2 * p)) (x / (2 * p) * (2 * p) + p)
        (y / (2 * p) * (2 * p)) w x y
      else w x y := by
  have fitsX := (cell_fits hp).2 hx
  have fitsY := (cell_fits hp).not.2 hy
  by_cases on : x % p = 0 ∧ y % p = 0
  · have hne : p ≠ 0 := by omega
    have pointX := lattice_iff.1 on.1
    have pointY := lattice_iff.1 on.2
    unfold encPoint pairValues
    dsimp only
    rw [if_neg (by tauto), if_neg (by tauto)]
    generalize x / (2 * p) * (2 * p) = x0 at *
    generalize y / (2 * p) * (2 * p) = y0 at *
    obtain rfl | rfl := pointX <;> obtain rfl | rfl := pointY <;> simp [setPoint, hne, fitsX, fitsY]
  · rw [encPoint_off on, pairValues_other, ite_self]
    · exact fun h => on ⟨lattice_iff.2 (.inl h.1), lattice_iff.2 (.inl h.2)⟩
    · exact fun h => on ⟨lattice_iff.2 (.inr h.1), lattice_iff.2 (.inl h.2)⟩

/-- `encPoint` right of and below the boxes: no butterfly comes there (43_wavelet.md R359). -/
theorem encPoint_rest (hp : 0 < p) (hx : ¬ x / (2 * p) < nx / (2 * p)) (hy : ¬ y / (2 * p) < ny / (2 * p)) :
    encPoint f nx ny p w x y = w x y := by
  have fitsX := (cell_fits hp).not.2 hx
  have fitsY := (cell_fits hp).not.2 hy
  unfold encPoint
  dsimp only
  rw [if_neg (c := _ ∧ _) (by tauto), if_neg (c := _ ∧ _) (by tauto), if_neg (c := _ ∧ _) (by tauto), ite_self]

end

/-- The values midway through a level: its cells in `C` are done. -/
def cellsDone (f : Sample → Sample → Sample × Sample) (g : Grid) (p : Nat) (w : GridValues) (C : Nat → Nat → Bool) :
    GridValues := fun x y =>
  if C (x / (2 * p)) (y / (2 * p)) then encPoint f g.nx g.ny p w x y else w x y

/-- The cells before cell `kx` of row `ky`, in the order of the level's loops. -/
def cellsBefore (kx ky : Nat) : Nat → Nat → Bool := fun cx cy => decide (cy < ky ∨ (cy = ky ∧ cx < kx))

section
variable {f : Sample → Sample → Sample × Sample} {g : Grid} {s : State} {p : Nat} {w : GridValues}

/-- A part of a level that acts on one cell, and there as `encPoint` does, does that cell. -/
theorem cellsDone_step {F : GridValues → GridValues} {kx ky x y : Nat}
    (here : x / (2 * p) = kx → y / (2 * p) = ky →
      F (cellsDone f g p w (cellsBefore kx ky)) x y = encPoint f g.nx g.ny p w x y)
    (elsewhere : ¬ (x / (2 * p) = kx ∧ y / (2 * p) = ky) →
      F (cellsDone f g p w (cellsBefore kx ky)) x y = cellsDone f g p w (cellsBefore kx ky) x y) :
    F (cellsDone f g p w (cellsBefore kx ky)) x y = cellsDone f g p w (cellsBefore (kx + 1) ky) x y := by
  by_cases cell : x / (2 * p) = kx ∧ y / (2 * p) = ky
  · rw [here cell.1 cell.2, cellsDone, if_pos (by simp [cellsBefore, cell.1, cell.2])]
  · rw [elsewhere cell]
    unfold cellsDone
    congr 1
    simp only [cellsBefore, decide_eq_true_eq, eq_iff_iff]
    omega

/-- A cell that is not done has the values it had. -/
theorem cellsDone_todo {kx ky x y : Nat} (hx : x / (2 * p) = kx) (hy : y / (2 * p) = ky) :
    cellsDone f g p w (cellsBefore kx ky) x y = w x y := if_neg (by simp [cellsBefore, hx, hy])

theorem boxValues_cellsDone (hp : 0 < p) {kx ky x y : Nat} (hx : kx < g.nx / (2 * p)) (hy : ky < g.ny / (2 * p)) :
    boxValues f p (kx * (2 * p)) (ky * (2 * p)) (cellsDone f g p w (cellsBefore kx ky)) x y =
      cellsDone f g p w (cellsBefore (kx + 1) ky) x y := by
  refine cellsDone_step (F := boxValues f p (kx * (2 * p)) (ky * (2 * p))) (fun ex ey => ?_) fun other => ?_
  · subst ex ey
    rw [encPoint_box hp hx hy]
    exact boxValues_congr (fun x' hx' y' hy' => cellsDone_todo (cell_lattice hp hx') (cell_lattice hp hy'))
      (cellsDone_todo rfl rfl)
  · exact boxValues_other fun h => other ⟨cell_lattice hp h.1, cell_lattice hp h.2⟩

theorem columnValues_cellsDone (hp : 0 < p) (left : g.nx &&& p ≠ 0) {ky x y : Nat} (hy : ky < g.ny / (2 * p)) :
    pairValues f (g.nx / (2 * p) * (2 * p)) (ky * (2 * p)) (g.nx / (2 * p) * (2 * p)) (ky * (2 * p) + p)
        (cellsDone f g p w (cellsBefore (g.nx / (2 * p)) ky)) x y =
      cellsDone f g p w (cellsBefore (g.nx / (2 * p) + 1) ky) x y := by
  refine cellsDone_step (F := pairValues f _ _ _ _) (fun ex ey => ?_) fun other => ?_
  · subst ey
    rw [encPoint_column hp (by omega) hy, if_pos left, ex]
    exact pairValues_congr (cellsDone_todo (cell_lattice hp (.inl rfl)) (cell_lattice hp (.inl rfl)))
      (cellsDone_todo (cell_lattice hp (.inl rfl)) (cell_lattice hp (.inr rfl))) (cellsDone_todo ex rfl)
  · exact pairValues_other (fun h => other ⟨cell_lattice hp (.inl h.1), cell_lattice hp (.inl h.2)⟩)
      fun h => other ⟨cell_lattice hp (.inl h.1), cell_lattice hp (.inr h.2)⟩

theorem rowValues_cellsDone (hp : 0 < p) (left : g.ny &&& p ≠ 0) {kx x y : Nat} (hx : kx < g.nx / (2 * p)) :
    pairValues f (kx * (2 * p)) (g.ny / (2 * p) * (2 * p)) (kx * (2 * p) + p) (g.ny / (2 * p) * (2 * p))
        (cellsDone f g p w (cellsBefore kx (g.ny / (2 * p)))) x y =
      cellsDone f g p w (cellsBefore (kx + 1) (g.ny / (2 * p))) x y := by
  refine cellsDone_step (F := pairValues f _ _ _ _) (fun ex ey => ?_) fun other => ?_
  · subst ex
    rw [encPoint_row hp hx (by omega), if_pos left, ey]
    exact pairValues_congr (cellsDone_todo (cell_lattice hp (.inl rfl)) (cell_lattice hp (.inl rfl)))
      (cellsDone_todo (cell_lattice hp (.inr rfl)) (cell_lattice hp (.inl rfl))) (cellsDone_todo rfl ey)
  · exact pairValues_other (fun h => other ⟨cell_lattice hp (.inl h.1), cell_lattice hp (.inl h.2)⟩)
      fun h => other ⟨cell_lattice hp (.inr h.1), cell_lattice hp (.inl h.2)⟩

/-- A level that no column is left over of: the cells right of the boxes are done as they are. -/
theorem cellsDone_noColumn (hp : 0 < p) (none : ¬ g.nx &&& p ≠ 0) {ky x y : Nat} (hy : ky < g.ny / (2 * p)) :
    cellsDone f g p w (cellsBefore (g.nx / (2 * p)) ky) x y =
      cellsDone f g p w (cellsBefore (g.nx / (2 * p) + 1) ky) x y := by
  refine cellsDone_step (F := id) (fun ex ey => ?_) fun _ => rfl
  subst ey
  rw [encPoint_column hp (by omega) hy, if_neg none]
  exact cellsDone_todo ex rfl

/-- On the grid, a row of cells is done when its boxes and its leftover pair are. -/
theorem cellsDone_row {kx ky x y : Nat} (hx : x / (2 * p) < kx) :
    cellsDone f g p w (cellsBefore kx ky) x y = cellsDone f g p w (cellsBefore 0 (ky + 1)) x y := by
  unfold cellsDone
  congr 1
  simp only [cellsBefore, decide_eq_true_eq, eq_iff_iff]
  generalize x / (2 * p) = cx at *
  omega

/-- The values before a level: no cell is done. -/
theorem cellsDone_none (x y : Nat) : cellsDone f g p w (cellsBefore 0 0) x y = w x y := if_neg (by simp [cellsBefore])

/-- The values after a level, on the grid: no butterfly comes to the last cell of the last row. -/
theorem cellsDone_all (hp : 0 < p) {kx x y : Nat} (hx : x < g.nx) (hy : y < g.ny)
    (row : kx = g.nx / (2 * p) ∨ ¬ g.ny &&& p ≠ 0) :
    cellsDone f g p w (cellsBefore kx (g.ny / (2 * p))) x y = encPoint f g.nx g.ny p w x y := by
  have inX : x / (2 * p) ≤ g.nx / (2 * p) := Nat.div_le_div_right hx.le
  have inY : y / (2 * p) ≤ g.ny / (2 * p) := Nat.div_le_div_right hy.le
  unfold cellsDone
  split
  · rfl
  · rename_i todo
    simp only [cellsBefore, decide_eq_true_eq] at todo
    by_cases hlast : x / (2 * p) < g.nx / (2 * p)
    · rw [encPoint_row hp hlast (by omega), if_neg (row.resolve_left fun h => todo (.inr (by omega)))]
    · rw [encPoint_rest hp hlast (by omega)]

/-- A level in memory gives the points the values of `encPoint` (43_wavelet.md R359). -/
theorem Grid.maps_encLevel (served : g.served s) (pow : ∃ j, p = 2 ^ j) (w : GridValues) :
    g.Maps s (encLevel f g p) w (encPoint f g.nx g.ny p w) := by
  have hp : 0 < p := pow.elim fun j h => h ▸ Nat.two_pow_pos j
  have boxes (ky : Nat) (hy : ky < g.ny / (2 * p)) :
      g.Maps s (forUpTo (g.nx / (2 * p)) fun kx => encBox f g p (kx * (2 * p)) (ky * (2 * p)))
        (cellsDone f g p w (cellsBefore 0 ky)) (cellsDone f g p w (cellsBefore (g.nx / (2 * p)) ky)) :=
    Grid.maps_forUpTo (fun kx => cellsDone f g p w (cellsBefore kx ky)) fun kx hx =>
      (Grid.maps_encBox served f (box_lt hp hx) (box_lt hp hy)).to fun _ _ _ _ => boxValues_cellsDone hp hx hy
  have column (ky : Nat) (hy : ky < g.ny / (2 * p)) :
      g.Maps s (if g.nx &&& p ≠ 0 then
          pairStep f (g.addr (g.nx / (2 * p) * (2 * p)) (ky * (2 * p)))
            (g.addr (g.nx / (2 * p) * (2 * p)) (ky * (2 * p) + p))
        else pure ())
        (cellsDone f g p w (cellsBefore (g.nx / (2 * p)) ky)) (cellsDone f g p w (cellsBefore 0 (ky + 1))) := by
    have done (x : Nat) (hx : x < g.nx) (y : Nat) (_ : y < g.ny) :
        cellsDone f g p w (cellsBefore (g.nx / (2 * p) + 1) ky) x y = cellsDone f g p w (cellsBefore 0 (ky + 1)) x y :=
      cellsDone_row (Nat.lt_succ_of_le (Nat.div_le_div_right hx.le))
    have hy1 := box_lt hp hy
    split
    · rename_i left
      have hx1 := (leftover_iff pow g.nx).1 left
      exact (Grid.maps_pairStep served f (by omega) (by omega) (by omega) hy1).to fun x hx y hy' =>
        (columnValues_cellsDone hp left hy).trans (done x hx y hy')
    · rename_i none
      exact Grid.maps_pure fun x hx y hy' => (cellsDone_noColumn hp none hy).trans (done x hx y hy')
  have rows : g.Maps s (forUpTo (g.ny / (2 * p)) fun ky => do
        forUpTo (g.nx / (2 * p)) fun kx => encBox f g p (kx * (2 * p)) (ky * (2 * p))
        if g.nx &&& p ≠ 0 then
          pairStep f (g.addr (g.nx / (2 * p) * (2 * p)) (ky * (2 * p)))
            (g.addr (g.nx / (2 * p) * (2 * p)) (ky * (2 * p) + p))
        else pure ())
      (cellsDone f g p w (cellsBefore 0 0)) (cellsDone f g p w (cellsBefore 0 (g.ny / (2 * p)))) :=
    Grid.maps_forUpTo (fun ky => cellsDone f g p w (cellsBefore 0 ky)) fun ky hy => (boxes ky hy).seq (column ky hy)
  have lastRow : g.Maps s (if g.ny &&& p ≠ 0 then
        forUpTo (g.nx / (2 * p)) fun kx => pairStep f (g.addr (kx * (2 * p)) (g.ny / (2 * p) * (2 * p)))
          (g.addr (kx * (2 * p) + p) (g.ny / (2 * p) * (2 * p)))
      else pure ())
      (cellsDone f g p w (cellsBefore 0 (g.ny / (2 * p)))) (encPoint f g.nx g.ny p w) := by
    split
    · rename_i left
      have hy1 := (leftover_iff pow g.ny).1 left
      refine (Grid.maps_forUpTo (fun kx => cellsDone f g p w (cellsBefore kx (g.ny / (2 * p)))) fun kx hx => ?_).to
        fun x hx y hy => cellsDone_all hp hx hy (.inl rfl)
      have hx1 := box_lt hp hx
      exact (Grid.maps_pairStep served f (by omega) (by omega) hx1 (by omega)).to fun _ _ _ _ =>
        rowValues_cellsDone hp left hx
    · rename_i none
      exact Grid.maps_pure fun x hx y hy => cellsDone_all hp hx hy (.inr none)
  have all := rows.seq lastRow
  rw [funext fun x => funext fun y => cellsDone_none (f := f) (g := g) (p := p) (w := w) x y] at all
  exact all

/-- The forward wavelet in memory is the transform of the grid's values (43_wavelet.md R363). -/
theorem Grid.maps_wavEncode2D (served : g.served s) (m : Nat) (w : GridValues) :
    g.Maps s (wavEncode2D m g) w (encGrid m g.nx g.ny w) :=
  Grid.maps_forEach (fun _ hp v => Grid.maps_encLevel served (mem_levels hp).1 v) w

end

end Sys2Proof.Machine
end

section
/-! SUPPORT. The planes of a sample buffer: they keep apart, they cover the buffer, and the forward wavelet transforms each of
them by itself (44_piz.md R392, R394). -/

namespace Sys2Proof.Machine

/-! ### Legal grids -/

/-- The points of a legal grid have addresses of their own (43_wavelet.md R360). -/
theorem Grid.legal.apart {g : Grid} (legal : g.legal) {x y x' y' : Nat} (hx : x < g.nx) (hy : y < g.ny) (hx' : x' < g.nx)
    (h : g.addr x y = g.addr x' y') : x = x' ∧ y = y' := by
  obtain ⟨pos, stride⟩ : g.ox ≠ 0 ∧ g.nx * g.ox ≤ g.oy := legal.resolve_left (by omega) |>.resolve_left (by omega)
  have same : x * g.ox + y * g.oy = x' * g.ox + y' * g.oy := by simp only [Grid.addr] at h; omega
  have inRow {x : Nat} (hx : x < g.nx) : x * g.ox < g.oy :=
    (Nat.mul_lt_mul_of_pos_right hx (by omega)).trans_le stride
  have row : y = y' := by
    have := congrArg (· / g.oy) same
    simpa [Nat.add_mul_div_right _ _ (Nat.zero_lt_of_lt (inRow hx)), Nat.div_eq_of_lt (inRow hx),
      Nat.div_eq_of_lt (inRow hx')] using this
  subst row
  exact ⟨Nat.eq_of_mul_eq_mul_right (by omega) (Nat.add_right_cancel same), rfl⟩

/-- No byte belongs to both grids. -/
abbrev Grid.disjoint (g g' : Grid) : Prop := ∀ b, g.covers b → ¬ g'.covers b

/-- The forward wavelet on grids that keep apart transforms each one's values, and keeps every other byte. -/
theorem forEach_wavEncode2D (m : Nat) {gs : List Grid} (W : Grid → GridValues) {s : State} (wf : s.mem.wf = true)
    (served : ∀ g ∈ gs, g.served s) (apart : gs.Pairwise Grid.disjoint)
    (values : ∀ g ∈ gs, ∀ x < g.nx, ∀ y < g.ny, s.mem.grid g x y = W g x y) :
    ∃ t, forEach gs (wavEncode2D m) s = .ok () t ∧ t = s.withMem t.mem ∧ t.mem.wf = true
      ∧ (∀ g ∈ gs, ∀ x < g.nx, ∀ y < g.ny, t.mem.grid g x y = encGrid m g.nx g.ny (W g) x y)
      ∧ ∀ b, (∀ g ∈ gs, ¬ g.covers b) → t.mem.read b = s.mem.read b := by
  have sample_kept {m m' : Memory} {g : Grid} {x y : Nat} (hx : x < g.nx) (hy : y < g.ny)
      (h : ∀ b, g.covers b → m'.read b = m.read b) : m'.grid g x y = m.grid g x y := by
    rw [Memory.grid, Memory.grid, Memory.sample, Memory.sample, h _ ⟨x, hx, y, hy, .inl rfl⟩,
      h _ ⟨x, hx, y, hy, .inr rfl⟩]
  induction gs generalizing s with
  | nil => exact ⟨s, rfl, rfl, wf, by simp, fun _ _ => rfl⟩
  | cons g rest ih =>
    obtain ⟨first, others⟩ := List.pairwise_cons.1 apart
    obtain ⟨t, run, ht⟩ := Grid.maps_wavEncode2D (served g List.mem_cons_self) m (W g) s
      ⟨rfl, wf, values g List.mem_cons_self, fun _ _ => rfl⟩
    have served' (g' : Grid) (hg' : g' ∈ rest) : g'.served t := by
      rw [ht.others]
      exact ⟨(served g' (List.mem_cons_of_mem _ hg')).points, (served g' (List.mem_cons_of_mem _ hg')).apart⟩
    obtain ⟨t', run', others', wf', values', outside'⟩ := ih ht.wf served' others fun g' hg' x hx y hy => by
      rw [← values g' (List.mem_cons_of_mem _ hg') x hx y hy]
      exact sample_kept hx hy fun b hb => ht.outside b fun hb' => first g' hg' b hb' hb
    refine ⟨t', (Run.bind_of_ok run).trans run', ?_, wf', fun g' hg' x hx y hy => ?_, fun b hb => ?_⟩
    · rw [others', ht.others]
      rfl
    · rcases List.mem_cons.1 hg' with rfl | hg'
      · rw [← ht.values x hx y hy]
        exact sample_kept hx hy fun b hb => outside' b fun g hg => first g hg b hb
      · exact values' g' hg' x hx y hy
    · rw [outside' b fun g' hg' => hb g' (List.mem_cons_of_mem _ hg'), ht.outside b (hb g List.mem_cons_self)]

/-! ### Planes -/

/-- The sample that a point of a plane is, counted from the start of its channel (44_piz.md R392). -/
abbrev planePoint (c : Desc) (j x y : Nat) : Nat := j + c.size * (x + c.nx * y)

/-- The plane `j` of a channel at sample `start` (44_piz.md R392). -/
abbrev plane (buffer start : Nat) (c : Desc) (j : Nat) : Grid :=
  ⟨buffer + 2 * (start + j), c.nx, c.ny, c.size, c.nx * c.size⟩

theorem plane_addr_eq (buffer start : Nat) (c : Desc) (j x y : Nat) :
    (plane buffer start c j).addr x y = buffer + 2 * (start + planePoint c j x y) := by
  simp only [Grid.addr, planePoint]
  ring

theorem planePoint_lt {c : Desc} {j x y : Nat} (hj : j < c.size) (hx : x < c.nx) (hy : y < c.ny) :
    planePoint c j x y < c.samples := by
  have row : x + c.nx * y < c.nx * c.ny := by
    calc x + c.nx * y < c.nx + c.nx * y := by omega
      _ = c.nx * (y + 1) := by ring
      _ ≤ c.nx * c.ny := Nat.mul_le_mul_left _ hy
  calc planePoint c j x y < c.size + c.size * (x + c.nx * y) := by simp only [planePoint]; omega
    _ = c.size * (x + c.nx * y + 1) := by ring
    _ ≤ c.size * (c.nx * c.ny) := Nat.mul_le_mul_left _ row
    _ = c.samples := by rw [Desc.samples]; ring

/-- Every sample of a channel is a point of one of its planes. -/
theorem exists_planePoint {c : Desc} {k : Nat} (h : k < c.samples) :
    ∃ j < c.size, ∃ x < c.nx, ∃ y < c.ny, planePoint c j x y = k := by
  have pos : 0 < c.nx * c.ny * c.size := Nat.zero_lt_of_lt h
  have size : 0 < c.size := Nat.pos_of_mul_pos_left pos
  have row : 0 < c.nx := Nat.pos_of_mul_pos_right (Nat.pos_of_mul_pos_right pos)
  refine ⟨k % c.size, Nat.mod_lt _ size, k / c.size % c.nx, Nat.mod_lt _ row, k / c.size / c.nx, ?_, ?_⟩
  · rw [Nat.div_lt_iff_lt_mul row, Nat.div_lt_iff_lt_mul size, Nat.mul_comm c.ny]
    exact h
  · rw [planePoint, Nat.mod_add_div, Nat.mod_add_div]

theorem covers_plane {buffer start : Nat} {c : Desc} {j b : Nat} (h : (plane buffer start c j).covers b) :
    ∃ x < c.nx, ∃ y < c.ny, b = buffer + 2 * (start + planePoint c j x y)
      ∨ b = buffer + 2 * (start + planePoint c j x y) + 1 := by
  obtain ⟨x, hx, y, hy, hb⟩ := h
  rw [plane_addr_eq] at hb
  exact ⟨x, hx, y, hy, hb⟩

/-- The planes of a channel keep apart, as do those of different channels. -/
theorem planesFrom_disjoint (buffer start : Nat) (ds : List Desc) :
    (planesFrom buffer start ds).Pairwise Grid.disjoint := by
  induction ds generalizing start with
  | nil => exact .nil
  | cons c rest ih =>
    refine List.pairwise_append.2 ⟨List.pairwise_map.2 ?_, ih _, fun g hg g' hg' b hb hb' => ?_⟩
    · refine (List.pairwise_lt_range).imp_of_mem fun {j j'} hj hj' hlt b hb hb' => ?_
      obtain ⟨x, -, y, -, hb⟩ := covers_plane hb
      obtain ⟨x', -, y', -, hb'⟩ := covers_plane hb'
      have same : planePoint c j x y = planePoint c j' x' y' := by omega
      have := congrArg (· % c.size) same
      simp only [planePoint, Nat.add_mul_mod_self_left, Nat.mod_eq_of_lt (List.mem_range.1 hj),
        Nat.mod_eq_of_lt (List.mem_range.1 hj')] at this
      omega
    · obtain ⟨j, hj, rfl⟩ := List.mem_map.1 hg
      obtain ⟨s', c', j', -, -, lo, -, rfl⟩ := mem_planes hg'
      obtain ⟨x, hx, y, hy, hb⟩ := covers_plane hb
      obtain ⟨x', -, y', -, hb'⟩ := covers_plane hb'
      have := planePoint_lt (List.mem_range.1 hj) hx hy
      omega

/-- Every sample of the buffer is a point of a plane. -/
theorem exists_mem_planesFrom {start k : Nat} {ds : List Desc} (lo : start ≤ k)
    (hi : k < start + (ds.map Desc.samples).sum) :
    ∃ s c j x y, x < c.nx ∧ y < c.ny ∧ s + planePoint c j x y = k
      ∧ ∀ buffer, plane buffer s c j ∈ planesFrom buffer start ds := by
  induction ds generalizing start with
  | nil => simp at hi; omega
  | cons c rest ih =>
    rw [List.map_cons, List.sum_cons] at hi
    by_cases here : k < start + c.samples
    · obtain ⟨j, hj, x, hx, y, hy, point⟩ := exists_planePoint (c := c) (k := k - start) (by omega)
      refine ⟨start, c, j, x, y, hx, hy, by omega, fun buffer => ?_⟩
      exact List.mem_append_left _ (List.mem_map.2 ⟨j, List.mem_range.2 hj, rfl⟩)
    · obtain ⟨s, c', j, x, y, hx, hy, point, mem⟩ := ih (start := start + c.samples) (by omega) (by omega)
      exact ⟨s, c', j, x, y, hx, hy, point, fun buffer => List.mem_append_right _ (mem buffer)⟩

/-- The bus serves every plane of a buffer that it reads and writes. -/
theorem planes_served {a n : Nat} {ds : List Desc} {s : State} (hn : (ds.map Desc.samples).sum = n)
    (reads : s.readFails a (2 * n) = false) (writes : s.writeFails a (2 * n) = false) :
    ∀ g ∈ planes a ds, g.served s := by
  intro g hg
  refine ⟨fun x hx y hy => ?_, fun x hx y hy x' hx' y' _ h => ?_⟩
  · obtain ⟨lo, hi⟩ := plane_addr hn hg hx hy
    exact ⟨spansMeet_part _ _ _ _ _ reads lo hi, spansMeet_part _ _ _ _ _ writes lo hi⟩
  · obtain ⟨s', c, j, -, hj, -, -, rfl⟩ := mem_planes hg
    exact Grid.legal.apart (.inr (.inr ⟨by simp only; omega, le_rfl⟩)) hx hy hx' h

/-- The forward wavelet over the planes of a buffer transforms each plane's values and keeps every byte outside the buffer
(44_piz.md R394). -/
theorem planes_wavEncode2D (m : Nat) {a n : Nat} {ds : List Desc} (W : Grid → GridValues) {s : State}
    (wf : s.mem.wf = true) (hn : (ds.map Desc.samples).sum = n) (reads : s.readFails a (2 * n) = false)
    (writes : s.writeFails a (2 * n) = false)
    (values : ∀ g ∈ planes a ds, ∀ x < g.nx, ∀ y < g.ny, s.mem.grid g x y = W g x y) :
    ∃ t, forEach (planes a ds) (wavEncode2D m) s = .ok () t ∧ t = s.withMem t.mem ∧ t.mem.wf = true
      ∧ (∀ g ∈ planes a ds, ∀ x < g.nx, ∀ y < g.ny, t.mem.grid g x y = encGrid m g.nx g.ny (W g) x y)
      ∧ s.mem.keptOutside t.mem a (2 * n) := by
  obtain ⟨t, run, others, wf', values', outside⟩ := forEach_wavEncode2D m W wf (planes_served hn reads writes)
    (planesFrom_disjoint a 0 ds) values
  refine ⟨t, run, others, wf', values', fun b hb => outside b fun g hg hcovers => ?_⟩
  obtain ⟨x, hx, y, hy, hb'⟩ := hcovers
  obtain ⟨lo, hi⟩ := plane_addr hn hg hx hy
  omega

end Sys2Proof.Machine
end

section
/-! SUPPORT. BITMAP, the ranks and the forward LUT of a sample buffer, and the descriptor table (40_lut.md R202, R206;
44_piz.md R391). -/

namespace Sys2Proof.Machine

/-! ### BITMAP and the forward LUT -/

theorem Bitmap.mark_bit (b : Bitmap) (x : Sample) (v : Nat) : (b.mark x).bit v = (b.bit v || decide (x.toNat = v)) := by
  have := x.isLt
  rw [Bitmap.mark, Bitmap.bit, BitVec.getLsbD_or, BitVec.getLsbD_shiftLeft, BitVec.getLsbD_one, Bitmap.bit]
  congr 1
  rw [Bool.eq_iff_iff]
  simp only [Bool.and_eq_true, Bool.not_eq_true', decide_eq_true_eq, decide_eq_false_iff_not]
  omega

theorem Bitmap.foldl_mark_bit (xs : List Sample) (b : Bitmap) (v : Nat) :
    (xs.foldl Bitmap.mark b).bit v = true ↔ b.bit v = true ∨ ∃ x ∈ xs, x.toNat = v := by
  induction xs generalizing b with
  | nil => simp
  | cons x rest ih => rw [List.foldl_cons, ih, Bitmap.mark_bit]; simp [or_assoc]

/-- BITMAP of a buffer has the bits of the values from 1 up that occur (40_lut.md R202). -/
theorem bitmapOfSamples_bit (xs : List Sample) (v : Nat) :
    (bitmapOfSamples xs).bit v = true ↔ 0 < v ∧ ∃ x ∈ xs, x.toNat = v := by
  have marked := Bitmap.foldl_mark_bit xs 0 v
  rw [show (0 : Bitmap).bit v = false from BitVec.getLsbD_zero] at marked
  rw [bitmapOfSamples, Bitmap.clearBit0, Bitmap.bit, BitVec.getLsbD_and, Bool.and_eq_true, ← Bitmap.bit, marked,
    BitVec.getLsbD_not, BitVec.getLsbD_one]
  simp only [Bool.false_eq_true, false_or, Nat.zero_lt_succ, decide_true, Bool.true_and, Bool.and_eq_true,
    Bool.not_eq_true', decide_eq_true_eq, decide_eq_false_iff_not]
  constructor
  · rintro ⟨occurs, -, nonzero⟩
    exact ⟨Nat.pos_of_ne_zero nonzero, occurs⟩
  · rintro ⟨pos, x, hx, rfl⟩
    exact ⟨⟨x, hx, rfl⟩, x.isLt, pos.ne'⟩

/-- There is one BITMAP with given bits. -/
theorem bitmapOfSamples_eq {m : Memory} {a n : Nat} {b : Bitmap} (wf : m.wf = true)
    (h : ∀ v, b.bit v = true ↔ 0 < v ∧ ∃ k < n, (m.sample (a + 2 * k)).toNat = v) :
    bitmapOfSamples (m.samples a n) = b := by
  refine BitVec.eq_of_getLsbD_eq fun v _ => Bool.eq_iff_iff.2 ?_
  rw [← Bitmap.bit, ← Bitmap.bit, bitmapOfSamples_bit, h v, Memory.samples_eq _ _ _ wf, Memory.sampleList]
  simp

theorem Bitmap.nonZeroValues_eq (b : Bitmap) :
    b.nonZeroValues = (List.range 65536).filter fun u => decide (0 < u) && b.bit u := by
  rw [Bitmap.nonZeroValues, Bitmap.setBits_eq, List.filter_filter]
  refine List.filter_congr fun u _ => ?_
  rw [show (u != 0) = decide (0 < u) by rw [Bool.eq_iff_iff]; simp [Nat.pos_iff_ne_zero]]

/-- The highest rank is the rank of the highest value (40_lut.md R208). -/
theorem Bitmap.maxValue_eq (b : Bitmap) : b.maxValue = b.rank 65535 := by
  rw [Bitmap.maxValue, Bitmap.nonZeroValues_eq, Bitmap.rank, List.countP_eq_length_filter]

/-- The forward LUT gives a value that occurs its rank (40_lut.md R206). -/
theorem Bitmap.forwardLut_entry {b : Bitmap} {v : Nat} (h : v = 0 ∨ b.bit v = true) :
    b.forwardLut.entry v = BitVec.ofNat 16 (b.rank v) := by
  have rise : keysRise b.forwardLut = true := (Bool.and_eq_true_iff.1 b.forwardLut_wf).1
  rcases Nat.eq_zero_or_pos v with rfl | pos
  · have rank : b.rank 0 = 0 := by simp [Bitmap.rank]
    rw [rank]
    refine sparseGet_of_forall_ne _ _ _ fun c hc => ?_
    obtain ⟨p, hp, rfl⟩ := List.mem_map.1 hc
    have := (Bitmap.mem_nonZeroValues (List.fst_mem_of_mem_zipIdx hp)).1
    omega
  · have hbit := h.resolve_left (by omega)
    have lt : v < 65536 := by
      by_contra hge
      rw [Bitmap.bit, BitVec.getLsbD_of_ge _ _ (by omega)] at hbit
      cases hbit
    have below : List.range 65536 = List.range (v + 1) ++ List.range' (v + 1) (65535 - v) := by
      have append := List.range'_append_1 (s := 0) (m := v + 1) (n := 65535 - v)
      rw [Nat.zero_add, show v + 1 + (65535 - v) = 65536 by omega] at append
      rw [List.range_eq_range', List.range_eq_range', append]
    have split : b.nonZeroValues =
        ((List.range v).filter fun u => decide (0 < u) && b.bit u)
          ++ v :: ((List.range' (v + 1) (65535 - v)).filter fun u => decide (0 < u) && b.bit u) := by
      rw [Bitmap.nonZeroValues_eq, below, List.filter_append, List.range_succ, List.filter_append, List.append_assoc]
      simp [pos, hbit]
    have rank : b.rank v = ((List.range v).filter fun u => decide (0 < u) && b.bit u).length + 1 := by
      rw [Bitmap.rank, List.range_succ, List.countP_append, List.countP_eq_length_filter]
      simp [pos, hbit]
    have mem : (v, b.rank v) ∈ b.nonZeroValues.zipIdx 1 := by
      rw [split, rank, List.zipIdx_append, List.zipIdx_cons]
      simp [Nat.add_comm]
    exact sparseGet_mem _ _ rise (v, BitVec.ofNat 16 (b.rank v)) (List.mem_map.2 ⟨_, mem, rfl⟩)

/-- A LUT that the bus lets be applied gives every sample of the buffer its entry (40_lut.md R209). -/
theorem applyLut_ok {s : State} (l : Lut) {a n : Nat} (reads : s.readFails a (2 * n) = false)
    (writes : s.writeFails a (2 * n) = false) :
    applyLut l a n s =
      .ok () (s.withMem (s.mem.write a (bytesOfSamples ((s.mem.samples a n).map fun v => l.entry v.toNat)))) := by
  refine (Run.bind_of_ok (readSamples_ok reads)).trans (dmaWrite_ok ?_)
  rw [bytesOfSamples_length, List.length_map, Memory.samples_length]
  exact writes

theorem applyLut_sample {m : Memory} (wf : m.wf = true) (l : Lut) {a n k : Nat} (hk : k < n) :
    (m.write a (bytesOfSamples ((m.samples a n).map fun v => l.entry v.toNat))).sample (a + 2 * k) =
      l.entry (m.sample (a + 2 * k)).toNat := by
  rw [Memory.sample_write _ _ _ _ wf (by rw [List.length_map, Memory.samples_length]; exact hk),
    Memory.samples_eq _ _ _ wf, Memory.sampleList]
  simp [hk]

/-! ### The descriptor table -/

theorem Memory.leNat_reads (m : Memory) (a : Nat) :
    leNat [m.read a, m.read (a + 1), m.read (a + 2), m.read (a + 3)] = m.word a := by
  simp only [leNat, Memory.word]
  omega

/-- The words of the descriptor table are its descriptors (44_piz.md R391). -/
theorem descriptors_eq {m : Memory} (wf : m.wf = true) (aux count : Nat) :
    descsOfWords (wordsOfBytes (m.bytes aux (12 * count))) = m.descriptors aux count := by
  rw [Memory.bytes_eq _ _ _ wf, Memory.descriptors]
  induction count generalizing aux with
  | zero => rfl
  | succ count ih =>
    rw [List.range_succ_eq_map, List.map_cons, List.map_map, show 12 * (count + 1) = 12 * count + 12 by ring]
    simp only [List.range'_succ, List.map_cons, wordsOfBytes, descsOfWords]
    rw [ih (aux + 12)]
    congr 1
    · exact congr (congr (congrArg Desc.mk (m.leNat_reads aux)) (m.leNat_reads (aux + 4))) (m.leNat_reads (aux + 8))
    · refine List.map_congr_left fun c _ => ?_
      rw [Function.comp_apply, show aux + 12 * c.succ = aux + 12 + 12 * c by omega]

/-- The descriptors of the table, where the bus reads them and they describe the samples (44_piz.md R391). -/
theorem readDescriptors_ok {s : State} {aux count n : Nat} (wf : s.mem.wf = true)
    (reads : s.readFails aux (12 * count) = false) (h : describes (s.mem.descriptors aux count) n) :
    readDescriptors aux count n s = .ok (s.mem.descriptors aux count) s := by
  have valid : descsValid (s.mem.descriptors aux count) n = true := by
    obtain ⟨sizes, sum⟩ := h
    simp only [descsValid, Bool.and_eq_true, List.all_eq_true, Bool.or_eq_true, beq_iff_eq]
    exact ⟨sizes, sum⟩
  refine (Run.bind_of_ok (dmaRead_ok reads)).trans ?_
  rw [descriptors_eq wf, if_pos valid]
  rfl

theorem readDescriptors_fails {s : State} {aux count n : Nat} (fails : s.readFails aux (12 * count) = true) :
    readDescriptors aux count n s = .error busError s := Run.bind_of_error (dmaRead_fails fails)

end Sys2Proof.Machine
end

section
/-! SUPPORT and the proof of O40: the Huffman and PIZ commands run to the access that the bus answers with an error, and end there
with the tables that they have completed by then. -/

namespace Sys2Proof.Machine

/-! ### HUF_COMPRESS -/

section
variable {s : State} {a n d cap : Nat} {e : Encoded}

theorem hufCompress_sourceFails (h : s.readFails a (2 * n) = true) : hufCompress a n d cap s = .error busError s := by
  have hn : n ≠ 0 := by
    rintro rfl
    rw [State.readFails, Nat.mul_zero, spansMeet_zero] at h
    cases h
  rw [hufCompress, if_neg hn]
  exact Run.bind_of_error (readSamples_fails h)

/-- The encoder, once its codes are there, stores the block (41_huffman_encode.md R261). -/
theorem hufCompress_eq_store (wf : s.mem.wf = true) (hn : 0 < n) (reads : s.readFails a (2 * n) = false)
    (he : encodeSamples (s.mem.sampleList a n) = .ok e) (short : e.stream.length ≤ 2147483647)
    (fits : e.blockLength ≤ cap) :
    hufCompress a n d cap s = (do
      dmaWrite d e.block
      pure { count := e.blockLength, im := e.im, iM := e.iM, tableBytes := byteCount e.table.length,
             nBits := e.stream.length } : Run HufInfo) (s.withCodes e.codes) := by
  rw [hufCompress, if_neg hn.ne', Run.bind_of_ok (readSamples_ok reads), Memory.samples_eq _ _ _ wf, he]
  refine (Run.bind_of_ok (ofExcept_ok _ _)).trans ?_
  rw [Run.bind_of_ok (Run.modify_eq _ _), Run.bind_of_ok (require_ok _ (decide_eq_true short)),
    Run.bind_of_ok (require_ok _ (decide_eq_true fits))]

end

/-! ### PIZ_COMPRESS -/

/-- PIZ_COMPRESS once the planes are transformed (44_piz.md R394). -/
def pizCompressStored (a n d cap mn mx : Nat) (b : Bitmap) : Run PizInfo := do
  require (8 + sliceSize mn mx ≤ cap) .dstOverflow
  dmaWrite d (b.block mn mx)
  let h ← hufCompress a n (d + 8 + sliceSize mn mx) (cap - 8 - sliceSize mn mx)
  require (h.count ≤ 2147483647) .dstOverflow
  dmaWrite (d + 4 + sliceSize mn mx) (leBytes 4 h.count)
  pure { count := 8 + sliceSize mn mx + h.count, mn := mn, mx := mx, maxValue := b.maxValue, huf := h }

theorem pizCompressBuilt_eq (a n d cap : Nat) (ds : List Desc) (b : Bitmap) :
    pizCompressBuilt a n d cap ds b = (do
      applyLut b.forwardLut a n
      forEach (planes a ds) (wavEncode2D b.maxValue)
      pizCompressStored a n d cap b.minMaxNonZero.1 b.minMaxNonZero.2 b) := rfl

/-- The state of PIZ_COMPRESS once it has built BITMAP and the LUT. -/
abbrev State.withForward (s : State) (b : Bitmap) : State := (s.withBitmap b).withLut .forward b.forwardLut

section
variable {s : State} {a n d cap aux count mn mx : Nat} {ds : List Desc} {b : Bitmap} {xs : List Sample} {e : Encoded}

/-- PIZ_COMPRESS builds BITMAP and the LUT where the bus reads the descriptors and the source. -/
theorem pizCompress_eq_built (wf : s.mem.wf = true) (table : s.readFails aux (12 * count) = false)
    (valid : describes (s.mem.descriptors aux count) n) (reads : s.readFails a (2 * n) = false)
    (hb : ∀ v, b.bit v = true ↔ 0 < v ∧ ∃ k < n, (s.mem.sample (a + 2 * k)).toNat = v) :
    pizCompress a n d cap aux count s =
      pizCompressBuilt a n d cap (s.mem.descriptors aux count) b (s.withForward b) := by
  have built : bitmapFromSamples a n s = .ok b s :=
    (Run.bind_of_ok (readSamples_ok reads)).trans (by rw [bitmapOfSamples_eq wf hb]; rfl)
  rw [pizCompress_eq, Run.bind_of_ok (readDescriptors_ok wf table valid), Run.bind_of_ok built]
  rfl

theorem pizCompress_opensFails (wf : s.mem.wf = true)
    (h : s.readFails aux (12 * count) = true
      ∨ (describes (s.mem.descriptors aux count) n ∧ s.readFails a (2 * n) = true)) :
    pizCompress a n d cap aux count s = .error busError s := by
  rw [pizCompress_eq]
  cases table : s.readFails aux (12 * count) with
  | true => exact Run.bind_of_error (readDescriptors_fails table)
  | false =>
    obtain ⟨valid, source⟩ := h.resolve_left (ne_true_of_eq_false table)
    rw [Run.bind_of_ok (readDescriptors_ok wf table valid)]
    exact Run.bind_of_error (Run.bind_of_error (readSamples_fails source))

/-- The values of a plane after the LUT: the ranks of its samples (40_lut.md R206, R209). -/
def rankedPlane (b : Bitmap) (m : Memory) (g : Grid) : GridValues :=
  fun x y => BitVec.ofNat 16 (b.rank (m.grid g x y).toNat)

/-- The forward LUT gives the samples of a buffer with this BITMAP their ranks. -/
theorem rankedPlane_eq {m : Memory} (wf : m.wf = true) (hn : (ds.map Desc.samples).sum = n)
    (hb : ∀ v, b.bit v = true ↔ 0 < v ∧ ∃ k < n, (m.sample (a + 2 * k)).toNat = v) {g : Grid} (hg : g ∈ planes a ds)
    {x y : Nat} (hx : x < g.nx) (hy : y < g.ny) :
    (m.write a (bytesOfSamples ((m.samples a n).map fun v => b.forwardLut.entry v.toNat))).grid g x y =
      rankedPlane b m g x y := by
  obtain ⟨s', c, j, -, -, -, -, rfl⟩ := mem_planes hg
  obtain ⟨-, hi⟩ := plane_addr hn hg hx hy
  rw [plane_addr_eq] at hi
  have hk : s' + planePoint c j x y < n := by omega
  rw [rankedPlane, Memory.grid, Memory.grid, plane_addr_eq, applyLut_sample wf _ hk]
  exact Bitmap.forwardLut_entry ((Nat.eq_zero_or_pos _).imp_right fun pos => (hb _).2 ⟨pos, _, hk, rfl⟩)

/-- PIZ_COMPRESS transforms the planes where the bus reads and writes the source (44_piz.md R394). -/
theorem pizCompressBuilt_eq_stored (wf : s.mem.wf = true) (hn : (ds.map Desc.samples).sum = n)
    (reads : s.readFails a (2 * n) = false) (writes : s.writeFails a (2 * n) = false)
    (hb : ∀ v, b.bit v = true ↔ 0 < v ∧ ∃ k < n, (s.mem.sample (a + 2 * k)).toNat = v) (bounds : b.isMinMax mn mx) :
    ∃ m : Memory, pizCompressBuilt a n d cap ds b s = pizCompressStored a n d cap mn mx b (s.withMem m)
      ∧ m.wf = true
      ∧ ∀ g ∈ planes a ds, ∀ x < g.nx, ∀ y < g.ny,
          m.grid g x y = encGrid (b.rank 65535) g.nx g.ny (rankedPlane b s.mem g) x y := by
  have applied := applyLut_ok b.forwardLut reads writes
  have ranked (g : Grid) (hg : g ∈ planes a ds) (x : Nat) (hx : x < g.nx) (y : Nat) (hy : y < g.ny) :=
    rankedPlane_eq wf hn hb hg hx hy
  have wf1 := Memory.write_wf s.mem a (bytesOfSamples ((s.mem.samples a n).map fun v => b.forwardLut.entry v.toNat)) wf
  generalize s.mem.write a (bytesOfSamples ((s.mem.samples a n).map fun v => b.forwardLut.entry v.toNat)) = m1 at *
  obtain ⟨t, run, others, wf', values, -⟩ :=
    planes_wavEncode2D (s := s.withMem m1) b.maxValue (rankedPlane b s.mem) wf1 hn reads writes ranked
  refine ⟨t.mem, ?_, wf', ?_⟩
  · rw [pizCompressBuilt_eq, Run.bind_of_ok applied, Run.bind_of_ok run, Bitmap.minMaxNonZero_eq bounds, others]
    rfl
  · rw [← Bitmap.maxValue_eq]
    exact values

/-- A buffer whose planes have the values that `xs` gives them is `xs`. -/
theorem sampleList_eq_of_planes {m m' : Memory} (hn : (ds.map Desc.samples).sum = n) (length : xs.length = n)
    (expected : ∀ g ∈ planes 0 ds, ∀ x < g.nx, ∀ y < g.ny,
      xs.getD (g.addr x y / 2) 0 =
        encGrid (b.rank 65535) g.nx g.ny
          (fun x' y' => BitVec.ofNat 16 (b.rank (m.sample (a + g.addr x' y')).toNat)) x y)
    (values : ∀ g ∈ planes a ds, ∀ x < g.nx, ∀ y < g.ny,
      m'.grid g x y = encGrid (b.rank 65535) g.nx g.ny (rankedPlane b m g) x y) :
    m'.sampleList a n = xs := by
  refine List.ext_getElem (by rw [Memory.sampleList_length, length]) fun k hk hk' => ?_
  rw [Memory.sampleList_length] at hk
  obtain ⟨s', c, j, x, y, hx, hy, point, mem⟩ := exists_mem_planesFrom (start := 0) (ds := ds) k.zero_le (by omega)
  have want := expected _ (mem 0) x hx y hy
  have found := values _ (mem a) x hx y hy
  have shift (x y : Nat) : (plane a s' c j).addr x y = a + (plane 0 s' c j).addr x y := by
    rw [plane_addr_eq, plane_addr_eq, Nat.zero_add]
  rw [plane_addr_eq, point, Nat.zero_add, Nat.mul_div_cancel_left _ Nat.two_pos, List.getD_eq_getElem _ _ hk'] at want
  have sample : (m'.sampleList a n)[k]'(by rwa [Memory.sampleList_length]) = m'.grid (plane a s' c j) x y := by
    rw [Memory.grid, plane_addr_eq, point]
    simp [Memory.sampleList]
  rw [want, sample, found]
  unfold rankedPlane Memory.grid
  simp only [shift]

theorem pizCompressStored_bitmapFails (fits : 8 + sliceSize mn mx ≤ cap)
    (h : s.writeFails d (4 + sliceSize mn mx) = true) :
    pizCompressStored a n d cap mn mx b s = .error busError s := by
  rw [pizCompressStored, Run.bind_of_ok (require_ok _ (decide_eq_true fits))]
  exact Run.bind_of_error (dmaWrite_fails (by rw [b.block_length]; exact h))

/-- A write of the Huffman block or of its length that fails ends PIZ_COMPRESS with the code table valid. -/
theorem pizCompressStored_blockFails (wf : s.mem.wf = true) (hn : 0 < n) (reads : s.readFails a (2 * n) = false)
    (apart : rangesMeet a (2 * n) d cap = false) (he : encodeSamples (s.mem.sampleList a n) = .ok e)
    (short : e.stream.length ≤ 2147483647) (fits : 8 + sliceSize mn mx + e.blockLength ≤ cap)
    (count : e.blockLength ≤ 2147483647) (header : s.writeFails d (4 + sliceSize mn mx) = false)
    (h : s.writeFails d (8 + sliceSize mn mx + e.blockLength) = true) :
    ∃ m : Memory, pizCompressStored a n d cap mn mx b s = .error busError ((s.withCodes e.codes).withMem m) := by
  generalize hsize : sliceSize mn mx = size at *
  have bitmapStored : dmaWrite d (b.block mn mx) s = .ok () (s.withMem (s.mem.write d (b.block mn mx))) :=
    dmaWrite_ok (by rw [b.block_length, hsize]; exact header)
  have same : (s.mem.write d (b.block mn mx)).sampleList a n = s.mem.sampleList a n := by
    refine List.map_congr_left fun k hk => Memory.sample_write_of_disjoint _ _ _ _ wf ?_
    have hk := List.mem_range.1 hk
    simp only [rangesMeet, Bool.and_eq_false_iff, decide_eq_false_iff_not] at apart
    rw [b.block_length, hsize]
    omega
  have wf1 := Memory.write_wf _ d (b.block mn mx) wf
  generalize s.mem.write d (b.block mn mx) = m1 at *
  have coded := hufCompress_eq_store (s := s.withMem m1) (a := a) (n := n) (d := d + 8 + size) (cap := cap - 8 - size) wf1 hn
    reads (by rw [State.withMem_mem, same]; exact he) short (by omega)
  rw [pizCompressStored, hsize, Run.bind_of_ok (require_ok _ (decide_eq_true (by omega))), Run.bind_of_ok bitmapStored]
  cases block : s.writeFails (d + 8 + size) e.blockLength with
  | true =>
    refine ⟨m1, Run.bind_of_error (coded.trans (Run.bind_of_error ?_))⟩
    exact dmaWrite_fails (by rw [e.block_length]; exact block)
  | false =>
    have length : s.writeFails (d + 4 + size) 4 = true := by
      rcases (spansMeet_add _ d (8 + size) e.blockLength).1 h with h | h
      · rw [show 8 + size = 4 + size + 4 by omega] at h
        rw [Nat.add_assoc]
        exact ((spansMeet_add _ d (4 + size) 4).1 h).resolve_left (ne_true_of_eq_false header)
      · rw [State.writeFails, Nat.add_assoc] at block
        exact absurd h (ne_true_of_eq_false block)
    have stored : dmaWrite (d + 8 + size) e.block ((s.withMem m1).withCodes e.codes) = _ :=
      dmaWrite_ok (by rw [e.block_length]; exact block)
    refine ⟨m1.write (d + 8 + size) e.block, ?_⟩
    rw [Run.bind_of_ok (coded.trans (Run.bind_of_ok stored))]
    dsimp only
    rw [Run.bind_of_ok (require_ok _ (decide_eq_true count))]
    exact Run.bind_of_error (dmaWrite_fails (by rw [leBytes_length]; exact length))

end

/-! ### PIZ_UNCOMPRESS -/

/-- The state of PIZ_UNCOMPRESS once it has built BITMAP and the LUT. -/
abbrev State.withReverse (s : State) (b : Bitmap) : State := (s.withBitmap b).withLut .reverse b.reverseLut

section
variable {s : State} {a n d no aux count size : Nat} {ds : List Desc}

theorem pizUncompress_opensFails (wf : s.mem.wf = true)
    (hsize : sliceSize (s.mem.sample a).toNat (s.mem.sample (a + 2)).toNat = size)
    (h : s.readFails aux (12 * count) = true
      ∨ (describes (s.mem.descriptors aux count) no ∧ 4 ≤ n ∧ s.readFails a 4 = true)
      ∨ (describes (s.mem.descriptors aux count) no ∧ s.readFails a 4 = false ∧ (s.mem.sample (a + 2)).toNat < 8192
        ∧ 4 + size ≤ n ∧ s.readFails (a + 4) size = true)) :
    pizUncompress a n d no aux count s = .error busError s := by
  rw [pizUncompress_eq]
  cases table : s.readFails aux (12 * count) with
  | true => exact Run.bind_of_error (readDescriptors_fails table)
  | false =>
    obtain ⟨valid, hn, header⟩ | ⟨valid, header, hmx, fits, slice⟩ := h.resolve_left (ne_true_of_eq_false table)
    · rw [Run.bind_of_ok (readDescriptors_ok wf table valid)]
      exact Run.bind_of_error (bitmapLoad_headerFails hn header)
    · rw [Run.bind_of_ok (readDescriptors_ok wf table valid)]
      exact Run.bind_of_error (bitmapLoad_sliceFails wf header hmx hsize fits slice)

/-- PIZ_UNCOMPRESS builds BITMAP and the LUT where the bus reads the descriptors and the bitmap block. -/
theorem pizUncompress_eq_built (wf : s.mem.wf = true)
    (hsize : sliceSize (s.mem.sample a).toNat (s.mem.sample (a + 2)).toNat = size)
    (table : s.readFails aux (12 * count) = false) (valid : describes (s.mem.descriptors aux count) no)
    (reads : s.readFails a (4 + size) = false) (hmx : (s.mem.sample (a + 2)).toNat < 8192) (fits : 4 + size ≤ n) :
    ∃ b mn mx, pizUncompress a n d no aux count s =
      pizUncompressBuilt a n d no (s.mem.descriptors aux count) b (4 + size) mn mx (s.withReverse b) := by
  obtain ⟨b, loaded⟩ := bitmapLoad_ok wf hmx hsize fits reads
  refine ⟨b, (s.mem.sample a).toNat, (s.mem.sample (a + 2)).toNat, ?_⟩
  rw [pizUncompress_eq, Run.bind_of_ok (readDescriptors_ok wf table valid), Run.bind_of_ok loaded]
  rfl

theorem pizUncompressBuilt_lengthFails {b : Bitmap} {mn mx : Nat} (fits : 8 + size ≤ n)
    (h : s.readFails (a + 4 + size) 4 = true) :
    pizUncompressBuilt a n d no ds b (4 + size) mn mx s = .error busError s := by
  rw [pizUncompressBuilt, Run.bind_of_ok (require_ok _ (decide_eq_true (by omega)))]
  exact Run.bind_of_error (rdLe_fails (by rw [← Nat.add_assoc]; exact h))

/-- The inverse wavelet ends with memory changed only, and raises BUS_ERROR only. -/
theorem planes_wavDecode2D (m : Nat) (gs : List Grid) (s : State) :
    (∃ m' : Memory, forEach gs (wavDecode2D m) s = .ok () (s.withMem m'))
      ∨ ∃ (e : Raise) (m' : Memory), forEach gs (wavDecode2D m) s = .error e (s.withMem m') ∧ e.code = .busError := by
  have memoryOnly : SideBySide (Alone fun t => t = s.withMem t.mem) fun _ => True := by
    refine ⟨fun h => h.1 ▸ rfl, fun h => h.1 ▸ rfl, fun h => h.1 ▸ rfl, fun h => h.1 ▸ rfl, fun h a bs => ?_,
      fun _ _ => trivial⟩
    exact ⟨h.1 ▸ rfl, by rw [h.2]; rfl⟩
  have kept := agrees_forEach gs _ fun g => agrees_wavDecode2D memoryOnly m g
  have code := agrees_forEach gs _ fun g =>
    confined_wavDecode2D (g := g) confined_busOnly m fun _ _ _ _ => ⟨trivial, trivial⟩
  cases run : forEach gs (wavDecode2D m) s with
  | ok u s' => exact .inl ⟨s'.mem, by rw [← kept.ok rfl run]⟩
  | error e s' => exact .inr ⟨e, s'.mem, by rw [← (kept.error rfl run).1], (code.error trivial run).2⟩

/-- PIZ_UNCOMPRESS that meets an error past the packed table of its Huffman block ends with the code table valid. -/
theorem pizUncompressBuilt_destFails {b : Bitmap} {mn mx nBits q im iM : Nat} {c : CodeTable} {xs : List Sample}
    (wf : s.mem.wf = true) (reads : s.readFails a n = false) (fits : 8 + size + s.mem.word (a + 4 + size) ≤ n)
    (short : s.mem.word (a + 4 + size) < 2 ^ 31)
    (holds : s.mem.holdsHuffman (a + 8 + size) (s.mem.word (a + 4 + size)) no nBits q im iM c xs)
    (h : s.readFails d (2 * no) = true ∨ s.writeFails d (2 * no) = true) :
    ∃ (e : Raise) (m : Memory), pizUncompressBuilt a n d no ds b (4 + size) mn mx s = .error e ((s.withCodes c).withMem m)
      ∧ e.code = .busError := by
  have word : leNat (s.mem.bytes (a + (4 + size)) 4) = s.mem.word (a + 4 + size) := by
    rw [Memory.leNat_bytes_four wf, Nat.add_assoc]
  generalize s.mem.word (a + 4 + size) = len at *
  have signed : s32 len = len := by
    rw [s32, BitVec.toInt_eq_toNat_of_lt (by rw [BitVec.toNat_ofNat]; omega), BitVec.toNat_ofNat]
    omega
  have wordRead : rdLe (a + (4 + size)) 4 s = .ok len s :=
    (rdLe_ok (spansMeet_part _ _ _ _ _ reads (by omega) (by omega))).trans (by rw [word])
  have inRange : (0 ≤ s32 len && s32 len ≤ ((n - (4 + size + 4) : Nat) : Int)) = true := by
    rw [signed, Bool.and_eq_true, decide_eq_true_eq, decide_eq_true_eq]
    omega
  have start : a + (4 + size) + 4 = a + 8 + size := by omega
  rw [pizUncompressBuilt, Run.bind_of_ok (require_ok _ (decide_eq_true (by omega))), Run.bind_of_ok wordRead,
    Run.bind_of_ok (require_ok _ inRange), signed, Int.toNat_natCast, start]
  rcases hufUncompress_ends (d := d) wf holds (spansMeet_part _ _ _ _ _ reads (by omega) (by omega)) with ends | ⟨info, ends⟩
  · exact ⟨busError, s.mem, Run.bind_of_error ends, rfl⟩
  rw [Run.bind_of_ok ends]
  rcases planes_wavDecode2D b.maxValue (planes d ds) ((s.withCodes c).withMem (s.mem.write d (bytesOfSamples xs)))
    with ⟨m, run⟩ | ⟨e, m, run, code⟩
  · rw [Run.bind_of_ok run]
    exact ⟨busError, m, Run.bind_of_error (applyLut_fails _ h), rfl⟩
  · exact ⟨e, m, Run.bind_of_error run, code⟩

end

/-! ### The commands -/

/-- A bus error in a command's data phase ends the command with the tables that stood at the raise. -/
theorem exec_busError_tables {i : Instr} {s s' : State} {e : Raise} (reaches : reachesData i s)
    (raises : dataPhase i (s.clearValid i) = .error e s') (he : e.code = .busError) :
    ∃ t, exec i s = .next t ∧ s.completed t .busError {} ∧ t.bitmap = s'.bitmap ∧ t.lut = s'.lut
      ∧ t.lutKind = s'.lutKind ∧ t.codes = s'.codes := by
  obtain ⟨run, ends⟩ := exec_of_raise reaches raises (by simp [he])
  exact ⟨_, run, he ▸ ends, s'.failData_bitmap i e, s'.failData_lut i e, s'.failData_lutKind i e, s'.failData_codes i e⟩

section
variable {s : State}

theorem hufCompress_reachesData (source : s.usable s.latched.srcAddr.toNat (2 * s.latched.srcLen.toNat) 2)
    (dest : s.usable s.latched.dstAddr.toNat s.latched.dstLen.toNat 1)
    (apart : rangesMeet s.latched.srcAddr.toNat (2 * s.latched.srcLen.toNat) s.latched.dstAddr.toNat
      s.latched.dstLen.toNat = false) : reachesData .hufCompress s := by
  refine reachesData_of_usable (by simp [tablesRequired]) (fun r hr => ?_) rfl ?_ rfl
  · simp only [regions, List.mem_cons, List.not_mem_nil, or_false] at hr
    obtain rfl | rfl := hr
    · exact source
    · exact dest
  · simp [regions, someClash, Region.clashes, apart]

theorem hufUncompress_reachesData (source : s.usable s.latched.srcAddr.toNat s.latched.srcLen.toNat 1)
    (dest : s.usable s.latched.dstAddr.toNat (2 * s.latched.dstLen.toNat) 2)
    (apart : rangesMeet s.latched.srcAddr.toNat s.latched.srcLen.toNat s.latched.dstAddr.toNat
      (2 * s.latched.dstLen.toNat) = false) : reachesData .hufUncompress s := by
  refine reachesData_of_usable (by simp [tablesRequired]) (fun r hr => ?_) rfl ?_ rfl
  · simp only [regions, List.mem_cons, List.not_mem_nil, or_false] at hr
    obtain rfl | rfl := hr
    · exact source
    · exact dest
  · simp [regions, someClash, Region.clashes, apart]

theorem pizCompress_reachesData (source : s.usable s.latched.srcAddr.toNat (2 * s.latched.srcLen.toNat) 2)
    (dest : s.usable s.latched.dstAddr.toNat s.latched.dstLen.toNat 1)
    (table : s.usable s.latched.auxAddr.toNat (12 * s.latched.auxLen.toNat) 4)
    (sourceDest : rangesMeet s.latched.srcAddr.toNat (2 * s.latched.srcLen.toNat) s.latched.dstAddr.toNat
      s.latched.dstLen.toNat = false)
    (sourceTable : rangesMeet s.latched.srcAddr.toNat (2 * s.latched.srcLen.toNat) s.latched.auxAddr.toNat
      (12 * s.latched.auxLen.toNat) = false)
    (destTable : rangesMeet s.latched.dstAddr.toNat s.latched.dstLen.toNat s.latched.auxAddr.toNat
      (12 * s.latched.auxLen.toNat) = false) : reachesData .pizCompress s := by
  refine reachesData_of_usable (by simp [tablesRequired]) (fun r hr => ?_) rfl ?_ rfl
  · simp only [regions, List.mem_cons, List.not_mem_nil, or_false] at hr
    obtain rfl | rfl | rfl := hr
    · exact source
    · exact dest
    · exact table
  · simp [regions, someClash, Region.clashes, sourceDest, sourceTable, destTable]

theorem pizUncompress_reachesData (source : s.usable s.latched.srcAddr.toNat s.latched.srcLen.toNat 1)
    (dest : s.usable s.latched.dstAddr.toNat (2 * s.latched.dstLen.toNat) 2)
    (table : s.usable s.latched.auxAddr.toNat (12 * s.latched.auxLen.toNat) 4)
    (sourceDest : rangesMeet s.latched.srcAddr.toNat s.latched.srcLen.toNat s.latched.dstAddr.toNat
      (2 * s.latched.dstLen.toNat) = false)
    (destTable : rangesMeet s.latched.dstAddr.toNat (2 * s.latched.dstLen.toNat) s.latched.auxAddr.toNat
      (12 * s.latched.auxLen.toNat) = false) : reachesData .pizUncompress s := by
  refine reachesData_of_usable (by simp [tablesRequired]) (fun r hr => ?_) rfl ?_ rfl
  · simp only [regions, List.mem_cons, List.not_mem_nil, or_false] at hr
    obtain rfl | rfl | rfl := hr
    · exact source
    · exact dest
    · exact table
  · simp [regions, someClash, Region.clashes, Access.writes, sourceDest, destTable]

end

/-- Settles O40: each command runs to the access that fails, with the tables it has by then; for the block of PIZ_COMPRESS the
planes in memory are the transformed ranks, so that the encoding is the one of the statement. -/
theorem huffmanAndPizBusErrors : Obligations.HuffmanAndPizBusErrors := by
  unfold Obligations.HuffmanAndPizBusErrors
  refine ⟨?_, ?_, ?_, ?_, ?_⟩
  · intro s e a n d cap wf source dest apart
    have reaches := hufCompress_reachesData source dest apart
    refine ⟨fun fails => ?_, fun hn reads he short fits fails => ?_⟩
    · have raises := hufCompress_sourceFails (s := s.clearValid .hufCompress) (d := d) (cap := cap) fails
      obtain ⟨t, run, ends, -, -, -, codes⟩ :=
        exec_busError_tables reaches (Run.bind_of_error (x := hufCompress a n d cap) raises) rfl
      exact ⟨t, run, ends, codes⟩
    · have store := hufCompress_eq_store (s := s.clearValid .hufCompress) (d := d) wf hn reads he short fits
      have raises := store.trans (Run.bind_of_error (dmaWrite_fails (by rw [e.block_length]; exact fails)))
      obtain ⟨t, run, ends, -, -, -, codes⟩ :=
        exec_busError_tables reaches (Run.bind_of_error (x := hufCompress a n d cap) raises) rfl
      exact ⟨t, run, ends, codes⟩
  · intro s nBits q im iM c xs a n d no wf source dest apart hn
    have reaches := hufUncompress_reachesData source dest apart
    have ends {s' : State} (raises : hufUncompress a n d no (s.clearValid .hufUncompress) = .error busError s') :
        ∃ t, exec .hufUncompress s = .next t ∧ s.completed t .busError {} ∧ t.codes = s'.codes := by
      obtain ⟨t, run, ends, -, -, -, codes⟩ :=
        exec_busError_tables reaches (Run.bind_of_error (x := hufUncompress a n d no) raises) rfl
      exact ⟨t, run, ends, codes⟩
    refine ⟨fun fails => ends (hufUncompress_headerFails hn fails), fun first third holds fails => ?_⟩
    split
    · rename_i table
      exact ends (hufUncompress_tableFails (s := s.clearValid .hufUncompress) wf holds first third table)
    · rename_i table
      refine ends (hufUncompress_streamFails (s := s.clearValid .hufUncompress) wf holds first third
        (eq_false_of_ne_true table) (fails.imp_left fun h => ?_))
      exact ((spansMeet_add _ _ _ _).1 h).resolve_left table
  · intro s c d cap wf hc held usable fits fails
    have reaches : reachesData .hufDumpCodes s :=
      reachesData_of_one rfl (by simp [tablesRequired, State.tableValid, hc]) usable rfl
        (decide_eq_false (Nat.not_lt.2 fits))
    have raises : dataPhase .hufDumpCodes (s.clearValid .hufDumpCodes) = .error busError (s.clearValid .hufDumpCodes) :=
      (Run.bind_of_ok (x := getCodes) (getCodes_ok hc)).trans
        (Run.bind_of_error (dmaWrite_fails (by rw [c.dump_length]; exact fails)))
    obtain ⟨t, run, ends, -, tables⟩ := exec_busError_of_raise wf rfl rfl reaches raises rfl
    exact ⟨t, run, ends, tables⟩
  · intro s b mn mx xs e a n d cap aux count ds size wf source dest table sourceDest sourceTable destTable
    have reaches := pizCompress_reachesData source dest table sourceDest sourceTable destTable
    have ends {s' : State} (raises : pizCompress a n d cap aux count (s.clearValid .pizCompress) = .error busError s') :=
      exec_busError_tables reaches (Run.bind_of_error (x := pizCompress a n d cap aux count) raises) rfl
    refine ⟨fun fails => ?_, fun readsTable valid reads hb fails => ?_,
      fun readsTable valid hn reads writes hb bounds length expected he short fits count header fails => ?_⟩
    · obtain ⟨t, run, ends, bitmap, lut, -, codes⟩ := ends (pizCompress_opensFails (s := s.clearValid .pizCompress) wf fails)
      exact ⟨t, run, ends, bitmap, lut, codes⟩
    · have built := pizCompress_eq_built (s := s.clearValid .pizCompress) (d := d) (cap := cap) wf readsTable valid reads hb
      obtain writes | ⟨writes, bounds, fits, block⟩ := fails
      · have raises : pizCompressBuilt a n d cap ds b ((s.clearValid .pizCompress).withForward b) = .error busError _ :=
          Run.bind_of_error (applyLut_fails b.forwardLut (.inr writes))
        obtain ⟨t, run, ends, bitmap, lut, kind, codes⟩ := ends (built.trans raises)
        exact ⟨t, run, ends, bitmap, by rw [lut]; rfl, kind, codes⟩
      · obtain ⟨m, stored, -⟩ := pizCompressBuilt_eq_stored (s := (s.clearValid .pizCompress).withForward b)
          (d := d) (cap := cap) wf valid.2 reads writes hb bounds
        have raises := pizCompressStored_bitmapFails (s := ((s.clearValid .pizCompress).withForward b).withMem m)
          (a := a) (n := n) (b := b) fits block
        obtain ⟨t, run, ends, bitmap, lut, kind, codes⟩ := ends (built.trans (stored.trans raises))
        exact ⟨t, run, ends, bitmap, by rw [lut]; rfl, kind, codes⟩
    · have built := pizCompress_eq_built (s := s.clearValid .pizCompress) (d := d) (cap := cap) wf readsTable valid reads hb
      obtain ⟨m, stored, wf', values⟩ := pizCompressBuilt_eq_stored (s := (s.clearValid .pizCompress).withForward b)
        (d := d) (cap := cap) wf valid.2 reads writes hb bounds
      have same := sampleList_eq_of_planes valid.2 length expected values
      obtain ⟨m', raises⟩ := pizCompressStored_blockFails (s := ((s.clearValid .pizCompress).withForward b).withMem m)
        (b := b) wf' hn reads sourceDest (same ▸ he) short fits count header fails
      obtain ⟨t, run, ends, bitmap, lut, kind, codes⟩ := ends (built.trans (stored.trans raises))
      exact ⟨t, run, ends, bitmap, by rw [lut]; rfl, kind, codes⟩
  · intro s nBits q im iM c xs a n d no aux count ds mn mx size len wf source dest table sourceDest destTable
    have reaches := pizUncompress_reachesData source dest table sourceDest destTable
    have ends {e : Raise} {s' : State}
        (raises : pizUncompress a n d no aux count (s.clearValid .pizUncompress) = .error e s') (code : e.code = .busError) :=
      exec_busError_tables reaches (Run.bind_of_error (x := pizUncompress a n d no aux count) raises) code
    refine ⟨fun fails => ?_, fun readsTable valid reads hmx fits fails => ?_,
      fun readsTable valid reads hmx fits short inBlock holds fails => ?_⟩
    · obtain ⟨t, run, ends, bitmap, lut, -, codes⟩ :=
        ends (pizUncompress_opensFails (s := s.clearValid .pizUncompress) wf rfl
          (fails.imp_right (Or.imp_right And.right))) rfl
      exact ⟨t, run, ends, bitmap, lut, codes⟩
    · obtain ⟨b, mn', mx', built⟩ := pizUncompress_eq_built (s := s.clearValid .pizUncompress) (n := n) (d := d) (size := size)
        wf rfl readsTable valid reads hmx (by omega)
      have raises := pizUncompressBuilt_lengthFails (s := (s.clearValid .pizUncompress).withReverse b) (d := d) (no := no)
        (ds := ds) (b := b) (mn := mn') (mx := mx') fits fails
      obtain ⟨t, run, ends, bitmap, lut, kind, codes⟩ := ends (built.trans raises) rfl
      exact ⟨t, run, ends, by rw [bitmap]; rfl, by rw [lut]; rfl, kind, codes⟩
    · have opens := spansMeet_part _ _ _ a (4 + size) reads le_rfl (by omega)
      obtain ⟨b, mn', mx', built⟩ := pizUncompress_eq_built (s := s.clearValid .pizUncompress) (n := n) (d := d) (size := size)
        wf rfl readsTable valid opens hmx (by omega)
      obtain ⟨e, m, raises, code⟩ := pizUncompressBuilt_destFails (s := (s.clearValid .pizUncompress).withReverse b)
        (ds := ds) (b := b) (mn := mn') (mx := mx') wf reads inBlock short holds fails
      obtain ⟨t, run, ends, bitmap, lut, kind, codes⟩ := ends (built.trans raises) code
      exact ⟨t, run, ends, by rw [bitmap]; rfl, by rw [lut]; rfl, kind, codes⟩

end Sys2Proof.Machine
end

section
/-! SUPPORT and the proofs of O1 to O5: the opcode map and its inverse, and the step in which a host's write of CMD issues its
word. -/

namespace Sys2Proof.Machine

/-! ### Command words -/

/-- A command's word decodes to the command (30_encoding.md R131). -/
theorem decode_encode (i : Instr) : decode (encode i) = .ok i := by
  cases i
  exacts [Laws.EncodeDecode.nop rfl, Laws.EncodeDecode.lutBitmapFromData rfl, Laws.EncodeDecode.lutBitmapLoad rfl,
    Laws.EncodeDecode.lutBitmapStore rfl, Laws.EncodeDecode.lutBuildForward rfl, Laws.EncodeDecode.lutBuildReverse rfl,
    Laws.EncodeDecode.lutApply rfl, Laws.EncodeDecode.lutDump rfl, Laws.EncodeDecode.wavEncode rfl,
    Laws.EncodeDecode.wavDecode rfl, Laws.EncodeDecode.hufCompress rfl, Laws.EncodeDecode.hufUncompress rfl,
    Laws.EncodeDecode.hufDumpCodes rfl, Laws.EncodeDecode.pizCompress rfl, Laws.EncodeDecode.pizUncompress rfl]

theorem opcField_toNat (w : Word32) : (opcField w).toNat = w.toNat % 256 := by
  simp [opcField]

theorem mbzField_toNat (w : Word32) : (mbzField w).toNat = w.toNat / 256 := by
  have := w.isLt
  rw [mbzField, BitVec.extractLsb'_toNat, Nat.shiftRight_eq_div_pow]
  omega

/-- Bits 31:8 are zero exactly in the words below 256 (30_encoding.md R130). -/
theorem mbzField_eq_zero_iff (w : Word32) : mbzField w = 0 ↔ w.toNat < 256 := by
  rw [← BitVec.toNat_inj, mbzField_toNat]
  show w.toNat / 256 = 0 ↔ _
  omega

/-- A row of the opcode map holds the opcode of its command's word. -/
theorem mem_opcodeMap_iff (b : BitVec 8) (i : Instr) : (b, i) ∈ opcodeMap ↔ b.toNat = (encode i).toNat := by
  have row : ∀ p ∈ opcodeMap, p.1.toNat = (encode p.2).toNat := by decide
  have listed : (BitVec.ofNat 8 (encode i).toNat, i) ∈ opcodeMap := by cases i <;> decide
  refine ⟨row (b, i), fun h => ?_⟩
  rwa [← h, BitVec.ofNat_toNat, BitVec.setWidth_eq] at listed

/-- The command found for an opcode stands in a row of the opcode map with it. -/
theorem lookup_opcodeMap {b : BitVec 8} {i : Instr} (h : opcodeMap.lookup b = some i) : (b, i) ∈ opcodeMap := by
  obtain ⟨before, after, split, -⟩ := List.lookup_eq_some_iff.1 h
  simp [split]

/-- A word decodes to a command only as the command's word: its bits 31:8 are zero and its opcode is the command's. -/
theorem eq_encode_of_decode {w : Word32} {i : Instr} (h : decode w = .ok i) : w = encode i := by
  unfold decode at h
  split at h
  · rename_i mbz
    split at h
    · rename_i found
      cases h
      have opcode := (mem_opcodeMap_iff _ _).1 (lookup_opcodeMap found)
      rw [opcField_toNat, Nat.mod_eq_of_lt ((mbzField_eq_zero_iff w).1 mbz)] at opcode
      exact BitVec.eq_of_toNat_eq opcode
    · cases h
  · cases h

theorem decode_eq_ok_iff (w : Word32) (i : Instr) : decode w = .ok i ↔ w = encode i :=
  ⟨eq_encode_of_decode, fun h => h ▸ decode_encode i⟩

/-- Settles O1: each of the fifteen words is the word of its command. -/
theorem opcodeMapWordsDecode : Obligations.OpcodeMapWordsDecode := by
  unfold Obligations.OpcodeMapWordsDecode
  exact ⟨decode_encode .nop, decode_encode .lutBitmapFromData, decode_encode .lutBitmapLoad,
    decode_encode .lutBitmapStore, decode_encode .lutBuildForward, decode_encode .lutBuildReverse,
    decode_encode .lutApply, decode_encode .lutDump, decode_encode .wavEncode, decode_encode .wavDecode,
    decode_encode .hufCompress, decode_encode .hufUncompress, decode_encode .hufDumpCodes,
    decode_encode .pizCompress, decode_encode .pizUncompress⟩

/-- Settles O2: the mask is the whole word, and the decoder inverts the encoder. -/
theorem wordSelectsCommandExactly : Obligations.WordSelectsCommandExactly := by
  unfold Obligations.WordSelectsCommandExactly
  intro w i
  constructor
  · rw [show (0xFFFFFFFF#32 : Word32) = BitVec.allOnes 32 by decide, BitVec.and_allOnes]
    exact decode_eq_ok_iff w i
  · show _ ↔ (w.toNat, i) ∈ opcodeMap.map fun p => (p.1.toNat, p.2)
    rw [List.mem_map]
    constructor
    · rintro rfl
      have small : (encode i).toNat < 256 := by cases i <;> decide
      have opcode : (BitVec.ofNat 8 (encode i).toNat).toNat = (encode i).toNat := Nat.mod_eq_of_lt small
      exact ⟨(_, i), (mem_opcodeMap_iff _ i).2 opcode, by rw [opcode]⟩
    · rintro ⟨⟨b, j⟩, row, same⟩
      obtain ⟨toNat, rfl⟩ := Prod.mk.inj same
      exact BitVec.eq_of_toNat_eq (toNat.symm.trans ((mem_opcodeMap_iff b j).1 row))

/-! ### Words that encode no command -/

theorem decode_eq_mustBeZero_iff (w : Word32) : decode w = .error .mustBeZero ↔ mbzField w ≠ 0 := by
  unfold decode
  split
  · rename_i mbz
    cases opcodeMap.lookup (opcField w) <;> simp [mbz]
  · rename_i mbz
    simpa using mbz

/-- The unassigned opcodes, as numbers: the gaps between the rows of the opcode map (30_encoding.md R134). -/
abbrev isUnassigned (n : Nat) : Prop :=
  (0x08 ≤ n ∧ n ≤ 0x0F) ∨ (0x12 ≤ n ∧ n ≤ 0x1F) ∨ (0x23 ≤ n ∧ n ≤ 0x2F) ∨ (0x32 ≤ n ∧ n ≤ 0xFF)

theorem lookup_opcodeMap_eq_none_iff (b : BitVec 8) : opcodeMap.lookup b = none ↔ isUnassigned b.toNat := by
  have := b.isLt
  simp only [List.lookup_eq_none_iff, opcodeMap, List.forall_mem_cons, List.not_mem_nil, false_implies,
    implies_true, and_true, bne_iff_ne, ne_eq, ← BitVec.toNat_inj, BitVec.reduceToNat, isUnassigned]
  omega

theorem decode_eq_unassignedOpcode_iff (w : Word32) :
    decode w = .error .unassignedOpcode ↔ isUnassigned w.toNat := by
  unfold decode
  split
  · rename_i mbz
    have opcode := lookup_opcodeMap_eq_none_iff (opcField w)
    rw [opcField_toNat, Nat.mod_eq_of_lt ((mbzField_eq_zero_iff w).1 mbz)] at opcode
    rw [← opcode]
    cases opcodeMap.lookup (opcField w) <;> simp
  · rename_i mbz
    rw [mbzField_eq_zero_iff] at mbz
    simp only [Except.error.injEq, reduceCtorEq, false_iff, isUnassigned]
    omega

/-! ### Issue -/

/-- A CMD write that finds the engine idle issues its word (10_state.md R37). -/
theorem hostRegWrite_cmd_of_idle {s : State} (w : Word32) (h : s.phase = .idle) :
    hostRegWrite .w32 (regOffset .cmd) w s = (s.issue w).respond .written := by
  rw [hostRegWrite_regOffset, State.writeReg, State.writeCmd, h]

/-- The step of a CMD write that finds the engine idle: issue, and the engine's turn at once if no access is to precede it
(70_reset_and_hazards.md R631). -/
theorem step_issue {s : State} {w : Word32} {rest : List HostOp} (idle : s.phase = .idle)
    (hq : s.hostq = .regWrite .w32 (regOffset .cmd) w :: rest) :
    step s = if s.issueDelay w = 0 then runEngine (((s.arrive rest).issue w).respond .written)
      else .next (((s.arrive rest).issue w).respond .written) := by
  have delay : (((s.arrive rest).issue w).respond .written).delay = s.issueDelay w := rfl
  have busy : (((s.arrive rest).issue w).respond .written).busy = true := rfl
  rw [step_of_access (State.engineDue_of_idle idle) hq, hostAccess,
    hostRegWrite_cmd_of_idle (s := s.arrive rest) w idle]
  simp only [delay, busy, s.busy_of_idle idle, Bool.not_false, Bool.true_and, beq_iff_eq]

theorem State.engineDue_of_busy {s : State} {w : Word32} (busy : s.phase = .busy w)
    (turn : s.delay = 0 ∨ s.hostq = []) : s.engineDue = true := by
  rw [State.engineDue, s.busy_of_busy w busy]
  simpa using turn

/-- Settles O3: issue, then the engine's turn, in the step of the write or in a later one. -/
theorem stepRunsTheDecodedCommand : Obligations.StepRunsTheDecodedCommand := by
  unfold Obligations.StepRunsTheDecodedCommand
  intro s w i hi _
  refine ⟨fun rest idle hq now => ?_, fun rest idle hq later => ?_, fun busy turn quiet => ?_⟩
  · rw [step_issue idle hq, State.issueDelay_of_ok _ _ _ hi, if_pos now]
    exact runEngine_of_ok rfl hi rfl
  · rw [step_issue idle hq, State.issueDelay_of_ok _ _ _ hi, if_neg (by omega)]
  · rw [step_of_engineDue (State.engineDue_of_busy busy turn)]
    exact runEngine_of_ok busy hi quiet

/-- Settles O4: a CMD write that finds the engine idle is issue and its answer. -/
theorem issueLatchesAndStartsOver : Obligations.IssueLatchesAndStartsOver := by
  unfold Obligations.IssueLatchesAndStartsOver
  intro s w idle
  rw [hostRegWrite_cmd_of_idle w idle]
  exact ⟨rfl, rfl, rfl, rfl, rfl, rfl, rfl, rfl, rfl, rfl, ⟨rfl, rfl, rfl, rfl⟩, rfl⟩

/-- Settles O5: no access precedes the completion of a word that encodes no command, so that it ends with ILLEGAL_CMD in the
step that issues it. -/
theorem illegalWordCompletesAtOnce : Obligations.IllegalWordCompletesAtOnce := by
  unfold Obligations.IllegalWordCompletesAtOnce
  intro w
  refine ⟨decode_eq_mustBeZero_iff w, decode_eq_unassignedOpcode_iff w, fun s rest idle hq illegal => ?_⟩
  obtain ⟨e, he⟩ : ∃ e, decode w = .error e :=
    illegal.elim (fun h => ⟨_, (decode_eq_mustBeZero_iff w).2 h⟩) fun h => ⟨_, (decode_eq_unassignedOpcode_iff w).2 h⟩
  have run : step s = .next ((((s.arrive rest).issue w).respond .written).completeErr .illegalCmd) := by
    rw [step_issue idle hq, State.issueDelay_of_error _ _ _ he, if_pos rfl]
    exact runEngine_of_error rfl he
  exact ⟨_, run, rfl, rfl, rfl, rfl, irqNext_no_clear _ _, rfl, rfl, rfl, rfl, ⟨rfl, rfl, rfl, rfl⟩, rfl, rfl, rfl⟩

end Sys2Proof.Machine
end

section
/-! SUPPORT and the proofs of O37 and O41: the parameter checks and the device check, over the rows of the region table. -/

namespace Sys2Proof.Machine

/-! ### Regions -/

/-- The extent of a wavelet command's grid, in numbers (43_wavelet.md R360). -/
theorem gridExtent_eq (l : Params) :
    gridExtent l = if l.nx.toNat = 0 ∨ l.ny.toNat = 0 then 0
      else 2 * ((l.nx.toNat - 1) * l.ox.toNat + (l.ny.toNat - 1) * l.oy.toNat + 1) := by
  simp only [gridExtent, ← BitVec.toNat_inj, BitVec.reduceToNat]

/-- A region as a row of the region table: base, size, access and base alignment (30_encoding.md R137). -/
abbrev Region.row (r : Region) : Nat × Nat × Access × Nat := (r.base, r.size, r.access, r.kind.alignment)

/-- A command touches a device or the register window exactly when one of its regions has a byte there (20_memory.md R100). -/
theorem touchesDevice_iff (i : Instr) (s : State) :
    touchesDevice i s = true ↔ ∃ r ∈ regions i s.latched, ∃ a < Config.addrSpace, r.base ≤ a ∧ a < r.base + r.size
      ∧ ∃ sp ∈ s.platform.nonIdempotent, sp.base ≤ a ∧ a < sp.base + sp.size := by
  simp only [touchesDevice, spansMeet, List.any_eq_true, rangesMeet_iff]
  constructor
  · rintro ⟨r, hr, sp, hsp, a, inSpan, lo, hi⟩
    rw [Region.realSize] at hi
    exact ⟨r, hr, a, by omega, lo, by omega, sp, hsp, inSpan⟩
  · rintro ⟨r, hr, a, inSpace, lo, hi, sp, hsp, inSpan⟩
    exact ⟨r, hr, sp, hsp, a, inSpan, lo, by rw [Region.realSize]; omega⟩

theorem Platform.mem_nonIdempotent (p : Platform) (sp : Span) :
    sp ∈ p.nonIdempotent ↔ sp = ⟨p.regBase, 4096⟩ ∨ sp ∈ p.devices := List.mem_cons

/-! ### The parameter checks -/

theorem Region.wraps_iff (r : Region) : r.wraps = true ↔ 2 ^ 32 < r.base + r.size := by
  simp [Region.wraps]

theorem Region.isMisaligned_iff (r : Region) :
    r.isMisaligned = true ↔ 0 < r.size ∧ r.base % r.kind.alignment ≠ 0 := by
  simp [Region.isMisaligned]

theorem Region.clashes_iff (q r : Region) : q.clashes r = true ↔ (q.access ≠ .r ∨ r.access ≠ .r)
    ∧ ∃ a, q.base ≤ a ∧ a < q.base + q.size ∧ r.base ≤ a ∧ a < r.base + r.size := by
  simp only [Region.clashes, Bool.and_eq_true, Bool.or_eq_true, Access.writes_iff, rangesMeet_iff, and_assoc]

/-- A pair of rows, in the order of their list, is the pair of the rows of two of its members. -/
theorem exists_pair_sublist_map {α β : Type} (f : α → β) (l : List α) (p : β → β → Prop) :
    (∃ q r, [q, r].Sublist (l.map f) ∧ p q r) ↔ ∃ q r, [q, r].Sublist l ∧ p (f q) (f r) := by
  constructor
  · rintro ⟨q, r, sub, h⟩
    obtain ⟨l', sub', same⟩ := List.sublist_map_iff.1 sub
    obtain ⟨q', r', rfl⟩ := List.length_eq_two.1 (List.length_map f ▸ (congrArg List.length same).symm)
    cases same
    exact ⟨q', r', sub', h⟩
  · rintro ⟨q, r, sub, h⟩
    exact ⟨f q, f r, sub.map f, h⟩

/-- The check over a list of regions takes each pair of them once (20_memory.md R101). -/
theorem someClash_iff (rs : List Region) :
    someClash rs = true ↔ ∃ q r, [q, r].Sublist rs ∧ q.clashes r = true := by
  induction rs with
  | nil => simp [someClash]
  | cons p rest ih =>
    rw [someClash, Bool.or_eq_true, ih, List.any_eq_true]
    constructor
    · rintro (⟨r, hr, clash⟩ | ⟨q, r, sub, clash⟩)
      · exact ⟨p, r, (List.singleton_sublist.2 hr).cons_cons p, clash⟩
      · exact ⟨q, r, sub.cons p, clash⟩
    · rintro ⟨q, r, sub, clash⟩
      cases sub with
      | cons _ sub => exact .inr ⟨q, r, sub, clash⟩
      | cons_cons _ sub => exact .inl ⟨r, List.singleton_sublist.1 sub, clash⟩

/-- The command-specific check, of the wavelet commands only (43_wavelet.md R360). -/
theorem commandParamBad_iff (i : Instr) (l : Params) :
    commandParamBad i l = true ↔ i ∈ [Instr.wavEncode, .wavDecode] ∧ 1 ≤ l.nx.toNat ∧ 1 ≤ l.ny.toNat
      ∧ (l.ox.toNat = 0 ∨ l.oy.toNat < l.nx.toNat * l.ox.toNat) := by
  have grid : gridIllegal l = true ↔ 1 ≤ l.nx.toNat ∧ 1 ≤ l.ny.toNat
      ∧ (l.ox.toNat = 0 ∨ l.oy.toNat < l.nx.toNat * l.ox.toNat) := by
    simp [gridIllegal, ← BitVec.toNat_inj, and_assoc]
  cases i with
  | wavEncode | wavDecode => exact grid.trans (by simp)
  | _ => simp [commandParamBad]

theorem fixedOutputTooLarge_iff (i : Instr) (l : Params) :
    fixedOutputTooLarge i l = true ↔ (i = .lutDump ∧ l.dstLen.toNat < 131072)
      ∨ (i = .hufDumpCodes ∧ l.dstLen.toNat < 524296) := by
  cases i <;> simp [fixedOutputTooLarge]

/-- The parameter-check phase by its five checks in their order (30_encoding.md R143): each stands for the code it answers
where none before it fails. -/
theorem paramCheck_by_checks {i : Instr} {s : State} {noTable badParam misaligned overlap tooLarge : Prop}
    (table : noTable ↔ ∃ T ∈ tablesRequired i, s.tableValid T = false)
    (param : badParam ↔ (∃ r ∈ regions i s.latched, r.wraps = true) ∨ commandParamBad i s.latched = true)
    (align : misaligned ↔ ∃ r ∈ regions i s.latched, r.isMisaligned = true)
    (clash : overlap ↔ someClash (regions i s.latched) = true)
    (large : tooLarge ↔ fixedOutputTooLarge i s.latched = true) :
    (∀ e : ErrCode,
      ((e = .noTable ∧ noTable) ∨ (e = .badParam ∧ ¬ noTable ∧ badParam)
        ∨ (e = .misaligned ∧ ¬ noTable ∧ ¬ badParam ∧ misaligned)
        ∨ (e = .overlap ∧ ¬ noTable ∧ ¬ badParam ∧ ¬ misaligned ∧ overlap)
        ∨ (e = .dstOverflow ∧ ¬ noTable ∧ ¬ badParam ∧ ¬ misaligned ∧ ¬ overlap ∧ tooLarge)) ↔
      paramCheck i s = some e)
    ∧ (paramCheck i s = none ↔ ¬ noTable ∧ ¬ badParam ∧ ¬ misaligned ∧ ¬ overlap ∧ ¬ tooLarge) := by
  have table' : noTable ↔ (!(tablesRequired i).all s.tableValid) = true := table.trans (by simp)
  have param' : badParam ↔ ((regions i s.latched).any Region.wraps || commandParamBad i s.latched) = true :=
    param.trans (by simp)
  have align' : misaligned ↔ (regions i s.latched).any Region.isMisaligned = true := align.trans (by simp)
  rw [table', param', align', clash, large]
  unfold paramCheck
  dsimp only
  split_ifs with h1 h2 h3 h4 h5
  · exact ⟨fun e => by simp [h1, eq_comm (a := e)], by simp [h1]⟩
  · exact ⟨fun e => by simp [h1, h2, eq_comm (a := e)], by simp [h2]⟩
  · exact ⟨fun e => by simp [h1, h2, h3, eq_comm (a := e)], by simp [h3]⟩
  · exact ⟨fun e => by simp [h1, h2, h3, h4, eq_comm (a := e)], by simp [h4]⟩
  · exact ⟨fun e => by simp [h1, h2, h3, h4, h5, eq_comm (a := e)], by simp [h5]⟩
  · exact ⟨fun e => by simp [h1, h2, h3, h4, h5], by simp [h1, h2, h3, h4, h5]⟩

/-- A code that the parameter-check phase answers is an error (30_encoding.md R143). -/
theorem paramCheck_ne_ok {i : Instr} {s : State} {e : ErrCode} (h : paramCheck i s = some e) : e ≠ .ok := by
  unfold paramCheck at h
  dsimp only at h
  split_ifs at h <;> cases h <;> decide

/-- A parameter check that fails ends the command with its code, and changes nothing but what completion changes. -/
theorem exec_of_paramCheck {i : Instr} {s : State} {e : ErrCode} (idempotent : touchesDevice i s = false)
    (h : paramCheck i s = some e) : exec i s = .next (s.completeErr e) ∧ s.completed (s.completeErr e) e {} :=
  ⟨(exec_eq i s).trans (runCommand_paramError idempotent h), s.completed_completeErr (paramCheck_ne_ok h)⟩

/-- Settles O37: the rows are the regions, and each of the five checks is the model's check on them. -/
theorem parameterChecksInOrder : Obligations.ParameterChecksInOrder := by
  unfold Obligations.ParameterChecksInOrder
  intro i s src srcLen dst dstLen aux auxLen nx ny ox oy grid rows noTable badParam misaligned overlap tooLarge
  have table : (regions i s.latched).map Region.row = rows := by
    cases i with
    | wavEncode | wavDecode => simp only [regions, gridExtent_eq, List.map]; rfl
    | _ => rfl
  have checks := paramCheck_by_checks (i := i) (s := s) (noTable := noTable) (badParam := badParam)
    (misaligned := misaligned) (overlap := overlap) (tooLarge := tooLarge) ?_ ?_ ?_ ?_ ?_
  · refine ⟨table, fun outside e he => ?_, checks.2⟩
    have idempotent : touchesDevice i s = false := by
      refine eq_false_of_ne_true fun touches => ?_
      obtain ⟨r, hr, a, inSpace, lo, hi, sp, hsp, inSpan⟩ := (touchesDevice_iff i s).1 touches
      have row : r.row ∈ rows := table ▸ List.mem_map_of_mem hr
      have := outside _ row a inSpace lo hi sp ((s.platform.mem_nonIdempotent sp).1 hsp)
      omega
    obtain ⟨run, ends⟩ := exec_of_paramCheck idempotent ((checks.1 e).1 he)
    exact ⟨_, run, ends, rfl, rfl, rfl, rfl, rfl⟩
  · rw [exists_required_invalid_iff]
    simp [noTable]
  · refine or_congr ?_ (commandParamBad_iff i s.latched).symm
    simp [← table, Region.wraps_iff]
  · simp [misaligned, ← table, Region.isMisaligned_iff]
  · simp only [overlap, ← table, exists_pair_sublist_map, someClash_iff, Region.clashes_iff]
  · exact (fixedOutputTooLarge_iff i s.latched).symm

/-! ### Completion -/

/-- A command that touches no device ends in phase IDLE with DONE 1, one code and its interrupt bit, its results 0 on an error
(30_encoding.md R145, R146). -/
theorem exec_completes {i : Instr} {s : State} (idempotent : touchesDevice i s = false) :
    ∃ t e r, exec i s = .next t ∧ s.completed t e r ∧ (e ≠ .ok → r = {}) := by
  cases hc : paramCheck i s with
  | some e =>
    obtain ⟨run, ends⟩ := exec_of_paramCheck idempotent hc
    exact ⟨_, e, {}, run, ends, fun _ => rfl⟩
  | none =>
    cases hb : dataPhase i (s.clearValid i) with
    | ok r s' =>
      have run := (exec_eq i s).trans (runCommand_ok idempotent hc hb)
      have data := dataRelation_dataOnly.trans _ _ _ (clearValid_dataOnly s i)
        ((keeps_dataPhase dataRelation_dataOnly i (s.clearValid i)).1 r s' hb)
      have irq : s'.irqStatus = s.irqStatus := by rw [data]
      refine ⟨_, .ok, r, run, ⟨rfl, rfl, rfl, rfl, ?_, (exec_next run).2⟩, fun h => absurd rfl h⟩
      rw [State.completeOk_irqStatus, irqNext_no_clear, irq]
      rfl
    | error e s' =>
      have code : e.code ≠ .ok := fun h => absurd (h ▸ dataPhase_error_code (tableValid_of_paramCheck hc) hb) (by decide)
      obtain ⟨run, ends⟩ := exec_of_raise ⟨idempotent, hc⟩ hb code
      exact ⟨_, e.code, {}, run, ends, fun _ => rfl⟩

/-- Settles O41: the device check comes before every other, and past it every command comes to its completion. -/
theorem everyCommandCompletes : Obligations.EveryCommandCompletes := by
  unfold Obligations.EveryCommandCompletes
  refine ⟨fun i s ⟨r, hr, inSpace, sp, hsp, a, lo, hi, inSpan⟩ => ?_, fun i s => exec_completes⟩
  rw [exec_eq]
  exact runCommand_refused ((touchesDevice_iff i s).2
    ⟨r, hr, a, by omega, lo, hi, sp, (s.platform.mem_nonIdempotent sp).2 hsp, inSpan⟩)

end Sys2Proof.Machine
end

section
/-! SUPPORT and the proof of O53: what a host store leaves in memory, outside the register window and in it. -/

namespace Sys2Proof.Machine

/-! ### The bytes that a store leaves -/

/-- Byte by byte, a store leaves what memory holds at a device, and its own byte elsewhere (log 13). -/
theorem State.storedBytes_getD (s : State) {a k : Nat} {bs : List Byte} (hk : k < bs.length) :
    (s.storedBytes a bs).getD k 0 = if s.inDevice (a + k) then s.mem.read (a + k) else bs.getD k 0 := by
  unfold State.storedBytes
  split
  · simp [List.getD, hk]
  · rename_i none
    have plain : ¬ s.inDevice (a + k) = true := fun h => none ((spansMeet_iff_byte _ a _).2 ⟨k, hk, h⟩)
    rw [if_neg plain]

/-- A byte of memory after a store outside the window: a byte of a device stays as it is. -/
theorem State.read_write_storedBytes (s : State) {a k : Nat} {bs : List Byte} (wf : s.mem.wf = true)
    (hk : k < bs.length) :
    (s.mem.write a (s.storedBytes a bs)).read (a + k) =
      if s.inDevice (a + k) then s.mem.read (a + k) else bs.getD k 0 := by
  rw [Memory.read_write _ _ _ _ wf, if_pos ⟨by omega, by rw [s.storedBytes_length]; omega⟩, Nat.add_sub_cancel_left]
  exact s.storedBytes_getD hk

/-- A store races the running command exactly when one of its bytes lies in a region of it (70_reset_and_hazards.md R620). -/
theorem State.writeRaces_iff (s : State) (a n : Nat) :
    s.writeRaces a n = true ↔ ∃ k < n, ∃ w i, s.phase = .busy w ∧ decode w = .ok i
      ∧ ∃ r ∈ regions i s.latched, r.base ≤ a + k ∧ a + k < r.base + r.size := by
  simp only [State.writeRaces, List.any_eq_true, rangesMeet_iff_lt, State.mem_busyRegions]
  constructor
  · rintro ⟨r, ⟨w, i, busy, hi, hr⟩, k, hk, range⟩
    exact ⟨k, hk, w, i, busy, hi, r, hr, range⟩
  · rintro ⟨k, hk, w, i, busy, hi, r, hr, range⟩
    exact ⟨r, ⟨w, i, busy, hi, hr⟩, k, hk, range⟩

/-! ### The step -/

/-- A store that is one access, or lies outside the window, is not taken apart (log 13). -/
theorem hostMemWrite_undivided {width : Width} {a : Nat} {bs : List Byte} {c : Bool} {s : State}
    (h : s.meetsWindow a bs.length = false ∨ bs.length ≤ width.bytes) :
    hostMemWrite width a bs c s = hostStore a bs c s := by
  refine if_neg ?_
  rcases h with h | h <;> simp [h]

/-- A longer store that meets the window is its first element, with the others next in the list (log 13). -/
theorem hostMemWrite_divided {width : Width} {a : Nat} {bs : List Byte} {c : Bool} {s : State}
    (meets : s.meetsWindow a bs.length = true) (long : width.bytes < bs.length) :
    hostMemWrite width a bs c s = hostStore a (bs.take width.bytes) c
      { s with hostq := .memWrite width (a + width.bytes) (bs.drop width.bytes) c :: s.hostq } :=
  if_pos (by simp [meets, long])

theorem hostStore_of_outside {a : Nat} {bs : List Byte} {c : Bool} {s : State} (h : s.meetsWindow a bs.length = false)
    (free : hostMemStop a bs.length c s = none) :
    hostStore a bs c s = .next (({ s with
      mem := s.mem.write a (s.storedBytes a bs)
      raced := s.raced || s.writeRaces a bs.length } : State).respond .written) := by
  rw [hostStore, if_neg (by simp [h]), free]

/-- A store of four bytes at an offset of the window is a write of the register there (10_state.md R32). -/
theorem hostStore_register {bs : List Byte} {c : Bool} {s : State} {off : BitVec 12} (h : bs.length = 4)
    (meets : s.meetsWindow (s.platform.regBase + off.toNat) bs.length = true) (aligned : off.toNat % 4 = 0) :
    hostStore (s.platform.regBase + off.toNat) bs c s = .next
      (hostRegWrite .w32 off (bs.getD 3 0 ++ bs.getD 2 0 ++ bs.getD 1 0 ++ bs.getD 0 0) s) := by
  have value := ofNat_leNat_take (bs := bs) (k := 4) (by simp [h])
  rw [List.take_of_length_le h.le] at value
  rw [hostStore, if_pos meets, h, State.windowOffset_of_offset aligned, value]

/-- Any other access that meets the window is a bus error that changes nothing (10_state.md R55). -/
theorem hostStore_malformed {a : Nat} {bs : List Byte} {c : Bool} {s : State}
    (meets : s.meetsWindow a bs.length = true)
    (h : ¬ (bs.length = 4 ∧ s.platform.regBase ≤ a ∧ (a - s.platform.regBase) % 4 = 0)) :
    hostStore a bs c s = .next (s.respond .busError) := by
  rw [hostStore, if_pos meets]
  cases hoff : s.windowOffset a bs.length with
  | none => rfl
  | some off =>
    obtain ⟨length, rfl⟩ := State.windowOffset_eq_some hoff
    have misaligned : off.toNat % 4 ≠ 0 := fun aligned => h ⟨length, by omega, by rwa [Nat.add_sub_cancel_left]⟩
    simp only [hostRegWrite, registerAccessOk_eq_false (.inr misaligned), Bool.false_eq_true, if_false]

/-- Settles O53: outside the window a store puts its bytes in memory; in it, element by element, it writes registers. -/
theorem hostStoreWritesItsBytes : Obligations.HostStoreWritesItsBytes := by
  unfold Obligations.HostStoreWritesItsBytes
  intro s width a bs c rest wf due hq
  dsimp only
  simp only [← s.meetsWindow_iff a bs.length, ← s.inDevice_iff]
  refine ⟨fun outside inSpace maintained => ?_, fun meets long => ?_, fun meets short => ⟨?_, fun malformed => ?_⟩⟩
  · have outside' : (s.arrive rest).meetsWindow a bs.length = false := eq_false_of_ne_true outside
    have access := (hostMemWrite_undivided (width := width) (.inl outside')).trans
      (hostStore_of_outside outside' (hostMemStop_eq_none inSpace maintained))
    refine ⟨_, step_of_quiet_access due hq access rfl, fun k hk plain => ?_, fun k hk device => ?_, ?_,
      ⟨rfl, rfl, rfl, rfl⟩, fun r => by cases r <;> rfl, rfl, rfl, rfl, rfl, ?_⟩
    · exact (s.read_write_storedBytes wf hk).trans (if_neg plain)
    · exact (s.read_write_storedBytes wf hk).trans (if_pos device)
    · have kept := s.mem.write_keptOutside a (s.storedBytes a bs) wf
      rwa [s.storedBytes_length] at kept
    · rw [← s.writeRaces_iff]
      exact Bool.or_eq_true_iff
  · refine step_congr_access due hq ((hostMemWrite_divided (s := s.arrive rest) meets long).trans ?_)
    exact (hostMemWrite_undivided (.inr (List.length_take_le _ _))).symm
  · rintro off length rfl aligned
    exact step_congr_access due hq ((hostMemWrite_undivided (.inr short)).trans
      (hostStore_register (s := s.arrive rest) length meets aligned))
  · have access := (hostMemWrite_undivided (.inr short)).trans
      (hostStore_malformed (c := c) (s := s.arrive rest) meets malformed)
    exact step_of_quiet_access due hq access rfl

end Sys2Proof.Machine
end

section
/-! SUPPORT and the proofs of O56 and O57: a host's `wait` while a command runs, and the transactions of a host script. -/

namespace Sys2Proof.Machine

/-! ### Wait -/

theorem runEngine_of_raced {s : State} {w : Word32} {i : Instr} (busy : s.phase = .busy w) (hi : decode w = .ok i)
    (raced : s.raced = true) : runEngine s = runRaced i s := by
  rw [runEngine, busy]
  simp only [hi, raced, if_true]

/-- The engine's turn ends a command that touches no device, raced or not (30_encoding.md R145). -/
theorem runEngine_completes {s : State} {w : Word32} {i : Instr} (busy : s.phase = .busy w) (hi : decode w = .ok i)
    (idempotent : touchesDevice i s = false) :
    ∃ t, runEngine s = .next t ∧ t.phase = .idle ∧ t.done = true ∧ s.hostSideKept t := by
  have ⟨t, run, done⟩ : ∃ t, runEngine s = .next t ∧ t.done = true := by
    cases raced : s.raced with
    | false =>
      obtain ⟨t, e, r, run, ends, -⟩ := exec_completes idempotent
      exact ⟨t, (runEngine_of_ok busy hi raced).trans run, ends.done⟩
    | true =>
      obtain ⟨e, -, run⟩ := runRaced_next idempotent
      exact ⟨_, (runEngine_of_raced busy hi raced).trans run, by split <;> rfl⟩
  obtain ⟨idle, kept⟩ := runEngine_next run
  exact ⟨t, run, idle, done, kept⟩

/-- While DONE is 0 a `wait` reads STATUS and stays to be repeated (30_encoding.md R149; log 22). -/
theorem step_wait_of_busy {s : State} {rest : List HostOp} (due : s.engineDue = false) (hq : s.hostq = .wait :: rest)
    (done : s.done = false) : step s = .next { s with delay := s.delay - 1 } := by
  refine step_of_quiet_access due hq ?_ rfl
  rw [hostAccess, hostWait, if_neg (by simp [done]), State.arrive, ← hq]

/-- Once DONE is 1 a `wait` ends with the STATUS it reads (30_encoding.md R149). -/
theorem step_wait_of_done {s : State} {rest : List HostOp} (due : s.engineDue = false) (hq : s.hostq = .wait :: rest)
    (done : s.done = true) : step s = .next ((s.arrive rest).respond (.data s.statusWord)) := by
  refine step_of_quiet_access due hq ?_ rfl
  rw [hostAccess, hostWait, if_pos (by simpa using done)]
  rfl

theorem runSteps_succ {k : Nat} {s s' : State} (h : step s = .next s') : runSteps (k + 1) s = runSteps k s' := by
  rw [runSteps, h]

/-- Settles O56, by induction on the accesses that precede the completion. -/
theorem waitEndsAfterCompletion : Obligations.WaitEndsAfterCompletion := by
  unfold Obligations.WaitEndsAfterCompletion
  intro s w i rest busy hi done idempotent hq
  induction hd : s.delay generalizing s with
  | zero =>
    obtain ⟨t, run, idle, done, kept⟩ := runEngine_completes busy hi idempotent
    have turn := (step_of_engineDue (State.engineDue_of_busy busy (.inl hd))).trans run
    have answer := step_wait_of_done (State.engineDue_of_idle idle) (kept.hostq.trans hq) done
    refine ⟨_, (runSteps_succ turn).trans (runSteps_succ answer), idle, done, rfl, ?_⟩
    rw [State.respond_responses, State.arrive_responses, kept.responses]
    rfl
  | succ d ih =>
    have due : s.engineDue = false := by simp [State.engineDue, hd, hq]
    obtain ⟨t, run, ends⟩ := ih { s with delay := s.delay - 1 } busy done idempotent hq (by simp [hd])
    exact ⟨t, (runSteps_succ (step_wait_of_busy due hq done)).trans run, ends⟩

/-! ### Host scripts -/

theorem flatMap_leBytes_length (vs : List Word32) : (vs.flatMap fun v => leBytes 4 v.toNat).length = 4 * vs.length := by
  induction vs with
  | nil => rfl
  | cons v rest ih =>
    rw [List.flatMap_cons, List.length_append, leBytes_length, ih, List.length_cons]
    omega

/-- The four bytes of a word, put together again (20_memory.md R92). -/
theorem leBytes_four_append (v : Word32) :
    (leBytes 4 v.toNat).getD 3 0 ++ (leBytes 4 v.toNat).getD 2 0 ++ (leBytes 4 v.toNat).getD 1 0
      ++ (leBytes 4 v.toNat).getD 0 0 = v := by
  have value := ofNat_leNat_take (bs := leBytes 4 v.toNat) (k := 4) (by simp)
  rw [List.take_of_length_le (by simp), leNat_leBytes _ _ v.isLt, BitVec.ofNat_toNat, BitVec.setWidth_eq] at value
  exact value.symm

/-- Bytes `4 k` to `4 k + 3` of a word sequence are those of word `k`. -/
theorem flatMap_leBytes_getD (vs : List Word32) (k : Nat) {j : Nat} (hk : k < vs.length) (hj : j < 4) :
    (vs.flatMap fun v => leBytes 4 v.toNat).getD (4 * k + j) 0 = (leBytes 4 (vs.getD k 0).toNat).getD j 0 := by
  induction vs generalizing k with
  | nil => simp at hk
  | cons v rest ih =>
    rw [List.flatMap_cons]
    cases k with
    | zero => rw [List.getD_append _ _ _ _ (by simpa using hj), Nat.mul_zero, Nat.zero_add, List.getD_cons_zero]
    | succ k =>
      rw [List.getD_append_right _ _ _ _ (by simp; omega), leBytes_length, show 4 * (k + 1) + j - 4 = 4 * k + j by omega,
        List.getD_cons_succ]
      exact ih k (by simpa using hk)

/-- Settles O57: each statement's transactions are those its expansion lists; the elements of its stores are the values it
stores. -/
theorem scriptExpansion : Obligations.ScriptExpansion := by
  unfold Obligations.ScriptExpansion
  refine ⟨fun _ _ => rfl, fun _ => rfl, fun _ => rfl, fun _ => rfl, fun _ _ => rfl, fun a vs => ?_, fun a vs => ?_, rfl,
    fun _ => rfl, rfl, rfl, fun _ _ _ _ => rfl, fun _ _ _ _ _ => rfl, fun _ _ => rfl, fun _ _ => List.flatMap_append⟩
  · refine ⟨_, rfl, bytesOfSamples_length vs, fun k hk => ?_⟩
    rw [bytesOfSamples_high vs k hk, bytesOfSamples_low vs k hk]
    exact extractLsb'_append_halves _
  · refine ⟨_, rfl, flatMap_leBytes_length vs, fun k hk => ?_⟩
    have byte {j : Nat} (hj : j < 4) := flatMap_leBytes_getD vs k hk hj
    have low : (vs.flatMap fun v => leBytes 4 v.toNat).getD (4 * k) 0 = _ := byte (j := 0) (by decide)
    rw [byte (j := 3) (by decide), byte (j := 2) (by decide), byte (j := 1) (by decide), low]
    exact leBytes_four_append _

end Sys2Proof.Machine
end

section
/-! SUPPORT and the proof of O12: the ranks of the values that occur, and what each of the two LUTs holds where
(40_lut.md R206, R207, R208). -/

namespace Sys2Proof.Machine

/-! ### Ranks -/

section
variable {b : Bitmap} {u v k : Nat}

@[simp] theorem Bitmap.rank_zero (b : Bitmap) : b.rank 0 = 0 := by simp [Bitmap.rank]

theorem Bitmap.rank_succ (b : Bitmap) (v : Nat) : b.rank (v + 1) = b.rank v + if b.bit (v + 1) then 1 else 0 := by
  rw [Bitmap.rank, List.range_succ, List.countP_append, ← Bitmap.rank]
  simp

theorem Bitmap.rank_mono (b : Bitmap) : Monotone b.rank :=
  monotone_nat_of_le_succ fun v => by rw [b.rank_succ]; exact Nat.le_add_right ..

theorem Bitmap.maxValue_lt (b : Bitmap) : b.maxValue < 65536 := b.nonZeroValues_length_lt

theorem Bitmap.rank_le_maxValue (b : Bitmap) (h : v < 65536) : b.rank v ≤ b.maxValue := by
  rw [b.maxValue_eq]
  exact b.rank_mono (Nat.le_of_lt_succ h)

/-- A value that occurs has a higher rank than every value below it (40_lut.md R206). -/
theorem Bitmap.rank_lt_rank (huv : u < v) (hv : b.occurs v) : b.rank u < b.rank v := by
  obtain ⟨w, rfl⟩ : ∃ w, v = w + 1 := ⟨v - 1, by omega⟩
  rw [b.rank_succ, if_pos (hv.resolve_left (by omega))]
  exact Nat.lt_succ_of_le (b.rank_mono (Nat.le_of_lt_succ huv))

/-! ### The entries of the LUTs -/

/-- A rank fits an entry. -/
theorem Bitmap.forwardLut_entry_toNat (h : v < 65536) (occurs : b.occurs v) :
    (b.forwardLut.entry v).toNat = b.rank v := by
  rw [Bitmap.forwardLut_entry occurs, BitVec.toNat_ofNat]
  exact Nat.mod_eq_of_lt ((b.rank_le_maxValue h).trans_lt b.maxValue_lt)

/-- A value outside the set goes to 0 (40_lut.md R206). -/
theorem Bitmap.forwardLut_entry_of_not_occurs (h : ¬ b.occurs v) : b.forwardLut.entry v = 0 := by
  refine sparseGet_of_forall_ne _ _ _ fun c hc hcv => h (.inr ?_)
  obtain ⟨p, hp, rfl⟩ := List.mem_map.1 hc
  have listed := List.mem_of_mem_filter (List.fst_mem_of_mem_zipIdx hp)
  exact hcv ▸ (b.mem_setBits p.1).1 listed

/-- A value from 1 up that occurs is listed with its rank: it is listed with some position, and its entry in the forward
LUT says which. -/
theorem Bitmap.mem_zipIdx_rank (pos : 0 < v) (h : v < 65536) (occurs : b.occurs v) :
    (v, b.rank v) ∈ b.nonZeroValues.zipIdx 1 := by
  have listed : v ∈ b.nonZeroValues := by
    refine List.mem_filter.2 ⟨(b.mem_setBits v).2 (occurs.resolve_left pos.ne'), ?_⟩
    simpa using pos.ne'
  rw [← List.zipIdx_map_fst 1 b.nonZeroValues] at listed
  obtain ⟨⟨w, k⟩, hp, same⟩ := List.mem_map.1 listed
  obtain rfl : v = w := same.symm
  have rise : keysRise b.forwardLut = true := (Bool.and_eq_true_iff.1 b.forwardLut_wf).1
  have entry : b.forwardLut.entry v = BitVec.ofNat 16 k :=
    sparseGet_mem 0 _ rise (v, BitVec.ofNat 16 k) (List.mem_map.2 ⟨_, hp, rfl⟩)
  have rank := Bitmap.forwardLut_entry_toNat h occurs
  rw [entry, BitVec.toNat_ofNat, Nat.mod_eq_of_lt (Bitmap.mem_zipIdx_nonZeroValues hp).2.2] at rank
  exact rank ▸ hp

/-- Rank 0 and every rank past the highest go to 0 (40_lut.md R207). -/
theorem Bitmap.reverseLut_entry_of_not_rank (h : k = 0 ∨ b.maxValue < k) : b.reverseLut.entry k = 0 := by
  refine sparseGet_of_forall_ne _ _ _ fun c hc hck => ?_
  obtain ⟨p, hp, rfl⟩ := List.mem_map.1 hc
  have low : 1 ≤ k := hck ▸ List.le_snd_of_mem_zipIdx hp
  have high : k < 1 + b.maxValue := hck ▸ List.snd_lt_add_of_mem_zipIdx hp
  omega

/-- The rank of a value of the set goes to the value (40_lut.md R207). -/
theorem Bitmap.reverseLut_entry_rank (h : v < 65536) (occurs : b.occurs v) :
    (b.reverseLut.entry (b.rank v)).toNat = v := by
  rcases Nat.eq_zero_or_pos v with rfl | pos
  · rw [b.rank_zero, Bitmap.reverseLut_entry_of_not_rank (.inl rfl)]
    rfl
  · have rise : keysRise b.reverseLut = true := (Bool.and_eq_true_iff.1 b.reverseLut_wf).1
    have entry : b.reverseLut.entry (b.rank v) = BitVec.ofNat 16 v :=
      sparseGet_mem 0 _ rise (b.rank v, BitVec.ofNat 16 v)
        (List.mem_map.2 ⟨_, Bitmap.mem_zipIdx_rank pos h occurs, rfl⟩)
    rw [entry, BitVec.toNat_ofNat, Nat.mod_eq_of_lt h]

/-- The reverse LUT undoes the forward LUT (40_lut.md R208). -/
theorem Bitmap.reverseLut_forwardLut (h : v < 65536) (occurs : b.occurs v) :
    (b.reverseLut.entry (b.forwardLut.entry v).toNat).toNat = v := by
  rw [Bitmap.forwardLut_entry_toNat h occurs, Bitmap.reverseLut_entry_rank h occurs]

end

/-- Settles O12: on the set the forward LUT is the rank, which rises, and the reverse LUT takes each rank back. -/
theorem reverseLutUndoesForward : Obligations.ReverseLutUndoesForward := by
  unfold Obligations.ReverseLutUndoesForward
  refine fun b => ⟨?_, Nat.le_of_lt_succ b.maxValue_lt, fun v hv occurs => ⟨Bitmap.reverseLut_forwardLut hv occurs, ?_⟩,
    fun u v huv hv hu occurs => ?_, fun xs hxs => ?_⟩
  · rw [b.maxValue_eq, Bitmap.rank]
    exact List.countP_congr fun v _ => by simp [Nat.pos_iff_ne_zero]
  · rw [Bitmap.forwardLut_entry_toNat hv occurs]
    exact b.rank_le_maxValue hv
  · rw [Bitmap.forwardLut_entry_toNat (huv.trans hv) hu, Bitmap.forwardLut_entry_toNat hv occurs]
    exact Bitmap.rank_lt_rank huv occurs
  · rw [List.map_map]
    refine (List.map_congr_left fun x hx => ?_).trans (List.map_id xs)
    exact BitVec.eq_of_toNat_eq (Bitmap.reverseLut_forwardLut x.isLt (hxs x hx))

end Sys2Proof.Machine
end

section
/-! SUPPORT. The end of a command whose data phase raises nothing; bytes of memory and of BITMAP one by one; the bitmap block
(40_lut.md R204, R205). -/

namespace Sys2Proof.Machine

/-! ### From the data phase to the end of the command -/

/-- A data phase that answers results ends the command with code 0 and these results (30_encoding.md R146). -/
theorem exec_of_ok {i : Instr} {s s' : State} {r : Results} (reaches : reachesData i s)
    (answers : dataPhase i (s.clearValid i) = .ok r s') :
    exec i s = .next (s'.completeOk r) ∧ s.completed (s'.completeOk r) .ok r := by
  have run := (exec_eq i s).trans (runCommand_ok reaches.1 reaches.2 answers)
  have data := dataRelation_dataOnly.trans _ _ _ (clearValid_dataOnly s i)
    ((keeps_dataPhase dataRelation_dataOnly i (s.clearValid i)).1 r s' answers)
  have irq : s'.irqStatus = s.irqStatus := by rw [data]
  refine ⟨run, rfl, rfl, rfl, rfl, ?_, (exec_next run).2⟩
  rw [if_pos rfl, State.completeOk_irqStatus, irqNext_no_clear, irq]
  rfl

theorem require_fails {s : State} {c : Bool} (e : ErrCode) (h : c = false) : require c e s = .error ⟨e, false⟩ s := by
  rw [require_eq, if_neg (by simp [h])]

/-! ### Bytes of memory -/

theorem Memory.bytes_getD {m : Memory} (wf : m.wf = true) {a n k : Nat} (hk : k < n) :
    (m.bytes a n).getD k 0 = m.read (a + k) := by
  rw [Memory.bytes_eq _ _ _ wf]
  simp [List.getD, hk]

/-- A byte of a stored byte sequence is the byte stored there. -/
theorem Memory.read_write_getD {m : Memory} (wf : m.wf = true) (a : Nat) {bs : List Byte} {k : Nat} (hk : k < bs.length) :
    (m.write a bs).read (a + k) = bs.getD k 0 := by
  rw [Memory.read_write _ _ _ _ wf, if_pos (by omega), Nat.add_sub_cancel_left]
  rfl

/-- A part of a stored byte sequence is read back. -/
theorem Memory.bytes_write_part {m : Memory} (wf : m.wf = true) (a : Nat) (pre bs post : List Byte) :
    (m.write a (pre ++ bs ++ post)).bytes (a + pre.length) bs.length = bs := by
  refine List.ext_getElem (Memory.bytes_length ..) fun k h hk => ?_
  rw [← List.getD_eq_getElem (d := 0), ← List.getD_eq_getElem (d := 0),
    Memory.bytes_getD (Memory.write_wf _ _ _ wf) hk, Nat.add_assoc,
    Memory.read_write_getD wf a (by simp only [List.length_append]; omega),
    List.getD_append _ _ _ _ (by rw [List.length_append]; omega), List.getD_append_right _ _ _ _ (by omega),
    Nat.add_sub_cancel_left]

/-! ### Bytes of BITMAP -/

/-- Bit `i` of a little-endian number is bit `i % 8` of byte `i / 8` (00_scope.md R13). -/
theorem leNat_testBit (bs : List Byte) (i : Nat) : (leNat bs).testBit i = (bs.getD (i / 8) 0).getLsbD (i % 8) := by
  induction bs generalizing i with
  | nil => simp [leNat]
  | cons b rest ih =>
    rw [leNat, Nat.add_comm, show 256 = 2 ^ 8 by rfl, Nat.testBit_two_pow_mul_add _ b.isLt]
    split
    · rename_i low
      rw [Nat.div_eq_of_lt low, Nat.mod_eq_of_lt low]
      rfl
    · rename_i high
      obtain ⟨k, rfl⟩ : ∃ k, i = k + 8 := ⟨i - 8, by omega⟩
      rw [ih, Nat.add_sub_cancel, Nat.add_div_right _ (by decide), Nat.add_mod_right, List.getD_cons_succ]

/-- BITMAP of a slice has the slice's bits from bit `8 mn` on, but for bit 0 (40_lut.md R205). -/
theorem bitmapOfSlice_bit (mn : Nat) (slice : List Byte) {v : Nat} (hv : v < 65536) :
    (bitmapOfSlice mn slice).bit v =
      ((decide (8 * mn ≤ v) && (leNat slice).testBit (v - 8 * mn)) && decide (v ≠ 0)) := by
  rw [bitmapOfSlice, Bitmap.clearBit0, Bitmap.bit, BitVec.getLsbD_and, BitVec.getLsbD_not, BitVec.getLsbD_one,
    BitVec.getLsbD_ofNat, Nat.testBit_shiftLeft]
  simp [hv]

/-- The mask that takes bit 0 off byte 0 (40_lut.md R205). -/
theorem firstByteMask_getLsbD {j t : Nat} (ht : t < 8) :
    (if j = 0 then 0xFE else 0xFF : Byte).getLsbD t = decide (8 * j + t ≠ 0) := by
  have first : ∀ t < 8, (0xFE : Byte).getLsbD t = decide (t ≠ 0) := by decide
  have other : ∀ t < 8, (0xFF : Byte).getLsbD t = true := by decide
  split
  · rename_i zero
    rw [first t ht, zero, Nat.mul_zero, Nat.zero_add]
  · rw [other t ht, decide_eq_true (by omega)]

/-- Byte by byte, BITMAP of a slice is the slice from byte `mn` on, 0 elsewhere, bit 0 cleared (40_lut.md R205). -/
theorem bitmapOfSlice_byte (mn : Nat) (slice : List Byte) {j : Nat} (hj : j < 8192) :
    (bitmapOfSlice mn slice).byte j =
      (if mn ≤ j then slice.getD (j - mn) 0 else 0) &&& (if j = 0 then 0xFE else 0xFF) := by
  refine BitVec.eq_of_getLsbD_eq fun t ht => ?_
  rw [Bitmap.byte_getLsbD _ _ _ ht, bitmapOfSlice_bit _ _ (by omega), BitVec.getLsbD_and, firstByteMask_getLsbD ht]
  congr 1
  by_cases h : mn ≤ j
  · rw [decide_eq_true (by omega), Bool.true_and, leNat_testBit, if_pos h,
      show (8 * j + t - 8 * mn) / 8 = j - mn by omega, show (8 * j + t - 8 * mn) % 8 = t by omega]
  · rw [decide_eq_false (by omega), if_neg h, Bool.false_and]
    exact BitVec.getLsbD_zero.symm

/-- A BITMAP byte past the last one is 0, so the bounds of the non-zero bytes lie below 8192 (40_lut.md R203). -/
theorem Bitmap.lt_of_byte_ne_zero {b : Bitmap} {j : Nat} (h : b.byte j ≠ 0) : j < 8192 := by
  obtain ⟨v, hv, rfl⟩ := (b.byte_ne_zero_iff j).1 h
  have listed := (b.mem_setBits v).2 hv
  rw [b.setBits_eq, List.mem_filter, List.mem_range] at listed
  omega

theorem Bitmap.isMinMax.lt {b : Bitmap} {mn mx : Nat} (h : b.isMinMax mn mx) : mn < 8192 ∧ mx < 8192 := by
  obtain ⟨-, rfl, rfl⟩ | ⟨low, high, -⟩ := h
  · decide
  · exact ⟨Bitmap.lt_of_byte_ne_zero low, Bitmap.lt_of_byte_ne_zero high⟩

/-! ### Loading a bitmap block -/

section
variable {s : State} {a n : Nat}

/-- A bitmap block that fits and that the bus reads puts its slice into BITMAP (40_lut.md R205). -/
theorem bitmapLoad_loads {size : Nat} (wf : s.mem.wf = true) (hmx : (s.mem.sample (a + 2)).toNat < 8192)
    (hsize : sliceSize (s.mem.sample a).toNat (s.mem.sample (a + 2)).toNat = size) (fits : 4 + size ≤ n)
    (reads : s.readFails a (4 + size) = false) :
    ∃ b, bitmapLoad a n s = .ok (b, 4 + size, (s.mem.sample a).toNat, (s.mem.sample (a + 2)).toNat) s
      ∧ b.isLoaded s.mem (a + 4) (s.mem.sample a).toNat (s.mem.sample (a + 2)).toNat := by
  obtain ⟨header, slice⟩ := (spansMeet_add_eq_false _ a 4 size).1 reads
  rw [bitmapLoad_header wf (by omega) header hmx, hsize]
  generalize (s.mem.sample a).toNat = mn, (s.mem.sample (a + 2)).toNat = mx at *
  split
  · rename_i ordered
    rw [Run.bind_of_ok (require_ok _ (decide_eq_true fits)), Run.bind_of_ok (dmaRead_ok slice)]
    refine ⟨_, rfl, fun j hj => ?_⟩
    rw [bitmapOfSlice_byte _ _ hj]
    congr 1
    rw [sliceSize, if_pos ordered] at hsize
    rcases Nat.lt_or_ge j mn with below | from_mn
    · rw [if_neg (by omega), if_neg (by omega)]
    rcases Nat.lt_or_ge mx j with above | to_mx
    · rw [if_pos from_mn, if_neg (by omega), List.getD_eq_default _ _ (by rw [Memory.bytes_length]; omega)]
    · rw [if_pos from_mn, if_pos ⟨from_mn, to_mx⟩, Memory.bytes_getD wf (by omega)]
  · rename_i unordered
    obtain rfl : 0 = size := (if_neg unordered).symm.trans hsize
    refine ⟨0, rfl, fun j hj => ?_⟩
    rw [if_neg (by omega), show (0 : Bitmap).byte j = 0 by simp [Bitmap.byte]]
    exact BitVec.zero_and.symm

/-- A bitmap block that is too short, out of range or cut off is not loaded (40_lut.md R205). -/
theorem bitmapLoad_raises {size : Nat} (wf : s.mem.wf = true) (reads : s.readFails a n = false)
    (hsize : sliceSize (s.mem.sample a).toNat (s.mem.sample (a + 2)).toNat = size)
    (bad : n < 4 ∨ 8192 ≤ (s.mem.sample (a + 2)).toNat ∨ n < 4 + size) :
    bitmapLoad a n s = .error ⟨if n < 4 then .notEnoughData else if 8192 ≤ (s.mem.sample (a + 2)).toNat then .bitmapSize
      else .notEnoughData, false⟩ s := by
  by_cases short : n < 4
  · rw [if_pos short]
    exact Run.bind_of_error (require_fails _ (decide_eq_false (by omega)))
  rw [if_neg short]
  have header : s.readFails a 4 = false := spansMeet_part _ _ _ _ _ reads le_rfl (by omega)
  by_cases range : 8192 ≤ (s.mem.sample (a + 2)).toNat
  · obtain ⟨low, high⟩ := (spansMeet_add_eq_false _ a 2 2).1 header
    rw [if_pos range, bitmapLoad, Run.bind_of_ok (require_ok _ (decide_eq_true (by omega))), Run.bind_of_ok (rdLe_ok low),
      Run.bind_of_ok (rdLe_ok high), Memory.leNat_bytes_two wf]
    exact Run.bind_of_error (require_fails _ (decide_eq_false (Nat.not_lt.2 range)))
  · have cut : n < 4 + size := (bad.resolve_left short).resolve_left range
    have ordered : (s.mem.sample a).toNat ≤ (s.mem.sample (a + 2)).toNat := by
      by_contra unordered
      rw [sliceSize, if_neg unordered] at hsize
      omega
    rw [if_neg range, bitmapLoad_header wf (by omega) header (by omega), if_pos ordered, hsize]
    exact Run.bind_of_error (require_fails _ (decide_eq_false (by omega)))

end

end Sys2Proof.Machine
end

section
/-! The proofs of O8 to O11, O13 and O14: each LUT command runs through its data phase to its completion
(40_lut.md R210 to R222). -/

namespace Sys2Proof.Machine

/-! ### LUT_BITMAP_FROM_DATA -/

/-- Settles O8: BITMAP of the buffer has the bits of the values that occur, and the bounds are computed from it. -/
theorem bitmapFromDataResult : Obligations.BitmapFromDataResult := by
  unfold Obligations.BitmapFromDataResult
  intro s a n wf usable reads
  have loads : bitmapFromSamples a n (s.clearValid .lutBitmapFromData) =
      .ok (bitmapOfSamples (s.mem.samples a n)) (s.clearValid .lutBitmapFromData) := Run.bind_of_ok (readSamples_ok reads)
  obtain ⟨run, ends⟩ := exec_of_ok (i := .lutBitmapFromData)
    (reachesData_of_one rfl (by simp [tablesRequired]) usable rfl rfl) (Run.bind_of_ok (x := bitmapFromSamples a n) loads)
  obtain ⟨lut, kind⟩ := exec_lut (by decide) run
  refine ⟨_, _, _, _, run, ends, rfl, fun v => ?_, Bitmap.minMaxNonZero_isMinMax _, rfl, lut, kind,
    exec_codes (by decide) run⟩
  rw [bitmapOfSamples_bit, Memory.samples_eq _ _ _ wf, Memory.sampleList]
  simp

/-! ### LUT_BITMAP_LOAD -/

/-- Settles O9: the block's checks pass and its slice is loaded, or the first that fails ends the command. -/
theorem bitmapLoadResult : Obligations.BitmapLoadResult := by
  unfold Obligations.BitmapLoadResult
  intro s a n mn mx size wf usable reads
  have reaches : reachesData .lutBitmapLoad s := reachesData_of_one rfl (by simp [tablesRequired]) usable rfl rfl
  constructor
  · intro range fits
    obtain ⟨b, loads, loaded⟩ := bitmapLoad_loads (s := s.clearValid .lutBitmapLoad) wf range rfl fits
      (spansMeet_part _ _ _ _ _ reads le_rfl (Nat.add_le_add_left fits a))
    obtain ⟨run, ends⟩ := exec_of_ok reaches (Run.bind_of_ok (x := bitmapLoad a n) loads)
    obtain ⟨lut, kind⟩ := exec_lut (by decide) run
    exact ⟨_, b, run, ends, rfl, loaded, rfl, lut, kind, exec_codes (by decide) run⟩
  · intro bad
    obtain ⟨run, ends⟩ := exec_of_raise reaches (Run.bind_of_error (x := bitmapLoad a n)
      (bitmapLoad_raises (s := s.clearValid .lutBitmapLoad) wf reads rfl bad)) (by dsimp only; split_ifs <;> decide)
    obtain ⟨lut, kind⟩ := exec_lut (by decide) run
    have readOnly : ∀ r ∈ regions .lutBitmapLoad (s.clearValid .lutBitmapLoad).latched, r.access = .r := by simp [regions]
    exact ⟨_, run, ends, State.failData_bitmap _ _ _, State.failData_mem _ readOnly, lut, kind,
      exec_codes (by decide) run⟩

/-! ### LUT_BITMAP_STORE -/

/-- A stored bitmap block holds its bounds and its slice (40_lut.md R204). -/
theorem Bitmap.block_write {m : Memory} (wf : m.wf = true) (d : Nat) (b : Bitmap) {mn mx : Nat} (hmn : mn < 8192)
    (hmx : mx < 8192) :
    ((m.write d (b.block mn mx)).sample d).toNat = mn ∧ ((m.write d (b.block mn mx)).sample (d + 2)).toNat = mx
      ∧ ∀ j < sliceSize mn mx, (m.write d (b.block mn mx)).read (d + 4 + j) = b.byte (mn + j) := by
  have stored := Memory.write_wf m d (b.block mn mx) wf
  refine ⟨?_, ?_, fun j hj => ?_⟩
  · have low := Memory.bytes_write_part wf d [] (leBytes 2 mn) (leBytes 2 mx ++ (List.range' mn (sliceSize mn mx)).map b.byte)
    rw [List.nil_append, ← List.append_assoc, ← Bitmap.block, leBytes_length] at low
    rw [← Memory.leNat_bytes_two stored]
    exact (congrArg leNat low).trans (leNat_leBytes 2 mn (by omega))
  · have high := Memory.bytes_write_part wf d (leBytes 2 mn) (leBytes 2 mx) ((List.range' mn (sliceSize mn mx)).map b.byte)
    rw [← Bitmap.block, leBytes_length, leBytes_length] at high
    rw [← Memory.leNat_bytes_two stored, high, leNat_leBytes 2 mx (by omega)]
  · rw [Nat.add_assoc, Memory.read_write_getD wf d (by rw [b.block_length]; omega), Bitmap.block,
      List.getD_append_right _ _ _ _ (by simp)]
    simp [List.getD, hj]

/-- Settles O10: the bounds are those of BITMAP, and the capacity decides whether the block is stored or nothing is. -/
theorem bitmapStoreResult : Obligations.BitmapStoreResult := by
  unfold Obligations.BitmapStoreResult
  intro s b mn mx d cap size wf hb bounds usable
  have reaches : reachesData .lutBitmapStore s :=
    reachesData_of_one rfl (by simp [tablesRequired, State.tableValid, hb]) usable rfl rfl
  have minMax := Bitmap.minMaxNonZero_eq bounds
  constructor
  · intro fits writes
    have stores : dmaWrite d (b.block mn mx) (s.clearValid .lutBitmapStore) =
        .ok () ((s.clearValid .lutBitmapStore).withMem (s.mem.write d (b.block mn mx))) :=
      dmaWrite_ok (by rw [b.block_length]; exact writes)
    obtain ⟨run, ends⟩ := exec_of_ok reaches
      (r := { len := BitVec.ofNat 32 (4 + size), minnz := BitVec.ofNat 16 mn, maxnz := BitVec.ofNat 16 mx }) (by
        refine (Run.bind_of_ok (x := getBitmap) (getBitmap_ok hb)).trans ?_
        rw [minMax]
        exact (congrFun (if_pos fits) _).trans (Run.bind_of_ok stores))
    obtain ⟨low, high, slice⟩ := b.block_write wf d bounds.lt.1 bounds.lt.2
    refine ⟨_, run, ends, low, high, slice, ?_, exec_tablesKept rfl run⟩
    exact b.block_length mn mx ▸ Memory.write_keptOutside s.mem d (b.block mn mx) wf
  · intro tooLarge
    obtain ⟨run, ends⟩ := exec_of_raise reaches (e := ⟨.dstOverflow, true⟩) (s' := s.clearValid .lutBitmapStore) (by
      refine (Run.bind_of_ok (x := getBitmap) (getBitmap_ok hb)).trans ?_
      rw [minMax]
      exact congrFun (if_neg (Nat.not_le.2 tooLarge)) _) (by decide)
    exact ⟨_, run, ends, rfl, exec_tablesKept rfl run⟩

/-! ### LUT_BUILD_FORWARD and LUT_BUILD_REVERSE -/

/-- A build command has no region, so a valid BITMAP brings it to its data phase. -/
theorem build_reachesData {i : Instr} {s : State} {b : Bitmap} (hi : i = .lutBuildForward ∨ i = .lutBuildReverse)
    (hb : s.bitmap = some b) : reachesData i s := by
  rcases hi with rfl | rfl <;>
    exact reachesData_of_usable (by simp [tablesRequired, State.tableValid, hb]) (by simp [regions]) rfl rfl rfl

/-- Settles O11: the two data phases store the two LUTs, whose entries are the ranks and the values. -/
theorem lutBuildResults : Obligations.LutBuildResults := by
  unfold Obligations.LutBuildResults
  intro s b hb
  rw [← b.maxValue_eq]
  constructor
  · obtain ⟨run, ends⟩ := exec_of_ok (build_reachesData (.inl rfl) hb)
      (Run.bind_of_ok (x := getBitmap) (s := s.clearValid .lutBuildForward) (getBitmap_ok hb))
    refine ⟨_, b.forwardLut, run, ends, rfl, rfl, fun v hv => ?_, exec_bitmap (by decide) run,
      exec_codes (by decide) run, rfl⟩
    split
    · rename_i occurs
      exact Bitmap.forwardLut_entry_toNat hv occurs
    · rename_i absent
      rw [Bitmap.forwardLut_entry_of_not_occurs absent]
      rfl
  · obtain ⟨run, ends⟩ := exec_of_ok (build_reachesData (.inr rfl) hb)
      (Run.bind_of_ok (x := getBitmap) (s := s.clearValid .lutBuildReverse) (getBitmap_ok hb))
    exact ⟨_, b.reverseLut, run, ends, rfl, rfl, fun v hv occurs => Bitmap.reverseLut_entry_rank hv occurs,
      fun k _ past => Bitmap.reverseLut_entry_of_not_rank (.inr past), exec_bitmap (by decide) run,
      exec_codes (by decide) run, rfl⟩

/-! ### LUT_APPLY -/

/-- Settles O13: the buffer is read, mapped through the LUT and written back in place. -/
theorem lutApplyResult : Obligations.LutApplyResult := by
  unfold Obligations.LutApplyResult
  intro s f a n wf hf usable reads writes
  have reaches : reachesData .lutApply s :=
    reachesData_of_one rfl (by simp [tablesRequired, State.tableValid, hf]) usable rfl rfl
  obtain ⟨run, ends⟩ := exec_of_ok reaches ((Run.bind_of_ok (x := getLut) (getLut_ok hf)).trans
    (Run.bind_of_ok (applyLut_ok (s := s.clearValid .lutApply) f reads writes)))
  exact ⟨_, run, ends, fun k hk => applyLut_sample wf f hk, exec_keptOutside wf rfl run, exec_tablesKept rfl run⟩

/-! ### LUT_DUMP -/

theorem Lut.entries_getD {f : Lut} (wf : Lut.wf f = true) {v : Nat} (hv : v < 65536) : f.entries.getD v 0 = f.entry v := by
  have rise : keysRise f = true := (Bool.and_eq_true_iff.1 wf).1
  rw [Lut.entries, sparseRun_eq_map _ _ _ _ rise fun _ _ => Nat.zero_le _]
  simp [List.getD, hv, Lut.entry]

/-- Settles O14: the entries are written in order, two bytes each. -/
theorem lutDumpResult : Obligations.LutDumpResult := by
  unfold Obligations.LutDumpResult
  intro s f d cap wf hf strict usable fits writes
  have reaches : reachesData .lutDump s :=
    reachesData_of_one rfl (by simp [tablesRequired, State.tableValid, hf]) usable rfl
      (decide_eq_false (Nat.not_lt.2 fits))
  have size : (bytesOfSamples f.entries).length = 131072 := by rw [bytesOfSamples_length, f.entries_length]
  have dumps : dmaWrite d (bytesOfSamples f.entries) (s.clearValid .lutDump) =
      .ok () ((s.clearValid .lutDump).withMem (s.mem.write d (bytesOfSamples f.entries))) :=
    dmaWrite_ok (by rw [size]; exact writes)
  obtain ⟨run, ends⟩ := exec_of_ok reaches ((Run.bind_of_ok (x := getLut) (getLut_ok hf)).trans (Run.bind_of_ok dumps))
  refine ⟨_, run, ends, fun v hv => ?_, ?_, exec_tablesKept rfl run⟩
  · exact (Memory.sample_write _ _ _ _ wf (by rw [f.entries_length]; exact hv)).trans (Lut.entries_getD strict hv)
  · exact size ▸ Memory.write_keptOutside s.mem d (bytesOfSamples f.entries) wf

end Sys2Proof.Machine
end

section
/-! SUPPORT. Bit strings and the bytes that store them (00_scope.md R15), and a code table symbol by symbol (10_state.md
R62). -/

namespace Sys2Proof.Machine

/-! ### Bit strings -/

@[simp] theorem bits_length (v n : Nat) : (bits v n).length = n := by
  induction n with
  | zero => rfl
  | succ n ih => rw [bits, List.length_cons, ih]

/-- The spelling of a number is that of its high bits and then that of its low bits. -/
theorem bits_append (v w n m : Nat) (hw : w < 2 ^ m) : bits (2 ^ m * v + w) (n + m) = bits v n ++ bits w m := by
  have low : ∀ k ≤ m, bits (2 ^ m * v + w) k = bits w k := by
    intro k hk
    induction k with
    | zero => rfl
    | succ k ih => rw [bits, bits, ih (by omega), Nat.testBit_two_pow_mul_add _ hw, if_pos (by omega)]
  induction n with
  | zero => rw [Nat.zero_add, low m le_rfl]; rfl
  | succ n ih =>
    rw [Nat.add_right_comm, bits, ih, bits, Nat.testBit_two_pow_mul_add _ hw, if_neg (by omega), Nat.add_sub_cancel]
    rfl

theorem bits_zero (n : Nat) : bits 0 n = List.replicate n false := by
  induction n with
  | zero => rfl
  | succ n ih => rw [bits, ih, Nat.zero_testBit]; rfl

/-- One bit more, at the low end. -/
theorem bits_snoc (v n : Nat) (b : Bool) : bits (2 * v + b.toNat) (n + 1) = bits v n ++ [b] :=
  (bits_append v b.toNat n 1 b.toNat_lt).trans (by cases b <;> rfl)

theorem natOfBits_append_singleton (s : Bits) (b : Bool) : natOfBits (s ++ [b]) = 2 * natOfBits s + b.toNat :=
  List.foldl_append ..

/-- A number that fits is read back from its spelling (00_scope.md R15). -/
theorem natOfBits_bits {v n : Nat} (h : v < 2 ^ n) : natOfBits (bits v n) = v := by
  induction n generalizing v with
  | zero => rw [Nat.lt_one_iff.1 h]; rfl
  | succ n ih =>
    have last : v = 2 * (v / 2) + (decide (v % 2 = 1)).toNat := by
      rcases Nat.mod_two_eq_zero_or_one v with h | h <;> simp [h] <;> omega
    rw [last, bits_snoc, natOfBits_append_singleton, ih (by rw [pow_succ] at h; omega)]

/-! ### Bytes of bit strings -/

@[simp] theorem bitsOfBytes_length (bs : List Byte) : (bitsOfBytes bs).length = 8 * bs.length := by
  induction bs with
  | nil => rfl
  | cons b rest ih =>
    rw [bitsOfBytes, List.flatMap_cons, List.length_append, ← bitsOfBytes, ih, bitsOfByte, bits_length, List.length_cons]
    omega

theorem bitsOfBytes_append (bs cs : List Byte) : bitsOfBytes (bs ++ cs) = bitsOfBytes bs ++ bitsOfBytes cs :=
  List.flatMap_append

theorem bitsOfBytes_cons (b : Byte) (rest : List Byte) : bitsOfBytes (b :: rest) = bitsOfByte b ++ bitsOfBytes rest :=
  List.flatMap_cons

theorem bitsOfByte_ofNat {v : Nat} (h : v < 2 ^ 8) : bitsOfByte (BitVec.ofNat 8 v) = bits v 8 := by
  rw [bitsOfByte, BitVec.toNat_ofNat, Nat.mod_eq_of_lt h]

/-- Bit `p` of a byte is bit `7 - p` of its value, most significant first (00_scope.md R15). -/
theorem bitsOfByte_getD (b : Byte) {p : Nat} (h : p < 8) : (bitsOfByte b).getD p false = b.getLsbD (7 - p) := by
  have spelled : ∀ n v p, p < n → (bits v n).getD p false = v.testBit (n - 1 - p) := by
    intro n
    induction n with
    | zero => intro v p h; omega
    | succ n ih =>
      intro v p h
      cases p with
      | zero => rfl
      | succ p => rw [bits, List.getD_cons_succ, ih v p (by omega)]; congr 1; omega
  exact spelled 8 b.toNat p h

/-- Bit `p` of stored bytes lies in byte `p / 8` (00_scope.md R15). -/
theorem bitsOfBytes_getD (bs : List Byte) (p : Nat) :
    (bitsOfBytes bs).getD p false = (bs.getD (p / 8) 0).getLsbD (7 - p % 8) := by
  induction bs generalizing p with
  | nil => simp [bitsOfBytes]
  | cons b rest ih =>
    have length : (bitsOfByte b).length = 8 := bits_length ..
    rw [bitsOfBytes_cons]
    rcases Nat.lt_or_ge p 8 with first | later
    · rw [List.getD_append _ _ _ _ (by omega), bitsOfByte_getD b first, Nat.div_eq_of_lt first, Nat.mod_eq_of_lt first]
      rfl
    · obtain ⟨k, rfl⟩ : ∃ k, p = k + 8 := ⟨p - 8, by omega⟩
      rw [List.getD_append_right _ _ _ _ (by omega), length, Nat.add_sub_cancel, ih, Nat.add_div_right _ (by decide),
        Nat.add_mod_right, List.getD_cons_succ]

/-- What `bytes_of` still stores: the bits already read of the current byte, the bits to come and zeros up to a whole byte
(00_scope.md R15). -/
theorem bitsOfBytes_bytesOfBitsFrom (s : Bits) {k acc : Nat} (hk : k < 8) (hacc : acc < 2 ^ k) :
    bitsOfBytes (bytesOfBitsFrom s k acc) =
      bits acc k ++ s ++ List.replicate (8 * byteCount (k + s.length) - (k + s.length)) false := by
  induction s generalizing k acc with
  | nil =>
    rw [bytesOfBitsFrom]
    split
    · rename_i zero
      subst zero
      rfl
    · rename_i pos
      have split : 2 ^ 8 = 2 ^ (8 - k) * 2 ^ k := by rw [← pow_add]; congr 1; omega
      have value : 2 ^ (8 - k) * acc + 0 < 2 ^ 8 := split ▸ (Nat.mul_lt_mul_left (by positivity)).2 hacc
      have byte : bits (2 ^ (8 - k) * acc + 0) (k + (8 - k)) = _ := bits_append acc 0 k (8 - k) (by positivity)
      rw [Nat.add_sub_cancel' hk.le, bits_zero] at byte
      rw [bitsOfBytes_cons, Nat.mul_comm, ← Nat.add_zero (_ * acc), bitsOfByte_ofNat value, byte, List.length_nil, byteCount,
        show 8 * ((k + 0 + 7) / 8) - (k + 0) = 8 - k by omega, List.append_nil]
      exact List.append_nil _
  | cons b rest ih =>
    have value : 2 * acc + b.toNat < 2 ^ (k + 1) := by rw [pow_succ]; have := b.toNat_lt; omega
    rw [bytesOfBitsFrom]
    split
    · rename_i full
      subst full
      rw [bitsOfBytes_cons, bitsOfByte_ofNat value, ih (by omega) (by simp), bits_snoc, List.length_cons, byteCount,
        byteCount, show 8 * ((7 + (rest.length + 1) + 7) / 8) - (7 + (rest.length + 1)) =
          8 * ((0 + rest.length + 7) / 8) - (0 + rest.length) by omega]
      simp [bits]
    · rw [ih (by omega) value, bits_snoc, List.length_cons, show k + 1 + rest.length = k + (rest.length + 1) by omega,
        List.append_assoc (bits acc k)]
      rfl

/-- The bytes of a bit string store it and then zeros up to a whole byte (00_scope.md R15). -/
theorem bitsOfBytes_bytesOfBits (s : Bits) :
    bitsOfBytes (bytesOfBits s) = s ++ List.replicate (8 * byteCount s.length - s.length) false := by
  rw [bytesOfBits, bitsOfBytes_bytesOfBitsFrom s (by omega) (by simp), Nat.zero_add]
  rfl

theorem bitsOfBytes_bytesOfBits_getD (s : Bits) (p : Nat) : (bitsOfBytes (bytesOfBits s)).getD p false = s.getD p false := by
  rw [bitsOfBytes_bytesOfBits]
  rcases Nat.lt_or_ge p s.length with h | h
  · exact List.getD_append _ _ _ _ h
  · rw [List.getD_append_right _ _ _ _ h, List.getD_eq_default s _ h]
    simp only [List.getD, List.getElem?_replicate]
    split <;> rfl

/-! ### A code table symbol by symbol -/

theorem CodeTable.hlen_cons (e : CodeEntry) (t : CodeTable) (k : Nat) :
    CodeTable.hlen (e :: t) k = if e.sym = k then e.len.toNat else CodeTable.hlen t k := by
  by_cases h : e.sym = k
  · rw [CodeTable.hlen, List.find?_cons_of_pos (p := fun c : CodeEntry => c.sym == k) (beq_iff_eq.2 h), if_pos h]
  · rw [CodeTable.hlen, List.find?_cons_of_neg (p := fun c : CodeEntry => c.sym == k) (mt beq_iff_eq.1 h), if_neg h,
      CodeTable.hlen]

theorem CodeTable.hcode_cons (e : CodeEntry) (t : CodeTable) (k : Nat) :
    CodeTable.hcode (e :: t) k = if e.sym = k then e.code.toNat else CodeTable.hcode t k := by
  by_cases h : e.sym = k
  · rw [CodeTable.hcode, List.find?_cons_of_pos (p := fun c : CodeEntry => c.sym == k) (beq_iff_eq.2 h), if_pos h]
  · rw [CodeTable.hcode, List.find?_cons_of_neg (p := fun c : CodeEntry => c.sym == k) (mt beq_iff_eq.1 h), if_neg h,
      CodeTable.hcode]

/-- The length of a symbol is read off the list of lengths. -/
theorem CodeTable.hlen_eq_sparseGet (t : CodeTable) (k : Nat) :
    t.hlen k = sparseGet 0 (t.map fun e => (e.sym, e.len.toNat)) k := by
  induction t with
  | nil => rfl
  | cons e rest ih => rw [CodeTable.hlen_cons, ih, List.map_cons, sparseGet_cons]

/-- A symbol that the table does not list has length and code 0 (10_state.md R62). -/
theorem CodeTable.hlen_hcode_of_absent {t : CodeTable} {k : Nat} (h : ∀ e ∈ t, e.sym ≠ k) :
    t.hlen k = 0 ∧ t.hcode k = 0 := by
  induction t with
  | nil => exact ⟨rfl, rfl⟩
  | cons e rest ih =>
    have absent := h e List.mem_cons_self
    rw [CodeTable.hlen_cons, CodeTable.hcode_cons, if_neg absent, if_neg absent]
    exact ih fun e he => h e (List.mem_cons_of_mem _ he)

end Sys2Proof.Machine
end

section
/-! SUPPORT and the proof of O31: the dump of a code table, entry by entry (41_huffman_encode.md R264). -/

namespace Sys2Proof.Machine

theorem CodeEntry.dumpWord_toNat (e : CodeEntry) : e.dumpWord.toNat = e.code.toNat * 2 ^ 6 + e.len.toNat := by
  rw [CodeEntry.dumpWord, BitVec.toNat_append, ← Nat.shiftLeft_add_eq_or_of_lt e.len.isLt, Nat.shiftLeft_eq]

/-- The dump word of a symbol is its code above its length. -/
theorem CodeTable.dumpWord_toNat (t : CodeTable) (k : Nat) :
    (sparseGet 0#64 (t.map fun e => (e.sym, e.dumpWord)) k).toNat = t.hcode k * 2 ^ 6 + t.hlen k := by
  induction t with
  | nil => rfl
  | cons e rest ih =>
    rw [List.map_cons, sparseGet_cons, CodeTable.hlen_cons, CodeTable.hcode_cons]
    split
    · exact e.dumpWord_toNat
    · exact ih

theorem CodeTable.held_keysRise {α : Type} {t : CodeTable} (held : CodeTable.held t = true) (f : CodeEntry → α) :
    keysRise (t.map fun e => (e.sym, f e)) = true := by
  rw [CodeTable.held, Bool.and_eq_true, keysRise_iff_pairwise, List.pairwise_map] at held
  rw [keysRise_iff_pairwise, List.pairwise_map]
  exact held.1

/-- The words of a stored sequence of words of `w` bytes are read back, whatever follows them. -/
theorem Memory.bytes_write_word {α : Type} {m : Memory} (wf : m.wf = true) (d w : Nat) (f : α → Nat) (ws : List α)
    (post : List Byte) {k : Nat} (hk : k < ws.length) :
    (m.write d ((ws.flatMap fun x => leBytes w (f x)) ++ post)).bytes (d + w * k) w = leBytes w (f ws[k]) := by
  have part := Memory.bytes_write_part wf d ((ws.take k).flatMap fun x => leBytes w (f x)) (leBytes w (f ws[k]))
    (((ws.drop (k + 1)).flatMap fun x => leBytes w (f x)) ++ post)
  have length : ((ws.take k).flatMap fun x => leBytes w (f x)).length = w * k := by
    simp [List.length_flatMap, Nat.min_eq_left hk.le, Nat.mul_comm]
  have whole : ws = ws.take k ++ ws[k] :: ws.drop (k + 1) := by simp
  rw [length, leBytes_length, List.append_assoc, ← List.append_assoc (leBytes w (f ws[k])),
    ← List.flatMap_cons (f := fun x => leBytes w (f x)), ← List.append_assoc, ← List.flatMap_append, ← whole] at part
  exact part

/-- Eight bytes are two words (00_scope.md R13). -/
theorem Memory.leNat_bytes_eight {m : Memory} (wf : m.wf = true) (a : Nat) :
    leNat (m.bytes a 8) = m.word a + 2 ^ 32 * m.word (a + 4) := by
  rw [Memory.bytes_eq _ _ _ wf, Memory.word, Memory.word]
  simp only [List.range'_succ, List.range'_zero, List.map_cons, List.map_nil, leNat, Nat.add_assoc, Nat.reduceAdd]
  omega

/-- The entry of a symbol in the dump (41_huffman_encode.md R264). -/
theorem CodeTable.dump_entry {m : Memory} (wf : m.wf = true) {t : CodeTable} (held : CodeTable.held t = true) (d : Nat)
    {k : Nat} (hk : k < 65537) :
    (m.write d t.dump).word (d + 8 * k) + 2 ^ 32 * (m.write d t.dump).word (d + 8 * k + 4) =
      t.hcode k * 2 ^ 6 + t.hlen k := by
  have words := Memory.bytes_write_word wf d 8 BitVec.toNat (sparseRun 0#64 (t.map fun e => (e.sym, e.dumpWord)) 0
    Config.hufEncSize) [] (k := k) (by rw [sparseRun_length]; exact hk)
  rw [List.append_nil, ← CodeTable.dump] at words
  rw [← Memory.leNat_bytes_eight (Memory.write_wf _ _ _ wf), words, leNat_leBytes _ _ (BitVec.isLt _)]
  simp only [sparseRun_eq_map 0#64 _ 0 _ (CodeTable.held_keysRise held _) fun _ _ => Nat.zero_le _, List.getElem_map,
    List.getElem_range', Nat.zero_add, Nat.one_mul]
  exact t.dumpWord_toNat k

/-- Settles O31: the dump is written in one piece, eight bytes for each symbol. -/
theorem hufDumpCodesResult : Obligations.HufDumpCodesResult := by
  unfold Obligations.HufDumpCodesResult
  intro s c d cap wf hc held usable fits writes
  have reaches : reachesData .hufDumpCodes s :=
    reachesData_of_one rfl (by simp [tablesRequired, State.tableValid, hc]) usable rfl
      (decide_eq_false (Nat.not_lt.2 fits))
  have dumps : dmaWrite d c.dump (s.clearValid .hufDumpCodes) =
      .ok () ((s.clearValid .hufDumpCodes).withMem (s.mem.write d c.dump)) :=
    dmaWrite_ok (by rw [c.dump_length]; exact writes)
  obtain ⟨run, ends⟩ := exec_of_ok reaches
    ((Run.bind_of_ok (x := getCodes) (getCodes_ok hc)).trans (Run.bind_of_ok dumps))
  refine ⟨_, run, ends, fun k hk => CodeTable.dump_entry wf held d hk, ?_, exec_tablesKept rfl run⟩
  exact c.dump_length ▸ Memory.write_keptOutside s.mem d c.dump wf

end Sys2Proof.Machine
end

section
/-! SUPPORT and the proof of O22: the packed table and the coded stream, turn by turn (41_huffman_encode.md R257 to R259). -/

namespace Sys2Proof.Machine

/-! ### Code tables in the strict form -/

theorem CodeTable.wf_cons {e : CodeEntry} {t : CodeTable} :
    CodeTable.wf (e :: t) = true ↔
      (∀ c ∈ t, e.sym < c.sym) ∧ (e.sym < 65537 ∧ 0 < e.len.toNat ∧ e.len.toNat ≤ 58) ∧ CodeTable.wf t = true := by
  simp only [CodeTable.wf_iff, CodeTable.lengths, List.map_cons, List.pairwise_cons, List.forall_mem_cons,
    List.forall_mem_map]
  tauto

theorem CodeTable.hlen_of_mem {t : CodeTable} (wf : CodeTable.wf t = true) {e : CodeEntry} (he : e ∈ t) :
    t.hlen e.sym = e.len.toNat := by
  induction t with
  | nil => simp at he
  | cons c rest ih =>
    obtain ⟨above, -, wf⟩ := CodeTable.wf_cons.1 wf
    rw [CodeTable.hlen_cons]
    rcases List.mem_cons.1 he with rfl | he
    · rw [if_pos rfl]
    · rw [if_neg (above e he).ne, ih wf he]

/-- The symbols with a code are those that the table lists. -/
theorem CodeTable.hlen_ne_zero_iff {t : CodeTable} (wf : CodeTable.wf t = true) (k : Nat) :
    t.hlen k ≠ 0 ↔ ∃ e ∈ t, e.sym = k := by
  constructor
  · intro h
    by_contra absent
    exact h (CodeTable.hlen_hcode_of_absent fun e he hk => absent ⟨e, he, hk⟩).1
  · rintro ⟨e, he, rfl⟩
    have pos := ((CodeTable.wf_iff t).1 wf).2 _ (List.mem_map_of_mem he)
    rw [CodeTable.hlen_of_mem wf he]
    exact pos.2.1.ne'

/-! ### PackTable -/

/-- The next symbol with a code, or the end of the table. -/
def CodeTable.nextCoded (iM : Nat) : CodeTable → Nat
  | [] => iM + 1
  | e :: _ => e.sym

@[simp] theorem packZeroRun_zero : packZeroRun 0 = [] := rfl

/-- A run of symbols without a code loses 261 of them as long as it can, then the rest (41_huffman_encode.md R257). -/
theorem packZeroRun_step {z n : Nat} (pos : 1 ≤ z) (max : z ≤ 261) (hn : z ≤ n) (whole : z = 261 ∨ z = n) :
    packZeroRun n = packZeros z ++ packZeroRun (n - z) := by
  have ends : packZeros 0 = [] := rfl
  by_cases full : z = 261
  · subst full
    rw [packZeroRun, packZeroRun, show n / 261 = (n - 261) / 261 + 1 by omega, show n % 261 = (n - 261) % 261 by omega,
      List.replicate_succ, List.flatten_cons, List.append_assoc]
  · obtain rfl := whole.resolve_left full
    rw [Nat.sub_self, packZeroRun_zero, packZeroRun, Nat.div_eq_of_lt (show z < 261 by omega),
      Nat.mod_eq_of_lt (show z < 261 by omega)]
    simp

theorem packFrom_eq_run (iM i : Nat) (t : CodeTable) :
    packFrom iM i t = packZeroRun (t.nextCoded iM - i) ++ packFrom iM (t.nextCoded iM) t := by
  cases t <;> simp [packFrom, CodeTable.nextCoded]

theorem packFrom_zeros {iM i z : Nat} {t : CodeTable} (pos : 1 ≤ z) (max : z ≤ 261) (run : i + z ≤ t.nextCoded iM)
    (whole : z = 261 ∨ i + z = t.nextCoded iM) : packFrom iM i t = packZeros z ++ packFrom iM (i + z) t := by
  rw [packFrom_eq_run, packFrom_eq_run iM (i + z), packZeroRun_step pos max (by omega) (by omega), Nat.sub_sub,
    List.append_assoc]

/-- The next symbol with a code lies past a run of symbols without one. -/
theorem CodeTable.le_nextCoded {iM i z : Nat} {t : CodeTable} (wf : CodeTable.wf t = true) (low : ∀ c ∈ t, i ≤ c.sym)
    (hz : i + z ≤ iM + 1) (run : ∀ k < z, t.hlen (i + k) = 0) : i + z ≤ t.nextCoded iM := by
  cases t with
  | nil => exact hz
  | cons e rest =>
    by_contra short
    have coded := (CodeTable.hlen_ne_zero_iff wf e.sym).2 ⟨e, List.mem_cons_self, rfl⟩
    simp only [CodeTable.nextCoded] at short
    have := low e List.mem_cons_self
    have zero := run (e.sym - i) (by omega)
    rw [Nat.add_sub_cancel' this] at zero
    exact coded zero

/-- A symbol with a code, and none below it, is the next one with a code. -/
theorem CodeTable.head_of_coded {i : Nat} {t : CodeTable} (wf : CodeTable.wf t = true) (low : ∀ c ∈ t, i ≤ c.sym)
    (coded : t.hlen i ≠ 0) : ∃ e rest, t = e :: rest ∧ e.sym = i := by
  obtain ⟨e, he, rfl⟩ := (CodeTable.hlen_ne_zero_iff wf i).1 coded
  cases t with
  | nil => simp at he
  | cons c rest =>
    refine ⟨c, rest, rfl, ?_⟩
    rcases List.mem_cons.1 he with rfl | later
    · rfl
    · have := (CodeTable.wf_cons.1 wf).1 e later
      have := low c List.mem_cons_self
      omega

/-- The marker of a run of symbols without a code (41_huffman_encode.md R257). -/
theorem packZeros_eq {z : Nat} (pos : 1 ≤ z) :
    packZeros z = if 6 ≤ z then bits 63 6 ++ bits (z - 6) 8 else if 2 ≤ z then bits (57 + z) 6 else bits 0 6 := by
  rw [packZeros]
  split
  · rfl
  · split
    · rw [show Config.shortZerocodeRun + z - 2 = 57 + z by simp only [Config.shortZerocodeRun]; omega]
    · rw [if_pos (by omega)]

/-! ### EncodeBits -/

/-- A run of equal samples counts up to 255 repeats (41_huffman_encode.md R258). -/
theorem encodeFrom_replicate (t : CodeTable) (rlc : Nat) (s : Sample) (rest : List Sample) {cs n : Nat}
    (h : cs + n ≤ 255) : encodeFrom t rlc s cs (List.replicate n s ++ rest) = encodeFrom t rlc s (cs + n) rest := by
  induction n generalizing cs with
  | zero => rfl
  | succ n ih =>
    have room : s = s ∧ cs < Config.maxRunCount := ⟨rfl, by simp only [Config.maxRunCount]; omega⟩
    rw [List.replicate_succ, List.cons_append, encodeFrom, if_pos room, ih (by omega), Nat.add_right_comm, Nat.add_assoc]

/-- A run ends where it is full or another sample follows. -/
theorem encodeFrom_ends (t : CodeTable) (rlc : Nat) (s : Sample) {cs : Nat} {rest : List Sample}
    (h : cs = 255 ∨ rest.head? ≠ some s) :
    encodeFrom t rlc s cs rest = sendCode t rlc s cs ++ encodeBits t rlc rest := by
  cases rest with
  | nil => exact (List.append_nil _).symm
  | cons v rest =>
    have ends : ¬ (v = s ∧ cs < Config.maxRunCount) := by
      rintro ⟨rfl, room⟩
      rcases h with rfl | other
      · exact absurd room (by decide)
      · exact other rfl
    rw [encodeFrom, if_neg ends, encodeBits]

/-- Settles O22: the next symbol with a code says where a run without one ends; a run of samples is counted to its end. -/
theorem packTableAndEncodeBitsTurns : Obligations.PackTableAndEncodeBitsTurns := by
  unfold Obligations.PackTableAndEncodeBitsTurns
  constructor
  · intro t im iM wf bounds
    have low : ∀ c ∈ t, im ≤ c.sym := fun c hc => (bounds c hc).1
    refine ⟨fun empty => ?_, fun coded => ?_, fun z pos max room run ends => ?_⟩
    · cases t with
      | nil => rw [packTable, packFrom, Nat.sub_eq_zero_of_le empty, packZeroRun_zero]
      | cons e rest =>
        have := bounds e List.mem_cons_self
        omega
    · obtain ⟨e, rest, rfl, rfl⟩ := CodeTable.head_of_coded wf low coded
      obtain ⟨above, -, -⟩ := CodeTable.wf_cons.1 wf
      have later : (e :: rest).filter (fun c => e.sym < c.sym) = rest := by
        rw [List.filter_cons_of_neg (by simp), List.filter_eq_self.2 fun c hc => decide_eq_true (above c hc)]
      rw [later, CodeTable.hlen_cons, if_pos rfl, packTable, packFrom, Nat.sub_self, packZeroRun_zero, List.nil_append]
      rfl
    · have past := CodeTable.le_nextCoded wf low room run
      rw [packTable, packFrom_zeros pos max past, packZeros_eq pos]
      · rfl
      · refine ends.imp_right fun stop => le_antisymm past ?_
        cases t with
        | nil => exact stop.elim Eq.ge fun coded => absurd rfl coded
        | cons e rest =>
          rcases stop with last | coded
          · exact last ▸ (bounds e List.mem_cons_self).2.trans (Nat.le_succ _)
          · have first : ∀ c ∈ e :: rest, im + z ≤ c.sym := fun c hc => by
              rcases List.mem_cons.1 hc with rfl | hc
              · exact past
              · exact past.trans ((CodeTable.wf_cons.1 wf).1 c hc).le
            obtain ⟨c, tail, same, hc⟩ := CodeTable.head_of_coded wf first coded
            cases same
            exact hc.le
  · intro t rlc s cs rest ls lr
    refine ⟨rfl, fun max ends => ?_⟩
    rw [List.replicate_succ, List.cons_append, encodeBits, encodeFrom_replicate _ _ _ _ (by omega), Nat.zero_add,
      encodeFrom_ends _ _ _ ends]
    rfl

end Sys2Proof.Machine
end

section
/-! SUPPORT and the proof of O25: the reader of the packed table gives back what PackTable packed (41_huffman_encode.md R257,
42_huffman_decode.md R302, R303). -/

namespace Sys2Proof.Machine

/-! ### The reader -/

/-- The reader has taken `p` bits, the bits to come are `s`, and it has fetched no byte that it did not need
(42_huffman_decode.md R302). -/
structure TableReader.Holds (r : TableReader) (s : Bits) (p : Nat) : Prop where
  unread : r.buffered ++ bitsOfBytes r.rest = s
  taken : p + r.buffered.length = 8 * r.fetched
  needed : r.buffered.length < 8

theorem TableReader.Holds.fetched_eq {r : TableReader} {s : Bits} {p : Nat} (h : r.Holds s p) :
    r.fetched = byteCount p := by
  have := h.taken
  have := h.needed
  rw [byteCount]
  omega

/-- The number and the rest that bits at the front of a buffer give. -/
theorem take_drop_of_bits {buf later s : Bits} {v k : Nat} (hv : v < 2 ^ k) (hk : k ≤ buf.length)
    (h : buf ++ later = bits v k ++ s) : natOfBits (buf.take k) = v ∧ buf.drop k ++ later = s := by
  have front : buf.take k = bits v k := by
    have := congrArg (List.take k) h
    rwa [List.take_append_of_le_length hk, List.take_left' (bits_length v k)] at this
  have back : buf.drop k ++ later = s := by
    have := congrArg (List.drop k) h
    rwa [List.drop_append_of_le_length hk, List.drop_left' (bits_length v k)] at this
  exact ⟨front ▸ natOfBits_bits hv, back⟩

/-- A field of up to eight bits is read (42_huffman_decode.md R302). -/
theorem TableReader.Holds.get {r : TableReader} {s : Bits} {p v k : Nat} (h : r.Holds (bits v k ++ s) p) (hk : k ≤ 8)
    (hv : v < 2 ^ k) : ∃ r', r.get (fun _ => false) k = .ok (v, r') ∧ r'.Holds s (p + k) := by
  obtain ⟨unread, taken, needed⟩ := h
  rw [TableReader.get]
  by_cases buffered : k ≤ r.buffered.length
  · obtain ⟨value, rest⟩ := take_drop_of_bits hv buffered unread
    rw [if_pos buffered, value]
    refine ⟨_, rfl, rest, ?_, ?_⟩ <;> simp only [List.length_drop] <;> omega
  · rw [if_neg buffered]
    cases hr : r.rest with
    | nil =>
      have length := congrArg List.length unread
      simp only [hr, List.length_append, bitsOfBytes_length, bits_length, List.length_nil] at length
      omega
    | cons b rest =>
      have length : (r.buffered ++ bitsOfByte b).length = r.buffered.length + 8 := by
        rw [List.length_append, bitsOfByte, bits_length]
      rw [hr, bitsOfBytes_cons, ← List.append_assoc] at unread
      obtain ⟨value, later⟩ := take_drop_of_bits hv (by omega) unread
      simp only [Bool.false_eq_true, if_false, value]
      refine ⟨_, rfl, later, ?_, ?_⟩ <;> simp only [List.length_drop, length] <;> omega

/-! ### The loop -/

section
variable {iM i fuel p : Nat} {r : TableReader} {s : Bits}

/-- A symbol's length is read back (42_huffman_decode.md R303). -/
theorem unpackFrom_length {l q : Nat} {lens : List (Nat × Nat)} (h : r.Holds (bits l 6 ++ s) p) (pos : 0 < l) (max : l ≤ 58)
    (hi : i ≤ iM)
    (next : ∀ r' : TableReader, r'.Holds s (p + 6) → unpackFrom (fun _ => false) iM fuel (i + 1) r' = .ok (lens, q)) :
    unpackFrom (fun _ => false) iM (fuel + 1) i r = .ok ((i, l) :: lens, q) := by
  obtain ⟨r', hr, h'⟩ := h.get (by omega) (show l < 2 ^ 6 by omega)
  rw [unpackFrom, if_neg (by omega), hr]
  simp only [next r' h', if_neg (show l ≠ Config.longZerocodeRun by simp only [Config.longZerocodeRun]; omega),
    if_neg (show ¬ Config.shortZerocodeRun ≤ l by simp only [Config.shortZerocodeRun]; omega), if_neg pos.ne']

/-- The marker of a run of symbols without a code moves the loop past the run (42_huffman_decode.md R303). -/
theorem unpackFrom_zeros {z : Nat} {x : List (Nat × Nat) × Nat} (h : r.Holds (packZeros z ++ s) p) (pos : 1 ≤ z)
    (max : z ≤ 261) (hz : i + z ≤ iM + 1)
    (next : ∀ r' : TableReader, r'.Holds s (p + (packZeros z).length) →
      unpackFrom (fun _ => false) iM fuel (i + z) r' = .ok x) :
    unpackFrom (fun _ => false) iM (fuel + 1) i r = .ok x := by
  rw [packZeros_eq pos] at h next
  rw [unpackFrom, if_neg (by omega)]
  by_cases long : 6 ≤ z
  · rw [if_pos long] at h next
    rw [List.append_assoc] at h
    obtain ⟨r', hr, h'⟩ := h.get (by omega) (by decide)
    obtain ⟨r'', hr', h''⟩ := h'.get (by omega) (show z - 6 < 2 ^ 8 by omega)
    have run : z - 6 + Config.shortestLongRun = z := Nat.sub_add_cancel long
    simp only [hr, hr', Config.longZerocodeRun, if_true, run, if_pos hz]
    exact next r'' (by rwa [Nat.add_assoc] at h'')
  by_cases short : 2 ≤ z
  · rw [if_neg long, if_pos short] at h next
    obtain ⟨r', hr, h'⟩ := h.get (by omega) (show 57 + z < 2 ^ 6 by omega)
    have run : 57 + z - Config.shortZerocodeRun + 2 = z := by simp only [Config.shortZerocodeRun]; omega
    simp only [hr, if_neg (show 57 + z ≠ Config.longZerocodeRun by simp only [Config.longZerocodeRun]; omega),
      if_pos (show Config.shortZerocodeRun ≤ 57 + z by simp only [Config.shortZerocodeRun]; omega), run, if_pos hz]
    exact next r' h'
  · obtain rfl : z = 1 := by omega
    obtain ⟨r', hr, h'⟩ := h.get (by omega) (by decide)
    simp only [hr, next r' h', if_neg (show 0 ≠ Config.longZerocodeRun by decide),
      if_neg (show ¬ Config.shortZerocodeRun ≤ 0 by decide), if_true]

/-- A whole run of symbols without a code moves the loop past it; each turn takes up one symbol or more. -/
theorem unpackFrom_zeroRun {n : Nat} {x : List (Nat × Nat) × Nat} (h : r.Holds (packZeroRun n ++ s) p)
    (hn : i + n ≤ iM + 1) (hfuel : iM + 1 - i ≤ fuel)
    (next : ∀ (fuel : Nat) (r' : TableReader), iM + 1 - (i + n) ≤ fuel → r'.Holds s (p + (packZeroRun n).length) →
      unpackFrom (fun _ => false) iM fuel (i + n) r' = .ok x) :
    unpackFrom (fun _ => false) iM fuel i r = .ok x := by
  induction n using Nat.strong_induction_on generalizing i fuel p r with
  | h n ih =>
    obtain rfl | pos := n.eq_zero_or_pos
    · exact next fuel r hfuel h
    obtain ⟨fuel, rfl⟩ : ∃ f, fuel = f + 1 := ⟨fuel - 1, by omega⟩
    have step := packZeroRun_step (z := min n 261) (n := n) (by omega) (by omega) (by omega) (by omega)
    rw [step, List.append_assoc] at h
    refine unpackFrom_zeros h (by omega) (by omega) (by omega) fun r' h' => ?_
    refine ih (n - min n 261) (by omega) h' (by omega) (by omega) fun fuel r'' hfuel h'' => ?_
    rw [Nat.add_assoc, ← List.length_append, ← step] at h''
    have past : i + min n 261 + (n - min n 261) = i + n := by omega
    rw [past] at hfuel ⊢
    exact next fuel r'' hfuel h''

theorem unpackFrom_ends (r : TableReader) : unpackFrom (fun _ => false) iM fuel (iM + 1) r = .ok ([], r.fetched) := by
  cases fuel with
  | zero => rfl
  | succ fuel => rw [unpackFrom, if_pos (Nat.lt_succ_self iM)]

/-- Unpacking gives back the lengths that were packed from symbol `i` on (42_huffman_decode.md R303). -/
theorem unpackFrom_packFrom {t : CodeTable} (wf : CodeTable.wf t = true) (bounds : ∀ c ∈ t, i ≤ c.sym ∧ c.sym ≤ iM)
    (hi : i ≤ iM + 1) (hfuel : iM + 1 - i ≤ fuel) (h : r.Holds (packFrom iM i t ++ s) p) :
    unpackFrom (fun _ => false) iM fuel i r =
      .ok (t.map fun c => (c.sym, c.len.toNat), byteCount (p + (packFrom iM i t).length)) := by
  induction t generalizing i fuel p r with
  | nil =>
    refine unpackFrom_zeroRun h (by omega) hfuel fun fuel r' _ h' => ?_
    rw [Nat.add_sub_cancel' hi, unpackFrom_ends, h'.fetched_eq]
    rfl
  | cons e rest ih =>
    obtain ⟨above, ⟨-, pos, max⟩, wf⟩ := CodeTable.wf_cons.1 wf
    obtain ⟨low, high⟩ := bounds e List.mem_cons_self
    rw [packFrom, List.append_assoc, List.append_assoc] at h
    refine unpackFrom_zeroRun h (by omega) hfuel fun fuel r' hfuel h' => ?_
    rw [Nat.add_sub_cancel' low] at hfuel ⊢
    obtain ⟨fuel, rfl⟩ : ∃ f, fuel = f + 1 := ⟨fuel - 1, by omega⟩
    refine unpackFrom_length h' pos max high fun r'' h'' => ?_
    rw [ih wf (fun c hc => ⟨above c hc, (bounds c (List.mem_cons_of_mem _ hc)).2⟩) (by omega) (by omega) h'', packFrom,
      List.length_append, List.length_append, bits_length]
    simp only [Nat.add_assoc]

end

/-- Settles O25: the reader starts at the first bit of the packed table, and what follows the table does not matter. -/
theorem packedTableUnpacks : Obligations.PackedTableUnpacks := by
  unfold Obligations.PackedTableUnpacks
  intro t im iM tail wf hi _ bounds
  have start : TableReader.Holds ⟨[], bytesOfBits (packTable im iM t) ++ tail, 0⟩
      (packTable im iM t ++ (List.replicate (8 * byteCount (packTable im iM t).length - (packTable im iM t).length) false
        ++ bitsOfBytes tail)) 0 :=
    ⟨by rw [bitsOfBytes_append, bitsOfBytes_bytesOfBits, List.append_assoc]; rfl, rfl, by simp⟩
  rw [unpackTable, unpackFrom_packFrom wf bounds (by omega) le_rfl start, Nat.zero_add, packTable]

end Sys2Proof.Machine
end

section
/-! SUPPORT and the proof of O20: the block of an encoding in memory, and HUF_COMPRESS from its checks to its end
(41_huffman_encode.md R260 to R262). -/

namespace Sys2Proof.Machine

/-! ### Words and bit strings in memory -/

/-- A stored bit string is read back, with zeros up to a whole byte (00_scope.md R15). -/
theorem Memory.streamBit_write_part {m : Memory} (wf : m.wf = true) (d : Nat) (pre post : List Byte) (s : Bits) {p : Nat}
    (hp : p < 8 * byteCount s.length) :
    (m.write d (pre ++ bytesOfBits s ++ post)).streamBit (d + pre.length) p = s.getD p false := by
  have part := Memory.bytes_write_part wf d pre (bytesOfBits s) post
  rw [Memory.streamBit, ← Memory.bytes_getD (n := (bytesOfBits s).length) (Memory.write_wf _ _ _ wf)
    (by rw [bytesOfBits_length]; omega), part, ← bitsOfBytes_getD, bitsOfBytes_bytesOfBits_getD]

/-! ### The encoding -/

/-- What an encoding is made of (41_huffman_encode.md R251 to R259). -/
theorem encodeSamples_ok {xs : List Sample} {e : Encoded} (h : encodeSamples xs = .ok e) :
    ∃ lens, buildLengths (countFrequencies xs) = .ok lens ∧ e.im = leastSymbol (countFrequencies xs)
      ∧ e.iM = escapeSymbol (countFrequencies xs) ∧ e.codes = canonicalCodes lens
      ∧ e.table = packTable e.im e.iM e.codes ∧ e.stream = encodeBits e.codes e.iM xs := by
  unfold encodeSamples at h
  dsimp only at h
  split at h
  · cases h
  · rename_i lens hl
    cases h
    exact ⟨lens, hl, rfl, rfl, rfl, rfl, rfl⟩

theorem leastSymbol_lt {frq : List (Nat × Nat)} (h : FrequenciesWf frq) : leastSymbol frq < 65536 := by
  cases frq with
  | nil => decide
  | cons p rest => exact h.range p List.mem_cons_self

theorem encodeSamples_bounds {xs : List Sample} {e : Encoded} (h : encodeSamples xs = .ok e) :
    e.im < 65536 ∧ e.iM ≤ 65536 := by
  obtain ⟨lens, -, im, iM, -⟩ := encodeSamples_ok h
  exact ⟨im ▸ leastSymbol_lt (countFrequencies_wf xs), iM ▸ escapeSymbol_le (countFrequencies_wf xs)⟩

/-- A stored block holds the encoding, where its lengths fit their words (41_huffman_encode.md R260). -/
theorem Encoded.block_write {m : Memory} (wf : m.wf = true) (d : Nat) {e : Encoded} (im : e.im < 2 ^ 32)
    (iM : e.iM < 2 ^ 32) (table : byteCount e.table.length < 2 ^ 32) (stream : e.stream.length < 2 ^ 32) :
    (m.write d e.block).holdsEncoded d e := by
  have stored := Memory.write_wf m d e.block wf
  have block : e.block = ([e.im, e.iM, byteCount e.table.length, e.stream.length, 0].flatMap fun v => leBytes 4 v)
      ++ (bytesOfBits e.table ++ bytesOfBits e.stream) := by simp [Encoded.block, huffmanBlock]
  have word (k : Nat) (hk : k < 5) (hv : [e.im, e.iM, byteCount e.table.length, e.stream.length, 0][k] < 2 ^ 32) :
      (m.write d e.block).word (d + 4 * k) = [e.im, e.iM, byteCount e.table.length, e.stream.length, 0][k] := by
    rw [← Memory.leNat_bytes_four stored, block, Memory.bytes_write_word wf d 4 (fun v => v) _ _ hk, leNat_leBytes 4 _ hv]
  have header : ([e.im, e.iM, byteCount e.table.length, e.stream.length, 0].flatMap fun v => leBytes 4 v).length = 20 := rfl
  refine ⟨word 0 (by omega) im, word 1 (by omega) iM, word 2 (by omega) table, word 3 (by omega) stream,
    word 4 (by omega) (show 0 < 2 ^ 32 by decide), fun p hp => ?_, fun p hp => ?_⟩
  · rw [block, ← List.append_assoc, ← header]
    exact Memory.streamBit_write_part wf d _ (bytesOfBits e.stream) e.table hp
  · have bit := Memory.streamBit_write_part wf d (([e.im, e.iM, byteCount e.table.length, e.stream.length, 0].flatMap
      fun v => leBytes 4 v) ++ bytesOfBits e.table) [] e.stream hp
    rwa [List.append_nil, List.append_assoc, ← block, List.length_append, header, bytesOfBits_length, ← Nat.add_assoc] at bit

/-! ### HUF_COMPRESS -/

section
variable {s : State} {a n d cap : Nat} {e : Encoded}

/-- A block that does not fit is DST_OVERFLOW, raised with the code table there (41_huffman_encode.md R261). -/
theorem hufCompress_overflows (wf : s.mem.wf = true) (hn : 0 < n) (reads : s.readFails a (2 * n) = false)
    (he : encodeSamples (s.mem.sampleList a n) = .ok e) (large : 2147483647 < e.stream.length ∨ cap < e.blockLength) :
    hufCompress a n d cap s = .error ⟨.dstOverflow, false⟩ (s.withCodes e.codes) := by
  rw [hufCompress, if_neg hn.ne', Run.bind_of_ok (readSamples_ok reads), Memory.samples_eq _ _ _ wf, he]
  refine (Run.bind_of_ok (ofExcept_ok _ _)).trans ?_
  rw [Run.bind_of_ok (Run.modify_eq _ _)]
  by_cases short : e.stream.length ≤ 2147483647
  · rw [Run.bind_of_ok (require_ok _ (decide_eq_true short))]
    exact Run.bind_of_error (require_fails _ (decide_eq_false (by omega)))
  · exact Run.bind_of_error (require_fails _ (decide_eq_false short))

end

/-- HUF_COMPRESS writes to its destination only (30_encoding.md R137). -/
theorem hufCompress_keptOutside {s t : State} (wf : s.mem.wf = true) (h : exec .hufCompress s = .next t) :
    s.mem.keptOutside t.mem s.latched.dstAddr.toNat s.latched.dstLen.toNat := by
  intro k hk
  refine (exec_memWithin wf h).read k ?_
  rintro ⟨-, r, hr, writes, lo, hi⟩
  simp only [regions, List.mem_cons, List.not_mem_nil, or_false] at hr
  obtain rfl | rfl := hr
  · cases writes
  · dsimp only at lo hi
    omega

/-- Settles O20: no samples leave the data phase at once; the codes of the samples are there before the capacity decides. -/
theorem hufCompressResult : Obligations.HufCompressResult := by
  unfold Obligations.HufCompressResult
  intro s e a n d cap wf source dest apart reads
  have reaches := hufCompress_reachesData source dest apart
  refine ⟨fun hn => ?_, fun hn he short fits writes => ?_, fun hn he large => ?_⟩
  · have nothing : hufCompress a n d cap (s.clearValid .hufCompress) = .ok {} (s.clearValid .hufCompress) := by
      rw [hufCompress, if_pos hn]
      rfl
    obtain ⟨run, ends⟩ := exec_of_ok reaches (Run.bind_of_ok (x := hufCompress a n d cap) nothing)
    exact ⟨_, run, ends, rfl, rfl, exec_bitmap (by decide) run, exec_lut (by decide) run⟩
  · have store := (hufCompress_eq_store (s := s.clearValid .hufCompress) (d := d) wf hn reads he short fits).trans
      (Run.bind_of_ok (dmaWrite_ok (by rw [e.block_length]; exact writes)))
    obtain ⟨run, ends⟩ := exec_of_ok reaches (Run.bind_of_ok (x := hufCompress a n d cap) store)
    obtain ⟨im, iM⟩ := encodeSamples_bounds he
    have capacity : cap < 2 ^ 32 := s.latched.dstLen.isLt
    have table : byteCount e.table.length ≤ e.blockLength := by rw [Encoded.blockLength]; omega
    refine ⟨_, run, ends, e.block_write wf d (by omega) (by omega) (by omega) (by omega), ?_, rfl,
      exec_bitmap (by decide) run, exec_lut (by decide) run⟩
    exact e.block_length ▸ Memory.write_keptOutside s.mem d e.block wf
  · have raises := hufCompress_overflows (s := s.clearValid .hufCompress) (d := d) wf hn reads he large
    obtain ⟨run, ends⟩ := exec_of_raise reaches (Run.bind_of_error (x := hufCompress a n d cap) raises) (by decide)
    exact ⟨_, run, ends, hufCompress_keptOutside wf run, State.failData_codes _ _ _, exec_bitmap (by decide) run,
      exec_lut (by decide) run⟩

end Sys2Proof.Machine
end

section
/-! SUPPORT and the proof of O21: the frequencies of the samples, and the merges of BuildLengths as a relation on trees
(41_huffman_encode.md R251, R252, R256). -/

namespace Sys2Proof.Machine

/-! ### Frequencies -/

theorem sparseGet_bumpFrequency {frq : List (Nat × Nat)} (rise : frq.Pairwise fun c d => c.1 < d.1) (v k : Nat) :
    sparseGet 0 (bumpFrequency frq v) k = sparseGet 0 frq k + if k = v then 1 else 0 := by
  induction frq with
  | nil => rw [bumpFrequency, sparseGet_cons, sparseGet_nil, Nat.zero_add]; simp only [eq_comm]
  | cons c rest ih =>
    obtain ⟨s, n⟩ := c
    obtain ⟨above, rise⟩ := List.pairwise_cons.1 rise
    rw [bumpFrequency]
    split
    · rename_i below
      rw [sparseGet_cons, sparseGet_cons, ih rise]
      split <;> [rw [if_neg (by omega), Nat.add_zero]; rfl]
    · split
      · rename_i found
        subst found
        rw [sparseGet_cons, sparseGet_cons]
        split
        · rename_i hk
          rw [if_pos hk.symm]
        · rename_i hk
          rw [if_neg (Ne.symm hk), Nat.add_zero]
      · rw [sparseGet_cons]
        split
        · rename_i hk
          subst hk
          rw [if_pos rfl, sparseGet_of_forall_ne]
          intro p hp
          rcases List.mem_cons.1 hp with rfl | hp
          · assumption
          · have := above p hp
            dsimp only at this
            omega
        · rename_i hk
          rw [if_neg (Ne.symm hk), Nat.add_zero]

/-- The frequency of a symbol is the number of its occurrences (41_huffman_encode.md R251). -/
theorem sparseGet_countFrequencies (xs : List Sample) (k : Nat) :
    sparseGet 0 (countFrequencies xs) k = xs.countP fun v => v.toNat == k := by
  have count : ∀ frq, FrequenciesWf frq →
      sparseGet 0 (xs.foldl (fun frq v => bumpFrequency frq v.toNat) frq) k =
        sparseGet 0 frq k + xs.countP fun v => v.toNat == k := by
    induction xs with
    | nil => exact fun frq _ => rfl
    | cons v rest ih =>
      intro frq h
      rw [List.foldl_cons, ih _ (bumpFrequency_wf v h), sparseGet_bumpFrequency h.rise, List.countP_cons]
      simp only [beq_iff_eq, eq_comm (a := k)]
      omega
  exact (count [] ⟨List.Pairwise.nil, by simp⟩).trans (Nat.zero_add _)

theorem bumpFrequency_pos {frq : List (Nat × Nat)} (v : Nat) (h : ∀ p ∈ frq, 0 < p.2) :
    ∀ p ∈ bumpFrequency frq v, 0 < p.2 := by
  induction frq with
  | nil => simp [bumpFrequency]
  | cons c rest ih =>
    obtain ⟨s, n⟩ := c
    obtain ⟨head, tail⟩ := List.forall_mem_cons.1 h
    rw [bumpFrequency]
    split
    · exact List.forall_mem_cons.2 ⟨head, ih tail⟩
    · split
      · exact List.forall_mem_cons.2 ⟨Nat.succ_pos n, tail⟩
      · exact List.forall_mem_cons.2 ⟨Nat.one_pos, h⟩

theorem countFrequencies_pos (xs : List Sample) : ∀ p ∈ countFrequencies xs, 0 < p.2 := by
  have step : ∀ frq : List (Nat × Nat), (∀ p ∈ frq, 0 < p.2) →
      ∀ p ∈ xs.foldl (fun frq v => bumpFrequency frq v.toNat) frq, 0 < p.2 := by
    induction xs with
    | nil => exact fun _ h => h
    | cons v rest ih => exact fun frq h => ih _ (bumpFrequency_pos v.toNat h)
  exact step [] (by simp)

/-- An entry of the frequencies is a symbol that occurs, with the number of its occurrences. -/
theorem mem_countFrequencies (xs : List Sample) (p : Nat × Nat) :
    p ∈ countFrequencies xs ↔ (∃ v ∈ xs, v.toNat = p.1) ∧ p.2 = xs.countP fun v => v.toNat == p.1 := by
  have rise := (keysRise_iff_pairwise _).2 (countFrequencies_wf xs).rise
  have occurs (k : Nat) : (∃ v ∈ xs, v.toNat = k) ↔ 0 < xs.countP fun v => v.toNat == k := by
    simp [List.countP_pos_iff]
  constructor
  · intro hp
    have count := (sparseGet_mem 0 _ rise p hp).symm.trans (sparseGet_countFrequencies xs p.1)
    exact ⟨(occurs p.1).2 (count ▸ countFrequencies_pos xs p hp), count⟩
  · rintro ⟨hv, count⟩
    have listed : ∃ q ∈ countFrequencies xs, q.1 = p.1 := by
      by_contra absent
      have zero := sparseGet_of_forall_ne 0 (countFrequencies xs) p.1 fun q hq hk => absent ⟨q, hq, hk⟩
      rw [sparseGet_countFrequencies] at zero
      exact absurd zero ((occurs p.1).1 hv).ne'
    have found := sparseGet_mem_of_key 0 listed
    rwa [sparseGet_countFrequencies, ← count] at found

/-- The frequencies as the spec lists them: the symbols that occur in ascending order, each with its count
(41_huffman_encode.md R251). -/
theorem countFrequencies_eq {xs : List Sample} {iM : Nat} (above : ∀ v ∈ xs, v.toNat < iM) :
    countFrequencies xs = ((List.range iM).filter fun k => xs.any fun v => v.toNat == k).map
      fun k => (k, xs.countP fun v => v.toNat == k) := by
  have sorted : (((List.range iM).filter fun k => xs.any fun v => v.toNat == k).map
      fun k => (k, xs.countP fun v => v.toNat == k)).Pairwise fun c d => c.1 < d.1 :=
    List.pairwise_map.2 (List.pairwise_lt_range.sublist List.filter_sublist)
  have irr {c d : Nat × Nat} (h : c.1 < d.1) (h' : d.1 < c.1) : c = d := absurd h' (by omega)
  refine List.Perm.eq_of_pairwise (fun _ _ _ _ => irr) (countFrequencies_wf xs).rise sorted ?_
  refine (List.perm_ext_iff_of_nodup ((countFrequencies_wf xs).rise.imp ?_) (sorted.imp ?_)).2 fun p => ?_
  · rintro c d h rfl; omega
  · rintro c d h rfl; omega
  rw [mem_countFrequencies, List.mem_map]
  constructor
  · rintro ⟨⟨v, hv, hk⟩, count⟩
    refine ⟨p.1, List.mem_filter.2 ⟨List.mem_range.2 (hk ▸ above v hv), ?_⟩, Prod.ext rfl count.symm⟩
    exact List.any_eq_true.2 ⟨v, hv, beq_iff_eq.2 hk⟩
  · rintro ⟨k, hk, rfl⟩
    obtain ⟨v, hv, same⟩ := List.any_eq_true.1 (List.mem_filter.1 hk).2
    exact ⟨⟨v, hv, beq_iff_eq.1 same⟩, rfl⟩

/-- The least symbol that occurs, and the escape one past the greatest (41_huffman_encode.md R256). -/
theorem symbolBounds {xs : List Sample} (hne : xs ≠ []) :
    (∃ v ∈ xs, v.toNat = leastSymbol (countFrequencies xs))
      ∧ (∃ v ∈ xs, v.toNat + 1 = escapeSymbol (countFrequencies xs))
      ∧ ∀ v ∈ xs, leastSymbol (countFrequencies xs) ≤ v.toNat ∧ v.toNat < escapeSymbol (countFrequencies xs) := by
  have rise := (countFrequencies_wf xs).rise
  have listed {p : Nat × Nat} (hp : p ∈ countFrequencies xs) : ∃ v ∈ xs, v.toNat = p.1 :=
    ((mem_countFrequencies xs p).1 hp).1
  have entry {v : Sample} (hv : v ∈ xs) : (v.toNat, xs.countP fun u => u.toNat == v.toNat) ∈ countFrequencies xs :=
    (mem_countFrequencies xs _).2 ⟨⟨v, hv, rfl⟩, rfl⟩
  refine ⟨?_, ?_, fun v hv => ⟨?_, lt_escapeSymbol rise _ (entry hv)⟩⟩
  · obtain ⟨p, rest, hf⟩ := List.exists_cons_of_ne_nil (countFrequencies_ne_nil hne)
    obtain ⟨v, hv, hk⟩ := listed (p := p) (by rw [hf]; exact List.mem_cons_self)
    exact ⟨v, hv, by rw [hk, hf]; rfl⟩
  · obtain ⟨rest, p, hf⟩ := (List.eq_nil_or_concat (countFrequencies xs)).resolve_left (countFrequencies_ne_nil hne)
    rw [List.concat_eq_append] at hf
    obtain ⟨v, hv, hk⟩ := listed (p := p) (by rw [hf]; simp)
    exact ⟨v, hv, by rw [hk, hf, escapeSymbol, List.getLastD_concat]⟩
  · have first := entry hv
    cases hf : countFrequencies xs with
    | nil => rw [hf] at first; simp at first
    | cons p rest =>
      rw [hf] at first rise
      rcases List.mem_cons.1 first with rfl | later
      · exact le_rfl
      · exact ((List.pairwise_cons.1 rise).1 _ later).le

/-! ### The heap -/

/-- The symbols on the chain of a member of the heap. -/
def HeapNode.symbols (n : HeapNode) : List Nat := n.chain.map Prod.fst

/-- The member that a merge puts back: `m` with `mm`'s frequency and chain added (41_huffman_encode.md R252). -/
abbrev HeapNode.merge (m mm : HeapNode) : HeapNode := ⟨m.freq + mm.freq, m.sym, mergedChain m mm⟩

theorem HeapNode.merge_symbols (m mm : HeapNode) : (m.merge mm).symbols = m.symbols ++ mm.symbols := by
  simp [HeapNode.symbols, mergedChain, List.map_map, Function.comp_def]

theorem HeapNode.before_iff (a b : HeapNode) :
    a.before b = true ↔ a.freq < b.freq ∨ (a.freq = b.freq ∧ a.sym < b.sym) := by
  simp [HeapNode.before]

/-- The heap in pop order, its chains apart, each member standing under a symbol of its chain. -/
structure HeapWf (heap : List HeapNode) : Prop where
  order : heap.Pairwise fun a b => a.before b = true
  apart : (heap.flatMap HeapNode.symbols).Nodup
  own : ∀ n ∈ heap, n.sym ∈ n.symbols

theorem heapInsert_order {n : HeapNode} {heap : List HeapNode} (order : heap.Pairwise fun a b => a.before b = true)
    (other : ∀ a ∈ heap, a.sym ≠ n.sym) : (heapInsert n heap).Pairwise fun a b => a.before b = true := by
  induction heap with
  | nil => exact List.pairwise_singleton _ _
  | cons m rest ih =>
    obtain ⟨first, order⟩ := List.pairwise_cons.1 order
    rw [heapInsert]
    split
    · rename_i before
      refine List.pairwise_cons.2 ⟨List.forall_mem_cons.2 ⟨before, fun a ha => ?_⟩, List.pairwise_cons.2 ⟨first, order⟩⟩
      have := first a ha
      rw [HeapNode.before_iff] at before this ⊢
      omega
    · rename_i after
      refine List.pairwise_cons.2 ⟨fun a ha => ?_, ih order fun a ha => other a (List.mem_cons_of_mem _ ha)⟩
      rcases List.mem_cons.1 ((heapInsert_perm n rest).mem_iff.1 ha) with rfl | ha
      · have := other m List.mem_cons_self
        rw [HeapNode.before_iff] at after ⊢
        omega
      · exact first a ha

theorem foldl_heapInsert_order {frq : List (Nat × Nat)} {heap : List HeapNode}
    (order : heap.Pairwise fun a b => a.before b = true) (nodup : (frq.map Prod.fst).Nodup)
    (other : ∀ e ∈ frq, ∀ a ∈ heap, a.sym ≠ e.1) :
    (frq.foldl (fun h e => heapInsert (.leaf e) h) heap).Pairwise fun a b => a.before b = true := by
  induction frq generalizing heap with
  | nil => exact order
  | cons e rest ih =>
    rw [List.map_cons, List.nodup_cons] at nodup
    refine ih (heapInsert_order order (other e List.mem_cons_self)) nodup.2 fun f hf a ha => ?_
    rcases List.mem_cons.1 ((heapInsert_perm _ heap).mem_iff.1 ha) with rfl | ha
    · exact fun same => nodup.1 (List.mem_map.2 ⟨f, hf, same.symm⟩)
    · exact other f (List.mem_cons_of_mem _ hf) a ha

theorem flatMap_leaf_symbols (frq : List (Nat × Nat)) :
    (frq.map HeapNode.leaf).flatMap HeapNode.symbols = frq.map Prod.fst := by
  induction frq with
  | nil => rfl
  | cons e rest ih => rw [List.map_cons, List.flatMap_cons, ih]; rfl

/-- The heap at the start is in order (41_huffman_encode.md R252). -/
theorem initialHeap_wf {frq : List (Nat × Nat)} (nodup : (frq.map Prod.fst).Nodup) : HeapWf (initialHeap frq) where
  order := foldl_heapInsert_order List.Pairwise.nil nodup (by simp)
  apart := by rwa [((initialHeap_perm frq).flatMap_right _).nodup_iff, flatMap_leaf_symbols]
  own n hn := by
    obtain ⟨e, -, rfl⟩ := List.mem_map.1 ((initialHeap_perm frq).mem_iff.1 hn)
    exact List.mem_singleton.2 rfl

/-- A merge moves the symbols of two members to one. -/
theorem flatMap_merge_perm (mm m : HeapNode) (rest : List HeapNode) :
    ((heapInsert (m.merge mm) rest).flatMap HeapNode.symbols).Perm ((mm :: m :: rest).flatMap HeapNode.symbols) := by
  refine ((heapInsert_perm _ rest).flatMap_right _).trans ?_
  rw [List.flatMap_cons, List.flatMap_cons, List.flatMap_cons, HeapNode.merge_symbols, ← List.append_assoc]
  exact List.perm_append_comm.append_right _

/-- The chains of two members of a heap share no symbol with a third. -/
theorem HeapWf.disjoint {mm m : HeapNode} {rest : List HeapNode} (h : HeapWf (mm :: m :: rest)) {n : HeapNode}
    (hn : n ∈ rest) {k : Nat} (hk : k ∈ n.symbols) : k ∉ m.symbols ∧ k ∉ mm.symbols := by
  have apart := h.apart
  have tail : k ∈ rest.flatMap HeapNode.symbols := List.mem_flatMap.2 ⟨n, hn, hk⟩
  rw [List.flatMap_cons, List.flatMap_cons, List.nodup_append, List.nodup_append] at apart
  obtain ⟨-, ⟨-, -, second⟩, first⟩ := apart
  exact ⟨fun hm => second k hm k tail rfl, fun hmm => first k hmm k (List.mem_append_right _ tail) rfl⟩

/-- A merge keeps the heap in order (41_huffman_encode.md R252). -/
theorem HeapWf.merge {mm m : HeapNode} {rest : List HeapNode} (h : HeapWf (mm :: m :: rest)) :
    HeapWf (heapInsert (m.merge mm) rest) where
  order := by
    refine heapInsert_order (List.pairwise_cons.1 (List.pairwise_cons.1 h.order).2).2 fun a ha same => ?_
    have own := h.own a (List.mem_cons_of_mem _ (List.mem_cons_of_mem _ ha))
    exact (h.disjoint ha own).1 (same ▸ h.own m (by simp))
  apart := (flatMap_merge_perm mm m rest).nodup_iff.2 h.apart
  own n hn := by
    rcases List.mem_cons.1 ((heapInsert_perm _ rest).mem_iff.1 hn) with rfl | hn
    · rw [HeapNode.merge_symbols]
      exact List.mem_append_left _ (h.own m (by simp))
    · exact h.own n (List.mem_cons_of_mem _ (List.mem_cons_of_mem _ hn))

/-- Induction along the merges, from the last member back to the heap they start from (41_huffman_encode.md R252). -/
theorem mergeAll_induction {P : List HeapNode → List (Nat × Nat) → Prop} (last : ∀ n : HeapNode, P [n] n.chain)
    (merge : ∀ mm m rest chain, (∀ p ∈ mergedChain m mm, p.2 ≤ 58) → P (heapInsert (m.merge mm) rest) chain →
      P (mm :: m :: rest) chain)
    {fuel : Nat} {heap : List HeapNode} {chain : List (Nat × Nat)} (ne : heap ≠ []) (hfuel : heap.length ≤ fuel + 1)
    (h : mergeAll fuel heap = .ok chain) : P heap chain := by
  induction fuel generalizing heap with
  | zero =>
    match heap with
    | [] => exact absurd rfl ne
    | [n] => cases h; exact last n
    | _ :: _ :: _ => simp at hfuel
  | succ fuel ih =>
    match heap with
    | [] => exact absurd rfl ne
    | [n] => cases h; exact last n
    | mm :: m :: rest =>
      rw [mergeAll] at h
      split at h
      · rename_i fits
        have size := (heapInsert_perm (m.merge mm) rest).length_eq
        simp only [List.length_cons] at size hfuel
        exact merge mm m rest chain (fun p hp => of_decide_eq_true (List.all_eq_true.1 fits p hp))
          (ih (List.ne_nil_of_length_pos (by omega)) (by omega) h)
      · cases h

/-! ### The merges as a relation -/

/-- The tree that a member of the heap stands for. -/
def HeapNode.tree (n : HeapNode) : MergeTree := ⟨n.freq, n.sym, n.symbols⟩

theorem Merges.perm {heap heap' : List MergeTree} {len : Nat → Nat} (h : Merges heap len) (p : heap'.Perm heap) :
    Merges heap' len := by
  cases h with
  | last t => rw [List.perm_singleton.1 p]; exact .last t
  | merge pick first second tail => exact .merge (p.trans pick) first second tail

/-- A symbol on no chain keeps length 0. -/
theorem Merges.eq_zero {heap : List MergeTree} {len : Nat → Nat} (h : Merges heap len) {k : Nat}
    (hk : ∀ t ∈ heap, k ∉ t.members) : len k = 0 := by
  induction h with
  | last t => rfl
  | @merge heap rest mm m len pick first second tail ih =>
    have away : ∀ t ∈ mm :: m :: rest, k ∉ t.members := fun t ht => hk t (pick.mem_iff.2 ht)
    have hmm := away mm (by simp)
    have hm := away m (by simp)
    have before : len k = 0 := ih fun t ht => by
      rcases List.mem_cons.1 ht with rfl | ht
      · simp [hm, hmm]
      · exact away t (by simp [ht])
    simp [hm, hmm, before]

/-- The chain that the merges end with: the symbols of the heap, each with its length at the start and what the merges of the
spec add to it (41_huffman_encode.md R252). -/
theorem mergeAll_merges {fuel : Nat} {heap : List HeapNode} {chain : List (Nat × Nat)} (wf : HeapWf heap) (ne : heap ≠ [])
    (hfuel : heap.length ≤ fuel + 1) (h : mergeAll fuel heap = .ok chain) :
    (chain.map Prod.fst).Perm (heap.flatMap HeapNode.symbols)
      ∧ ∃ len, Merges (heap.map HeapNode.tree) len ∧ ∀ n ∈ heap, ∀ p ∈ n.chain, (p.1, p.2 + len p.1) ∈ chain := by
  refine mergeAll_induction (P := fun heap chain => HeapWf heap → (chain.map Prod.fst).Perm (heap.flatMap HeapNode.symbols)
    ∧ ∃ len, Merges (heap.map HeapNode.tree) len ∧ ∀ n ∈ heap, ∀ p ∈ n.chain, (p.1, p.2 + len p.1) ∈ chain)
    (fun n _ => ?_) (fun mm m rest chain _ ih wf => ?_) ne hfuel h wf
  · refine ⟨by simp [HeapNode.symbols], fun _ => 0, .last _, fun n' hn p hp => ?_⟩
    cases List.mem_singleton.1 hn
    exact hp
  · obtain ⟨keys, len, merges, ends⟩ := ih wf.merge
    have inserted := heapInsert_perm (m.merge mm) rest
    have merged {p : Nat × Nat} (hp : p ∈ m.chain ++ mm.chain) : (p.1, p.2 + 1 + len p.1) ∈ chain :=
      ends _ (inserted.mem_iff.2 List.mem_cons_self) (p.1, p.2 + 1) (List.mem_map_of_mem hp)
    obtain ⟨first, order⟩ := List.pairwise_cons.1 wf.order
    obtain ⟨second, -⟩ := List.pairwise_cons.1 order
    refine ⟨keys.trans (flatMap_merge_perm mm m rest), _, .merge (mm := mm.tree) (m := m.tree)
      (rest := rest.map HeapNode.tree) (len := len) (.refl _) ?_ ?_ ?_, fun n hn p hp => ?_⟩
    · rw [← List.map_cons, List.forall_mem_map]
      exact fun n hn => (mm.before_iff n).1 (first n hn)
    · rw [List.forall_mem_map]
      exact fun n hn => (m.before_iff n).1 (second n hn)
    · refine merges.perm (List.Perm.symm ?_)
      refine (inserted.map HeapNode.tree).trans (.of_eq ?_)
      rw [List.map_cons, HeapNode.tree, HeapNode.merge_symbols]
      rfl
    · have onChain : p.1 ∈ n.symbols := List.mem_map_of_mem hp
      rcases List.mem_cons.1 hn with rfl | hn
      · rw [if_pos (.inr onChain), Nat.add_comm (len _), ← Nat.add_assoc]
        exact merged (List.mem_append_right _ hp)
      rcases List.mem_cons.1 hn with rfl | hn
      · rw [if_pos (.inl onChain), Nat.add_comm (len _), ← Nat.add_assoc]
        exact merged (List.mem_append_left _ hp)
      · obtain ⟨notM, notMm⟩ := wf.disjoint hn onChain
        rw [if_neg (show ¬ (p.1 ∈ m.tree.members ∨ p.1 ∈ mm.tree.members) from not_or.2 ⟨notM, notMm⟩), Nat.add_zero]
        exact ends n (inserted.mem_iff.2 (List.mem_cons_of_mem _ hn)) p hp

/-! ### The lengths of an alphabet -/

/-- The tree of a symbol of a frequency. -/
def MergeTree.leaf (e : Nat × Nat) : MergeTree := ⟨e.2, e.1, [e.1]⟩

theorem sparseGet_of_mem_nodup {α : Type} (d : α) {m : List (Nat × α)} (nodup : (m.map Prod.fst).Nodup) {c : Nat × α}
    (hc : c ∈ m) : sparseGet d m c.1 = c.2 := by
  have found := sparseGet_mem_of_key d ⟨c, hc, rfl⟩
  exact congrArg Prod.snd (List.inj_on_of_nodup_map nodup found hc rfl)

/-- The lengths of an alphabet: those that the merges of the spec give, in a chain of all its symbols
(41_huffman_encode.md R252). -/
theorem lengthsOf_ok {frq lens : List (Nat × Nat)} (nodup : (frq.map Prod.fst).Nodup) (ne : frq ≠ [])
    (h : lengthsOf frq = .ok lens) :
    (∃ chain, mergeAll frq.length (initialHeap frq) = .ok chain ∧ lens.Perm chain)
      ∧ ∃ len, Merges (frq.map MergeTree.leaf) len ∧ lens = frq.map fun e => (e.1, len e.1) := by
  unfold lengthsOf at h
  split at h
  · rename_i chain hc
    cases h
    have perm := initialHeap_perm frq
    have size : (initialHeap frq).length = frq.length := by simpa using perm.length_eq
    have nonempty : initialHeap frq ≠ [] :=
      List.ne_nil_of_length_pos (by rw [size]; exact List.length_pos_iff.2 ne)
    obtain ⟨keys, len, merges, ends⟩ := mergeAll_merges (initialHeap_wf nodup) nonempty (by omega) hc
    have symbols := keys.trans (perm.flatMap_right _)
    rw [flatMap_leaf_symbols] at symbols
    have chainNodup := symbols.nodup_iff.2 nodup
    refine ⟨⟨chain, hc, ?_⟩, len, ?_, List.map_congr_left fun e he => ?_⟩
    · have self : chain = (chain.map Prod.fst).map fun k => (k, sparseGet 0 chain k) := by
        rw [List.map_map]
        refine (List.map_id _).symm.trans (List.map_congr_left fun p hp => ?_)
        exact Prod.ext rfl (sparseGet_of_mem_nodup 0 chainNodup hp).symm
      have moved := symbols.symm.map fun k => (k, sparseGet 0 chain k)
      rw [← self, List.map_map] at moved
      exact moved
    · refine merges.perm ?_
      have trees := (perm.map HeapNode.tree).symm
      rw [List.map_map] at trees
      exact trees
    · have leaf : HeapNode.leaf e ∈ initialHeap frq := perm.mem_iff.2 (List.mem_map_of_mem he)
      have found := ends _ leaf (e.1, 0) (List.mem_singleton.2 rfl)
      rw [Nat.zero_add] at found
      exact Prod.ext rfl (sparseGet_of_mem_nodup 0 chainNodup found)
  · cases h

/-- The alphabet of the encoder: the symbols that occur, and the escape with frequency 1 (41_huffman_encode.md R251,
R252). -/
abbrev encoderAlphabet (xs : List Sample) : List (Nat × Nat) :=
  countFrequencies xs ++ [(escapeSymbol (countFrequencies xs), 1)]

theorem encoderAlphabet_nodup (xs : List Sample) : ((encoderAlphabet xs).map Prod.fst).Nodup := by
  have rise : (encoderAlphabet xs).Pairwise fun c d => c.1 < d.1 :=
    List.pairwise_append.2 ⟨(countFrequencies_wf xs).rise, List.pairwise_singleton _ _, fun p hp q hq => by
      cases List.mem_singleton.1 hq
      exact lt_escapeSymbol (countFrequencies_wf xs).rise p hp⟩
  exact List.pairwise_map.2 (rise.imp Nat.ne_of_lt)

theorem mem_encoderAlphabet (xs : List Sample) (k : Nat) :
    (∃ p ∈ encoderAlphabet xs, p.1 = k) ↔ k = escapeSymbol (countFrequencies xs) ∨ ∃ v ∈ xs, v.toNat = k := by
  constructor
  · rintro ⟨p, hp, rfl⟩
    rcases List.mem_append.1 hp with hp | hp
    · exact .inr ((mem_countFrequencies xs p).1 hp).1
    · cases List.mem_singleton.1 hp
      exact .inl rfl
  · rintro (rfl | ⟨v, hv, rfl⟩)
    · exact ⟨_, List.mem_append_right _ (List.mem_singleton.2 rfl), rfl⟩
    · exact ⟨_, List.mem_append_left _ ((mem_countFrequencies xs (v.toNat, xs.countP fun u => u.toNat == v.toNat)).2
      ⟨⟨v, hv, rfl⟩, rfl⟩), rfl⟩

/-- The heap of the spec at the start is the encoder's alphabet (41_huffman_encode.md R251, R252). -/
theorem mergeLeaves_eq {xs : List Sample} (hne : xs ≠ []) :
    mergeLeaves xs (escapeSymbol (countFrequencies xs)) = (encoderAlphabet xs).map MergeTree.leaf := by
  have eq := countFrequencies_eq fun v hv => ((symbolBounds hne).2.2 v hv).2
  have leaves := congrArg (List.map MergeTree.leaf) eq
  rw [List.map_map] at leaves
  rw [encoderAlphabet, List.map_append, leaves]
  rfl

/-! ### Lengths in the code table -/

/-- Lengths of at most 58 are read back from their canonical codes. -/
theorem canonicalCodes_lens {lens : List (Nat × Nat)} (h : LengthsWf lens) :
    (canonicalCodes lens).map (fun c => (c.sym, c.len.toNat)) = lens := by
  have lengths := congrArg (List.map fun p : Nat × BitVec 6 => (p.1, p.2.toNat)) (assignCodes_lengths (firstCodes lens) lens)
  rw [CodeTable.lengths, List.map_map, List.map_map] at lengths
  refine lengths.trans ((List.map_congr_left fun p hp => ?_).trans (List.map_id _))
  obtain ⟨-, -, max⟩ := h.range p hp
  exact Prod.ext rfl (by simp; omega)

theorem canonicalCodes_hlen {lens : List (Nat × Nat)} (h : LengthsWf lens) (k : Nat) :
    (canonicalCodes lens).hlen k = sparseGet 0 lens k := by
  rw [CodeTable.hlen_eq_sparseGet, canonicalCodes_lens h]

/-- The lengths of an encoding, as its code table holds them and as the merges give them (41_huffman_encode.md R252). -/
theorem encodeSamples_lengths {xs : List Sample} {e : Encoded} (hne : xs ≠ []) (h : encodeSamples xs = .ok e) :
    ∃ lens, e.codes = canonicalCodes lens ∧ LengthsWf lens
      ∧ (∃ chain, mergeAll (encoderAlphabet xs).length (initialHeap (encoderAlphabet xs)) = .ok chain ∧ lens.Perm chain)
      ∧ ∃ len, Merges ((encoderAlphabet xs).map MergeTree.leaf) len
        ∧ lens = (encoderAlphabet xs).map fun p => (p.1, len p.1) := by
  obtain ⟨lens, built, -, -, codes, -⟩ := encodeSamples_ok h
  have wf := buildLengths_wf (countFrequencies_wf xs) (countFrequencies_ne_nil hne) built
  exact ⟨lens, codes, wf, lengthsOf_ok (encoderAlphabet_nodup xs) (by simp) built⟩

/-- A symbol has a code exactly when it occurs or is the escape (41_huffman_encode.md R252). -/
theorem encodeSamples_hlen_ne_zero_iff {xs : List Sample} {e : Encoded} (hne : xs ≠ []) (h : encodeSamples xs = .ok e)
    (k : Nat) : e.codes.hlen k ≠ 0 ↔ k = e.iM ∨ ∃ v ∈ xs, v.toNat = k := by
  obtain ⟨-, -, -, iM, -⟩ := encodeSamples_ok h
  obtain ⟨lens, codes, wf, -, len, -, eq⟩ := encodeSamples_lengths hne h
  rw [CodeTable.hlen_ne_zero_iff (encodeSamples_codes_wf hne h), iM, ← mem_encoderAlphabet]
  have listed := canonicalCodes_lens wf
  rw [← codes, eq] at listed
  have symbols : e.codes.map CodeEntry.sym = (encoderAlphabet xs).map Prod.fst := by
    simpa only [List.map_map, Function.comp_def] using congrArg (List.map Prod.fst) listed
  rw [← List.mem_map (f := CodeEntry.sym), symbols, List.mem_map]

/-- Settles O21: the encoder's heap follows the merges of the spec, and its code table holds their lengths. -/
theorem encodingBoundsAndParts : Obligations.EncodingBoundsAndParts := by
  unfold Obligations.EncodingBoundsAndParts
  intro xs e hne h
  obtain ⟨-, -, im, iM, -, table, stream⟩ := encodeSamples_ok h
  obtain ⟨least, greatest, between⟩ := symbolBounds hne
  obtain ⟨lens, codes, wf, -, len, merges, eq⟩ := encodeSamples_lengths hne h
  refine ⟨im ▸ least, iM ▸ greatest, ?_, ⟨len, ?_, fun k => ?_⟩, encodeSamples_hlen_ne_zero_iff hne h,
    encodeSamples_codes_wf hne h, table, stream⟩
  · rw [im, iM]
    exact between
  · rw [iM, mergeLeaves_eq hne]
    exact merges
  · rw [codes, canonicalCodes_hlen wf, eq]
    by_cases listed : ∃ p ∈ encoderAlphabet xs, p.1 = k
    · obtain ⟨p, hp, rfl⟩ := listed
      refine sparseGet_of_mem_nodup 0 ?_ (c := (p.1, len p.1)) (List.mem_map_of_mem hp)
      rw [List.map_map]
      exact encoderAlphabet_nodup xs
    · rw [sparseGet_of_forall_ne, merges.eq_zero]
      · simp only [List.forall_mem_map, MergeTree.leaf, List.mem_singleton]
        exact fun p hp hk => listed ⟨p, hp, hk.symm⟩
      · simp only [List.forall_mem_map]
        exact fun p hp hk => listed ⟨p, hp, hk⟩

end Sys2Proof.Machine
end

section
/-! SUPPORT and the proof of O23: the weights of the merges grow like the Fibonacci numbers, which bounds the code lengths
(41_huffman_encode.md R253). -/

namespace Sys2Proof.Machine

/-! ### The weight of the samples -/

theorem bumpFrequency_sum (frq : List (Nat × Nat)) (v : Nat) :
    ((bumpFrequency frq v).map Prod.snd).sum = (frq.map Prod.snd).sum + 1 := by
  induction frq with
  | nil => rfl
  | cons c rest ih =>
    obtain ⟨s, n⟩ := c
    rw [bumpFrequency]
    split
    · simp only [List.map_cons, List.sum_cons, ih]
      omega
    · split <;> simp only [List.map_cons, List.sum_cons] <;> omega

/-- The frequencies add up to the number of samples (41_huffman_encode.md R251). -/
theorem countFrequencies_sum (xs : List Sample) : ((countFrequencies xs).map Prod.snd).sum = xs.length := by
  have total : ∀ frq : List (Nat × Nat),
      ((xs.foldl (fun frq v => bumpFrequency frq v.toNat) frq).map Prod.snd).sum = (frq.map Prod.snd).sum + xs.length := by
    induction xs with
    | nil => exact fun _ => rfl
    | cons v rest ih =>
      intro frq
      rw [List.foldl_cons, ih, bumpFrequency_sum, List.length_cons]
      omega
  exact (total []).trans (Nat.zero_add _)

/-! ### Fibonacci weights -/

/-- A symbol of length `l` stands in a member of at least the Fibonacci weight `l + 2`, and no member of the heap weighs less
than the Fibonacci number before that one: it was popped after what that symbol's member was merged from. -/
def FibonacciHeap (heap : List HeapNode) : Prop :=
  ∀ n ∈ heap, ∀ p ∈ n.chain, Nat.fib (p.2 + 2) ≤ n.freq ∧ ∀ n' ∈ heap, Nat.fib (p.2 + 1) ≤ n'.freq

theorem HeapNode.freq_le_of_before {a b : HeapNode} (h : a.before b = true) : a.freq ≤ b.freq := by
  rcases (a.before_iff b).1 h with h | h <;> omega

/-- The two members popped weigh no more than the others, so the merged one keeps the Fibonacci weights. -/
theorem FibonacciHeap.merge {mm m : HeapNode} {rest : List HeapNode}
    (order : (mm :: m :: rest).Pairwise fun a b => a.before b = true) (h : FibonacciHeap (mm :: m :: rest)) :
    FibonacciHeap (heapInsert (m.merge mm) rest) := by
  obtain ⟨first, order⟩ := List.pairwise_cons.1 order
  obtain ⟨second, -⟩ := List.pairwise_cons.1 order
  have lighter : mm.freq ≤ m.freq := HeapNode.freq_le_of_before (first m List.mem_cons_self)
  have members {n : HeapNode} : n ∈ heapInsert (m.merge mm) rest ↔ n = m.merge mm ∨ n ∈ rest :=
    (heapInsert_perm _ rest).mem_iff.trans List.mem_cons
  have inM : m ∈ mm :: m :: rest := List.mem_cons_of_mem _ List.mem_cons_self
  have inRest {n : HeapNode} (hn : n ∈ rest) : n ∈ mm :: m :: rest :=
    List.mem_cons_of_mem _ (List.mem_cons_of_mem _ hn)
  -- A symbol of either popped member, and what the popped members weigh at least.
  have popped {q : Nat × Nat} (hq : q ∈ m.chain ++ mm.chain) :
      Nat.fib (q.2 + 2) ≤ m.freq ∧ Nat.fib (q.2 + 3) ≤ m.freq + mm.freq := by
    have next : Nat.fib (q.2 + 3) = Nat.fib (q.2 + 1) + Nat.fib (q.2 + 2) := Nat.fib_add_two
    rcases List.mem_append.1 hq with hq | hq
    · obtain ⟨own, all⟩ := h m inM q hq
      have := all mm List.mem_cons_self
      exact ⟨own, by omega⟩
    · obtain ⟨own, all⟩ := h mm List.mem_cons_self q hq
      have := all m inM
      exact ⟨own.trans lighter, by omega⟩
  intro n hn p hp
  rcases members.1 hn with rfl | hn
  · obtain ⟨q, hq, rfl⟩ := List.mem_map.1 hp
    obtain ⟨small, large⟩ := popped hq
    refine ⟨large, fun n' hn' => ?_⟩
    rcases members.1 hn' with rfl | hn'
    · exact small.trans (Nat.le_add_right _ _)
    · exact small.trans (HeapNode.freq_le_of_before (second n' hn'))
  · obtain ⟨own, all⟩ := h n (inRest hn) p hp
    refine ⟨own, fun n' hn' => ?_⟩
    rcases members.1 hn' with rfl | hn'
    · exact (all m inM).trans (Nat.le_add_right _ _)
    · exact all n' (inRest hn')

/-- Leaves of a weight of at least 1 have Fibonacci weights. -/
theorem initialHeap_fibonacci {frq : List (Nat × Nat)} (pos : ∀ e ∈ frq, 0 < e.2) : FibonacciHeap (initialHeap frq) := by
  have leaf {n : HeapNode} (hn : n ∈ initialHeap frq) : ∃ e ∈ frq, HeapNode.leaf e = n :=
    List.mem_map.1 ((initialHeap_perm frq).mem_iff.1 hn)
  intro n hn p hp
  obtain ⟨e, he, rfl⟩ := leaf hn
  cases List.mem_singleton.1 hp
  refine ⟨pos e he, fun n' hn' => ?_⟩
  obtain ⟨f, hf, rfl⟩ := leaf hn'
  exact pos f hf

/-- A Fibonacci weight within `2^31 + 1` belongs to a length of at most 44 (41_huffman_encode.md R253). -/
theorem le_of_fib_le {l w : Nat} (h : Nat.fib (l + 2) ≤ w) (hw : w ≤ 2 ^ 31 + 1) : l ≤ 44 := by
  by_contra long
  have mono := Nat.fib_mono (show 47 ≤ l + 2 by omega)
  have fib47 : Nat.fib 47 = 2971215073 := by norm_num
  omega

theorem FibonacciHeap.length_le {heap : List HeapNode} (h : FibonacciHeap heap)
    (weight : (heap.map HeapNode.freq).sum ≤ 2 ^ 31 + 1) {n : HeapNode} (hn : n ∈ heap) {p : Nat × Nat} (hp : p ∈ n.chain) :
    p.2 ≤ 44 :=
  le_of_fib_le (h n hn p hp).1 ((List.single_le_sum (fun _ _ => Nat.zero_le _) _ (List.mem_map_of_mem hn)).trans weight)

/-- The merges of a heap with Fibonacci weights end with lengths of at most 44 (41_huffman_encode.md R253). -/
theorem mergeAll_bounded {fuel : Nat} {heap : List HeapNode} (wf : HeapWf heap) (fibonacci : FibonacciHeap heap)
    (weight : (heap.map HeapNode.freq).sum ≤ 2 ^ 31 + 1) (hfuel : heap.length ≤ fuel + 1) :
    ∃ chain, mergeAll fuel heap = .ok chain ∧ ∀ p ∈ chain, p.2 ≤ 44 := by
  induction fuel generalizing heap with
  | zero =>
    match heap with
    | [] => exact ⟨[], rfl, by simp⟩
    | [n] => exact ⟨n.chain, rfl, fun p hp => fibonacci.length_le weight List.mem_cons_self hp⟩
    | _ :: _ :: _ => simp at hfuel
  | succ fuel ih =>
    match heap with
    | [] => exact ⟨[], rfl, by simp⟩
    | [n] => exact ⟨n.chain, rfl, fun p hp => fibonacci.length_le weight List.mem_cons_self hp⟩
    | mm :: m :: rest =>
      have inserted := heapInsert_perm (m.merge mm) rest
      have fibonacci' := fibonacci.merge wf.order
      have weight' : ((heapInsert (m.merge mm) rest).map HeapNode.freq).sum ≤ 2 ^ 31 + 1 := by
        rw [(inserted.map HeapNode.freq).sum_eq]
        simp only [List.map_cons, List.sum_cons] at weight ⊢
        omega
      have fits : (mergedChain m mm).all (fun e => e.2 ≤ Config.hufMaxLen) = true := by
        refine List.all_eq_true.2 fun p hp => decide_eq_true ?_
        have := fibonacci'.length_le weight' (inserted.mem_iff.2 List.mem_cons_self) hp
        simp only [Config.hufMaxLen]
        omega
      have size := inserted.length_eq
      simp only [List.length_cons] at size hfuel
      rw [mergeAll, if_pos fits]
      exact ih wf.merge fibonacci' weight' (by rw [size]; omega)

/-- Settles O23: the alphabet weighs one more than the number of samples, so the merges never pass 44 bits. -/
theorem codeLengthsAreBounded : Obligations.CodeLengthsAreBounded := by
  unfold Obligations.CodeLengthsAreBounded
  intro xs hne size
  have perm := initialHeap_perm (encoderAlphabet xs)
  have weight : ((initialHeap (encoderAlphabet xs)).map HeapNode.freq).sum ≤ 2 ^ 31 + 1 := by
    have leaves : ((encoderAlphabet xs).map HeapNode.leaf).map HeapNode.freq = (encoderAlphabet xs).map Prod.snd := by
      rw [List.map_map]
      rfl
    rw [(perm.map HeapNode.freq).sum_eq, leaves, List.map_append, List.sum_append, countFrequencies_sum]
    exact Nat.add_le_add_right size 1
  have pos : ∀ e ∈ encoderAlphabet xs, 0 < e.2 := by
    intro e he
    rcases List.mem_append.1 he with he | he
    · exact countFrequencies_pos xs e he
    · cases List.mem_singleton.1 he
      exact Nat.one_pos
  obtain ⟨chain, merged, bounded⟩ := mergeAll_bounded (fuel := (encoderAlphabet xs).length)
    (initialHeap_wf (encoderAlphabet_nodup xs)) (initialHeap_fibonacci pos) weight
    (by rw [perm.length_eq, List.length_map]; omega)
  obtain ⟨e, he⟩ : ∃ e, encodeSamples xs = .ok e := by
    simp only [encodeSamples, buildLengths, lengthsOf, merged]
    exact ⟨_, rfl⟩
  refine ⟨e, he, fun k hk => ⟨Nat.one_le_iff_ne_zero.2 ((encodeSamples_hlen_ne_zero_iff hne he k).2 hk), ?_⟩⟩
  obtain ⟨lens, codes, wf, ⟨chain', merged', same⟩, len, -, listed⟩ := encodeSamples_lengths hne he
  obtain rfl : chain = chain' := Except.ok.inj (merged.symm.trans merged')
  obtain ⟨-, -, -, iM, -⟩ := encodeSamples_ok he
  obtain ⟨p, hp, rfl⟩ := (mem_encoderAlphabet xs k).2 (iM ▸ hk)
  have found := sparseGet_mem_of_key 0 (m := lens) (k := p.1)
    ⟨(p.1, len p.1), listed ▸ List.mem_map_of_mem (f := fun p : Nat × Nat => (p.1, len p.1)) hp, rfl⟩
  rw [codes, canonicalCodes_hlen wf]
  exact bounded _ (same.mem_iff.1 found)

end Sys2Proof.Machine
end

section
/-! SUPPORT and the proof of O24: the first code of each length, Kraft's equality along the merges, and each code as the
weight of the symbols before it (41_huffman_encode.md R254, R255). -/

namespace Sys2Proof.Machine

/-! ### Canonical codes -/

/-- The first code of length `58 - d` (41_huffman_encode.md R254). -/
def firstCodeBelow (lens : List (Nat × Nat)) : Nat → Nat
  | 0 => 0
  | d + 1 => (firstCodeBelow lens d + lengthCount lens (58 - d)) / 2

/-- The first code of a length (41_huffman_encode.md R254). -/
def firstCode (lens : List (Nat × Nat)) (l : Nat) : Nat := firstCodeBelow lens (58 - l)

theorem firstCode_step (lens : List (Nat × Nat)) {l : Nat} (h : l < 58) :
    firstCode lens l = (firstCode lens (l + 1) + lengthCount lens (l + 1)) / 2 := by
  obtain ⟨d, rfl⟩ : ∃ d, l = 57 - d := ⟨57 - l, by omega⟩
  rw [firstCode, firstCode, show 58 - (57 - d) = 58 - (57 - d + 1) + 1 by omega, firstCodeBelow]
  congr 3
  omega

theorem firstCode_le (lens : List (Nat × Nat)) (l : Nat) : firstCode lens l ≤ lens.length := by
  rw [firstCode]
  induction 58 - l with
  | zero => exact Nat.zero_le _
  | succ d ih =>
    have count : lengthCount lens (58 - d) ≤ lens.length := List.countP_le_length
    rw [firstCodeBelow]
    omega

theorem firstCodesFrom_eq (lens : List (Nat × Nat)) {l : Nat} (h : l ≤ 58) (acc : List Nat) :
    firstCodesFrom lens l (firstCode lens l) acc = (List.range' 1 l).map (firstCode lens) ++ acc := by
  induction l generalizing acc with
  | zero => rfl
  | succ l ih =>
    rw [firstCodesFrom, ← firstCode_step lens h, ih (by omega), List.range'_1_concat, List.map_append, List.append_assoc,
      Nat.add_comm 1 l]
    rfl

theorem firstCodes_eq (lens : List (Nat × Nat)) : firstCodes lens = 0 :: (List.range' 1 58).map (firstCode lens) := by
  rw [firstCodes, show (0 : Nat) = firstCode lens 58 from rfl, firstCodesFrom_eq lens le_rfl, List.append_nil]

theorem firstCodes_getD (lens : List (Nat × Nat)) {l : Nat} (pos : 0 < l) (max : l ≤ 58) :
    (firstCodes lens).getD l 0 = firstCode lens l := by
  obtain ⟨k, rfl⟩ : ∃ k, l = k + 1 := ⟨l - 1, by omega⟩
  rw [firstCodes_eq, List.getD_cons_succ, List.getD_eq_getElem _ _ (by simp; omega)]
  simp [Nat.add_comm]

/-- How many symbols of the same length stand below a symbol. -/
abbrev rankInLength (lens : List (Nat × Nat)) (p : Nat × Nat) : Nat :=
  lens.countP fun q => decide (q.1 < p.1) && q.2 == p.2

/-- Symbols of a length take ascending codes from the next one of that length (41_huffman_encode.md R254). -/
theorem assignCodes_hcode {lens : List (Nat × Nat)} (rise : lens.Pairwise fun c d => c.1 < d.1) {n : List Nat}
    (size : ∀ p ∈ lens, p.2 < n.length) {p : Nat × Nat} (hp : p ∈ lens) :
    (assignCodes n lens).hcode p.1 = (n.getD p.2 0 + rankInLength lens p) % 2 ^ 58 := by
  induction lens generalizing n with
  | nil => simp at hp
  | cons c rest ih =>
    obtain ⟨s, l⟩ := c
    obtain ⟨above, rise⟩ := List.pairwise_cons.1 rise
    rw [assignCodes, CodeTable.hcode_cons, rankInLength, List.countP_cons]
    rcases List.mem_cons.1 hp with rfl | hp
    · have first : rest.countP (fun q => decide (q.1 < s) && q.2 == l) = 0 := by
        refine List.countP_eq_zero.2 fun q hq => ?_
        have := above q hq
        simp only at this
        simp only [Bool.and_eq_true, decide_eq_true_eq, not_and]
        omega
      simp [first, BitVec.toNat_ofNat]
    · have below : s < p.1 := above p hp
      rw [if_neg below.ne, ih rise (fun q hq => by rw [List.length_set]; exact size q (List.mem_cons_of_mem _ hq)) hp]
      by_cases same : l = p.2
      · have room : p.2 < n.length := size p (List.mem_cons_of_mem _ hp)
        rw [same, List.getD_eq_getElem _ _ (by rwa [List.length_set]), List.getElem_set_self]
        simp [below, Nat.add_assoc, Nat.add_comm 1]
      · simp [List.getD, List.getElem?_set_ne same, same]

theorem LengthsWf.length_le {lens : List (Nat × Nat)} (h : LengthsWf lens) : lens.length ≤ 65537 := by
  have nodup : (lens.map Prod.fst).Nodup := List.pairwise_map.2 (h.rise.imp Nat.ne_of_lt)
  have sub : lens.map Prod.fst ⊆ List.range 65537 := by
    intro k hk
    obtain ⟨p, hp, rfl⟩ := List.mem_map.1 hk
    exact List.mem_range.2 (h.range p hp).1
  simpa using (nodup.subperm sub).length_le

/-- The canonical code of a symbol (41_huffman_encode.md R254). -/
theorem canonicalCodes_hcode {lens : List (Nat × Nat)} (h : LengthsWf lens) {p : Nat × Nat} (hp : p ∈ lens) :
    (canonicalCodes lens).hcode p.1 = firstCode lens p.2 + rankInLength lens p := by
  have size : ∀ q ∈ lens, q.2 < (firstCodes lens).length := by
    intro q hq
    have := h.range q hq
    simp only [firstCodes_eq, List.length_cons, List.length_map, List.length_range']
    omega
  obtain ⟨-, pos, max⟩ := h.range p hp
  rw [canonicalCodes, assignCodes_hcode h.rise size hp, firstCodes_getD lens pos max]
  refine Nat.mod_eq_of_lt ?_
  have := firstCode_le lens p.2
  have : rankInLength lens p ≤ lens.length := List.countP_le_length
  have := h.length_le
  omega

theorem canonicalCodes_absent {lens : List (Nat × Nat)} {k : Nat} (h : ∀ p ∈ lens, p.1 ≠ k) :
    (canonicalCodes lens).hlen k = 0 ∧ (canonicalCodes lens).hcode k = 0 := by
  refine CodeTable.hlen_hcode_of_absent fun e he => ?_
  have listed : (e.sym, e.len) ∈ (canonicalCodes lens).lengths := List.mem_map_of_mem he
  rw [canonicalCodes, assignCodes_lengths] at listed
  obtain ⟨p, hp, same⟩ := List.mem_map.1 listed
  have sym : p.1 = e.sym := congrArg Prod.fst same
  exact sym ▸ h p hp

theorem canonicalCodes_hlen_of_mem {lens : List (Nat × Nat)} (h : LengthsWf lens) {p : Nat × Nat} (hp : p ∈ lens) :
    (canonicalCodes lens).hlen p.1 = p.2 := by
  rw [canonicalCodes_hlen h]
  exact sparseGet_mem 0 lens ((keysRise_iff_pairwise _).2 h.rise) p hp

/-! ### Kraft's equality -/

/-- The Kraft weight of lengths, in units of `2^-58` (41_huffman_encode.md R255). -/
def kraftWeight (lens : List (Nat × Nat)) : Nat := (lens.map fun p => 2 ^ (58 - p.2)).sum

theorem kraftWeight_cons (p : Nat × Nat) (lens : List (Nat × Nat)) :
    kraftWeight (p :: lens) = 2 ^ (58 - p.2) + kraftWeight lens := rfl

theorem kraftWeight_leaf (k : Nat) : kraftWeight [(k, 0)] = 2 ^ 58 := by
  rw [kraftWeight_cons]
  exact Nat.add_zero _

theorem kraftWeight_append (lens lens' : List (Nat × Nat)) :
    kraftWeight (lens ++ lens') = kraftWeight lens + kraftWeight lens' := by
  rw [kraftWeight, List.map_append, List.sum_append]
  rfl

/-- One bit more on every symbol halves the weight. -/
theorem kraftWeight_lengthen {chain : List (Nat × Nat)} (h : ∀ p ∈ chain, p.2 + 1 ≤ 58) :
    2 * kraftWeight (chain.map fun p => (p.1, p.2 + 1)) = kraftWeight chain := by
  induction chain with
  | nil => rfl
  | cons p rest ih =>
    obtain ⟨head, tail⟩ := List.forall_mem_cons.1 h
    rw [List.map_cons, kraftWeight_cons, kraftWeight_cons, Nat.mul_add, ih tail, ← pow_succ',
      show 58 - (p.2 + 1) + 1 = 58 - p.2 by omega]

/-- Every chain of the heap meets Kraft's equality, and so does the chain that the merges end with. -/
theorem mergeAll_kraftWeight {fuel : Nat} {heap : List HeapNode} {chain : List (Nat × Nat)} (ne : heap ≠ [])
    (hfuel : heap.length ≤ fuel + 1) (h : mergeAll fuel heap = .ok chain)
    (start : ∀ n ∈ heap, kraftWeight n.chain = 2 ^ 58) : kraftWeight chain = 2 ^ 58 := by
  refine mergeAll_induction (P := fun heap chain => (∀ n ∈ heap, kraftWeight n.chain = 2 ^ 58) → kraftWeight chain = 2 ^ 58)
    (fun n all => all n List.mem_cons_self) (fun mm m rest chain fits ih all => ih fun n hn => ?_) ne hfuel h start
  rcases List.mem_cons.1 ((heapInsert_perm _ rest).mem_iff.1 hn) with rfl | hn
  · have halves : 2 * kraftWeight (mergedChain m mm) = kraftWeight (m.chain ++ mm.chain) :=
      kraftWeight_lengthen fun p hp => fits _ (List.mem_map_of_mem hp)
    rw [kraftWeight_append, all m (by simp), all mm (by simp)] at halves
    show kraftWeight (mergedChain m mm) = 2 ^ 58
    omega
  · exact all n (List.mem_cons_of_mem _ (List.mem_cons_of_mem _ hn))

/-- Lengths that meet Kraft's equality, as those of an encoding do (41_huffman_encode.md R255). -/
structure CompleteLengths (lens : List (Nat × Nat)) : Prop extends LengthsWf lens where
  kraft : kraftWeight lens = 2 ^ 58

theorem encodeSamples_complete {xs : List Sample} {e : Encoded} (hne : xs ≠ []) (h : encodeSamples xs = .ok e) :
    ∃ lens, e.codes = canonicalCodes lens ∧ CompleteLengths lens := by
  obtain ⟨lens, codes, wf, ⟨chain, merged, same⟩, -⟩ := encodeSamples_lengths hne h
  have perm := initialHeap_perm (encoderAlphabet xs)
  have size := perm.length_eq
  rw [List.length_map] at size
  have weight := mergeAll_kraftWeight (List.ne_nil_of_length_pos (by rw [size]; simp)) (by omega) merged fun n hn => by
    obtain ⟨p, -, rfl⟩ := List.mem_map.1 (perm.mem_iff.1 hn)
    exact kraftWeight_leaf p.1
  exact ⟨lens, codes, wf, ((same.map _).sum_eq).trans weight⟩

/-! ### A code is the weight of the symbols before it -/

/-- The weight of a choice of the lengths that is another choice and then symbols of length `l`. -/
theorem kraftWeight_filter_or (lens : List (Nat × Nat)) {A B C : Nat × Nat → Bool} {l : Nat} (hC : ∀ p, C p = (A p || B p))
    (hB : ∀ p, B p = true → A p = false ∧ p.2 = l) :
    kraftWeight (lens.filter C) = kraftWeight (lens.filter A) + lens.countP B * 2 ^ (58 - l) := by
  induction lens with
  | nil => simp [kraftWeight]
  | cons p rest ih =>
    rw [List.filter_cons, List.filter_cons, List.countP_cons, hC]
    cases hb : B p with
    | true =>
      obtain ⟨notA, length⟩ := hB p hb
      simp only [notA, Bool.or_true, if_true, Bool.false_eq_true, if_false, kraftWeight_cons, ih, length]
      ring
    | false =>
      cases A p <;> simp only [Bool.or_false, Bool.false_eq_true, if_true, if_false, kraftWeight_cons, ih] <;> ring

/-- The weight of the longer lengths is a whole number of codes of length `l`, where Kraft's equality holds. -/
theorem dvd_kraftWeight_longer {lens : List (Nat × Nat)} (h : CompleteLengths lens) (l : Nat) :
    2 ^ (58 - l) ∣ kraftWeight (lens.filter fun p => l < p.2) := by
  have parts := ((List.filter_append_perm (fun p : Nat × Nat => decide (l < p.2)) lens).map
    fun p : Nat × Nat => 2 ^ (58 - p.2)).sum_eq
  have total : kraftWeight (lens.filter fun p => l < p.2) + kraftWeight (lens.filter fun p => !decide (l < p.2)) =
      2 ^ 58 := by
    rw [← kraftWeight_append]
    exact parts.trans h.kraft
  have shorter : 2 ^ (58 - l) ∣ kraftWeight (lens.filter fun p => !decide (l < p.2)) := by
    refine List.dvd_sum fun w hw => ?_
    obtain ⟨p, hp, rfl⟩ := List.mem_map.1 hw
    have := (List.mem_filter.1 hp).2
    simp only [Bool.not_eq_true', decide_eq_false_iff_not] at this
    exact pow_dvd_pow 2 (by omega)
  exact (Nat.dvd_add_left shorter).1 (total ▸ pow_dvd_pow 2 (Nat.sub_le 58 l))

/-- Where Kraft's equality holds, no halving of R254 rounds: the first code of a length is the weight of the longer
lengths. -/
theorem firstCode_mul {lens : List (Nat × Nat)} (h : CompleteLengths lens) {l : Nat} (hl : l ≤ 58) :
    firstCode lens l * 2 ^ (58 - l) = kraftWeight (lens.filter fun p => l < p.2) := by
  induction hd : 58 - l generalizing l with
  | zero =>
    obtain rfl : l = 58 := by omega
    rw [List.filter_eq_nil_iff.2 fun p hp => by simpa using (h.range p hp).2.2]
    rfl
  | succ d ih =>
    have next := ih (l := l + 1) (by omega) (by omega)
    have longer := kraftWeight_filter_or lens (A := fun p => decide (l + 1 < p.2)) (B := fun p => p.2 == l + 1)
      (C := fun p => decide (l < p.2)) (l := l + 1)
      (fun p => by rw [Bool.eq_iff_iff]; simp only [decide_eq_true_eq, Bool.or_eq_true, beq_iff_eq]; omega)
      (fun p hp => ⟨decide_eq_false (by rw [beq_iff_eq.1 hp]; omega), beq_iff_eq.1 hp⟩)
    have even := dvd_kraftWeight_longer h l
    rw [longer, ← next, show 58 - (l + 1) = d by omega, ← Nat.add_mul, hd, pow_succ'] at even
    have whole : 2 ∣ firstCode lens (l + 1) + lengthCount lens (l + 1) := Nat.dvd_of_mul_dvd_mul_right (by positivity) even
    rw [longer, ← next, show 58 - (l + 1) = d by omega, ← Nat.add_mul, firstCode_step lens (by omega), pow_succ',
      ← Nat.mul_assoc, Nat.div_mul_cancel whole]
    rfl

/-- The order of canonical codes: longer ones first, in ascending symbol order within a length (41_huffman_encode.md
R254). -/
abbrev precedes (q p : Nat × Nat) : Prop := p.2 < q.2 ∨ (q.2 = p.2 ∧ q.1 < p.1)

/-- The weight of the symbols before a symbol. -/
def weightBefore (lens : List (Nat × Nat)) (p : Nat × Nat) : Nat := kraftWeight (lens.filter fun q => precedes q p)

/-- A code, brought to 58 bits, is the weight of the symbols before it. -/
theorem canonicalCodes_hcode_mul {lens : List (Nat × Nat)} (h : CompleteLengths lens) {p : Nat × Nat} (hp : p ∈ lens) :
    (canonicalCodes lens).hcode p.1 * 2 ^ (58 - p.2) = weightBefore lens p := by
  rw [canonicalCodes_hcode h.toLengthsWf hp, Nat.add_mul, firstCode_mul h (h.range p hp).2.2, weightBefore]
  refine (kraftWeight_filter_or lens (fun q => ?_) fun q hq => ?_).symm
  · rw [Bool.decide_or, Bool.decide_and, Bool.and_comm (decide (q.1 < p.1))]
    rfl
  · simp only [Bool.and_eq_true, beq_iff_eq] at hq
    exact ⟨by simp [hq.2], hq.2⟩

/-- The codes of a symbol end before those of any choice that holds it and all symbols before it. -/
theorem weightBefore_add_le {lens : List (Nat × Nat)} {q : Nat × Nat} (hq : q ∈ lens) {D : Nat × Nat → Bool}
    (hD : ∀ r, precedes r q ∨ r = q → D r = true) :
    weightBefore lens q + 2 ^ (58 - q.2) ≤ kraftWeight (lens.filter D) := by
  have upto := kraftWeight_filter_or lens (A := fun r => precedes r q) (B := fun r => r == q)
    (C := fun r => decide (precedes r q) || r == q) (l := q.2) (fun r => rfl)
    (fun r hr => by obtain rfl := beq_iff_eq.1 hr; simp)
  have once : 0 < lens.countP fun r => r == q := List.countP_pos_iff.2 ⟨q, hq, by simp⟩
  have part : (lens.filter fun r => decide (precedes r q) || r == q).Sublist (lens.filter D) :=
    List.monotone_filter_right _ fun r hr => hD r (by simpa using hr)
  have weights : kraftWeight (lens.filter fun r => decide (precedes r q) || r == q) ≤ kraftWeight (lens.filter D) :=
    (part.map _).sum_le_sum fun _ _ => Nat.zero_le _
  calc weightBefore lens q + 2 ^ (58 - q.2)
      ≤ weightBefore lens q + lens.countP (fun r => r == q) * 2 ^ (58 - q.2) :=
        Nat.add_le_add_left (Nat.le_mul_of_pos_left _ once) _
    _ ≤ kraftWeight (lens.filter D) := upto ▸ weights

section
variable {lens : List (Nat × Nat)}

/-- The codes that begin with the code of `q`, brought to 58 bits, all lie below the code of a later symbol. -/
theorem canonicalCodes_apart (h : CompleteLengths lens) {p q : Nat × Nat} (hp : p ∈ lens) (hq : q ∈ lens)
    (before : precedes q p) :
    ((canonicalCodes lens).hcode q.1 + 1) * 2 ^ (58 - q.2) ≤ (canonicalCodes lens).hcode p.1 * 2 ^ (58 - p.2) := by
  rw [Nat.add_mul, Nat.one_mul, canonicalCodes_hcode_mul h hq, canonicalCodes_hcode_mul h hp]
  refine weightBefore_add_le hq fun r hr => decide_eq_true ?_
  rcases hr with hr | rfl
  · unfold precedes at *
    omega
  · exact before

/-- A code fits its length (41_huffman_encode.md R255). -/
theorem canonicalCodes_fits (h : CompleteLengths lens) {p : Nat × Nat} (hp : p ∈ lens) :
    (canonicalCodes lens).hcode p.1 < 2 ^ p.2 := by
  have upper := weightBefore_add_le hp (D := fun _ => true) fun _ _ => rfl
  rw [List.filter_true, h.kraft, ← canonicalCodes_hcode_mul h hp, ← Nat.succ_mul,
    show 2 ^ 58 = 2 ^ p.2 * 2 ^ (58 - p.2) by rw [← pow_add]; congr 1; have := (h.range p hp).2.2; omega] at upper
  exact Nat.le_of_mul_le_mul_right upper (by positivity)

/-- One of two symbols precedes the other. -/
theorem precedes_or {p q : Nat × Nat} (h : q.1 ≠ p.1) : precedes q p ∨ precedes p q := by
  unfold precedes
  omega

end

/-! ### Codes as bit strings -/

/-- A code that another one begins with is its high bits. -/
theorem shiftRight_of_bits_prefix {a b l m : Nat} (ha : a < 2 ^ l) (hb : b < 2 ^ m) (h : bits a l <+: bits b m) :
    l ≤ m ∧ b / 2 ^ (m - l) = a := by
  have shorter : l ≤ m := by simpa using h.length_le
  have split := bits_append (b / 2 ^ (m - l)) (b % 2 ^ (m - l)) l (m - l) (Nat.mod_lt _ (by positivity))
  rw [Nat.div_add_mod, Nat.add_sub_cancel' shorter] at split
  rw [split] at h
  have same := (List.prefix_of_prefix_length_le h (List.prefix_append _ _) (by simp)).eq_of_length (by simp)
  have high : b / 2 ^ (m - l) < 2 ^ l := by
    rw [Nat.div_lt_iff_lt_mul (by positivity), ← pow_add, Nat.add_sub_cancel' shorter]
    exact hb
  exact ⟨shorter, by rw [← natOfBits_bits high, ← same, natOfBits_bits ha]⟩

section
variable {lens : List (Nat × Nat)}

/-- No code begins another one (41_huffman_encode.md R255). -/
theorem canonicalCodes_prefixFree (h : CompleteLengths lens) {p q : Nat × Nat} (hp : p ∈ lens) (hq : q ∈ lens)
    (other : q.1 ≠ p.1) : ¬ (canonicalCodes lens).codeBits q.1 <+: (canonicalCodes lens).codeBits p.1 := by
  intro begins
  rw [CodeTable.codeBits, CodeTable.codeBits, canonicalCodes_hlen_of_mem h.toLengthsWf hp,
    canonicalCodes_hlen_of_mem h.toLengthsWf hq] at begins
  obtain ⟨shorter, high⟩ := shiftRight_of_bits_prefix (canonicalCodes_fits h hq) (canonicalCodes_fits h hp) begins
  have scale : 2 ^ (58 - q.2) = 2 ^ (p.2 - q.2) * 2 ^ (58 - p.2) := by
    rw [← pow_add]; congr 1; have := (h.range p hp).2.2; omega
  have range := Nat.div_add_mod ((canonicalCodes lens).hcode p.1) (2 ^ (p.2 - q.2))
  have low := Nat.mod_lt ((canonicalCodes lens).hcode p.1) (show 0 < 2 ^ (p.2 - q.2) by positivity)
  rw [high, Nat.mul_comm] at range
  rcases precedes_or other with before | after
  · have apart := canonicalCodes_apart h hp hq before
    rw [scale, ← Nat.mul_assoc] at apart
    have := Nat.le_of_mul_le_mul_right apart (by positivity)
    rw [Nat.add_mul, Nat.one_mul] at this
    omega
  · have apart := canonicalCodes_apart h hq hp after
    rw [scale, ← Nat.mul_assoc] at apart
    have := Nat.le_of_mul_le_mul_right apart (by positivity)
    omega

/-- A longer code stands before every shorter one (41_huffman_encode.md R254). -/
theorem canonicalCodes_longer_first (h : CompleteLengths lens) {p q : Nat × Nat} (hp : p ∈ lens) (hq : q ∈ lens)
    (longer : p.2 < q.2) :
    (canonicalCodes lens).hcode q.1 >>> (q.2 - p.2) < (canonicalCodes lens).hcode p.1 := by
  have apart := canonicalCodes_apart h hp hq (.inl longer)
  rw [show 58 - p.2 = q.2 - p.2 + (58 - q.2) by have := (h.range q hq).2.2; omega, pow_add, ← Nat.mul_assoc] at apart
  rw [Nat.shiftRight_eq_div_pow, Nat.div_lt_iff_lt_mul (by positivity)]
  exact Nat.le_of_mul_le_mul_right apart (by positivity)

/-- Codes of one length ascend with their symbols (41_huffman_encode.md R255). -/
theorem canonicalCodes_ascend (h : CompleteLengths lens) {p q : Nat × Nat} (hp : p ∈ lens) (hq : q ∈ lens)
    (same : q.2 = p.2) (below : q.1 < p.1) : (canonicalCodes lens).hcode q.1 < (canonicalCodes lens).hcode p.1 := by
  have apart := canonicalCodes_apart h hp hq (.inr ⟨same, below⟩)
  rw [same] at apart
  exact Nat.le_of_mul_le_mul_right apart (by positivity)

/-- A symbol with a code is listed with its length. -/
theorem mem_of_canonicalCodes_hlen (h : LengthsWf lens) {k : Nat} (hk : (canonicalCodes lens).hlen k ≠ 0) :
    (k, (canonicalCodes lens).hlen k) ∈ lens := by
  have listed : ∃ p ∈ lens, p.1 = k := by
    by_contra absent
    exact hk (canonicalCodes_absent fun p hp same => absent ⟨p, hp, same⟩).1
  rw [canonicalCodes_hlen h]
  exact sparseGet_mem_of_key 0 listed

end

/-- Settles O24: the recurrence holds for all lengths; those of an encoding meet Kraft's equality, so that each code is the
weight of the symbols before it. -/
theorem canonicalCodesArePrefixFree : Obligations.CanonicalCodesArePrefixFree := by
  unfold Obligations.CanonicalCodesArePrefixFree
  constructor
  · intro lens rise range
    have wf : LengthsWf lens := ⟨rise, range⟩
    exact ⟨firstCode lens, rfl, fun l _ hl => firstCode_step lens hl,
      fun p hp => ⟨canonicalCodes_hlen_of_mem wf hp, canonicalCodes_hcode wf hp⟩, fun k hk => canonicalCodes_absent hk⟩
  · intro xs e hne he
    obtain ⟨lens, codes, h⟩ := encodeSamples_complete hne he
    have listed {k : Nat} (hk : e.codes.hlen k ≠ 0) : (k, e.codes.hlen k) ∈ lens := by
      rw [codes] at hk ⊢
      exact mem_of_canonicalCodes_hlen h.toLengthsWf hk
    have lengths : (e.codes.map fun c => (c.sym, c.len.toNat)) = lens := codes ▸ canonicalCodes_lens h.toLengthsWf
    refine ⟨lengths.symm ▸ codes, fun k => ?_, fun j k other hj hk => ?_, ?_, fun j k below same hj => ?_,
      fun j k hk longer => ?_⟩
    · by_cases coded : e.codes.hlen k = 0
      · have absent : (canonicalCodes lens).hcode k = 0 := by
          refine (canonicalCodes_absent fun p hp same => ?_).2
          rw [codes, ← same, canonicalCodes_hlen_of_mem h.toLengthsWf hp] at coded
          exact (h.range p hp).2.1.ne' coded
        rw [coded, codes, absent]
        exact Nat.one_pos
      · have fits := canonicalCodes_fits h (listed coded)
        rwa [← codes] at fits
    · have free := canonicalCodes_prefixFree h (listed hk) (listed hj) other
      rwa [← codes] at free
    · have weight := h.kraft
      rwa [← lengths, kraftWeight, List.map_map] at weight
    · have order := canonicalCodes_ascend h (listed (same ▸ hj)) (listed hj) same below
      rwa [← codes] at order
    · have order := canonicalCodes_longer_first h (listed hk) (listed (k := j) (by omega)) longer
      rwa [← codes] at order

end Sys2Proof.Machine
end

section
/-! SUPPORT and the proof of O26: HUF_UNCOMPRESS on a bus that serves its operands, stage by stage (42_huffman_decode.md R300
to R320). -/

namespace Sys2Proof.Machine

/-! ### The packed table -/

theorem TableReader.get_clean {rd : Nat → Bool} {k : Nat} {r : TableReader}
    (clean : ∀ j < r.fetched + r.rest.length, rd j = false) : r.get rd k = r.get (fun _ => false) k := by
  unfold TableReader.get
  split
  · rfl
  · split
    · rfl
    · rename_i hrest
      rw [clean _ (by rw [hrest, List.length_cons]; omega)]

/-- Where no byte that the reader can fetch fails, the table unpacks as on a bus without errors. -/
theorem unpackFrom_clean {rd : Nat → Bool} {iM fuel i : Nat} {r : TableReader}
    (clean : ∀ j < r.fetched + r.rest.length, rd j = false) :
    unpackFrom rd iM fuel i r = unpackFrom (fun _ => false) iM fuel i r := by
  induction fuel generalizing i r with
  | zero => rfl
  | succ fuel ih =>
    rw [unpackFrom, unpackFrom, TableReader.get_clean clean]
    split
    · rfl
    cases first : r.get (fun _ => false) 6 with
    | error e => rfl
    | ok p =>
      obtain ⟨l, r'⟩ := p
      rw [← TableReader.get_budget first] at clean
      dsimp only
      split
      · rw [TableReader.get_clean clean]
        cases second : r'.get (fun _ => false) 8 with
        | error e => rfl
        | ok p =>
          obtain ⟨c, r''⟩ := p
          rw [← TableReader.get_budget second] at clean
          dsimp only
          rw [ih clean]
      · rw [ih clean, ih clean]

/-! ### The coded stream -/

section
variable {rd wr : Nat → Nat → Bool} {size no : Nat} (reads : ∀ pos k, pos + k ≤ size → rd pos k = false)
  (writes : ∀ out k, out + k ≤ no → wr out k = false)
include reads

theorem findLong_clean (d : Decoding) (t : CodeTable) : findLong rd size d t = findLong noFault size d t := by
  induction t with
  | nil => rfl
  | cons c rest ih =>
    rw [findLong, findLong, ih]
    split
    · rename_i inside
      rw [reads _ _ inside]
    · rfl

include writes

theorem emit_clean {stop : Nat} (inside : stop ≤ size) (iM sym : Nat) (d : Decoding) :
    emit rd wr iM no sym stop d = emit noFault noFault iM no sym stop d := by
  unfold emit
  dsimp only
  split
  · split
    · rfl
    · rename_i counted
      rw [reads _ _ (by omega)]
      simp only [Bool.false_eq_true, if_false]
      split
      · rfl
      · rename_i fits
        split
        · rfl
        · rw [writes _ _ (not_not.1 fits)]
          rfl
  · split
    · rfl
    · rename_i room
      rw [writes _ _ (by omega)]

theorem phase1_clean (placed : CodeTable) (iM fuel : Nat) (d : Decoding) :
    phase1 rd wr placed iM no size fuel d = phase1 noFault noFault placed iM no size fuel d := by
  have turn (d : Decoding) (inside : d.pos + Config.hufDecBits ≤ size) :
      phase1Step rd wr placed iM no size d = phase1Step noFault noFault placed iM no size d := by
    unfold phase1Step
    rw [reads _ _ inside]
    simp only [emit_clean reads writes le_rfl, findLong_clean reads]
  induction fuel generalizing d with
  | zero => rfl
  | succ fuel ih =>
    rw [phase1, phase1]
    split
    · rename_i inside
      rw [turn d inside]
      simp only [ih]
    · rfl

theorem phase2_clean {nBits : Nat} (inside : nBits ≤ size) (placed : CodeTable) (iM fuel : Nat) (d : Decoding) :
    phase2 rd wr placed iM no nBits fuel d = phase2 noFault noFault placed iM no nBits fuel d := by
  have turn (d : Decoding) (more : d.pos < nBits) :
      phase2Step rd wr placed iM no nBits d = phase2Step noFault noFault placed iM no nBits d := by
    unfold phase2Step
    dsimp only
    rw [reads _ _ (by omega)]
    simp only [emit_clean reads writes inside]
  induction fuel generalizing d with
  | zero => rfl
  | succ fuel ih =>
    rw [phase2, phase2]
    split
    · rename_i more
      rw [turn d more]
      simp only [ih]
    · rfl

/-- Where no access that the decoder can make fails, the stream decodes as on a bus without errors. -/
theorem decodeStream_clean {nBits : Nat} (placed : CodeTable) (iM : Nat) {stream : Bits} (length : stream.length = size)
    (inside : nBits ≤ size) :
    decodeStream rd wr placed iM no nBits stream = decodeStream noFault noFault placed iM no nBits stream := by
  subst length
  unfold decodeStream
  simp only [phase1_clean reads writes, phase2_clean reads writes inside]

end

/-! ### The stages of HUF_UNCOMPRESS -/

theorem ofExcept_of_ok {α : Type} {x : Except ErrCode α} {v : α} (h : x = .ok v) (s : State) : ofExcept x s = .ok v s :=
  h ▸ ofExcept_ok v s

theorem ofExcept_of_error {α : Type} {x : Except ErrCode α} {e : ErrCode} (h : x = .error e) (s : State) :
    ofExcept x s = .error ⟨e, false⟩ s :=
  h ▸ ofExcept_error e s

section
variable {s : State} {a n d no : Nat}

theorem hufUncompress_short (hn : n < 20) :
    hufUncompress a n d no s = if no = 0 then .ok {} s else .error ⟨.notEnoughData, false⟩ s := by
  rw [hufUncompress, if_pos hn]
  split
  · rename_i nothing
    rw [Run.bind_of_ok (require_ok _ (by simp [nothing]))]
    rfl
  · rename_i expected
    exact Run.bind_of_error (require_fails _ (by simp [expected]))

/-- The checks of a block's header, then the rest of the decoder (42_huffman_decode.md R301). -/
theorem hufUncompress_header (wf : s.mem.wf = true) (hn : 20 ≤ n) (reads : s.readFails a n = false) :
    hufUncompress a n d no s = (do
      require (s.mem.word a < 65537 && s.mem.word (a + 4) < 65537) .invalidTableSize
      require (s.mem.word (a + 12) ≤ 2147483647 && 20 + byteCount (s.mem.word (a + 12)) ≤ n) .notEnoughData
      hufUncompressBody a n d no (s.mem.word a) (s.mem.word (a + 4)) (s.mem.word (a + 12)) : Run HufInfo) s := by
  have word (b : Nat) (lo : a ≤ b) (hi : b + 4 ≤ a + n) : rdLe b 4 s = .ok (s.mem.word b) s := by
    rw [rdLe_ok (spansMeet_part _ _ _ _ _ reads lo hi), Memory.leNat_bytes_four wf]
  rw [hufUncompress, if_neg (by simp only [Config.hufHdr]; omega), Run.bind_of_ok (word a (by omega) (by omega)),
    Run.bind_of_ok (word (a + 4) (by omega) (by omega)), Run.bind_of_ok (word (a + 12) (by omega) (by omega))]
  rfl

variable {im iM nBits q : Nat} {lens : List (Nat × Nat)}

/-- A header whose checks pass (42_huffman_decode.md R301). -/
structure Memory.holdsHeader (m : Memory) (a n im iM nBits : Nat) : Prop where
  size : 20 ≤ n
  imWord : m.word a = im
  iMWord : m.word (a + 4) = iM
  bitsWord : m.word (a + 12) = nBits
  bounds : im < 65537 ∧ iM < 65537
  bits : nBits ≤ 2147483647 ∧ 20 + byteCount nBits ≤ n

theorem hufUncompress_badBounds (wf : s.mem.wf = true) (hn : 20 ≤ n) (reads : s.readFails a n = false)
    (bad : 65537 ≤ s.mem.word a ∨ 65537 ≤ s.mem.word (a + 4)) :
    hufUncompress a n d no s = .error ⟨.invalidTableSize, false⟩ s := by
  rw [hufUncompress_header wf hn reads]
  refine Run.bind_of_error (require_fails _ ?_)
  rw [Bool.and_eq_false_iff, decide_eq_false_iff_not, decide_eq_false_iff_not]
  omega

theorem hufUncompress_badBits (wf : s.mem.wf = true) (hn : 20 ≤ n) (reads : s.readFails a n = false)
    (bounds : s.mem.word a < 65537 ∧ s.mem.word (a + 4) < 65537)
    (bad : 2147483647 < s.mem.word (a + 12) ∨ n < 20 + byteCount (s.mem.word (a + 12))) :
    hufUncompress a n d no s = .error ⟨.notEnoughData, false⟩ s := by
  rw [hufUncompress_header wf hn reads, Run.bind_of_ok (require_ok _ (by simp [bounds]))]
  refine Run.bind_of_error (require_fails _ ?_)
  rw [Bool.and_eq_false_iff, decide_eq_false_iff_not, decide_eq_false_iff_not]
  omega

theorem hufUncompress_eq_body_of_header (wf : s.mem.wf = true) (reads : s.readFails a n = false)
    (header : s.mem.holdsHeader a n im iM nBits) :
    hufUncompress a n d no s = hufUncompressBody a n d no im iM nBits s := by
  obtain ⟨size, rfl, rfl, rfl, bounds, bits⟩ := header
  rw [hufUncompress_header wf size reads, Run.bind_of_ok (require_ok _ (by simp [bounds])),
    Run.bind_of_ok (require_ok _ (by simp [bits]))]

theorem unpackTable_source (reads : s.readFails a n = false) (hn : 20 ≤ n) :
    unpackTable (fun j => s.readFails (a + 20 + j) 1) (s.mem.bytes (a + 20) (n - 20)) im iM =
      unpackTable (fun _ => false) (s.mem.bytes (a + 20) (n - 20)) im iM := by
  refine unpackFrom_clean fun j hj => spansMeet_part _ _ _ _ _ reads (by omega) ?_
  simp only [Memory.bytes_length] at hj
  omega

/-- An error of the packed table ends the decoder before the code table is there (42_huffman_decode.md R302, R303). -/
theorem hufUncompressBody_unpackFails (reads : s.readFails a n = false) (hn : 20 ≤ n) {e : ErrCode}
    (unpack : unpackTable (fun _ => false) (s.mem.bytes (a + 20) (n - 20)) im iM = .error e) :
    hufUncompressBody a n d no im iM nBits s = .error ⟨e, false⟩ s := by
  refine (Run.bind_of_ok (x := get) rfl).trans (Run.bind_of_error ?_)
  rw [unpackTable_source reads hn, unpack]
  rfl

/-- Past the packed table the decoder has the block's code table (42_huffman_decode.md R306, R307, R312). -/
theorem hufUncompressBody_unpacked (reads : s.readFails a n = false) (hn : 20 ≤ n)
    (unpack : unpackTable (fun _ => false) (s.mem.bytes (a + 20) (n - 20)) im iM = .ok (lens, q)) :
    hufUncompressBody a n d no im iM nBits s = (do
      require (nBits ≤ 8 * (n - 20 - q)) .invalidNbits
      let placed ← buildStage (canonicalCodes lens)
      let xs ← ofExcept (decodeStream (s.bitsFail (a + 20 + q)) (fun k m => s.writeFails (d + 2 * k) (2 * m)) placed iM no
        nBits (bitsOfBytes (s.mem.bytes (a + 20 + q) (byteCount nBits))))
      modify fun s' => s'.withMem (s'.mem.write d (bytesOfSamples xs))
      pure { count := no, im := im, iM := iM, tableBytes := q, nBits := nBits } : Run HufInfo)
        (s.withCodes (canonicalCodes lens)) := by
  refine (Run.bind_of_ok (x := get) rfl).trans ?_
  dsimp only
  rw [unpackTable_source reads hn, unpack]
  exact (Run.bind_of_ok (ofExcept_ok _ _)).trans (Run.bind_of_ok (Run.modify_eq _ _))

theorem hufUncompressBody_noRoom (reads : s.readFails a n = false) (hn : 20 ≤ n)
    (unpack : unpackTable (fun _ => false) (s.mem.bytes (a + 20) (n - 20)) im iM = .ok (lens, q))
    (room : 8 * (n - 20 - q) < nBits) :
    hufUncompressBody a n d no im iM nBits s = .error ⟨.invalidNbits, false⟩ (s.withCodes (canonicalCodes lens)) := by
  rw [hufUncompressBody_unpacked reads hn unpack]
  exact Run.bind_of_error (require_fails _ (decide_eq_false (Nat.not_le.2 room)))

theorem hufUncompressBody_badEntry (reads : s.readFails a n = false) (hn : 20 ≤ n)
    (unpack : unpackTable (fun _ => false) (s.mem.bytes (a + 20) (n - 20)) im iM = .ok (lens, q))
    (room : nBits ≤ 8 * (n - 20 - q)) {f : CodeEntry} (build : (buildDecode [] (canonicalCodes lens)).2 = some f) :
    hufUncompressBody a n d no im iM nBits s =
      .error ⟨.invalidTableEntry, false⟩ (s.withCodes (freeFailing (canonicalCodes lens) f s.fresh)) := by
  rw [hufUncompressBody_unpacked reads hn unpack, Run.bind_of_ok (require_ok _ (decide_eq_true room))]
  refine Run.bind_of_error ?_
  rw [buildStage_eq]
  generalize buildDecode [] (canonicalCodes lens) = p at build
  obtain ⟨placed, failing⟩ := p
  cases build
  rfl

/-- The access for coded bits inside the block does not fail where the block is read (42_huffman_decode.md R313). -/
theorem bitsFail_source {base : Nat} (reads : s.readFails a n = false) (lo : a ≤ base) (hi : base + byteCount nBits ≤ a + n)
    {pos k : Nat} (inside : pos + k ≤ 8 * byteCount nBits) : s.bitsFail base pos k = false :=
  spansMeet_part _ _ _ _ _ reads (by omega) (by omega)

/-- Where the decode tables are built, the coded stream decides (42_huffman_decode.md R313 to R317). -/
theorem hufUncompressBody_eq_stream (reads : s.readFails a n = false) (writes : s.writeFails d (2 * no) = false)
    (hn : 20 ≤ n) (unpack : unpackTable (fun _ => false) (s.mem.bytes (a + 20) (n - 20)) im iM = .ok (lens, q))
    (room : nBits ≤ 8 * (n - 20 - q)) (build : (buildDecode [] (canonicalCodes lens)).2 = none) :
    hufUncompressBody a n d no im iM nBits s = (do
      let xs ← ofExcept (decodeStream noFault noFault (buildDecode [] (canonicalCodes lens)).1 iM no nBits
        (bitsOfBytes (s.mem.bytes (a + 20 + q) (byteCount nBits))))
      modify fun s' => s'.withMem (s'.mem.write d (bytesOfSamples xs))
      pure { count := no, im := im, iM := iM, tableBytes := q, nBits := nBits } : Run HufInfo)
        (s.withCodes (canonicalCodes lens)) := by
  have built : buildStage (canonicalCodes lens) (s.withCodes (canonicalCodes lens)) =
      .ok (buildDecode [] (canonicalCodes lens)).1 (s.withCodes (canonicalCodes lens)) := by
    rw [buildStage_eq]
    generalize buildDecode [] (canonicalCodes lens) = p at build
    obtain ⟨placed, failing⟩ := p
    cases build
    rfl
  have tableFits : q ≤ n - 20 := (unpackTable_le unpack).trans_eq (Memory.bytes_length ..)
  have count : byteCount nBits ≤ n - 20 - q := by rw [byteCount]; omega
  have stream := decodeStream_clean (rd := s.bitsFail (a + 20 + q)) (wr := fun k m => s.writeFails (d + 2 * k) (2 * m))
    (size := 8 * byteCount nBits) (no := no) (nBits := nBits)
    (fun pos k => bitsFail_source reads (by omega) (by omega))
    (fun out k inside => spansMeet_part _ _ _ _ _ writes (by omega) (by omega))
    (buildDecode [] (canonicalCodes lens)).1 iM (stream := bitsOfBytes (s.mem.bytes (a + 20 + q) (byteCount nBits)))
    (by rw [bitsOfBytes_length, Memory.bytes_length]) (by rw [byteCount]; omega)
  rw [hufUncompressBody_unpacked reads hn unpack, Run.bind_of_ok (require_ok _ (decide_eq_true room)), Run.bind_of_ok built,
    stream]

end

/-! ### HUF_UNCOMPRESS -/

/-- The operands of HUF_UNCOMPRESS pass its checks and the bus serves them (20_memory.md R95 to R102). -/
structure State.servesHufUncompress (s : State) : Prop where
  wf : s.mem.wf = true
  reaches : reachesData .hufUncompress s
  reads : s.readFails s.latched.srcAddr.toNat s.latched.srcLen.toNat = false
  writes : s.writeFails s.latched.dstAddr.toNat (2 * s.latched.dstLen.toNat) = false

/-- The decoder that HUF_UNCOMPRESS runs, from the state in which it starts (42_huffman_decode.md R320). -/
abbrev State.runHufUncompress (s : State) : EStateM.Result Raise State HufInfo :=
  hufUncompress s.latched.srcAddr.toNat s.latched.srcLen.toNat s.latched.dstAddr.toNat s.latched.dstLen.toNat
    (s.clearValid .hufUncompress)

/-- HUF_UNCOMPRESS writes to its destination only (30_encoding.md R137). -/
theorem hufUncompress_keptOutside {s t : State} (wf : s.mem.wf = true) (h : exec .hufUncompress s = .next t) :
    s.mem.keptOutside t.mem s.latched.dstAddr.toNat (2 * s.latched.dstLen.toNat) := by
  intro k hk
  refine (exec_memWithin wf h).read k ?_
  rintro ⟨-, r, hr, writes, lo, hi⟩
  simp only [regions, List.mem_cons, List.not_mem_nil, or_false] at hr
  obtain rfl | rfl := hr
  · cases writes
  · dsimp only at lo hi
    omega

/-- The tables that HUF_UNCOMPRESS does not write are as before (10_state.md R64). -/
theorem hufUncompress_otherTables {s t : State} (h : exec .hufUncompress s = .next t) :
    t.bitmap = s.bitmap ∧ t.lut = s.lut ∧ t.lutKind = s.lutKind :=
  ⟨exec_bitmap (by decide) h, exec_lut (by decide) h⟩

/-- A decoder that raises ends the command with its code, and leaves the code table as it was at the raise. -/
theorem execHufUncompress_of_raise {s s' : State} {e : ErrCode} (h : s.servesHufUncompress)
    (raises : s.runHufUncompress = .error ⟨e, false⟩ s') (he : e ≠ .ok) :
    ∃ t, exec .hufUncompress s = .next t ∧ s.completed t e {} ∧ t.codes = s'.codes
      ∧ s.mem.keptOutside t.mem s.latched.dstAddr.toNat (2 * s.latched.dstLen.toNat) := by
  obtain ⟨run, ends⟩ := exec_of_raise h.reaches (Run.bind_of_error (x := hufUncompress _ _ _ _) raises) he
  exact ⟨_, run, ends, State.failData_codes _ _ _, hufUncompress_keptOutside h.wf run⟩

theorem execHufUncompress_of_ok {s s' : State} {info : HufInfo} (h : s.servesHufUncompress)
    (answers : s.runHufUncompress = .ok info s') :
    ∃ t, exec .hufUncompress s = .next t ∧ s.completed t .ok (info.results s.latched.dstLen.toNat)
      ∧ t.mem = s'.mem ∧ t.codes = s'.codes := by
  obtain ⟨run, ends⟩ := exec_of_ok h.reaches (Run.bind_of_ok (x := hufUncompress _ _ _ _) answers)
  exact ⟨_, run, ends, rfl, rfl⟩

theorem Memory.sampleList_write {m : Memory} (wf : m.wf = true) (a : Nat) (xs : List Sample) :
    (m.write a (bytesOfSamples xs)).sampleList a xs.length = xs := by
  refine List.ext_getElem (by simp) fun k h hk => ?_
  simp only [Memory.sampleList, List.getElem_map, List.getElem_range]
  rw [Memory.sample_write _ _ _ _ wf hk, List.getD_eq_getElem]

/-- A block whose stages all pass decodes to its samples (42_huffman_decode.md R300). -/
theorem execHufUncompress_of_holds {s : State} {nBits q im iM : Nat} {c : CodeTable} {xs : List Sample}
    (h : s.servesHufUncompress)
    (holds : s.mem.holdsHuffman s.latched.srcAddr.toNat s.latched.srcLen.toNat s.latched.dstLen.toNat nBits q im iM c xs) :
    ∃ t, exec .hufUncompress s = .next t
      ∧ s.completed t .ok
        { len := BitVec.ofNat 32 s.latched.dstLen.toNat, nbits := BitVec.ofNat 32 nBits, im := BitVec.ofNat 32 im,
          imax := BitVec.ofNat 32 iM, tablen := BitVec.ofNat 32 q }
      ∧ t.mem = s.mem.write s.latched.dstAddr.toNat (bytesOfSamples xs) ∧ t.codes = some c := by
  obtain ⟨lens, unpack, rfl⟩ := holds.table
  have header : s.mem.holdsHeader s.latched.srcAddr.toNat s.latched.srcLen.toNat im iM nBits :=
    ⟨holds.header, holds.bounds.1, holds.bounds.2.1, holds.bitCount.1, holds.bounds.2.2, holds.bitCount.2⟩
  have body := (hufUncompress_eq_body_of_header (s := s.clearValid .hufUncompress) (d := s.latched.dstAddr.toNat)
    (no := s.latched.dstLen.toNat) h.wf h.reads header).trans
    (hufUncompressBody_eq_stream h.reads h.writes holds.header unpack holds.room holds.build)
  exact execHufUncompress_of_ok h (body.trans (Run.bind_of_ok (ofExcept_of_ok holds.stream _)))

/-- Settles O26: the decoder runs through its stages, each of which `holdsHuffman` says passes. -/
theorem hufUncompressResult : Obligations.HufUncompressResult := by
  unfold Obligations.HufUncompressResult
  intro s nBits q im iM c xs a n d no wf source dest apart reads writes
  have serves : s.servesHufUncompress := ⟨wf, hufUncompress_reachesData source dest apart, reads, writes⟩
  refine ⟨fun short nothing => ?_, fun short expected => ?_, fun holds => ?_⟩
  · obtain ⟨t, run, ends, mem, codes⟩ := execHufUncompress_of_ok serves
      ((hufUncompress_short short).trans (if_pos nothing))
    rw [show s.latched.dstLen.toNat = 0 from nothing] at ends
    exact ⟨t, run, ends, mem, codes, hufUncompress_otherTables run⟩
  · obtain ⟨t, run, ends, codes, kept⟩ := execHufUncompress_of_raise serves
      ((hufUncompress_short short).trans (if_neg expected.ne')) (by decide)
    exact ⟨t, run, ends, kept, codes, hufUncompress_otherTables run⟩
  · obtain ⟨t, run, ends, mem, codes⟩ := execHufUncompress_of_holds serves holds
    have length : xs.length = no := decodeStream_length holds.stream
    refine ⟨t, run, ends, length, ?_, hufUncompress_keptOutside wf run, codes, hufUncompress_otherTables run⟩
    rw [mem, ← length]
    exact Memory.sampleList_write wf d xs

end Sys2Proof.Machine
end

section
/-! SUPPORT and the proof of O28: which entries the decode tables take (42_huffman_decode.md R312), and the errors between the
packed table and the stream. -/

namespace Sys2Proof.Machine

/-! ### The code of an entry -/

/-- The code of an entry as a bit string. -/
def CodeEntry.codeBits (e : CodeEntry) : Bits := bits e.code.toNat e.len.toNat

@[simp] theorem CodeEntry.codeBits_length (e : CodeEntry) : e.codeBits.length = e.len.toNat := bits_length ..

theorem CodeEntry.fits_iff (e : CodeEntry) : e.fits = true ↔ e.code.toNat < 2 ^ e.len.toNat := by
  rw [CodeEntry.fits, beq_iff_eq, Nat.shiftRight_eq_div_pow, Nat.div_eq_zero_iff_lt (by positivity)]

theorem CodeEntry.isShort_iff (e : CodeEntry) : e.isShort = true ↔ e.len.toNat ≤ 14 := decide_eq_true_iff

theorem CodeTable.hcode_of_mem {t : CodeTable} (wf : CodeTable.wf t = true) {e : CodeEntry} (he : e ∈ t) :
    t.hcode e.sym = e.code.toNat := by
  induction t with
  | nil => simp at he
  | cons c rest ih =>
    obtain ⟨above, -, wf⟩ := CodeTable.wf_cons.1 wf
    rw [CodeTable.hcode_cons]
    rcases List.mem_cons.1 he with rfl | he
    · rw [if_pos rfl]
    · rw [if_neg (above e he).ne, ih wf he]

theorem CodeTable.codeBits_of_mem {t : CodeTable} (wf : CodeTable.wf t = true) {e : CodeEntry} (he : e ∈ t) :
    t.codeBits e.sym = e.codeBits := by
  rw [CodeTable.codeBits, CodeTable.hcode_of_mem wf he, CodeTable.hlen_of_mem wf he]
  rfl

theorem CodeTable.len_pos {t : CodeTable} (wf : CodeTable.wf t = true) {e : CodeEntry} (he : e ∈ t) : 0 < e.len.toNat :=
  (((CodeTable.wf_iff t).1 wf).2 _ (List.mem_map_of_mem he)).2.1

/-- The entries of a table in the strict form have different symbols. -/
theorem CodeTable.eq_of_sym {t : CodeTable} (wf : CodeTable.wf t = true) {e f : CodeEntry} (he : e ∈ t) (hf : f ∈ t)
    (same : e.sym = f.sym) : e = f := by
  have rise := ((CodeTable.wf_iff t).1 wf).1
  rw [CodeTable.lengths, List.pairwise_map] at rise
  exact List.inj_on_of_nodup_map (List.pairwise_map.2 (rise.imp Nat.ne_of_lt)) he hf same

/-! ### Slots -/

/-- The high bits of a number spell the front of its spelling. -/
theorem bits_prefix_iff {a k l m : Nat} (ha : a < 2 ^ l) (hk : k < 2 ^ m) :
    bits a l <+: bits k m ↔ l ≤ m ∧ k / 2 ^ (m - l) = a := by
  refine ⟨shiftRight_of_bits_prefix ha hk, ?_⟩
  rintro ⟨shorter, rfl⟩
  have split := bits_append (k / 2 ^ (m - l)) (k % 2 ^ (m - l)) l (m - l) (Nat.mod_lt _ (by positivity))
  rw [Nat.div_add_mod, Nat.add_sub_cancel' shorter] at split
  exact ⟨_, split.symm⟩

section
variable {e f : CodeEntry} {k : Nat}

theorem CodeEntry.covers_iff : e.covers k = true ↔ e.slot ≤ k ∧ k < e.slot + e.slotCount := by
  rw [CodeEntry.covers, Bool.and_eq_true, decide_eq_true_iff, decide_eq_true_iff]

theorem CodeEntry.covers_iff_of_short (short : e.isShort = true) :
    e.covers k = true ↔ k / 2 ^ (14 - e.len.toNat) = e.code.toNat := by
  rw [CodeEntry.covers_iff, CodeEntry.slot, CodeEntry.slotCount, if_pos short, if_pos short, Nat.shiftLeft_eq, Nat.div_eq_iff
    (by positivity)]
  have : 0 < 2 ^ (14 - e.len.toNat) := by positivity
  simp only [Config.hufDecBits]
  omega

theorem CodeEntry.covers_iff_of_long (long : e.isShort = false) :
    e.covers k = true ↔ e.code.toNat / 2 ^ (e.len.toNat - 14) = k := by
  rw [CodeEntry.covers_iff, CodeEntry.slot, CodeEntry.slotCount, if_neg (by simp [long]), if_neg (by simp [long]),
    Nat.shiftRight_eq_div_pow]
  simp only [Config.hufDecBits]
  omega

/-- A code that fits belongs to slots of the decode table only (42_huffman_decode.md R312). -/
theorem CodeEntry.lt_of_covers (fits : e.fits = true) (h : e.covers k = true) : k < 2 ^ 14 := by
  rw [CodeEntry.fits_iff] at fits
  cases short : e.isShort with
  | true =>
    have len := e.isShort_iff.1 short
    rw [← (CodeEntry.covers_iff_of_short short).1 h, Nat.div_lt_iff_lt_mul (by positivity), ← pow_add,
      Nat.add_sub_cancel' len] at fits
    exact fits
  | false =>
    have len : ¬ e.len.toNat ≤ 14 := mt e.isShort_iff.2 (by simp [short])
    rw [← (CodeEntry.covers_iff_of_long short).1 h, Nat.div_lt_iff_lt_mul (by positivity), ← pow_add,
      Nat.add_sub_cancel' (Nat.le_of_not_le len)]
    exact fits

/-- A short code covers the slots that it begins (42_huffman_decode.md R312). -/
theorem CodeEntry.covers_iff_prefix (fits : e.fits = true) (short : e.isShort = true) (hk : k < 2 ^ 14) :
    e.covers k = true ↔ e.codeBits <+: bits k 14 := by
  rw [CodeEntry.covers_iff_of_short short, CodeEntry.codeBits, bits_prefix_iff (e.fits_iff.1 fits) hk,
    and_iff_right (e.isShort_iff.1 short)]

/-- A long code covers the slot that begins it (42_huffman_decode.md R312). -/
theorem CodeEntry.covers_iff_prefix_of_long (fits : e.fits = true) (long : e.isShort = false) (hk : k < 2 ^ 14) :
    e.covers k = true ↔ bits k 14 <+: e.codeBits := by
  have len : ¬ e.len.toNat ≤ 14 := mt e.isShort_iff.2 (by simp [long])
  rw [CodeEntry.covers_iff_of_long long, CodeEntry.codeBits, bits_prefix_iff hk (e.fits_iff.1 fits),
    and_iff_right (Nat.le_of_not_le len)]

theorem CodeEntry.covers_slot (e : CodeEntry) : e.covers e.slot = true := by
  have count : 0 < e.slotCount := by
    rw [CodeEntry.slotCount]
    split <;> positivity
  rw [CodeEntry.covers_iff]
  omega

theorem CodeEntry.conflicts_iff :
    e.conflicts f = true ↔ (e.isShort = true ∨ f.isShort = true) ∧ ∃ k, e.covers k = true ∧ f.covers k = true := by
  rw [CodeEntry.conflicts, Bool.and_eq_true, Bool.or_eq_true, rangesMeet_iff]
  simp only [CodeEntry.covers_iff]

theorem CodeEntry.conflicts_comm : e.conflicts f = f.conflicts e := by
  rw [Bool.eq_iff_iff, CodeEntry.conflicts_iff, CodeEntry.conflicts_iff]
  simp only [or_comm, and_comm]

/-- A short code that begins another one shares a slot with it. -/
theorem CodeEntry.conflicts_of_prefix (he : e.fits = true) (hf : f.fits = true) (short : e.isShort = true)
    (begins : e.codeBits <+: f.codeBits) : e.conflicts f = true := by
  have slot := CodeEntry.lt_of_covers hf f.covers_slot
  refine CodeEntry.conflicts_iff.2 ⟨.inl short, f.slot, (CodeEntry.covers_iff_prefix he short slot).2 ?_, f.covers_slot⟩
  cases other : f.isShort with
  | true => exact begins.trans ((CodeEntry.covers_iff_prefix hf other slot).1 f.covers_slot)
  | false =>
    refine List.prefix_of_prefix_length_le begins ((CodeEntry.covers_iff_prefix_of_long hf other slot).1 f.covers_slot) ?_
    rw [e.codeBits_length, bits_length]
    exact e.isShort_iff.1 short

/-- Two codes conflict when one of them is short and begins the other (42_huffman_decode.md R312). -/
theorem CodeEntry.conflicts_iff_prefix (he : e.fits = true) (hf : f.fits = true) :
    e.conflicts f = true ↔
      (e.isShort = true ∧ e.codeBits <+: f.codeBits) ∨ (f.isShort = true ∧ f.codeBits <+: e.codeBits) := by
  constructor
  · intro h
    obtain ⟨short, k, hek, hfk⟩ := CodeEntry.conflicts_iff.1 h
    have slot := CodeEntry.lt_of_covers he hek
    cases shortE : e.isShort with
    | true =>
      have front := (CodeEntry.covers_iff_prefix he shortE slot).1 hek
      cases shortF : f.isShort with
      | true =>
        exact (List.prefix_or_prefix_of_prefix front ((CodeEntry.covers_iff_prefix hf shortF slot).1 hfk)).imp
          (⟨rfl, ·⟩) (⟨rfl, ·⟩)
      | false => exact .inl ⟨rfl, front.trans ((CodeEntry.covers_iff_prefix_of_long hf shortF slot).1 hfk)⟩
    | false =>
      have shortF : f.isShort = true := short.resolve_left (by simp [shortE])
      exact .inr ⟨shortF, ((CodeEntry.covers_iff_prefix hf shortF slot).1 hfk).trans
        ((CodeEntry.covers_iff_prefix_of_long he shortE slot).1 hek)⟩
  · rintro (⟨short, begins⟩ | ⟨short, begins⟩)
    · exact CodeEntry.conflicts_of_prefix he hf short begins
    · exact CodeEntry.conflicts_comm.trans (CodeEntry.conflicts_of_prefix hf he short begins)

end

/-! ### The build -/

/-- The build places every entry when each fits and conflicts with none before it (42_huffman_decode.md R312). -/
theorem buildDecode_eq_none_iff (placed t : CodeTable) :
    (buildDecode placed t).2 = none ↔
      (∀ e ∈ t, e.fits = true ∧ ∀ p ∈ placed, e.conflicts p = false) ∧ t.Pairwise fun e f => f.conflicts e = false := by
  induction t generalizing placed with
  | nil => simp [buildDecode]
  | cons e rest ih =>
    rw [buildDecode]
    split
    · rename_i passes
      rw [Bool.and_eq_true, Bool.not_eq_true', List.any_eq_false] at passes
      simp only [Bool.not_eq_true] at passes
      rw [ih, List.forall_mem_cons, List.pairwise_cons, and_iff_right passes]
      simp only [List.forall_mem_append, List.forall_mem_singleton, forall_and]
      tauto
    · rename_i fails
      refine iff_of_false (by simp) fun h => fails ?_
      obtain ⟨fits, free⟩ := h.1 e List.mem_cons_self
      rw [Bool.and_eq_true, Bool.not_eq_true', List.any_eq_false]
      exact ⟨fits, fun p hp => by simp [free p hp]⟩

theorem buildDecode_placed {placed t : CodeTable} (h : (buildDecode placed t).2 = none) :
    (buildDecode placed t).1 = placed ++ t := by
  induction t generalizing placed with
  | nil => exact (List.append_nil _).symm
  | cons e rest ih =>
    rw [buildDecode] at h ⊢
    split at h
    · rename_i passes
      rw [if_pos passes, ih h, List.append_assoc]
      rfl
    · cases h

theorem buildDecode_mem {placed t : CodeTable} {f : CodeEntry} (h : (buildDecode placed t).2 = some f) : f ∈ t := by
  induction t generalizing placed with
  | nil => cases h
  | cons e rest ih =>
    rw [buildDecode] at h
    split at h
    · exact List.mem_cons_of_mem _ (ih h)
    · cases h
      exact List.mem_cons_self

theorem CodeTable.fits_iff {t : CodeTable} (wf : CodeTable.wf t = true) :
    (∀ k, t.hcode k < 2 ^ t.hlen k) ↔ ∀ e ∈ t, e.fits = true := by
  constructor
  · intro h e he
    have code := h e.sym
    rw [CodeTable.hcode_of_mem wf he, CodeTable.hlen_of_mem wf he] at code
    exact e.fits_iff.2 code
  · intro h k
    by_cases listed : ∃ e ∈ t, e.sym = k
    · obtain ⟨e, he, rfl⟩ := listed
      rw [CodeTable.hcode_of_mem wf he, CodeTable.hlen_of_mem wf he]
      exact e.fits_iff.1 (h e he)
    · obtain ⟨len, code⟩ := CodeTable.hlen_hcode_of_absent fun e he same => listed ⟨e, he, same⟩
      rw [len, code]
      exact Nat.one_pos

/-- The build passes exactly where the codes fit and no short one begins another (42_huffman_decode.md R312). -/
theorem buildDecode_passes_iff {t : CodeTable} (wf : CodeTable.wf t = true) :
    (buildDecode [] t).2 = none ↔
      (∀ k, t.hcode k < 2 ^ t.hlen k)
        ∧ ∀ j k, j ≠ k → t.hlen j ≠ 0 → t.hlen j ≤ 14 → t.hlen k ≠ 0 → ¬ t.codeBits j <+: t.codeBits k := by
  rw [buildDecode_eq_none_iff, CodeTable.fits_iff wf]
  simp only [List.not_mem_nil, false_implies, implies_true, and_true]
  refine and_congr_right fun fits => ⟨fun apart j k other hj short hk begins => ?_, fun apart => ?_⟩
  · obtain ⟨e, he, rfl⟩ := (CodeTable.hlen_ne_zero_iff wf j).1 hj
    obtain ⟨f, hf, rfl⟩ := (CodeTable.hlen_ne_zero_iff wf k).1 hk
    rw [CodeTable.codeBits_of_mem wf he, CodeTable.codeBits_of_mem wf hf] at begins
    rw [CodeTable.hlen_of_mem wf he] at short
    have symm : Std.Symm fun e f : CodeEntry => f.conflicts e = false := ⟨fun e f h => CodeEntry.conflicts_comm.trans h⟩
    have free := apart.forall he hf fun same => other (congrArg _ same)
    rw [CodeEntry.conflicts_comm,
      CodeEntry.conflicts_of_prefix (fits e he) (fits f hf) (e.isShort_iff.2 short) begins] at free
    cases free
  · have begins {e f : CodeEntry} (he : e ∈ t) (hf : f ∈ t) (other : e.sym ≠ f.sym) (short : e.isShort = true) :
        ¬ e.codeBits <+: f.codeBits := by
      have free := apart e.sym f.sym other
      rw [CodeTable.codeBits_of_mem wf he, CodeTable.codeBits_of_mem wf hf, CodeTable.hlen_of_mem wf he,
        CodeTable.hlen_of_mem wf hf] at free
      exact free (CodeTable.len_pos wf he).ne' (e.isShort_iff.1 short) (CodeTable.len_pos wf hf).ne'
    have rise := ((CodeTable.wf_iff t).1 wf).1
    rw [CodeTable.lengths, List.pairwise_map] at rise
    refine rise.imp_of_mem fun {e f} he hf below => eq_false_of_ne_true fun conflict => ?_
    rcases (CodeEntry.conflicts_iff_prefix (fits f hf) (fits e he)).1 conflict with ⟨short, h⟩ | ⟨short, h⟩
    · exact begins hf he (Nat.ne_of_gt below) short h
    · exact begins he hf (Nat.ne_of_lt below) short h

/-! ### The freed code -/

theorem freeFailing_hlen (t : CodeTable) (f : CodeEntry) (tick k : Nat) : (freeFailing t f tick).hlen k = t.hlen k := by
  rw [CodeTable.hlen_eq_sparseGet, CodeTable.hlen_eq_sparseGet, freeFailing, List.map_map]
  congr 2
  funext e
  simp only [Function.comp]
  split <;> rfl

theorem freeFailing_cons (e f : CodeEntry) (t : CodeTable) (tick : Nat) :
    freeFailing (e :: t) f tick =
      (if e.sym = f.sym then { e with code := Config.freeCode tick e.sym } else e) :: freeFailing t f tick := rfl

/-- Every code but the failing entry's is as before (10_state.md R62). -/
theorem freeFailing_hcode_of_ne (t : CodeTable) {f : CodeEntry} (tick : Nat) {k : Nat} (other : k ≠ f.sym) :
    (freeFailing t f tick).hcode k = t.hcode k := by
  induction t with
  | nil => rfl
  | cons e rest ih =>
    rw [freeFailing_cons, CodeTable.hcode_cons, CodeTable.hcode_cons, ih]
    split
    · rename_i failing
      rw [if_neg fun same => other (same.symm.trans failing), if_neg fun same => other (same.symm.trans failing)]
    · rfl

/-- The failing entry's code is the free value (10_state.md R62). -/
theorem freeFailing_hcode {t : CodeTable} {f : CodeEntry} (tick : Nat) (listed : ∃ e ∈ t, e.sym = f.sym) :
    (freeFailing t f tick).hcode f.sym = (Config.freeCode tick f.sym).toNat := by
  induction t with
  | nil => simp at listed
  | cons e rest ih =>
    rw [freeFailing_cons, CodeTable.hcode_cons]
    by_cases failing : e.sym = f.sym
    · rw [if_pos failing, if_pos failing, failing]
    · rw [if_neg failing, if_neg failing]
      exact ih ((List.exists_mem_cons_iff ..).1 listed |>.resolve_left failing)

/-- Settles O28: the raises after the packed table leave the code table that stands there; two entries conflict when a short
code begins the other. -/
theorem hufBadTableLeavesCodesValid : Obligations.HufBadTableLeavesCodesValid := by
  unfold Obligations.HufBadTableLeavesCodesValid
  refine ⟨?_, fun c wf => buildDecode_passes_iff wf⟩
  intro s lens q a n d no im iM nBits wf source dest apart reads writes size imLt iMLt bits fits unpack
  have serves : s.servesHufUncompress := ⟨wf, hufUncompress_reachesData source dest apart, reads, writes⟩
  have header : s.mem.holdsHeader a n im iM nBits := ⟨size, rfl, rfl, rfl, ⟨imLt, iMLt⟩, bits, fits⟩
  have body := hufUncompress_eq_body_of_header (s := s.clearValid .hufUncompress) (d := d) (no := no) wf reads header
  refine ⟨fun room => ?_, fun f room build => ?_⟩
  · exact execHufUncompress_of_raise serves (body.trans (hufUncompressBody_noRoom reads size unpack room)) (by decide)
  · obtain ⟨t, run, ends, codes, kept⟩ := execHufUncompress_of_raise serves
      (body.trans (hufUncompressBody_badEntry (s := s.clearValid .hufUncompress) reads size unpack room build)) (by decide)
    exact ⟨t, _, run, ends, codes, freeFailing_hlen _ f s.fresh, fun k other => freeFailing_hcode_of_ne _ _ other,
      freeFailing_hcode _ ⟨f, buildDecode_mem build, rfl⟩, kept⟩

end Sys2Proof.Machine
end

section
/-! SUPPORT. The code that a turn of the stream decoder takes: the one that begins the bits it looks at (42_huffman_decode.md
R311 to R315). -/

namespace Sys2Proof.Machine

/-! ### Bit strings as numbers -/

theorem bits_natOfBits (s : Bits) : bits (natOfBits s) s.length = s := by
  induction s using List.reverseRecOn with
  | nil => rfl
  | append_singleton s b ih =>
    rw [natOfBits_append_singleton, List.length_append, List.length_singleton, bits_snoc, ih]

theorem natOfBits_lt (s : Bits) : natOfBits s < 2 ^ s.length := by
  induction s using List.reverseRecOn with
  | nil => exact Nat.one_pos
  | append_singleton s b ih =>
    have := b.toNat_lt
    rw [natOfBits_append_singleton, List.length_append, List.length_singleton, pow_succ]
    omega

/-- Padding with zeros on the right shifts the number (42_huffman_decode.md R315). -/
theorem natOfBits_padded (s : Bits) (n : Nat) : natOfBits (s ++ List.replicate n false) = natOfBits s <<< n := by
  have spelled := bits_append (natOfBits s) 0 s.length n (by positivity)
  rw [bits_natOfBits, bits_zero, Nat.add_zero, Nat.mul_comm] at spelled
  rw [Nat.shiftLeft_eq, ← spelled, natOfBits_bits]
  rw [pow_add]
  exact (Nat.mul_lt_mul_right (by positivity)).2 (natOfBits_lt s)

/-- Bits begin with a code when the number at their front is the code. -/
theorem CodeEntry.codeBits_prefix_iff {e : CodeEntry} (fits : e.fits = true) (s : Bits) :
    e.codeBits <+: s ↔ e.len.toNat ≤ s.length ∧ natOfBits (s.take e.len.toNat) = e.code.toNat := by
  constructor
  · intro begins
    have front := List.prefix_iff_eq_take.1 begins
    rw [e.codeBits_length] at front
    refine ⟨e.codeBits_length ▸ begins.length_le, ?_⟩
    rw [← front, CodeEntry.codeBits, natOfBits_bits (e.fits_iff.1 fits)]
  · rintro ⟨long, code⟩
    have front := bits_natOfBits (s.take e.len.toNat)
    rw [code, List.length_take, min_eq_left long] at front
    rw [CodeEntry.codeBits, front]
    exact List.take_prefix ..

/-! ### The decode tables -/

/-- A table that the decoder can tell its codes apart with: they fit, and none begins another (41_huffman_encode.md R255). -/
structure CodeTable.Decodable (t : CodeTable) : Prop where
  wf : CodeTable.wf t = true
  fits : ∀ e ∈ t, e.fits = true
  free : ∀ e ∈ t, ∀ f ∈ t, e.codeBits <+: f.codeBits → e = f

theorem CodeTable.decodable {t : CodeTable} (wf : CodeTable.wf t = true) (fits : ∀ k, t.hcode k < 2 ^ t.hlen k)
    (free : t.prefixFree) : t.Decodable := by
  refine ⟨wf, (CodeTable.fits_iff wf).1 fits, fun e he f hf begins => ?_⟩
  by_contra other
  rw [← CodeTable.codeBits_of_mem wf he, ← CodeTable.codeBits_of_mem wf hf] at begins
  exact free e.sym f.sym (fun same => other (CodeTable.eq_of_sym wf he hf same))
    ((CodeTable.hlen_ne_zero_iff wf _).2 ⟨e, he, rfl⟩) ((CodeTable.hlen_ne_zero_iff wf _).2 ⟨f, hf, rfl⟩) begins

/-- The build passes for codes of which none begins another. -/
theorem buildDecode_of_prefixFree {t : CodeTable} (wf : CodeTable.wf t = true) (fits : ∀ k, t.hcode k < 2 ^ t.hlen k)
    (free : t.prefixFree) : (buildDecode [] t).2 = none ∧ (buildDecode [] t).1 = t := by
  have passes := (buildDecode_passes_iff wf).2 ⟨fits, fun j k other hj _ hk => free j k other hj hk⟩
  exact ⟨passes, buildDecode_placed passes⟩

section
variable {t : CodeTable} {e f : CodeEntry} {s : Bits}

/-- At most one code begins a bit string. -/
theorem CodeTable.Decodable.eq_of_prefix (h : t.Decodable) (he : e ∈ t) (hf : f ∈ t) (begins : e.codeBits <+: s)
    (begins' : f.codeBits <+: s) : e = f := by
  rcases List.prefix_or_prefix_of_prefix begins begins' with first | first
  · exact h.free e he f hf first
  · exact (h.free f hf e he first).symm

/-- The short code in a slot is the one that begins the slot's bits (42_huffman_decode.md R311). -/
theorem shortAt_eq_some_iff (h : t.Decodable) (hs : s.length = 14) :
    shortAt t (natOfBits s) = some e ↔ e ∈ t ∧ e.isShort = true ∧ e.codeBits <+: s := by
  have slot : natOfBits s < 2 ^ 14 := hs ▸ natOfBits_lt s
  have spelled : bits (natOfBits s) 14 = s := hs ▸ bits_natOfBits s
  have found {f : CodeEntry} (hf : shortAt t (natOfBits s) = some f) : f ∈ t ∧ f.isShort = true ∧ f.codeBits <+: s := by
    have member := List.mem_of_find?_eq_some hf
    obtain ⟨short, covers⟩ := Bool.and_eq_true_iff.1
      (List.find?_some (p := fun e : CodeEntry => e.isShort && e.covers (natOfBits s)) hf)
    exact ⟨member, short, spelled ▸ (CodeEntry.covers_iff_prefix (h.fits f member) short slot).1 covers⟩
  refine ⟨found, ?_⟩
  rintro ⟨he, short, begins⟩
  cases hf : shortAt t (natOfBits s) with
  | none =>
    have covers := (CodeEntry.covers_iff_prefix (h.fits e he) short slot).2 (spelled.symm ▸ begins)
    exact absurd (Bool.and_eq_true_iff.2 ⟨short, covers⟩) (List.find?_eq_none.1 hf e he)
  | some f =>
    obtain ⟨hft, -, begins'⟩ := found hf
    rw [h.eq_of_prefix he hft begins begins']

theorem shortAt_eq_none_iff (h : t.Decodable) (hs : s.length = 14) :
    shortAt t (natOfBits s) = none ↔ ∀ e ∈ t, e.isShort = true → ¬ e.codeBits <+: s := by
  constructor
  · intro none e he short begins
    rw [(shortAt_eq_some_iff h hs).2 ⟨he, short, begins⟩] at none
    cases none
  · intro none
    cases hf : shortAt t (natOfBits s) with
    | none => rfl
    | some f =>
      obtain ⟨hft, short, begins⟩ := (shortAt_eq_some_iff h hs).1 hf
      exact absurd begins (none f hft short)

/-- The long codes of a slot are those that the slot's bits begin (42_huffman_decode.md R311). -/
theorem mem_longAt_iff (h : t.Decodable) (hs : s.length = 14) :
    e ∈ longAt t (natOfBits s) ↔ e ∈ t ∧ e.isShort = false ∧ s <+: e.codeBits := by
  have slot : natOfBits s < 2 ^ 14 := hs ▸ natOfBits_lt s
  have spelled : bits (natOfBits s) 14 = s := hs ▸ bits_natOfBits s
  rw [longAt, List.mem_filter, Bool.and_eq_true, Bool.not_eq_true']
  refine and_congr_right fun he => and_congr_right fun long => ?_
  rw [CodeEntry.covers_iff_prefix_of_long (h.fits e he) long slot, spelled]

/-- The search of DLIST finds the candidate that begins the bits to come (42_huffman_decode.md R314). -/
theorem findLong_eq {d : Decoding} {stop : Nat} (ends : d.pos + d.rest.length = stop) (fits : ∀ e ∈ t, e.fits = true) :
    findLong noFault stop d t =
      match t.find? fun e => decide (e.codeBits <+: d.rest) with
      | some e => .ok e
      | none => .error .invalidCode := by
  induction t with
  | nil => rfl
  | cons c rest ih =>
    obtain ⟨first, later⟩ := List.forall_mem_cons.1 fits
    have begins := CodeEntry.codeBits_prefix_iff first d.rest
    rw [findLong, if_neg (c := noFault _ _ = true) Bool.false_ne_true, ih later]
    by_cases h : c.codeBits <+: d.rest
    · obtain ⟨inside, code⟩ := begins.1 h
      rw [if_pos (by omega), if_pos code, List.find?_cons_of_pos (by simpa using h)]
    · rw [List.find?_cons_of_neg (by simpa using h)]
      split
      · rename_i inside
        rw [if_neg fun code => h (begins.2 ⟨by omega, code⟩)]
      · rfl

end

/-! ### Turns -/

/-- What a coded stream is decoded with: the table, the escape, the samples expected, the coded bits, and the bits of the
stream with its padding. -/
structure StreamSetup where
  table : CodeTable
  iM : Nat
  no : Nat
  nBits : Nat
  size : Nat

namespace StreamSetup

/-- The decoder can run: the padding is less than a byte (00_scope.md R15). -/
structure Sound (u : StreamSetup) : Prop where
  table : u.table.Decodable
  inside : u.nBits ≤ u.size
  padding : u.size < u.nBits + 8

/-- One turn of the phase that the decoder is in (42_huffman_decode.md R314, R315). -/
def turn (u : StreamSetup) (d : Decoding) : Except ErrCode Decoding :=
  if d.pos + 14 ≤ u.size then phase1Step noFault noFault u.table u.iM u.no u.size d
  else phase2Step noFault noFault u.table u.iM u.no u.nBits d

/-- The bits that a turn looks at: with the padding as long as 14 bits remain (42_huffman_decode.md R314, R315). -/
def look (u : StreamSetup) (d : Decoding) : Bits :=
  if 14 ≤ u.size - d.pos then d.rest else d.rest.take (u.nBits - d.pos)

/-- Where the bits that a turn takes end (42_huffman_decode.md R314, R315). -/
def stop (u : StreamSetup) (pos : Nat) : Nat := if 14 ≤ u.size - pos then u.size else u.nBits

variable {u : StreamSetup} {d : Decoding} {e : CodeEntry}

theorem nBits_le_stop (h : u.Sound) (pos : Nat) : u.nBits ≤ u.stop pos := by
  rw [stop]
  split
  · exact h.inside
  · exact le_rfl

theorem prefix_look {s : Bits} (begins : s <+: d.rest) (inside : 14 ≤ u.size - d.pos ∨ d.pos + s.length ≤ u.nBits) :
    s <+: u.look d := by
  rw [look]
  split
  · exact begins
  · exact List.prefix_take_iff.2 ⟨begins, by omega⟩

section
variable (h : u.Sound) (ends : d.pos + d.rest.length = u.size)
include h ends

theorem phase1Step_of_code (window : d.pos + 14 ≤ u.size) (he : e ∈ u.table) (begins : e.codeBits <+: d.rest) :
    phase1Step noFault noFault u.table u.iM u.no u.size d =
      emit noFault noFault u.iM u.no e.sym u.size (d.skip e.len.toNat) := by
  have length : (d.rest.take 14).length = 14 := by rw [List.length_take]; omega
  rw [phase1Step, if_neg Bool.false_ne_true]
  simp only [Config.hufDecBits]
  cases short : e.isShort with
  | true =>
    have front : e.codeBits <+: d.rest.take 14 :=
      List.prefix_take_iff.2 ⟨begins, by rw [e.codeBits_length]; exact e.isShort_iff.1 short⟩
    rw [(shortAt_eq_some_iff h.table length).2 ⟨he, short, front⟩]
  | false =>
    have none : shortAt u.table (natOfBits (d.rest.take 14)) = none :=
      (shortAt_eq_none_iff h.table length).2 fun f hf shortF front => by
        rw [h.table.eq_of_prefix hf he (front.trans (List.take_prefix ..)) begins, short] at shortF
        cases shortF
    have candidates {f : CodeEntry} (hf : f ∈ longAt u.table (natOfBits (d.rest.take 14))) : f ∈ u.table :=
      ((mem_longAt_iff h.table length).1 hf).1
    have listed : e ∈ longAt u.table (natOfBits (d.rest.take 14)) := by
      refine (mem_longAt_iff h.table length).2 ⟨he, short, List.prefix_of_prefix_length_le (List.take_prefix ..) begins ?_⟩
      have : ¬ e.len.toNat ≤ 14 := mt e.isShort_iff.2 (by simp [short])
      rw [length, e.codeBits_length]
      omega
    rw [none]
    dsimp only
    rw [findLong_eq ends fun f hf => h.table.fits f (candidates hf)]
    cases found : (longAt u.table (natOfBits (d.rest.take 14))).find? fun e => decide (e.codeBits <+: d.rest) with
    | none => exact absurd (decide_eq_true begins) (List.find?_eq_none.1 found e listed)
    | some f =>
      have first := List.find?_some found
      rw [decide_eq_true_eq] at first
      rw [h.table.eq_of_prefix (candidates (List.mem_of_find?_eq_some found)) he first begins]

theorem phase1Step_of_none (window : d.pos + 14 ≤ u.size) (none : ∀ e ∈ u.table, ¬ e.codeBits <+: d.rest) :
    phase1Step noFault noFault u.table u.iM u.no u.size d = .error .invalidCode := by
  have length : (d.rest.take 14).length = 14 := by rw [List.length_take]; omega
  rw [phase1Step, if_neg Bool.false_ne_true]
  simp only [Config.hufDecBits]
  rw [(shortAt_eq_none_iff h.table length).2 fun f hf _ front => none f hf (front.trans (List.take_prefix ..))]
  dsimp only
  have candidates {f : CodeEntry} (hf : f ∈ longAt u.table (natOfBits (d.rest.take 14))) : f ∈ u.table :=
    ((mem_longAt_iff h.table length).1 hf).1
  rw [findLong_eq ends fun f hf => h.table.fits f (candidates hf),
    List.find?_eq_none.2 fun f hf => by simpa using none f (candidates hf)]

/-- Phase 2 takes the code that begins the coded bits left, if there is one (42_huffman_decode.md R315). -/
theorem phase2Step_eq (window : ¬ d.pos + 14 ≤ u.size) (more : d.pos < u.nBits) (x : Except ErrCode Decoding)
    (code : ∀ e ∈ u.table, e.codeBits <+: d.rest.take (u.nBits - d.pos) →
      emit noFault noFault u.iM u.no e.sym u.nBits (d.skip e.len.toNat) = x)
    (none : (∀ e ∈ u.table, ¬ e.codeBits <+: d.rest.take (u.nBits - d.pos)) → .error .invalidCode = x) :
    phase2Step noFault noFault u.table u.iM u.no u.nBits d = x := by
  have inside := h.inside
  have left : (d.rest.take (u.nBits - d.pos)).length = u.nBits - d.pos := by rw [List.length_take]; omega
  have length : (d.rest.take (u.nBits - d.pos) ++ List.replicate (14 - (u.nBits - d.pos)) false).length = 14 := by
    rw [List.length_append, left, List.length_replicate]
    omega
  rw [phase2Step, if_neg Bool.false_ne_true]
  simp only [Config.hufDecBits]
  rw [← natOfBits_padded]
  cases found : shortAt u.table _ with
  | none =>
    refine none fun e he begins => (shortAt_eq_none_iff h.table length).1 found e he (e.isShort_iff.2 ?_)
      (begins.trans (List.prefix_append ..))
    have := begins.length_le
    rw [e.codeBits_length] at this
    omega
  | some e =>
    obtain ⟨he, -, begins⟩ := (shortAt_eq_some_iff h.table length).1 found
    dsimp only
    split
    · rename_i within
      refine code e he (List.prefix_of_prefix_length_le begins (List.prefix_append ..) ?_)
      rwa [e.codeBits_length, left]
    · rename_i runsOn
      refine none fun f hf begins' => runsOn ?_
      rw [h.table.eq_of_prefix he hf begins (begins'.trans (List.prefix_append ..)), ← f.codeBits_length, ← left]
      exact begins'.length_le

/-- A turn takes the code that begins the bits it looks at. -/
theorem turn_of_code (more : d.pos < u.nBits) {k : Nat} (coded : u.table.hlen k ≠ 0)
    (begins : u.table.codeBits k <+: u.look d) :
    u.turn d = emit noFault noFault u.iM u.no k (u.stop d.pos) (d.skip (u.table.hlen k)) := by
  obtain ⟨e, he, rfl⟩ := (CodeTable.hlen_ne_zero_iff h.table.wf k).1 coded
  rw [CodeTable.codeBits_of_mem h.table.wf he, look] at begins
  rw [CodeTable.hlen_of_mem h.table.wf he, turn, stop]
  by_cases window : d.pos + 14 ≤ u.size
  · rw [if_pos (by omega)] at begins
    rw [if_pos window, if_pos (by omega)]
    exact phase1Step_of_code h ends window he begins
  · rw [if_neg (by omega)] at begins
    rw [if_neg window, if_neg (by omega)]
    refine phase2Step_eq h ends window more _ (fun f hf begins' => ?_) fun none => absurd begins (none e he)
    rw [h.table.eq_of_prefix he hf begins begins']

/-- Bits that no code begins end the stream (42_huffman_decode.md R314, R315). -/
theorem turn_of_none (more : d.pos < u.nBits) (none : ∀ k, u.table.hlen k ≠ 0 → ¬ u.table.codeBits k <+: u.look d) :
    u.turn d = .error .invalidCode := by
  have noEntry : ∀ e ∈ u.table, ¬ e.codeBits <+: u.look d := fun e he begins =>
    none e.sym ((CodeTable.hlen_ne_zero_iff h.table.wf _).2 ⟨e, he, rfl⟩)
      ((CodeTable.codeBits_of_mem h.table.wf he).symm ▸ begins)
  rw [look] at noEntry
  rw [turn]
  by_cases window : d.pos + 14 ≤ u.size
  · rw [if_pos (by omega)] at noEntry
    rw [if_pos window]
    exact phase1Step_of_none h ends window noEntry
  · rw [if_neg (by omega)] at noEntry
    rw [if_neg window]
    exact phase2Step_eq h ends window more _ (fun e he begins => absurd begins (noEntry e he)) fun _ => rfl

end

end StreamSetup

end Sys2Proof.Machine
end

section
/-! SUPPORT and the proof of O29: the groups of codes that the stream decoder takes, turn by turn, and what ends it
(42_huffman_decode.md R313 to R317). -/

namespace Sys2Proof.Machine

/-! ### Emit -/

section
variable {iM no sym stop : Nat} {d : Decoding}

theorem emit_sample (other : sym ≠ iM) (room : d.out < no) :
    emit noFault noFault iM no sym stop d =
      .ok { d with out := d.out + 1, written := BitVec.ofNat 16 sym :: d.written } := by
  rw [emit, if_neg other, if_neg (not_not.2 room), if_neg Bool.false_ne_true]

theorem emit_sample_full (other : sym ≠ iM) (full : d.out = no) :
    emit noFault noFault iM no sym stop d = .error .tooMuchData := by
  rw [emit, if_neg other, if_pos (by omega)]

theorem emit_escape_cut (cut : stop < d.pos + 8) :
    emit noFault noFault iM no iM stop d = .error .notEnoughData := by
  rw [emit, if_pos rfl, if_pos (by omega)]

/-- The escape repeats the latest sample as often as the eight bits after it say (42_huffman_decode.md R316). -/
theorem emit_escape {cs : Nat} (counted : d.pos + 8 ≤ stop) (hcs : cs < 2 ^ 8) (count : bits cs 8 <+: d.rest) :
    emit noFault noFault iM no iM stop d =
      if no < d.out + cs then .error .tooMuchData
      else match d.written with
        | [] => .error .notEnoughData
        | prev :: _ => .ok { d.skip 8 with out := d.out + cs, written := List.replicate cs prev ++ d.written } := by
  have front := List.prefix_iff_eq_take.1 count
  rw [bits_length] at front
  have value : natOfBits (d.rest.take 8) = cs := front ▸ natOfBits_bits hcs
  rw [emit, if_pos rfl, if_neg (not_not.2 counted), if_neg Bool.false_ne_true]
  simp only [value, Decoding.skip, Nat.not_le]
  rfl

end

/-! ### From a decoder's state to the end of the stream -/

namespace StreamSetup

/-- Phase 2 with turns enough, and the end of the stream (42_huffman_decode.md R315, R317). -/
def fromPhase2 (u : StreamSetup) (fuel : Nat) (d : Decoding) : Except ErrCode (List Sample) :=
  match phase2 noFault noFault u.table u.iM u.no u.nBits fuel d with
  | .error err => .error err
  | .ok d' => if d'.out = u.no then .ok d'.written.reverse else .error .notEnoughData

/-- Phase 1 with turns enough, and what follows it (42_huffman_decode.md R314). -/
def fromPhase1 (u : StreamSetup) (fuel : Nat) (d : Decoding) : Except ErrCode (List Sample) :=
  match phase1 noFault noFault u.table u.iM u.no u.size fuel d with
  | .error err => .error err
  | .ok d' => if ¬ d'.pos ≤ u.nBits then .error .invalidCode else u.fromPhase2 (u.nBits - d'.pos) d'

/-- The decoder that stands at `d` ends with `x`. -/
def Yields (u : StreamSetup) (d : Decoding) (x : Except ErrCode (List Sample)) : Prop :=
  (∃ fuel, u.size - d.pos ≤ fuel ∧ x = u.fromPhase1 fuel d)
    ∨ (u.size < d.pos + 14 ∧ d.pos ≤ u.nBits ∧ ∃ fuel, u.nBits - d.pos ≤ fuel ∧ x = u.fromPhase2 fuel d)

variable {u : StreamSetup} {d d' : Decoding} {x : Except ErrCode (List Sample)}

theorem yields_start (u : StreamSetup) {stream : Bits} (length : stream.length = u.size) :
    u.Yields ⟨0, stream, 0, []⟩ (decodeStream noFault noFault u.table u.iM u.no u.nBits stream) := by
  refine .inl ⟨stream.length, length.ge, ?_⟩
  rw [fromPhase1, ← length]
  rfl

theorem phase1_ends (short : u.size < d.pos + 14) (fuel : Nat) :
    phase1 noFault noFault u.table u.iM u.no u.size fuel d = .ok d := by
  cases fuel with
  | zero => rfl
  | succ fuel => rw [phase1, if_neg (by simp only [Config.hufDecBits]; omega)]

theorem Yields.toPhase2 (h : u.Yields d x) (short : u.size < d.pos + 14) (inside : d.pos ≤ u.nBits) :
    ∃ fuel, u.nBits - d.pos ≤ fuel ∧ x = u.fromPhase2 fuel d := by
  obtain ⟨fuel, -, rfl⟩ | ⟨-, -, turns⟩ := h
  · rw [fromPhase1, phase1_ends short]
    exact ⟨_, le_rfl, if_neg (not_not.2 inside)⟩
  · exact turns

/-- A turn that answers leads on to the state that it answers. -/
theorem Yields.step (h : u.Yields d x) (more : d.pos < u.nBits) (turns : u.turn d = .ok d')
    (moves : d.pos < d'.pos) (coded : u.size < d.pos + 14 → d'.pos ≤ u.nBits) : u.Yields d' x := by
  rw [turn] at turns
  split at turns
  · rename_i window
    obtain ⟨fuel, enough, rfl⟩ | ⟨short, -⟩ := h
    · obtain ⟨fuel, rfl⟩ : ∃ f, fuel = f + 1 := ⟨fuel - 1, by omega⟩
      refine .inl ⟨fuel, by omega, ?_⟩
      rw [fromPhase1, phase1, if_pos window, turns]
      rfl
    · omega
  · rename_i window
    obtain ⟨fuel, enough, rfl⟩ := h.toPhase2 (by omega) (by omega)
    obtain ⟨fuel, rfl⟩ : ∃ f, fuel = f + 1 := ⟨fuel - 1, by omega⟩
    refine .inr ⟨by omega, coded (by omega), fuel, by omega, ?_⟩
    rw [fromPhase2, phase2, if_pos more, turns]
    rfl

/-- A turn that raises ends the stream. -/
theorem Yields.step_error (h : u.Yields d x) (more : d.pos < u.nBits) {e : ErrCode}
    (raises : u.turn d = .error e) : x = .error e := by
  rw [turn] at raises
  split at raises
  · rename_i window
    obtain ⟨fuel, enough, rfl⟩ | ⟨short, -⟩ := h
    · obtain ⟨fuel, rfl⟩ : ∃ f, fuel = f + 1 := ⟨fuel - 1, by omega⟩
      rw [fromPhase1, phase1, if_pos window, raises]
    · omega
  · obtain ⟨fuel, enough, rfl⟩ := h.toPhase2 (by omega) (by omega)
    obtain ⟨fuel, rfl⟩ : ∃ f, fuel = f + 1 := ⟨fuel - 1, by omega⟩
    rw [fromPhase2, phase2, if_pos more, raises]

/-- With no coded bit left the samples are counted (42_huffman_decode.md R317). -/
theorem Yields.ends (h : u.Yields d x) (padding : u.size < u.nBits + 8) (last : d.pos = u.nBits) :
    x = if d.out = u.no then .ok d.written.reverse else .error .notEnoughData := by
  obtain ⟨fuel, -, rfl⟩ := h.toPhase2 (by omega) last.le
  rw [fromPhase2]
  cases fuel with
  | zero => rfl
  | succ fuel => rw [phase2, if_neg (by omega)]

/-- A code of phase 1 that ran into the padding is no code (42_huffman_decode.md R314). -/
theorem Yields.overruns (h : u.Yields d x) (padding : u.size < u.nBits + 8) (past : u.nBits < d.pos) :
    x = .error .invalidCode := by
  obtain ⟨fuel, -, rfl⟩ | ⟨-, inside, -⟩ := h
  · rw [fromPhase1, phase1_ends (by omega)]
    exact if_pos (Nat.not_le.2 past)
  · omega

end StreamSetup

/-! ### Groups -/

theorem CodeTable.groupBits_append (t : CodeTable) (iM : Nat) (gs hs : List (Sample × Option Byte)) :
    t.groupBits iM (gs ++ hs) = t.groupBits iM gs ++ t.groupBits iM hs := List.flatMap_append

theorem groupSamples_append (gs hs : List (Sample × Option Byte)) :
    groupSamples (gs ++ hs) = groupSamples gs ++ groupSamples hs := List.flatMap_append

theorem CodeTable.groupBits_sample (t : CodeTable) (iM : Nat) (v : Sample) :
    t.groupBits iM [(v, none)] = t.codeBits v.toNat := by simp [CodeTable.groupBits]

theorem CodeTable.groupBits_repeat (t : CodeTable) (iM : Nat) (v : Sample) (cs : Byte) :
    t.groupBits iM [(v, some cs)] = t.codeBits v.toNat ++ (t.codeBits iM ++ bits cs.toNat 8) := by
  simp [CodeTable.groupBits]

@[simp] theorem CodeTable.codeBits_length (t : CodeTable) (k : Nat) : (t.codeBits k).length = t.hlen k := bits_length ..

/-- The decoder after groups of codes, with the bits `rest` to come (42_huffman_decode.md R316). -/
def Decoding.afterGroups (t : CodeTable) (iM : Nat) (gs : List (Sample × Option Byte)) (rest : Bits) : Decoding :=
  ⟨(t.groupBits iM gs).length, rest, (groupSamples gs).length, (groupSamples gs).reverse⟩

namespace StreamSetup

/-- The decoder of a setup after groups of codes. -/
abbrev after (u : StreamSetup) (gs : List (Sample × Option Byte)) (rest : Bits) : Decoding :=
  Decoding.afterGroups u.table u.iM gs rest

variable {u : StreamSetup} {gs : List (Sample × Option Byte)} {rest : Bits} {x : Except ErrCode (List Sample)}

theorem after_append (u : StreamSetup) (gs hs : List (Sample × Option Byte)) (rest : Bits) :
    u.after (gs ++ hs) rest =
      ⟨(u.table.groupBits u.iM gs).length + (u.table.groupBits u.iM hs).length, rest,
        (groupSamples gs).length + (groupSamples hs).length, (groupSamples hs).reverse ++ (groupSamples gs).reverse⟩ := by
  simp only [after, Decoding.afterGroups, CodeTable.groupBits_append, groupSamples_append, List.length_append,
    List.reverse_append]

/-- The decoder after groups of codes and one more code. -/
def afterCode (u : StreamSetup) (gs : List (Sample × Option Byte)) (k : Nat) (rest : Bits) : Decoding :=
  { u.after gs rest with pos := (u.table.groupBits u.iM gs).length + u.table.hlen k }

section
variable (h : u.Sound)
include h

/-- A code after groups is taken where its bits are looked at. -/
theorem turn_after {k : Nat} (length : (u.table.groupBits u.iM gs ++ (u.table.codeBits k ++ rest)).length = u.size)
    (coded : u.table.hlen k ≠ 0) (more : (u.table.groupBits u.iM gs).length < u.nBits)
    (inside : 14 ≤ u.size - (u.table.groupBits u.iM gs).length
      ∨ (u.table.groupBits u.iM gs).length + u.table.hlen k ≤ u.nBits) :
    u.turn (u.after gs (u.table.codeBits k ++ rest)) =
      emit noFault noFault u.iM u.no k (u.stop (u.table.groupBits u.iM gs).length) (u.afterCode gs k rest) := by
  have skipped : (u.after gs (u.table.codeBits k ++ rest)).skip (u.table.hlen k) = u.afterCode gs k rest := by
    simp only [Decoding.skip, afterCode, after, Decoding.afterGroups, List.drop_left' (u.table.codeBits_length k)]
  rw [List.length_append] at length
  rw [turn_of_code h length more coded (prefix_look (List.prefix_append ..) ?_), skipped]
  · rfl
  · rwa [CodeTable.codeBits_length]

/-- The code of a sample is taken, and the sample written (42_huffman_decode.md R316). -/
theorem Yields.sample {v : Sample} (yields : u.Yields (u.after gs (u.table.codeBits v.toNat ++ rest)) x)
    (length : (u.table.groupBits u.iM gs ++ (u.table.codeBits v.toNat ++ rest)).length = u.size)
    (other : v.toNat ≠ u.iM) (coded : u.table.hlen v.toNat ≠ 0)
    (inside : (u.table.groupBits u.iM gs).length + u.table.hlen v.toNat ≤ u.nBits)
    (room : (groupSamples gs).length < u.no) : u.Yields (u.after (gs ++ [(v, none)]) rest) x := by
  have step := turn_after h length coded (by omega) (.inr inside)
  have next : u.after (gs ++ [(v, none)]) rest =
      { u.afterCode gs v.toNat rest with
        out := (groupSamples gs).length + 1, written := v :: (groupSamples gs).reverse } := by
    rw [after_append, CodeTable.groupBits_sample, CodeTable.codeBits_length]
    rfl
  rw [emit_sample other room, BitVec.ofNat_toNat, BitVec.setWidth_eq] at step
  rw [next]
  exact yields.step (show (u.table.groupBits u.iM gs).length < _ by omega) step
    (show (u.table.groupBits u.iM gs).length < (u.table.groupBits u.iM gs).length + _ by omega) fun _ => inside

/-- The bits of a count after the escape's code (42_huffman_decode.md R316). -/
theorem turn_escape {cs : Byte}
    (length : (u.table.groupBits u.iM gs ++ (u.table.codeBits u.iM ++ (bits cs.toNat 8 ++ rest))).length = u.size)
    (coded : u.table.hlen u.iM ≠ 0) (inside : (u.table.groupBits u.iM gs).length + u.table.hlen u.iM + 8 ≤ u.nBits) :
    u.turn (u.after gs (u.table.codeBits u.iM ++ (bits cs.toNat 8 ++ rest))) =
      if u.no < (groupSamples gs).length + cs.toNat then .error .tooMuchData
      else match (groupSamples gs).reverse with
        | [] => .error .notEnoughData
        | prev :: _ => .ok ⟨(u.table.groupBits u.iM gs).length + u.table.hlen u.iM + 8, rest,
            (groupSamples gs).length + cs.toNat, List.replicate cs.toNat prev ++ (groupSamples gs).reverse⟩ := by
  have bound := nBits_le_stop h (u.table.groupBits u.iM gs).length
  rw [turn_after h length coded (by omega) (.inr (by omega)),
    emit_escape (show (u.table.groupBits u.iM gs).length + u.table.hlen u.iM + 8 ≤ _ by omega) cs.isLt
      (List.prefix_append ..)]
  simp only [Decoding.skip, afterCode, after, Decoding.afterGroups, List.drop_left' (bits_length cs.toNat 8)]

/-- The code of the escape and its count are taken, and the latest sample repeated (42_huffman_decode.md R316). -/
theorem Yields.repeats {v : Sample} {cs : Byte}
    (yields : u.Yields (u.after (gs ++ [(v, none)]) (u.table.codeBits u.iM ++ (bits cs.toNat 8 ++ rest))) x)
    (length : (u.table.groupBits u.iM (gs ++ [(v, none)])
      ++ (u.table.codeBits u.iM ++ (bits cs.toNat 8 ++ rest))).length = u.size)
    (coded : u.table.hlen u.iM ≠ 0)
    (inside : (u.table.groupBits u.iM (gs ++ [(v, none)])).length + u.table.hlen u.iM + 8 ≤ u.nBits)
    (room : (groupSamples gs).length + 1 + cs.toNat ≤ u.no) : u.Yields (u.after (gs ++ [(v, some cs)]) rest) x := by
  have sampled : groupSamples (gs ++ [(v, none)]) = groupSamples gs ++ [v] := groupSamples_append ..
  have step := turn_escape h length coded inside
  rw [sampled, List.length_append, List.length_singleton, if_neg (Nat.not_lt.2 room), List.reverse_append] at step
  have next : u.after (gs ++ [(v, some cs)]) rest =
      ⟨(u.table.groupBits u.iM (gs ++ [(v, none)])).length + u.table.hlen u.iM + 8, rest,
        (groupSamples gs).length + 1 + cs.toNat, List.replicate cs.toNat v ++ v :: (groupSamples gs).reverse⟩ := by
    simp [after_append, CodeTable.groupBits_append, CodeTable.groupBits_sample, CodeTable.groupBits_repeat, groupSamples]
    omega
  rw [next]
  exact yields.step (show (u.table.groupBits u.iM (gs ++ [(v, none)])).length < _ by omega) step
    (show (u.table.groupBits u.iM (gs ++ [(v, none)])).length < (u.table.groupBits u.iM (gs ++ [(v, none)])).length + _ + 8
      by omega) fun _ => inside

/-- Groups of codes decode to the samples that they stand for (42_huffman_decode.md R316). -/
theorem yields_groups
    (coded : ∀ g ∈ gs, g.1.toNat ≠ u.iM ∧ u.table.hlen g.1.toNat ≠ 0 ∧ (g.2.isSome = true → u.table.hlen u.iM ≠ 0))
    (length : (u.table.groupBits u.iM gs ++ rest).length = u.size)
    (inside : (u.table.groupBits u.iM gs).length ≤ u.nBits) (room : (groupSamples gs).length ≤ u.no) :
    u.Yields (u.after gs rest)
      (decodeStream noFault noFault u.table u.iM u.no u.nBits (u.table.groupBits u.iM gs ++ rest)) := by
  induction gs using List.reverseRecOn generalizing rest with
  | nil => exact yields_start u length
  | append_singleton gs g ih =>
    obtain ⟨v, count⟩ := g
    simp only [List.forall_mem_append, List.forall_mem_singleton] at coded
    obtain ⟨coded, other, sample, escape⟩ := coded
    rw [CodeTable.groupBits_append, List.append_assoc] at length ⊢
    rw [CodeTable.groupBits_append, List.length_append] at inside
    rw [groupSamples_append, List.length_append] at room
    have before := ih coded length (by omega) (by omega)
    cases count with
    | none =>
      rw [CodeTable.groupBits_sample] at *
      rw [CodeTable.codeBits_length] at inside
      exact before.sample h length other sample inside room
    | some cs =>
      rw [CodeTable.groupBits_repeat] at *
      rw [List.length_append, List.length_append, CodeTable.codeBits_length, CodeTable.codeBits_length,
        bits_length] at inside
      have size : (groupSamples [(v, some cs)]).length = 1 + cs.toNat := by simp [groupSamples, Nat.add_comm]
      rw [List.append_assoc, List.append_assoc] at length before ⊢
      refine (before.sample h length other sample (by omega) (by omega)).repeats h ?_ (escape rfl) ?_ (by omega)
      · rwa [CodeTable.groupBits_append, CodeTable.groupBits_sample, List.append_assoc]
      · rw [CodeTable.groupBits_append, CodeTable.groupBits_sample, List.length_append, CodeTable.codeBits_length]
        omega

/-! ### What ends the stream -/

/-- Groups that take all coded bits decode to their samples, if those are as many as expected (42_huffman_decode.md R317). -/
theorem Yields.groups_end (yields : u.Yields (u.after gs rest) x) (last : (u.table.groupBits u.iM gs).length = u.nBits) :
    x = if (groupSamples gs).length = u.no then .ok (groupSamples gs) else .error .notEnoughData :=
  (yields.ends h.padding last).trans (by rw [after, Decoding.afterGroups, List.reverse_reverse])

/-- A sample past the last one expected is TOO_MUCH_DATA (42_huffman_decode.md R316). -/
theorem Yields.sample_full {v : Sample} (yields : u.Yields (u.after gs (u.table.codeBits v.toNat ++ rest)) x)
    (length : (u.table.groupBits u.iM gs ++ (u.table.codeBits v.toNat ++ rest)).length = u.size)
    (other : v.toNat ≠ u.iM) (coded : u.table.hlen v.toNat ≠ 0)
    (inside : (u.table.groupBits u.iM gs).length + u.table.hlen v.toNat ≤ u.nBits)
    (full : (groupSamples gs).length = u.no) : x = .error .tooMuchData := by
  have step := turn_after h length coded (by omega) (.inr inside)
  rw [emit_sample_full other full] at step
  exact yields.step_error (show (u.table.groupBits u.iM gs).length < _ by omega) step

/-- A code of phase 1 that runs into the padding is INVALID_CODE (42_huffman_decode.md R314). -/
theorem Yields.sample_overruns {v : Sample} (yields : u.Yields (u.after gs (u.table.codeBits v.toNat ++ rest)) x)
    (length : (u.table.groupBits u.iM gs ++ (u.table.codeBits v.toNat ++ rest)).length = u.size)
    (other : v.toNat ≠ u.iM) (coded : u.table.hlen v.toNat ≠ 0) (window : 14 ≤ u.size - (u.table.groupBits u.iM gs).length)
    (past : u.nBits < (u.table.groupBits u.iM gs).length + u.table.hlen v.toNat)
    (room : (groupSamples gs).length < u.no) : x = .error .invalidCode := by
  have padding := h.padding
  have more : (u.table.groupBits u.iM gs).length < u.nBits := by omega
  have step := turn_after h length coded more (.inl window)
  rw [emit_sample other room] at step
  exact (yields.step more step (show (u.table.groupBits u.iM gs).length < (u.table.groupBits u.iM gs).length + _ by omega)
    fun short => absurd (show u.size < (u.table.groupBits u.iM gs).length + 14 from short) (by omega)).overruns padding past

/-- A count that asks for too many samples, or for a repeat before any sample (42_huffman_decode.md R316). -/
theorem Yields.repeat_fails {cs : Byte}
    (yields : u.Yields (u.after gs (u.table.codeBits u.iM ++ (bits cs.toNat 8 ++ rest))) x)
    (length : (u.table.groupBits u.iM gs ++ (u.table.codeBits u.iM ++ (bits cs.toNat 8 ++ rest))).length = u.size)
    (coded : u.table.hlen u.iM ≠ 0) (inside : (u.table.groupBits u.iM gs).length + u.table.hlen u.iM + 8 ≤ u.nBits) :
    (u.no < (groupSamples gs).length + cs.toNat → x = .error .tooMuchData)
      ∧ ((groupSamples gs).length + cs.toNat ≤ u.no → gs = [] → x = .error .notEnoughData) := by
  have step := turn_escape h length coded inside
  have more : (u.table.groupBits u.iM gs).length < u.nBits := by omega
  refine ⟨fun excess => ?_, fun fits none => ?_⟩
  · rw [if_pos excess] at step
    exact yields.step_error more step
  · rw [if_neg (Nat.not_lt.2 fits)] at step
    subst none
    exact yields.step_error more step

/-- An escape whose count is cut off is NOT_ENOUGH_DATA (42_huffman_decode.md R316). -/
theorem Yields.escape_cut (yields : u.Yields (u.after gs (u.table.codeBits u.iM ++ rest)) x)
    (length : (u.table.groupBits u.iM gs ++ (u.table.codeBits u.iM ++ rest)).length = u.size)
    (coded : u.table.hlen u.iM ≠ 0) (inside : (u.table.groupBits u.iM gs).length + u.table.hlen u.iM ≤ u.nBits)
    (cut : u.stop (u.table.groupBits u.iM gs).length < (u.table.groupBits u.iM gs).length + u.table.hlen u.iM + 8) :
    x = .error .notEnoughData := by
  have step := turn_after h length coded (by omega) (.inr inside)
  rw [emit_escape_cut (d := u.afterCode gs u.iM rest) cut] at step
  exact yields.step_error (show (u.table.groupBits u.iM gs).length < _ by omega) step

/-- Bits that no code begins are INVALID_CODE (42_huffman_decode.md R314, R315). -/
theorem Yields.no_code (yields : u.Yields (u.after gs rest) x)
    (length : (u.table.groupBits u.iM gs ++ rest).length = u.size) (more : (u.table.groupBits u.iM gs).length < u.nBits)
    (none : ∀ k, u.table.hlen k ≠ 0 → ¬ u.table.codeBits k <+: u.look (u.after gs rest)) : x = .error .invalidCode := by
  rw [List.length_append] at length
  exact yields.step_error more (turn_of_none h length more none)

end

end StreamSetup

/-! ### The stream of HUF_UNCOMPRESS -/

/-- Settles O29: the groups bring the decoder to where the case begins, and its next turn or its end decides. -/
theorem hufStreamErrors : Obligations.HufStreamErrors := by
  unfold Obligations.HufStreamErrors
  constructor
  · intro s lens q e a n d no im iM nBits wf source dest apart reads writes size imLt iMLt bits fits unpack room build stream
    have serves : s.servesHufUncompress := ⟨wf, hufUncompress_reachesData source dest apart, reads, writes⟩
    have header : s.mem.holdsHeader a n im iM nBits := ⟨size, rfl, rfl, rfl, ⟨imLt, iMLt⟩, bits, fits⟩
    have body := hufUncompress_eq_body_of_header (s := s.clearValid .hufUncompress) (d := d) (no := no) wf reads header
    have decode := hufUncompressBody_eq_stream (s := s.clearValid .hufUncompress) (d := d) (no := no) reads writes size
      unpack room build
    have code : e ≠ .ok := by
      rintro rfl
      have := decodeStream_error stream
      simp at this
    exact execHufUncompress_of_raise serves (body.trans (decode.trans (Run.bind_of_error (ofExcept_of_error stream _)))) code
  · intro c iM no nBits gs rest done out size decoded wf fits free coded length inside room
    have sound : StreamSetup.Sound ⟨c, iM, no, nBits, size⟩ :=
      ⟨CodeTable.decodable wf fits free, by simp only [size, byteCount]; omega, by simp only [size, byteCount]; omega⟩
    have yields : StreamSetup.Yields ⟨c, iM, no, nBits, size⟩ (.afterGroups c iM gs rest) decoded := by
      simp only [decoded, (buildDecode_of_prefixFree wf fits free).2]
      exact StreamSetup.yields_groups sound coded length inside room
    refine ⟨yields.groups_end sound, ?_, ?_, ?_, yields.no_code sound length⟩
    · rintro v other hv ⟨rest, rfl⟩
      exact ⟨yields.sample_full sound length other hv, yields.sample_overruns sound length other hv⟩
    · rintro cs escape ⟨rest, rfl⟩ counted
      rw [List.append_assoc] at yields length
      exact yields.repeat_fails sound length escape counted
    · rintro escape ⟨rest, rfl⟩ inside cut
      exact yields.escape_cut sound length escape inside cut

end Sys2Proof.Machine
end

section
/-! SUPPORT and the proof of O27: a packed table that is cut short or whose last run passes `iM` (42_huffman_decode.md R302,
R303), and the headers that end the decoder (R301, R305). -/

namespace Sys2Proof.Machine

/-! ### A packed table cut short -/

/-- The reader with more bytes to come. -/
def TableReader.extend (r : TableReader) (tail : List Byte) : TableReader := { r with rest := r.rest ++ tail }

theorem TableReader.get_extend {rd : Nat → Bool} {k : Nat} {r : TableReader} (tail : List Byte)
    (enough : r.get rd k ≠ .error .tableEnd) :
    (r.extend tail).get rd k = (r.get rd k).map fun p => (p.1, p.2.extend tail) := by
  rw [TableReader.get] at enough
  rw [TableReader.get, TableReader.get, TableReader.extend]
  split
  · rfl
  · rename_i fetch
    rw [if_neg fetch] at enough
    cases hrest : r.rest with
    | nil => rw [hrest] at enough; exact absurd rfl enough
    | cons b rest =>
      dsimp only [List.cons_append]
      split <;> rfl

/-- A table that unpacks without running out of bytes unpacks alike where more of them follow. -/
theorem unpackFrom_extend {rd : Nat → Bool} {iM fuel i : Nat} {r : TableReader} (tail : List Byte)
    (enough : unpackFrom rd iM fuel i r ≠ .error .tableEnd) :
    unpackFrom rd iM fuel i (r.extend tail) = unpackFrom rd iM fuel i r := by
  induction fuel generalizing i r with
  | zero => rfl
  | succ fuel ih =>
    rw [unpackFrom] at enough
    rw [unpackFrom, unpackFrom]
    split
    · rfl
    rename_i more
    rw [if_neg more] at enough
    cases first : r.get rd 6 with
    | error e =>
      rw [first] at enough
      rw [TableReader.get_extend tail (by rw [first]; simpa using enough), first]
      rfl
    | ok p =>
      obtain ⟨l, r'⟩ := p
      rw [first] at enough
      rw [TableReader.get_extend tail (by rw [first]; simp), first]
      dsimp only [Except.map] at enough ⊢
      split
      · rename_i long
        rw [if_pos long] at enough
        cases second : r'.get rd 8 with
        | error e =>
          rw [second] at enough
          rw [TableReader.get_extend tail (by rw [second]; simpa using enough), second]
          rfl
        | ok p =>
          obtain ⟨c, r''⟩ := p
          rw [second] at enough
          rw [TableReader.get_extend tail (by rw [second]; simp), second]
          dsimp only [Except.map] at enough ⊢
          split
          · rename_i fits
            rw [if_pos fits] at enough
            exact ih enough
          · rfl
      · rename_i long
        rw [if_neg long] at enough
        split
        · rename_i short
          rw [if_pos short] at enough
          split
          · rename_i fits
            rw [if_pos fits] at enough
            exact ih enough
          · rfl
        · rename_i short
          rw [if_neg short] at enough
          rw [ih fun ends => by rw [ends] at enough; exact enough rfl]

/-- A packed table without its last bytes is TABLE_END (42_huffman_decode.md R302). -/
theorem unpackTable_cut {t : CodeTable} {im iM k : Nat} (wf : CodeTable.wf t = true) (hi : im ≤ iM) (hM : iM < 65537)
    (bounds : ∀ c ∈ t, im ≤ c.sym ∧ c.sym ≤ iM) (cut : k < byteCount (packTable im iM t).length) :
    unpackTable (fun _ => false) ((bytesOfBits (packTable im iM t)).take k) im iM = .error .tableEnd := by
  by_contra enough
  have whole := packedTableUnpacks t im iM [] wf hi hM bounds
  rw [List.append_nil, ← List.take_append_drop k (bytesOfBits _)] at whole
  have same := (unpackFrom_extend (r := ⟨[], _, 0⟩) ((bytesOfBits (packTable im iM t)).drop k) enough).symm.trans whole
  have := unpackTable_le same
  rw [List.length_take] at this
  omega

/-! ### A run past the last symbol -/

section
variable {iM i fuel p : Nat} {r : TableReader} {s : Bits}

/-- The marker of a run moves the loop past the run, or is TABLE_TOO_LONG (42_huffman_decode.md R303). -/
theorem unpackFrom_run {z : Nat} (h : r.Holds (packZeros z ++ s) p) (pos : 1 ≤ z) (max : z ≤ 261) (hi : i ≤ iM) :
    ∃ r', (∃ p', r'.Holds s p') ∧ unpackFrom (fun _ => false) iM (fuel + 1) i r =
      if i + z ≤ iM + 1 then unpackFrom (fun _ => false) iM fuel (i + z) r' else .error .tableTooLong := by
  rw [packZeros_eq pos] at h
  rw [unpackFrom, if_neg (by omega)]
  by_cases long : 6 ≤ z
  · rw [if_pos long, List.append_assoc] at h
    obtain ⟨r', first, h⟩ := h.get (by omega) (by decide)
    obtain ⟨r'', second, h⟩ := h.get (by omega) (show z - 6 < 2 ^ 8 by omega)
    have run : z - 6 + Config.shortestLongRun = z := Nat.sub_add_cancel long
    refine ⟨r'', ⟨_, h⟩, ?_⟩
    simp only [first, second, Config.longZerocodeRun, if_true, run]
  by_cases short : 2 ≤ z
  · rw [if_neg long, if_pos short] at h
    obtain ⟨r', first, h⟩ := h.get (by omega) (show 57 + z < 2 ^ 6 by omega)
    have run : 57 + z - Config.shortZerocodeRun + 2 = z := by simp only [Config.shortZerocodeRun]; omega
    refine ⟨r', ⟨_, h⟩, ?_⟩
    simp only [first, if_neg (show 57 + z ≠ Config.longZerocodeRun by simp only [Config.longZerocodeRun]; omega),
      if_pos (show Config.shortZerocodeRun ≤ 57 + z by simp only [Config.shortZerocodeRun]; omega), run]
  · rw [if_neg long, if_neg short] at h
    obtain ⟨r', first, h⟩ := h.get (by omega) (by decide)
    obtain rfl : z = 1 := by omega
    refine ⟨r', ⟨_, h⟩, ?_⟩
    simp only [first, if_neg (show 0 ≠ Config.longZerocodeRun by decide),
      if_neg (show ¬ Config.shortZerocodeRun ≤ 0 by decide), if_true, if_pos (show i + 1 ≤ iM + 1 by omega)]
    cases unpackFrom (fun _ => false) iM fuel (i + 1) r' <;> rfl

/-- What the loop does after it has passed symbols is all that decides whether it raises. -/
def UnpackLeads (iM fuel i : Nat) (r : TableReader) (j : Nat) (s : Bits) : Prop :=
  ∃ fuel' r', iM + 1 - j ≤ fuel' ∧ (∃ p, TableReader.Holds r' s p)
    ∧ ∀ e, unpackFrom (fun _ => false) iM fuel' j r' = .error e → unpackFrom (fun _ => false) iM fuel i r = .error e

theorem unpackLeads_refl (h : r.Holds s p) (hfuel : iM + 1 - i ≤ fuel) : UnpackLeads iM fuel i r i s :=
  ⟨fuel, r, hfuel, ⟨p, h⟩, fun _ => id⟩

theorem unpackLeads_zeroRun {n : Nat} (h : r.Holds (packZeroRun n ++ s) p) (hn : i + n ≤ iM + 1)
    (hfuel : iM + 1 - i ≤ fuel) : UnpackLeads iM fuel i r (i + n) s := by
  induction n using Nat.strong_induction_on generalizing i fuel p r with
  | h n ih =>
    obtain rfl | pos := n.eq_zero_or_pos
    · exact unpackLeads_refl h hfuel
    obtain ⟨fuel, rfl⟩ : ∃ f, fuel = f + 1 := ⟨fuel - 1, by omega⟩
    rw [packZeroRun_step (z := min n 261) (n := n) (by omega) (by omega) (by omega) (by omega), List.append_assoc] at h
    obtain ⟨r', ⟨p', h'⟩, step⟩ := unpackFrom_run (fuel := fuel) h (by omega) (by omega) (show i ≤ iM by omega)
    obtain ⟨fuel', r'', hfuel', later, leads⟩ := ih (n - min n 261) (by omega) h' (show i + min n 261 + _ ≤ _ by omega)
      (show _ ≤ fuel by omega)
    rw [show i + min n 261 + (n - min n 261) = i + n by omega] at hfuel' leads
    exact ⟨fuel', r'', hfuel', later, fun e ends => step.trans ((if_pos (by omega)).trans (leads e ends))⟩

/-- The loop passes the symbols up to `j` that were packed. -/
theorem unpackLeads_packFrom {t : CodeTable} {j : Nat} (wf : CodeTable.wf t = true)
    (bounds : ∀ c ∈ t, i ≤ c.sym ∧ c.sym ≤ j) (hi : i ≤ j + 1) (hj : j ≤ iM) (hfuel : iM + 1 - i ≤ fuel)
    (h : r.Holds (packFrom j i t ++ s) p) : UnpackLeads iM fuel i r (j + 1) s := by
  induction t generalizing i fuel p r with
  | nil =>
    have run := unpackLeads_zeroRun h (by omega) hfuel
    rwa [Nat.add_sub_cancel' hi] at run
  | cons e rest ih =>
    obtain ⟨above, ⟨-, pos, max⟩, wf⟩ := CodeTable.wf_cons.1 wf
    obtain ⟨low, high⟩ := bounds e List.mem_cons_self
    rw [packFrom, List.append_assoc, List.append_assoc] at h
    obtain ⟨fuel', r', hfuel', ⟨p', h'⟩, leads⟩ := unpackLeads_zeroRun h (by omega) hfuel
    rw [Nat.add_sub_cancel' low] at hfuel' leads
    obtain ⟨fuel', rfl⟩ : ∃ f, fuel' = f + 1 := ⟨fuel' - 1, by omega⟩
    obtain ⟨r'', length, h''⟩ := h'.get (by omega) (show e.len.toNat < 2 ^ 6 by omega)
    obtain ⟨fuel'', last, hfuel'', later, leads'⟩ := ih wf
      (fun c hc => ⟨above c hc, (bounds c (List.mem_cons_of_mem _ hc)).2⟩) (by omega) (show _ ≤ fuel' by omega) h''
    refine ⟨fuel'', last, hfuel'', later, fun err ends => leads err ?_⟩
    rw [unpackFrom, if_neg (by omega), length]
    simp only [leads' err ends,
      if_neg (show e.len.toNat ≠ Config.longZerocodeRun by simp only [Config.longZerocodeRun]; omega),
      if_neg (show ¬ Config.shortZerocodeRun ≤ e.len.toNat by simp only [Config.shortZerocodeRun]; omega)]

end

/-- A run of symbols without a code that passes `iM` is TABLE_TOO_LONG (42_huffman_decode.md R303). -/
theorem unpackTable_tooLong {t : CodeTable} {im i iM z : Nat} {area : List Byte} (wf : CodeTable.wf t = true) (low : im ≤ i)
    (high : i ≤ iM) (bounds : ∀ c ∈ t, im ≤ c.sym ∧ c.sym < i) (hz : 2 ≤ z ∧ z ≤ 261) (past : iM + 1 < i + z)
    (packed : (if i = im then [] else packTable im (i - 1) t) ++ packZeros z <+: bitsOfBytes area) :
    unpackTable (fun _ => false) area im iM = .error .tableTooLong := by
  obtain ⟨s, stored⟩ := packed
  rw [List.append_assoc] at stored
  have start : TableReader.Holds ⟨[], area, 0⟩ (_ ++ (packZeros z ++ s)) 0 := ⟨stored.symm, rfl, by simp⟩
  have leads : UnpackLeads iM (iM + 1 - im) im ⟨[], area, 0⟩ i (packZeros z ++ s) := by
    split at start
    · rename_i first
      subst first
      exact unpackLeads_refl start le_rfl
    · have passed := unpackLeads_packFrom wf (fun c hc => ⟨(bounds c hc).1, Nat.le_sub_one_of_lt (bounds c hc).2⟩)
        (by omega) (show i - 1 ≤ iM by omega) le_rfl start
      rwa [show i - 1 + 1 = i by omega] at passed
  obtain ⟨fuel, r, hfuel, ⟨p, h⟩, raises⟩ := leads
  obtain ⟨fuel, rfl⟩ : ∃ f, fuel = f + 1 := ⟨fuel - 1, by omega⟩
  obtain ⟨r', -, run⟩ := unpackFrom_run (fuel := fuel) h (by omega) hz.2 high
  exact raises _ (run.trans (if_neg (by omega)))

/-! ### Empty headers -/

/-- With no codes only an empty stream decodes, to no samples (42_huffman_decode.md R305). -/
theorem decodeStream_noCodes {iM no nBits : Nat} {stream : Bits} (length : stream.length = 8 * byteCount nBits) :
    decodeStream noFault noFault [] iM no nBits stream =
      if nBits = 0 then (if 0 = no then .ok [] else .error .notEnoughData) else .error .invalidCode := by
  have sound : StreamSetup.Sound ⟨[], iM, no, nBits, 8 * byteCount nBits⟩ :=
    ⟨⟨rfl, by simp, by simp⟩, by simp only [byteCount]; omega, by simp only [byteCount]; omega⟩
  have yields := StreamSetup.yields_start ⟨[], iM, no, nBits, 8 * byteCount nBits⟩ length
  split
  · rename_i zero
    exact yields.ends sound.padding zero.symm
  · rename_i coded
    exact yields.step_error (Nat.pos_of_ne_zero coded) (StreamSetup.turn_of_none sound ((Nat.zero_add _).trans length)
      (Nat.pos_of_ne_zero coded) fun k hk => absurd rfl hk)

theorem unpackTable_empty {im iM : Nat} (h : iM < im) (area : List Byte) :
    unpackTable (fun _ => false) area im iM = .ok ([], 0) := by
  rw [unpackTable, Nat.sub_eq_zero_of_le h]
  rfl

theorem Memory.write_nil (m : Memory) (a : Nat) : m.write a [] = m := by
  rw [Memory.write, cellsOf, List.append_nil, List.length_nil, Nat.add_zero, List.takeWhile_append_dropWhile]

/-- A header with `im > iM` leaves an empty code table, and the coded stream decides (42_huffman_decode.md R305). -/
theorem hufUncompress_emptyTable {s : State} {a n d no im iM nBits : Nat} (wf : s.mem.wf = true)
    (reads : s.readFails a n = false) (writes : s.writeFails d (2 * no) = false)
    (header : s.mem.holdsHeader a n im iM nBits) (empty : iM < im) {e : ErrCode}
    (stream : (if nBits = 0 then (if 0 = no then .ok [] else .error .notEnoughData) else .error .invalidCode :
      Except ErrCode (List Sample)) = .error e) :
    hufUncompress a n d no s = .error ⟨e, false⟩ (s.withCodes []) := by
  rw [hufUncompress_eq_body_of_header wf reads header, hufUncompressBody_eq_stream reads writes header.size
    (unpackTable_empty empty _) (by have := header.bits.2; simp only [byteCount] at this; omega) rfl]
  refine Run.bind_of_error (ofExcept_of_error ((decodeStream_noCodes ?_).trans stream) _)
  rw [bitsOfBytes_length, Memory.bytes_length]

/-- Settles O27: the checks of the header come first; without codes the stream must be empty; the packed table is cut short or
passes `iM` at the marker that says so. -/
theorem hufHeaderErrors : Obligations.HufHeaderErrors := by
  unfold Obligations.HufHeaderErrors
  refine ⟨?_, fun t im iM k wf hi hM bounds cut => unpackTable_cut wf hi hM bounds cut,
    fun t im i iM z area wf low high _ bounds short long past packed =>
      unpackTable_tooLong wf low high bounds ⟨short, long⟩ past packed⟩
  intro s a n d no im iM nBits wf source dest apart reads writes size
  have serves : s.servesHufUncompress := ⟨wf, hufUncompress_reachesData source dest apart, reads, writes⟩
  have raises {e : ErrCode} {s' : State} (run : s.runHufUncompress = .error ⟨e, false⟩ s') (he : e ≠ .ok) :
      ∃ t, exec .hufUncompress s = .next t ∧ s.completed t e {} ∧ t.codes = s'.codes
        ∧ s.mem.keptOutside t.mem d (2 * no) := execHufUncompress_of_raise serves run he
  have header (imLt : im < 65537) (iMLt : iM < 65537) (bits : nBits ≤ 2147483647) (fits : 20 + (nBits + 7) / 8 ≤ n) :
      s.mem.holdsHeader a n im iM nBits := ⟨size, rfl, rfl, rfl, ⟨imLt, iMLt⟩, bits, fits⟩
  refine ⟨fun bad => raises (hufUncompress_badBounds (s := s.clearValid .hufUncompress) wf size reads bad) (by decide),
    fun imLt iMLt bad =>
      raises (hufUncompress_badBits (s := s.clearValid .hufUncompress) wf size reads ⟨imLt, iMLt⟩ bad) (by decide),
    fun imLt empty noBits nothing => ?_, fun imLt empty noBits expected => ?_, fun imLt empty coded bits fits => ?_,
    fun e imLt iMLt bits fits unpack => ?_⟩
  · have holds : s.mem.holdsHuffman a n no 0 0 im iM [] [] :=
      { header := size
        bounds := ⟨rfl, rfl, imLt, by omega⟩
        bitCount := ⟨noBits, by omega, size⟩
        table := ⟨[], unpackTable_empty empty _, rfl⟩
        room := Nat.zero_le _
        build := rfl
        stream := by rw [nothing]; rfl }
    obtain ⟨t, run, ends, mem, codes⟩ := execHufUncompress_of_holds serves holds
    rw [show s.latched.dstLen.toNat = 0 from nothing] at ends
    exact ⟨t, run, ends, codes, mem.trans (Memory.write_nil ..)⟩
  · refine raises (hufUncompress_emptyTable (s := s.clearValid .hufUncompress) wf reads writes
      (header imLt (by omega) (by omega) (by omega)) empty ?_) (by decide)
    rw [if_pos noBits, if_neg expected.ne]
  · refine raises (hufUncompress_emptyTable (s := s.clearValid .hufUncompress) wf reads writes
      (header imLt (by omega) bits fits) empty ?_) (by decide)
    rw [if_neg coded.ne']
  · refine raises ((hufUncompress_eq_body_of_header (s := s.clearValid .hufUncompress) wf reads
      (header imLt iMLt bits fits)).trans
        (hufUncompressBody_unpackFails (s := s.clearValid .hufUncompress) reads size unpack)) ?_
    rintro rfl
    have := unpackFrom_error unpack
    simp at this

end Sys2Proof.Machine
end

section
/-! SUPPORT and the proof of O30: the coded stream of an encoding as groups of codes, and its block in memory
(41_huffman_encode.md R258 to R260, 42_huffman_decode.md R318). -/

namespace Sys2Proof.Machine

/-! ### The encoder's stream as groups -/

/-- The groups that a run of `cs` repeats of `s` is sent as (41_huffman_encode.md R259). -/
def runGroups (t : CodeTable) (rlc : Nat) (s : Sample) (cs : Nat) : List (Sample × Option Byte) :=
  if t.hlen s.toNat + t.hlen rlc + 8 < t.hlen s.toNat * cs then [(s, some (BitVec.ofNat 8 cs))]
  else List.replicate (cs + 1) (s, none)

theorem sendCode_eq_groupBits (t : CodeTable) (rlc : Nat) (s : Sample) {cs : Nat} (hcs : cs ≤ 255) :
    sendCode t rlc s cs = t.groupBits rlc (runGroups t rlc s cs) := by
  rw [sendCode, runGroups]
  split
  · rw [CodeTable.groupBits_repeat, BitVec.toNat_ofNat, Nat.mod_eq_of_lt (by omega), List.append_assoc]
  · rw [CodeTable.groupBits, List.flatMap_replicate, List.append_nil]

theorem groupSamples_runGroups (t : CodeTable) (rlc : Nat) (s : Sample) {cs : Nat} (hcs : cs ≤ 255) :
    groupSamples (runGroups t rlc s cs) = List.replicate (cs + 1) s := by
  rw [runGroups]
  split
  · simp [groupSamples, List.replicate_succ, Nat.mod_eq_of_lt (show cs < 256 by omega)]
  · rw [groupSamples, List.flatMap_replicate]
    simp

theorem encodeFrom_eq_groupBits (t : CodeTable) (rlc : Nat) (s : Sample) {cs : Nat} (hcs : cs ≤ 255) (rest : List Sample) :
    ∃ gs, encodeFrom t rlc s cs rest = t.groupBits rlc gs ∧ groupSamples gs = List.replicate (cs + 1) s ++ rest := by
  induction rest generalizing s cs with
  | nil =>
    exact ⟨_, sendCode_eq_groupBits t rlc s hcs, (groupSamples_runGroups t rlc s hcs).trans (List.append_nil _).symm⟩
  | cons v rest ih =>
    rw [encodeFrom]
    split
    · rename_i run
      obtain ⟨rfl, room⟩ := run
      obtain ⟨gs, coded, samples⟩ := ih v (cs := cs + 1) room
      refine ⟨gs, coded, samples.trans ?_⟩
      rw [List.replicate_succ', List.append_assoc]
      rfl
    · obtain ⟨gs, coded, samples⟩ := ih v (cs := 0) (by omega)
      refine ⟨runGroups t rlc s cs ++ gs, ?_, ?_⟩
      · rw [coded, sendCode_eq_groupBits t rlc s hcs, CodeTable.groupBits_append]
      · rw [groupSamples_append, groupSamples_runGroups t rlc s hcs, samples]
        rfl

/-- The coded stream is made of groups that stand for the samples (41_huffman_encode.md R258). -/
theorem encodeBits_eq_groupBits (t : CodeTable) (rlc : Nat) (xs : List Sample) :
    ∃ gs, encodeBits t rlc xs = t.groupBits rlc gs ∧ groupSamples gs = xs := by
  cases xs with
  | nil => exact ⟨[], rfl, rfl⟩
  | cons s rest => exact encodeFrom_eq_groupBits t rlc s (Nat.zero_le _) rest

/-- The sample of a group is one of those that the groups stand for. -/
theorem mem_groupSamples {gs : List (Sample × Option Byte)} {g : Sample × Option Byte} (hg : g ∈ gs) :
    g.1 ∈ groupSamples gs :=
  List.mem_flatMap.2 ⟨g, hg, List.mem_cons_self⟩

/-! ### The parts of an encoding -/

section
variable {xs : List Sample} {e : Encoded} (hne : xs ≠ []) (h : encodeSamples xs = .ok e)
include hne h

/-- The decode tables of an encoding are built, with all its codes (42_huffman_decode.md R312). -/
theorem encodeSamples_decodable :
    e.codes.Decodable ∧ (buildDecode [] e.codes).2 = none ∧ (buildDecode [] e.codes).1 = e.codes := by
  obtain ⟨-, fits, free, -⟩ := canonicalCodesArePrefixFree.2 xs e hne h
  have wf := encodeSamples_codes_wf hne h
  exact ⟨CodeTable.decodable wf fits free, buildDecode_of_prefixFree wf fits free⟩

theorem encodeSamples_lt_escape : ∀ v ∈ xs, e.im ≤ v.toNat ∧ v.toNat < e.iM := by
  obtain ⟨-, -, im, iM, -⟩ := encodeSamples_ok h
  rw [im, iM]
  exact (symbolBounds hne).2.2

/-- The stored stream of an encoding decodes to its samples (42_huffman_decode.md R318). -/
theorem decodeStream_encoded :
    decodeStream noFault noFault e.codes e.iM xs.length e.stream.length (bitsOfBytes (bytesOfBits e.stream)) = .ok xs := by
  obtain ⟨-, -, -, -, -, -, stream⟩ := encodeSamples_ok h
  obtain ⟨gs, coded, samples⟩ := encodeBits_eq_groupBits e.codes e.iM xs
  rw [← stream] at coded
  have sound : StreamSetup.Sound ⟨e.codes, e.iM, xs.length, e.stream.length, 8 * byteCount e.stream.length⟩ :=
    ⟨(encodeSamples_decodable hne h).1, by simp only [byteCount]; omega, by simp only [byteCount]; omega⟩
  have code (k : Nat) : e.codes.hlen k ≠ 0 ↔ k = e.iM ∨ ∃ v ∈ xs, v.toNat = k := encodeSamples_hlen_ne_zero_iff hne h k
  have groups : ∀ g ∈ gs, g.1.toNat ≠ e.iM ∧ e.codes.hlen g.1.toNat ≠ 0 ∧ (g.2.isSome = true → e.codes.hlen e.iM ≠ 0) := by
    intro g hg
    have hv : g.1 ∈ xs := samples ▸ mem_groupSamples hg
    exact ⟨(encodeSamples_lt_escape hne h _ hv).2.ne, (code _).2 (.inr ⟨_, hv, rfl⟩), fun _ => (code _).2 (.inl rfl)⟩
  have length : (bitsOfBytes (bytesOfBits e.stream)).length = 8 * byteCount e.stream.length := by
    rw [bitsOfBytes_length, bytesOfBits_length]
  rw [bitsOfBytes_bytesOfBits] at length ⊢
  generalize List.replicate _ false = padding at length ⊢
  have yields := StreamSetup.yields_groups sound (gs := gs) (rest := padding) groups (coded ▸ length) (coded ▸ le_rfl)
    (samples ▸ le_rfl)
  have ends := yields.groups_end sound (congrArg List.length coded.symm)
  rw [samples, if_pos rfl] at ends
  dsimp only at ends
  rwa [← coded] at ends

/-- The packed table of an encoding unpacks to its codes, whatever follows it (42_huffman_decode.md R304). -/
theorem unpackTable_encoded (tail : List Byte) :
    ∃ lens, unpackTable (fun _ => false) (bytesOfBits e.table ++ tail) e.im e.iM = .ok (lens, byteCount e.table.length)
      ∧ canonicalCodes lens = e.codes := by
  obtain ⟨-, -, -, -, -, table, -⟩ := encodeSamples_ok h
  have wf := encodeSamples_codes_wf hne h
  have bounds := encodeSamples_lt_escape hne h
  obtain ⟨v, hv⟩ := List.exists_mem_of_ne_nil xs hne
  have ordered : e.im ≤ e.iM := (bounds v hv).1.trans (bounds v hv).2.le
  have symbols : ∀ c ∈ e.codes, e.im ≤ c.sym ∧ c.sym ≤ e.iM := by
    intro c hc
    rcases (encodeSamples_hlen_ne_zero_iff hne h c.sym).1 ((CodeTable.hlen_ne_zero_iff wf _).2 ⟨c, hc, rfl⟩) with
      escape | ⟨u, hu, same⟩
    · exact ⟨escape ▸ ordered, escape.le⟩
    · exact same ▸ ⟨(bounds u hu).1, (bounds u hu).2.le⟩
  obtain ⟨canonical, -⟩ := canonicalCodesArePrefixFree.2 xs e hne h
  have unpacks := packedTableUnpacks e.codes e.im e.iM tail wf ordered (Nat.lt_succ_of_le (encodeSamples_bounds h).2) symbols
  rw [← table] at unpacks
  exact ⟨_, unpacks, canonical.symm⟩

end

/-! ### The block in memory -/

theorem Memory.write_bytes {m : Memory} (wf : m.wf = true) (a n : Nat) : m.write a (m.bytes a n) = m := by
  refine Memory.ext_read _ _ (Memory.write_wf _ _ _ wf) wf fun k => ?_
  rw [Memory.read_write _ _ _ _ wf, Memory.bytes_length]
  split
  · rename_i inside
    rw [show Memory.unwritten = 0 from rfl, Memory.bytes_getD wf (by omega), Nat.add_sub_cancel' inside.1]
  · rfl

/-- A part of bytes that are known. -/
theorem Memory.bytes_part {m : Memory} (wf : m.wf = true) {a n : Nat} {pre bs post : List Byte}
    (h : m.bytes a n = pre ++ bs ++ post) : m.bytes (a + pre.length) bs.length = bs := by
  have part := Memory.bytes_write_part wf a pre bs post
  rwa [← h, Memory.write_bytes wf] at part

/-- The block of an encoding passes every stage of the decoder (42_huffman_decode.md R318). -/
theorem Memory.holdsHuffman_of_block {m : Memory} (wf : m.wf = true) {a n : Nat} {xs : List Sample} {e : Encoded}
    (hne : xs ≠ []) (h : encodeSamples xs = .ok e) (short : e.stream.length ≤ 2147483647) (size : n = e.blockLength)
    (fits : n < 2 ^ 32) (block : m.bytes a n = e.block) :
    m.holdsHuffman a n xs.length e.stream.length (byteCount e.table.length) e.im e.iM e.codes xs := by
  obtain ⟨imLt, iMLe⟩ := encodeSamples_bounds h
  have header : Config.hufHdr = 20 := rfl
  rw [Encoded.blockLength, header] at size
  have stored := e.block_write wf a (by omega) (by omega) (by omega) (by omega)
  rw [← block, Memory.write_bytes wf] at stored
  obtain ⟨words, hwords, split⟩ : ∃ words : List Byte, words.length = 20
      ∧ e.block = words ++ bytesOfBits e.table ++ bytesOfBits e.stream := ⟨_, rfl, rfl⟩
  rw [split] at block
  have stream := Memory.bytes_part wf (block.trans (List.append_nil _).symm)
  rw [List.append_assoc, ← List.append_nil (bytesOfBits e.table ++ _), ← List.append_assoc] at block
  have area := Memory.bytes_part wf block
  rw [List.length_append, hwords, bytesOfBits_length, bytesOfBits_length] at area stream
  rw [← Nat.add_assoc] at stream
  obtain ⟨-, build, placed⟩ := encodeSamples_decodable hne h
  exact
    { header := by omega
      bounds := ⟨stored.im, stored.iM, by omega, by omega⟩
      bitCount := ⟨stored.nBits, short, by omega⟩
      table := by
        rw [show n - 20 = byteCount e.table.length + byteCount e.stream.length by omega, area]
        exact unpackTable_encoded hne h _
      room := by simp only [byteCount] at size ⊢; omega
      build := build
      stream := by
        rw [placed, stream]
        exact decodeStream_encoded hne h }

/-- Settles O30: the block that an encoding makes passes every stage, so the decoder gives its samples back. -/
theorem huffmanRoundTrip : Obligations.HuffmanRoundTrip := by
  unfold Obligations.HuffmanRoundTrip
  intro s xs e a n d no wf source dest apart reads writes length hne h short size block
  have serves : s.servesHufUncompress := ⟨wf, hufUncompress_reachesData source dest apart, reads, writes⟩
  have holds := Memory.holdsHuffman_of_block wf hne h short size s.latched.srcLen.isLt block
  rw [length] at holds
  obtain ⟨t, run, ends, mem, codes⟩ := execHufUncompress_of_holds serves holds
  refine ⟨t, run, ends, ?_, hufUncompress_keptOutside wf run, codes⟩
  rw [mem, ← length]
  exact Memory.sampleList_write wf d xs

end Sys2Proof.Machine
end

section
/-! SUPPORT and the proof of O17: the levels of the transform, and a level as a map on the boxes of the grid's values
(43_wavelet.md R357 to R361). -/

namespace Sys2Proof.Machine

/-! ### The levels -/

theorem mem_levels_iff {nx ny p : Nat} (small : min nx ny < 2 ^ 32) :
    p ∈ levels nx ny ↔ (∃ k, p = 2 ^ k) ∧ 2 * p ≤ min nx ny := by
  refine ⟨mem_levels, ?_⟩
  rintro ⟨⟨k, rfl⟩, fits⟩
  have below : 2 ^ (k + 1) < 2 ^ 32 := by rw [Nat.pow_succ']; omega
  have := (Nat.pow_lt_pow_iff_right (by decide)).1 below
  exact List.mem_filter.2 ⟨List.mem_map.2 ⟨k, List.mem_range.2 (by omega), rfl⟩, decide_eq_true fits⟩

theorem levels_pairwise (nx ny : Nat) : (levels nx ny).Pairwise (· < ·) :=
  ((List.pairwise_lt_range (n := 32)).map (2 ^ ·) fun _ _ => Nat.pow_lt_pow_right (by decide)).filter _

/-- A side of at most one point leaves no level (43_wavelet.md R357). -/
theorem levels_eq_nil {nx ny : Nat} (h : min nx ny ≤ 1) : levels nx ny = [] := by
  refine List.eq_nil_iff_forall_not_mem.2 fun p hp => ?_
  obtain ⟨⟨k, rfl⟩, fits⟩ := mem_levels hp
  have := Nat.two_pow_pos k
  omega

/-- Each level works on points that every earlier level's boxes begin at (43_wavelet.md R357, R359). -/
theorem levels_pairwise_dvd (nx ny : Nat) : (levels nx ny).Pairwise (2 * · ∣ ·) := by
  refine (levels_pairwise nx ny).imp_of_mem ?_
  intro p p' hp hp' rise
  obtain ⟨⟨j, rfl⟩, -⟩ := mem_levels hp
  obtain ⟨⟨k, rfl⟩, -⟩ := mem_levels hp'
  rw [← Nat.pow_succ']
  exact Nat.pow_dvd_pow 2 ((Nat.pow_lt_pow_iff_right (by decide)).1 rise)

/-- Settles O17: the powers of two below `2^31` in order, of which those that fit are kept. -/
theorem levelSchedule : Obligations.LevelSchedule := by
  unfold Obligations.LevelSchedule
  intro nx ny hx hy
  exact ⟨fun p => mem_levels_iff (by omega), levels_pairwise nx ny, levels_eq_nil⟩

/-! ### Boxes -/

/-- The four values of a 2x2 box, by column, then by row: `false` is the near one, `true` the one `p` further (43_wavelet.md
R359). -/
abbrev Quad := Bool → Bool → Sample

/-- One of a pair of samples. -/
def pick (ab : Sample × Sample) (far : Bool) : Sample := if far then ab.2 else ab.1

/-- The 2x2 box of EncLevel on values: horizontal, then vertical (43_wavelet.md R359). -/
def encQuad (f : Sample → Sample → Sample × Sample) (q : Quad) : Quad := fun i j =>
  pick (f (pick (f (q false false) (q true false)) i) (pick (f (q false true) (q true true)) i)) j

/-- The 2x2 box of DecLevel on values: undo vertical, then undo horizontal (43_wavelet.md R361). -/
def decQuad (f : Sample → Sample → Sample × Sample) (q : Quad) : Quad := fun i j =>
  pick (f (pick (f (q false false) (q false true)) j) (pick (f (q true false) (q true true)) j)) i

/-- A leftover column takes the two points of its box's near column (43_wavelet.md R359). -/
def columnQuad (f : Sample → Sample → Sample × Sample) (q : Quad) : Quad := fun i j =>
  if i then q i j else pick (f (q false false) (q false true)) j

/-- A leftover row takes the two points of its box's near row (43_wavelet.md R359). -/
def rowQuad (f : Sample → Sample → Sample × Sample) (q : Quad) : Quad := fun i j =>
  if j then q i j else pick (f (q false false) (q true false)) i

/-- What a level does in the box at column `X` and row `Y` of boxes: the whole box, a leftover pair, or nothing
(43_wavelet.md R359, R361). -/
def levelQuad (f : Sample → Sample → Sample × Sample) (whole : Quad → Quad) (nx ny p X Y : Nat) : Quad → Quad :=
  if X * (2 * p) + 2 * p ≤ nx ∧ Y * (2 * p) + 2 * p ≤ ny then whole
  else if Y * (2 * p) + 2 * p ≤ ny ∧ nx &&& p ≠ 0 then columnQuad f
  else if X * (2 * p) + 2 * p ≤ nx ∧ ny &&& p ≠ 0 then rowQuad f
  else id

/-- The near or the far point of box `X` of level `p` along one side. -/
def corner (p X : Nat) (far : Bool) : Nat := X * (2 * p) + if far then p else 0

/-- The values of a box. -/
def quadAt (p : Nat) (w : GridValues) (X Y : Nat) : Quad := fun i j => w (corner p X i) (corner p Y j)

/-- The grid's values after each box has been mapped; the points between the corners of boxes are left alone. -/
def onBoxes (p : Nat) (S : Nat → Nat → Quad → Quad) (w : GridValues) : GridValues := fun x y =>
  if p ∣ x ∧ p ∣ y then
    S (x / (2 * p)) (y / (2 * p)) (quadAt p w (x / (2 * p)) (y / (2 * p)))
      (x ≠ x / (2 * p) * (2 * p)) (y ≠ y / (2 * p) * (2 * p))
  else w x y

section
variable {p : Nat}

theorem corner_div (hp : 0 < p) (X : Nat) (i : Bool) : corner p X i / (2 * p) = X :=
  cell_eq (by split <;> omega)

theorem dvd_corner (p X : Nat) (i : Bool) : p ∣ corner p X i := by
  refine Nat.dvd_add (Dvd.intro_left (X * 2) (by ring)) ?_
  split <;> simp

theorem corner_ne_near_iff (hp : 0 < p) (X : Nat) (i : Bool) : corner p X i ≠ X * (2 * p) ↔ i = true := by
  cases i <;> simp [corner, hp.ne']

theorem corner_inj (hp : 0 < p) {X X' : Nat} {i i' : Bool} : corner p X i = corner p X' i' ↔ X = X' ∧ i = i' := by
  refine ⟨fun h => ?_, by rintro ⟨rfl, rfl⟩; rfl⟩
  have box : X = X' := by rw [← corner_div hp X i, h, corner_div hp]
  subst box
  refine ⟨rfl, ?_⟩
  rw [Bool.eq_iff_iff, ← corner_ne_near_iff hp X, h, corner_ne_near_iff hp]

/-- The points of a level are the corners of its boxes. -/
theorem exists_corner {x : Nat} (h : p ∣ x) : ∃ X i, x = corner p X i := by
  rcases lattice_iff.1 (Nat.mod_eq_zero_of_dvd h) with near | far
  · exact ⟨_, false, near⟩
  · exact ⟨_, true, far⟩

theorem onBoxes_corner (hp : 0 < p) (S : Nat → Nat → Quad → Quad) (w : GridValues) (X Y : Nat) (i j : Bool) :
    onBoxes p S w (corner p X i) (corner p Y j) = S X Y (quadAt p w X Y) i j := by
  rw [onBoxes, if_pos ⟨dvd_corner .., dvd_corner ..⟩]
  simp only [corner_div hp, corner_ne_near_iff hp, Bool.decide_eq_true]

theorem onBoxes_between (S : Nat → Nat → Quad → Quad) (w : GridValues) {x y : Nat} (h : ¬ (p ∣ x ∧ p ∣ y)) :
    onBoxes p S w x y = w x y := if_neg h

/-- Two grids are the same when their boxes are and the points between are. -/
theorem gridValues_ext {v w : GridValues}
    (boxes : ∀ X Y i j, v (corner p X i) (corner p Y j) = w (corner p X i) (corner p Y j))
    (between : ∀ x y, ¬ (p ∣ x ∧ p ∣ y) → v x y = w x y) : v = w := by
  funext x y
  by_cases level : p ∣ x ∧ p ∣ y
  · obtain ⟨X, i, rfl⟩ := exists_corner level.1
    obtain ⟨Y, j, rfl⟩ := exists_corner level.2
    exact boxes X Y i j
  · exact between x y level

theorem quadAt_onBoxes (hp : 0 < p) (S : Nat → Nat → Quad → Quad) (w : GridValues) (X Y : Nat) :
    quadAt p (onBoxes p S w) X Y = S X Y (quadAt p w X Y) :=
  funext fun i => funext fun j => onBoxes_corner hp S w X Y i j

/-- One map of the boxes after another maps each box twice. -/
theorem onBoxes_onBoxes (hp : 0 < p) (S T : Nat → Nat → Quad → Quad) (w : GridValues) :
    onBoxes p T (onBoxes p S w) = onBoxes p (fun X Y q => T X Y (S X Y q)) w := by
  refine gridValues_ext (p := p) (fun X Y i j => ?_) fun x y between => ?_
  · rw [onBoxes_corner hp, onBoxes_corner hp, quadAt_onBoxes hp]
  · rw [onBoxes_between _ _ between, onBoxes_between _ _ between, onBoxes_between _ _ between]

/-- A map that leaves every box of the grid alone leaves the grid alone. -/
theorem onBoxes_eq_self (hp : 0 < p) {S : Nat → Nat → Quad → Quad} {w : GridValues}
    (same : ∀ X Y, S X Y (quadAt p w X Y) = quadAt p w X Y) : onBoxes p S w = w := by
  refine gridValues_ext (p := p) (fun X Y i j => ?_) fun x y between => onBoxes_between _ _ between
  rw [onBoxes_corner hp, same]
  rfl

/-! ### A level maps the boxes -/

theorem corner_false (p X : Nat) : corner p X false = X * (2 * p) := rfl

theorem corner_true (p X : Nat) : corner p X true = X * (2 * p) + p := rfl

/-- The value a level leaves at one corner of a box. -/
theorem levelQuad_apply (f : Sample → Sample → Sample × Sample) (whole : Quad → Quad) (nx ny p X Y : Nat) (q : Quad)
    (i j : Bool) :
    levelQuad f whole nx ny p X Y q i j =
      if X * (2 * p) + 2 * p ≤ nx ∧ Y * (2 * p) + 2 * p ≤ ny then whole q i j
      else if Y * (2 * p) + 2 * p ≤ ny ∧ nx &&& p ≠ 0 ∧ i = false then pick (f (q false false) (q false true)) j
      else if X * (2 * p) + 2 * p ≤ nx ∧ ny &&& p ≠ 0 ∧ j = false then pick (f (q false false) (q true false)) i
      else q i j := by
  unfold levelQuad
  by_cases both : X * (2 * p) + 2 * p ≤ nx ∧ Y * (2 * p) + 2 * p ≤ ny
  · rw [if_pos both, if_pos both]
  rw [if_neg both, if_neg both]
  by_cases column : Y * (2 * p) + 2 * p ≤ ny ∧ nx &&& p ≠ 0
  · have narrow : ¬ X * (2 * p) + 2 * p ≤ nx := fun h => both ⟨h, column.1⟩
    cases i <;> simp [column, narrow, columnQuad]
  have noColumn : ¬ (Y * (2 * p) + 2 * p ≤ ny ∧ nx &&& p ≠ 0 ∧ i = false) := fun h => column ⟨h.1, h.2.1⟩
  rw [if_neg column, if_neg noColumn]
  by_cases row : X * (2 * p) + 2 * p ≤ nx ∧ ny &&& p ≠ 0
  · cases j <;> simp [row, rowQuad]
  · have noRow : ¬ (X * (2 * p) + 2 * p ≤ nx ∧ ny &&& p ≠ 0 ∧ j = false) := fun h => row ⟨h.1, h.2.1⟩
    rw [if_neg row, if_neg noRow, id]

theorem levelQuad_whole (hp : 0 < p) {f : Sample → Sample → Sample × Sample} {whole : Quad → Quad}
    {nx ny X Y : Nat} (hX : X < nx / (2 * p)) (hY : Y < ny / (2 * p)) :
    levelQuad f whole nx ny p X Y = whole := if_pos ⟨(cell_fits hp).2 hX, (cell_fits hp).2 hY⟩

theorem levelQuad_column (hp : 0 < p) {f : Sample → Sample → Sample × Sample} {whole : Quad → Quad}
    {nx ny X Y : Nat} (hX : ¬ X < nx / (2 * p)) (hY : Y < ny / (2 * p)) :
    levelQuad f whole nx ny p X Y = if nx &&& p ≠ 0 then columnQuad f else id := by
  simp only [levelQuad, cell_fits hp, hX, hY, false_and, true_and, if_false]

theorem levelQuad_row (hp : 0 < p) {f : Sample → Sample → Sample × Sample} {whole : Quad → Quad}
    {nx ny X Y : Nat} (hX : X < nx / (2 * p)) (hY : ¬ Y < ny / (2 * p)) :
    levelQuad f whole nx ny p X Y = if ny &&& p ≠ 0 then rowQuad f else id := by
  simp only [levelQuad, cell_fits hp, hX, hY, false_and, and_false, true_and, if_false]

theorem levelQuad_rest (hp : 0 < p) {f : Sample → Sample → Sample × Sample} {whole : Quad → Quad}
    {nx ny X Y : Nat} (hX : ¬ X < nx / (2 * p)) (hY : ¬ Y < ny / (2 * p)) :
    levelQuad f whole nx ny p X Y = id := by
  simp only [levelQuad, cell_fits hp, hX, hY, false_and, if_false]

/-- EncLevel maps the boxes of the grid's values (43_wavelet.md R359). -/
theorem encPoint_eq_onBoxes (hp : 0 < p) (f : Sample → Sample → Sample × Sample) (nx ny : Nat) (w : GridValues) :
    encPoint f nx ny p w = onBoxes p (levelQuad f (encQuad f) nx ny p) w := by
  refine gridValues_ext (p := p) (fun X Y i j => ?_) fun x y between => ?_
  · rw [onBoxes_corner hp, levelQuad_apply, encPoint, if_neg (by simp [Nat.mod_eq_zero_of_dvd, dvd_corner])]
    simp only [corner_div hp]
    cases i <;> cases j <;> simp [encQuad, pick, quadAt, corner_false, corner_true, hp.ne']
  · rw [onBoxes_between _ _ between, encPoint, if_pos]
    simpa only [Nat.dvd_iff_mod_eq_zero, ne_eq, not_and_or] using between

/-- DecLevel maps the boxes of the grid's values (43_wavelet.md R361). -/
theorem decPoint_eq_onBoxes (hp : 0 < p) (f : Sample → Sample → Sample × Sample) (nx ny : Nat) (w : GridValues) :
    decPoint f nx ny p w = onBoxes p (levelQuad f (decQuad f) nx ny p) w := by
  refine gridValues_ext (p := p) (fun X Y i j => ?_) fun x y between => ?_
  · rw [onBoxes_corner hp, levelQuad_apply, decPoint, if_neg (by simp [Nat.mod_eq_zero_of_dvd, dvd_corner])]
    simp only [corner_div hp]
    cases i <;> cases j <;> simp [decQuad, pick, quadAt, corner_false, corner_true, hp.ne']
  · rw [onBoxes_between _ _ between, decPoint, if_pos]
    simpa only [Nat.dvd_iff_mod_eq_zero, ne_eq, not_and_or] using between

end

end Sys2Proof.Machine
end

section
/-! SUPPORT. The transform on values: the decode butterflies undo the encode ones where the signed differences fit 16 bits, and
so do the boxes, the levels and the whole transform (43_wavelet.md R355, R362). -/

namespace Sys2Proof.Machine

/-! ### Butterflies -/

/-- The decode butterfly `g` undoes the encode butterfly `f` on two kinds of values: on samples and averages, `low`, and on
differences, `high`, which an encoded box takes once more (43_wavelet.md R359, R362). -/
structure Undoes (g f : Sample → Sample → Sample × Sample) (low high : Sample → Prop) : Prop where
  onLow : ∀ a b, low a → low b → g (f a b).1 (f a b).2 = (a, b)
  average : ∀ a b, low a → low b → low (f a b).1
  difference : ∀ a b, low a → low b → high (f a b).2
  onHigh : ∀ a b, high a → high b → g (f a b).1 (f a b).2 = (a, b)

/-- The average and the difference of two samples, as signed values, where the difference fits 16 bits. -/
theorem wenc14_toInt {a b : Sample} (lo : -32768 ≤ a.toInt - b.toInt) (hi : a.toInt - b.toInt ≤ 32767) :
    (wenc14 a b).1.toInt = (a.toInt + b.toInt) / 2 ∧ (wenc14 a b).2.toInt = a.toInt - b.toInt := by
  have ha := BitVec.toInt_lt (x := a)
  have ha' := BitVec.le_toInt a
  have hb := BitVec.toInt_lt (x := b)
  have hb' := BitVec.le_toInt b
  constructor <;> rw [wenc14, BitVec.toInt_ofInt] <;> apply Int.bmod_eq_of_le <;> omega

/-- The 14-bit butterflies invert where the signed difference fits 16 bits (43_wavelet.md R351, R352, R355). -/
theorem wdec14_wenc14 {a b : Sample} (lo : -32768 ≤ a.toInt - b.toInt) (hi : a.toInt - b.toInt ≤ 32767) :
    wdec14 (wenc14 a b).1 (wenc14 a b).2 = (a, b) := by
  obtain ⟨average, difference⟩ := wenc14_toInt lo hi
  have whole : (a.toInt + b.toInt) / 2 + (a.toInt - b.toInt) % 2 + (a.toInt - b.toInt) / 2 = a.toInt := by omega
  rw [wdec14, average, difference]
  rw [whole, show a.toInt - (a.toInt - b.toInt) = b.toInt by omega, BitVec.ofInt_toInt, BitVec.ofInt_toInt]

/-- The 16-bit butterflies invert on every pair of samples (43_wavelet.md R353, R354, R355). -/
theorem wdec16_wenc16 (a b : Sample) : wdec16 (wenc16 a b).1 (wenc16 a b).2 = (a, b) := by
  have ha := a.isLt
  have hb := b.isLt
  simp only [wdec16, wenc16, Config.wavOffset]
  ext1 <;> apply BitVec.eq_of_toNat_eq <;> simp only [BitVec.toNat_ofInt, BitVec.toNat_ofNat] <;> split <;> omega

/-- A sample below 16384 is its own signed value. -/
theorem toInt_of_lt {a : Sample} (h : a.toNat < 16384) : a.toInt = a.toNat := BitVec.toInt_eq_toNat_of_lt (by omega)

/-- In 14-bit mode averages stay below 16384 and differences within it (43_wavelet.md R362). -/
theorem undoes_wenc14 : Undoes wdec14 wenc14 (·.toNat < 16384) fun d => -16384 < d.toInt ∧ d.toInt < 16384 where
  onLow a b ha hb := by
    have := toInt_of_lt ha
    have := toInt_of_lt hb
    exact wdec14_wenc14 (by omega) (by omega)
  average a b ha hb := by
    have := toInt_of_lt ha
    have := toInt_of_lt hb
    obtain ⟨average, -⟩ := wenc14_toInt (a := a) (b := b) (by omega) (by omega)
    have := BitVec.toInt_eq_toNat_cond (wenc14 a b).1
    split at this <;> omega
  difference a b ha hb := by
    have := toInt_of_lt ha
    have := toInt_of_lt hb
    obtain ⟨-, difference⟩ := wenc14_toInt (a := a) (b := b) (by omega) (by omega)
    omega
  onHigh a b ha hb := wdec14_wenc14 (by omega) (by omega)

/-- In the mode of `maxValue` the samples that the round trip is for: all of them in 16-bit mode, those below 16384 in 14-bit
mode (43_wavelet.md R358, R362). -/
theorem exists_undoes (maxValue : Nat) :
    ∃ low high, Undoes (decButterfly maxValue) (encButterfly maxValue) low high
      ∧ ∀ v : Sample, 16384 ≤ maxValue ∨ v.toNat < 16384 → low v := by
  unfold decButterfly encButterfly Config.w14Limit
  split
  · exact ⟨_, _, undoes_wenc14, fun v h => h.resolve_left (by omega)⟩
  · refine ⟨fun _ => True, fun _ => True, ⟨?_, ?_, ?_, ?_⟩, fun _ _ => trivial⟩
    · exact fun a b _ _ => wdec16_wenc16 a b
    · exact fun _ _ _ _ => trivial
    · exact fun _ _ _ _ => trivial
    · exact fun a b _ _ => wdec16_wenc16 a b

/-! ### Boxes -/

section
variable {f g : Sample → Sample → Sample × Sample} {low high : Sample → Prop} (undoes : Undoes g f low high) {q : Quad}
  (hq : ∀ i j, low (q i j))
include undoes hq

/-- The box of DecLevel undoes the box of EncLevel: the vertical butterflies are undone first (43_wavelet.md R361, R362). -/
theorem decQuad_encQuad : decQuad g (encQuad f q) = q := by
  have horizontal (j : Bool) : g (f (q false j) (q true j)).1 (f (q false j) (q true j)).2 = (q false j, q true j) :=
    undoes.onLow _ _ (hq _ _) (hq _ _)
  have averages := undoes.onLow _ _ (undoes.average _ _ (hq false false) (hq true false))
    (undoes.average _ _ (hq false true) (hq true true))
  have differences := undoes.onHigh _ _ (undoes.difference _ _ (hq false false) (hq true false))
    (undoes.difference _ _ (hq false true) (hq true true))
  funext i j
  cases i <;> cases j <;> simp [decQuad, encQuad, pick, averages, differences, horizontal]

theorem columnQuad_columnQuad : columnQuad g (columnQuad f q) = q := by
  have pair := undoes.onLow _ _ (hq false false) (hq false true)
  funext i j
  cases i <;> cases j <;> simp [columnQuad, pick, pair]

theorem rowQuad_rowQuad : rowQuad g (rowQuad f q) = q := by
  have pair := undoes.onLow _ _ (hq false false) (hq true false)
  funext i j
  cases i <;> cases j <;> simp [rowQuad, pick, pair]

theorem levelQuad_undo (nx ny p X Y : Nat) :
    levelQuad g (decQuad g) nx ny p X Y (levelQuad f (encQuad f) nx ny p X Y q) = q := by
  unfold levelQuad
  split
  · exact decQuad_encQuad undoes hq
  · split
    · exact columnQuad_columnQuad undoes hq
    · split
      · exact rowQuad_rowQuad undoes hq
      · rfl

/-- The first corner of an encoded box holds an average, or the sample that was there. -/
theorem low_levelQuad (nx ny p X Y : Nat) : low (levelQuad f (encQuad f) nx ny p X Y q false false) := by
  unfold levelQuad
  split
  · exact undoes.average _ _ (undoes.average _ _ (hq _ _) (hq _ _)) (undoes.average _ _ (hq _ _) (hq _ _))
  · split
    · exact undoes.average _ _ (hq _ _) (hq _ _)
    · split
      · exact undoes.average _ _ (hq _ _) (hq _ _)
      · exact hq _ _

end

/-! ### Levels and the whole transform -/

/-- The points that level `p` works on hold values that the round trip is for. -/
def LowAt (low : Sample → Prop) (p : Nat) (w : GridValues) : Prop := ∀ x y, p ∣ x → p ∣ y → low (w x y)

section
variable {f g : Sample → Sample → Sample × Sample} {low high : Sample → Prop} (undoes : Undoes g f low high)
include undoes

/-- DecLevel undoes EncLevel (43_wavelet.md R362). -/
theorem decPoint_encPoint (nx ny : Nat) {p : Nat} (hp : 0 < p) {w : GridValues} (hw : LowAt low p w) :
    decPoint g nx ny p (encPoint f nx ny p w) = w := by
  rw [encPoint_eq_onBoxes hp, decPoint_eq_onBoxes hp, onBoxes_onBoxes hp]
  exact onBoxes_eq_self hp fun X Y =>
    levelQuad_undo undoes (fun i j => hw _ _ (dvd_corner p X i) (dvd_corner p Y j)) nx ny p X Y

/-- EncLevel leaves averages at the points that later levels work on (43_wavelet.md R357, R359). -/
theorem lowAt_encPoint (nx ny : Nat) {p : Nat} (hp : 0 < p) {w : GridValues} (hw : LowAt low p w) {p' : Nat}
    (later : 2 * p ∣ p') : LowAt low p' (encPoint f nx ny p w) := by
  intro x y hx hy
  obtain ⟨X, rfl⟩ := later.trans hx
  obtain ⟨Y, rfl⟩ := later.trans hy
  rw [encPoint_eq_onBoxes hp, Nat.mul_comm, Nat.mul_comm _ Y]
  exact (onBoxes_corner hp _ w X Y false false).symm ▸
    low_levelQuad undoes (fun i j => hw _ _ (dvd_corner p X i) (dvd_corner p Y j)) nx ny p X Y

/-- The levels undone in descending order, by induction on the levels. -/
theorem foldl_decPoint_encPoint (nx ny : Nat) {ps : List Nat} (rise : ps.Pairwise (2 * · ∣ ·)) {w : GridValues}
    (hp : ∀ p ∈ ps, 0 < p) (hw : ∀ p ∈ ps, LowAt low p w) :
    ps.reverse.foldl (fun v p => decPoint g nx ny p v) (ps.foldl (fun v p => encPoint f nx ny p v) w) = w := by
  induction ps generalizing w with
  | nil => rfl
  | cons p ps ih =>
    obtain ⟨later, rise⟩ := List.pairwise_cons.1 rise
    have pos : 0 < p := hp p List.mem_cons_self
    have start : LowAt low p w := hw p List.mem_cons_self
    rw [List.foldl_cons, List.reverse_cons, List.foldl_append,
      ih rise (fun p' h => hp p' (List.mem_cons_of_mem _ h)) fun p' h => lowAt_encPoint undoes nx ny pos start (later p' h)]
    exact decPoint_encPoint undoes nx ny pos start

end

/-- The inverse transform undoes the forward one on values that the mode's round trip is for (43_wavelet.md R362). -/
theorem decGrid_encGrid (maxValue nx ny : Nat) {w : GridValues}
    (hw : ∀ x y, 16384 ≤ maxValue ∨ (w x y).toNat < 16384) :
    decGrid maxValue nx ny (encGrid maxValue nx ny w) = w := by
  obtain ⟨low, high, undoes, all⟩ := exists_undoes maxValue
  refine foldl_decPoint_encPoint undoes nx ny (levels_pairwise_dvd nx ny) (fun p hp => ?_) fun p _ x y _ _ =>
    all _ (hw x y)
  obtain ⟨⟨k, rfl⟩, -⟩ := mem_levels hp
  exact Nat.two_pow_pos k

end Sys2Proof.Machine
end

section
/-! SUPPORT. The inverse wavelet in memory, where the bus serves every point of the grid: each of its passes maps the boxes that
it comes to, each level all boxes of the grid (43_wavelet.md R361, R363). -/

namespace Sys2Proof.Machine

/-! ### Some of the boxes -/

/-- A map of the boxes, made in the boxes `R` only. -/
def onlyIn (R : Finset (Nat × Nat)) (S : Nat → Nat → Quad → Quad) : Nat → Nat → Quad → Quad := fun X Y =>
  if (X, Y) ∈ R then S X Y else id

/-- A part of a level that makes the level's map in the boxes `R`, whatever the values are. -/
def Grid.MapsBoxes (g : Grid) (s : State) (p : Nat) (S : Nat → Nat → Quad → Quad) (R : Finset (Nat × Nat)) (x : Run Unit) :
    Prop := ∀ w, g.Maps s x w (onBoxes p (onlyIn R S) w)

section
variable {g : Grid} {s : State} {p : Nat} {S : Nat → Nat → Quad → Quad} (hp : 0 < p)
include hp

/-- One part after another makes the map in the boxes of both. -/
theorem Grid.MapsBoxes.seq {R R' : Finset (Nat × Nat)} {x y : Run Unit} (hx : g.MapsBoxes s p S R x)
    (hy : g.MapsBoxes s p S R' y) (apart : Disjoint R R') : g.MapsBoxes s p S (R ∪ R') (x >>= fun _ => y) := by
  intro w
  have both : onBoxes p (onlyIn R' S) (onBoxes p (onlyIn R S) w) = onBoxes p (onlyIn (R ∪ R') S) w := by
    rw [onBoxes_onBoxes hp]
    congr 1
    funext X Y q
    by_cases first : (X, Y) ∈ R
    · simp [onlyIn, first, Finset.disjoint_left.1 apart first]
    · simp [onlyIn, first]
  exact both ▸ (hx w).seq (hy _)

/-- Nothing is done in boxes that the level leaves alone. -/
theorem Grid.mapsBoxes_pure {R : Finset (Nat × Nat)} (alone : ∀ X Y, (X, Y) ∈ R → S X Y = id) :
    g.MapsBoxes s p S R (pure ()) := by
  intro w
  refine Grid.maps_pure fun x _ y _ => ?_
  rw [onBoxes_eq_self hp fun X Y => ?_]
  unfold onlyIn
  split
  · rename_i mem
    rw [alone X Y mem, id]
  · rfl

/-- A loop whose turns make the map in boxes of their own. -/
theorem Grid.mapsBoxes_forUpTo {n : Nat} {f : Nat → Run Unit} {R : Nat → Finset (Nat × Nat)}
    (hf : ∀ k < n, g.MapsBoxes s p S (R k) (f k)) (apart : ∀ j k, j ≠ k → Disjoint (R j) (R k)) :
    g.MapsBoxes s p S ((Finset.range n).biUnion R) (forUpTo n f) := by
  induction n with
  | zero => exact Grid.mapsBoxes_pure hp (by simp)
  | succ n ih =>
    rw [Finset.range_add_one, Finset.biUnion_insert, Finset.union_comm]
    refine (ih fun k hk => hf k (by omega)).seq hp (hf n (by omega)) ?_
    rw [Finset.disjoint_biUnion_left]
    exact fun k hk => apart k n (by have := Finset.mem_range.1 hk; omega)

/-- Values that are the level's in one box and as before elsewhere are the level's map in that box. -/
theorem onBoxes_single {X Y : Nat} {w v : GridValues}
    (here : ∀ i j, v (corner p X i) (corner p Y j) = S X Y (quadAt p w X Y) i j)
    (elsewhere : ∀ x y, (∀ i j, ¬ (x = corner p X i ∧ y = corner p Y j)) → v x y = w x y) :
    v = onBoxes p (onlyIn {(X, Y)} S) w := by
  refine gridValues_ext (p := p) (fun X' Y' i j => ?_) fun x y between => ?_
  · rw [onBoxes_corner hp, onlyIn]
    by_cases box : X' = X ∧ Y' = Y
    · obtain ⟨rfl, rfl⟩ := box
      rw [if_pos (by simp), here]
    · rw [if_neg (by simpa using box)]
      exact elsewhere _ _ fun i' j' h => box ⟨((corner_inj hp).1 h.1).1, ((corner_inj hp).1 h.2).1⟩
  · rw [onBoxes_between _ _ between]
    refine elsewhere x y fun i j h => between ?_
    rw [h.1, h.2]
    exact ⟨dvd_corner .., dvd_corner ..⟩

end

/-! ### Boxes and leftover pairs in memory -/

/-- The values after the 2x2 box of DecLevel (43_wavelet.md R361). -/
def decBoxValues (f : Sample → Sample → Sample × Sample) (p x y : Nat) (w : GridValues) : GridValues :=
  let left := f (w x y) (w x (y + p))
  let right := f (w (x + p) y) (w (x + p) (y + p))
  setPoint (setPoint (setPoint (setPoint w x y (f left.1 right.1).1) (x + p) y (f left.1 right.1).2) x (y + p)
    (f left.2 right.2).1) (x + p) (y + p) (f left.2 right.2).2

section
variable {f : Sample → Sample → Sample × Sample} {g : Grid} {s : State} {p : Nat} {whole : Quad → Quad}

variable (served : g.served s) (hp : 0 < p)
include served hp

theorem Grid.mapsBoxes_decBox {X Y : Nat} (hX : X < g.nx / (2 * p)) (hY : Y < g.ny / (2 * p)) :
    g.MapsBoxes s p (levelQuad f (decQuad f) g.nx g.ny p) {(X, Y)} (decBox f g p (X * (2 * p)) (Y * (2 * p))) := by
  intro w
  have hx := box_lt hp hX
  have hy := box_lt hp hY
  have hx0 : X * (2 * p) < g.nx := by omega
  have hy0 : Y * (2 * p) < g.ny := by omega
  rw [← onBoxes_single hp (v := decBoxValues f p (X * (2 * p)) (Y * (2 * p)) w) ?_ ?_]
  · exact Grid.maps_readPoint served hx0 hy0 <| Grid.maps_readPoint served hx0 hy <|
      Grid.maps_readPoint served hx hy0 <| Grid.maps_readPoint served hx hy <|
        (Grid.maps_writePoint served _ hx0 hy0).seq <| (Grid.maps_writePoint served _ hx hy0).seq <|
          (Grid.maps_writePoint served _ hx0 hy).seq (Grid.maps_writePoint served _ hx hy)
  · intro i j
    rw [levelQuad_whole hp hX hY]
    cases i <;> cases j <;> simp [decBoxValues, setPoint, decQuad, pick, quadAt, corner_false, corner_true, hp.ne']
  · intro x y off
    exact (if_neg (off true true)).trans <| (if_neg (off false true)).trans <|
      (if_neg (off true false)).trans (if_neg (off false false))

theorem Grid.mapsBoxes_column {Y : Nat} (left : g.nx &&& p ≠ 0) (fits : g.nx / (2 * p) * (2 * p) + p ≤ g.nx)
    (hY : Y < g.ny / (2 * p)) :
    g.MapsBoxes s p (levelQuad f whole g.nx g.ny p) {(g.nx / (2 * p), Y)}
      (pairStep f (g.addr (g.nx / (2 * p) * (2 * p)) (Y * (2 * p)))
        (g.addr (g.nx / (2 * p) * (2 * p)) (Y * (2 * p) + p))) := by
  intro w
  have hy := box_lt hp hY
  rw [← onBoxes_single hp (v := pairValues f _ _ _ _ w) ?_ ?_]
  · exact Grid.maps_pairStep served f (by omega) (by omega) (by omega) hy
  · intro i j
    rw [levelQuad_column hp (lt_irrefl _) hY, if_pos left]
    cases i <;> cases j <;> simp [pairValues, setPoint, columnQuad, pick, quadAt, corner_false, corner_true, hp.ne']
  · intro x y off
    exact pairValues_other (off false false) (off false true)

theorem Grid.mapsBoxes_row {X : Nat} (left : g.ny &&& p ≠ 0) (fits : g.ny / (2 * p) * (2 * p) + p ≤ g.ny)
    (hX : X < g.nx / (2 * p)) :
    g.MapsBoxes s p (levelQuad f whole g.nx g.ny p) {(X, g.ny / (2 * p))}
      (pairStep f (g.addr (X * (2 * p)) (g.ny / (2 * p) * (2 * p)))
        (g.addr (X * (2 * p) + p) (g.ny / (2 * p) * (2 * p)))) := by
  intro w
  have hx := box_lt hp hX
  rw [← onBoxes_single hp (v := pairValues f _ _ _ _ w) ?_ ?_]
  · exact Grid.maps_pairStep served f (by omega) (by omega) hx (by omega)
  · intro i j
    rw [levelQuad_row hp hX (lt_irrefl _), if_pos left]
    cases i <;> cases j <;> simp [pairValues, setPoint, rowQuad, pick, quadAt, corner_false, corner_true, hp.ne']
  · intro x y off
    exact pairValues_other (off false false) (off true false)

end

/-! ### Levels in memory -/

/-- The boxes of row `Y`, with the one of the leftover column. -/
def boxRow (g : Grid) (p Y : Nat) : Finset (Nat × Nat) :=
  (Finset.range (g.nx / (2 * p))).biUnion (fun X => {(X, Y)}) ∪ {(g.nx / (2 * p), Y)}

/-- The boxes that a level comes to, in the order of its loops. -/
def levelBoxes (g : Grid) (p : Nat) : Finset (Nat × Nat) :=
  (Finset.range (g.ny / (2 * p))).biUnion (boxRow g p)
    ∪ (Finset.range (g.nx / (2 * p))).biUnion fun X => {(X, g.ny / (2 * p))}

theorem mem_boxRow {g : Grid} {p X Y Y' : Nat} : (X, Y') ∈ boxRow g p Y ↔ Y' = Y ∧ X ≤ g.nx / (2 * p) := by
  simp only [boxRow, Finset.mem_union, Finset.mem_biUnion, Finset.mem_range, Finset.mem_singleton, Prod.mk.injEq]
  constructor
  · rintro (⟨X', lt, rfl, rfl⟩ | ⟨rfl, rfl⟩)
    · exact ⟨rfl, lt.le⟩
    · exact ⟨rfl, le_rfl⟩
  · rintro ⟨rfl, le⟩
    rcases le.lt_or_eq with lt | rfl
    · exact .inl ⟨X, lt, rfl, rfl⟩
    · exact .inr ⟨rfl, rfl⟩

theorem mem_levelBoxes {g : Grid} {p X Y : Nat} :
    (X, Y) ∈ levelBoxes g p ↔
      (Y < g.ny / (2 * p) ∧ X ≤ g.nx / (2 * p)) ∨ (Y = g.ny / (2 * p) ∧ X < g.nx / (2 * p)) := by
  simp only [levelBoxes, Finset.mem_union, Finset.mem_biUnion, Finset.mem_range, mem_boxRow, Finset.mem_singleton,
    Prod.mk.injEq]
  constructor
  · rintro (⟨Y', lt, rfl, le⟩ | ⟨X', lt, rfl, rfl⟩)
    · exact .inl ⟨lt, le⟩
    · exact .inr ⟨rfl, lt⟩
  · rintro (⟨lt, le⟩ | ⟨rfl, lt⟩)
    · exact .inl ⟨Y, lt, rfl, le⟩
    · exact .inr ⟨X, lt, rfl, rfl⟩

section
variable {f : Sample → Sample → Sample × Sample} {g : Grid} {s : State} {p : Nat}

/-- On the grid, the boxes that a level comes to are all that it changes. -/
theorem onBoxes_levelBoxes (hp : 0 < p) (whole : Quad → Quad) (w : GridValues) {x y : Nat} (hx : x < g.nx) (hy : y < g.ny) :
    onBoxes p (onlyIn (levelBoxes g p) (levelQuad f whole g.nx g.ny p)) w x y =
      onBoxes p (levelQuad f whole g.nx g.ny p) w x y := by
  have inX : x / (2 * p) ≤ g.nx / (2 * p) := Nat.div_le_div_right hx.le
  have inY : y / (2 * p) ≤ g.ny / (2 * p) := Nat.div_le_div_right hy.le
  have same : onlyIn (levelBoxes g p) (levelQuad f whole g.nx g.ny p) (x / (2 * p)) (y / (2 * p)) =
      levelQuad f whole g.nx g.ny p (x / (2 * p)) (y / (2 * p)) := by
    unfold onlyIn
    split
    · rfl
    · rename_i out
      rw [mem_levelBoxes] at out
      rw [levelQuad_rest hp (by omega) (by omega)]
  rw [onBoxes, onBoxes, same]

/-- DecLevel in memory maps the boxes that it comes to, in the order of its loops (43_wavelet.md R361). -/
theorem Grid.mapsBoxes_decLevel (served : g.served s) (pow : ∃ j, p = 2 ^ j) :
    g.MapsBoxes s p (levelQuad f (decQuad f) g.nx g.ny p) (levelBoxes g p) (decLevel f g p) := by
  have hp : 0 < p := pow.elim fun j h => h ▸ Nat.two_pow_pos j
  refine Grid.MapsBoxes.seq hp (Grid.mapsBoxes_forUpTo hp (fun Y hY => ?_) fun Y Y' ne => ?_) ?_ ?_
  · refine (Grid.mapsBoxes_forUpTo hp (fun X hX => Grid.mapsBoxes_decBox served hp hX hY) ?_).seq hp ?_ ?_
    · exact fun X X' ne => by simpa using ne
    · split
      · rename_i left
        exact Grid.mapsBoxes_column served hp left ((leftover_iff pow _).1 left) hY
      · rename_i none
        refine Grid.mapsBoxes_pure hp fun X Y' mem => ?_
        obtain ⟨rfl, rfl⟩ := Prod.mk.inj (Finset.mem_singleton.1 mem)
        rw [levelQuad_column hp (lt_irrefl _) hY, if_neg none]
    · simp
  · rw [Finset.disjoint_left]
    rintro ⟨X, Y''⟩ mem mem'
    exact ne ((mem_boxRow.1 mem).1.symm.trans (mem_boxRow.1 mem').1)
  · split
    · rename_i left
      exact Grid.mapsBoxes_forUpTo hp
        (fun X hX => Grid.mapsBoxes_row served hp left ((leftover_iff pow _).1 left) hX) fun X X' ne => by simpa using ne
    · rename_i none
      refine Grid.mapsBoxes_pure hp fun X Y mem => ?_
      simp only [Finset.mem_biUnion, Finset.mem_range, Finset.mem_singleton, Prod.mk.injEq] at mem
      obtain ⟨X', hX, rfl, rfl⟩ := mem
      rw [levelQuad_row hp hX (lt_irrefl _), if_neg none]
  · rw [Finset.disjoint_left]
    rintro ⟨X, Y⟩ mem mem'
    simp only [Finset.mem_biUnion, Finset.mem_range, mem_boxRow, Finset.mem_singleton, Prod.mk.injEq] at mem mem'
    omega

/-- A level in memory gives the points the values of `decPoint` (43_wavelet.md R361). -/
theorem Grid.maps_decLevel (served : g.served s) (pow : ∃ j, p = 2 ^ j) (w : GridValues) :
    g.Maps s (decLevel f g p) w (decPoint f g.nx g.ny p w) := by
  have hp : 0 < p := pow.elim fun j h => h ▸ Nat.two_pow_pos j
  rw [decPoint_eq_onBoxes hp]
  exact (Grid.mapsBoxes_decLevel served pow w).to fun x hx y hy => onBoxes_levelBoxes hp _ w hx hy

/-- The inverse wavelet in memory is the inverse transform of the grid's values (43_wavelet.md R363). -/
theorem Grid.maps_wavDecode2D (served : g.served s) (m : Nat) (w : GridValues) :
    g.Maps s (wavDecode2D m g) w (decGrid m g.nx g.ny w) :=
  Grid.maps_forEach (fun _ hp v => Grid.maps_decLevel served (mem_levels (List.mem_reverse.1 hp)).1 v) w

end

end Sys2Proof.Machine
end

section
/-! The proofs of O15, O16 and O19: WAV_ENCODE and WAV_DECODE run through their data phases to their completion
(43_wavelet.md R366, R368). -/

namespace Sys2Proof.Machine

/-! ### The commands -/

/-- What WAV_ENCODE and WAV_DECODE need of a state to complete: a legal grid, in memory that the bus reads and writes
(43_wavelet.md R360). -/
structure State.servesGrid (s : State) : Prop where
  wf : s.mem.wf = true
  legal : (gridOfParams s.latched).legal
  usable : s.usable (gridOfParams s.latched).base (gridExtent s.latched) 2
  reads : s.readFails (gridOfParams s.latched).base (gridExtent s.latched) = false
  writes : s.writeFails (gridOfParams s.latched).base (gridExtent s.latched) = false

/-- The statements write the region's size through the grid's fields. -/
theorem State.servesGrid_of_region {s : State} {size : Nat} (wf : s.mem.wf = true) (legal : (gridOfParams s.latched).legal)
    (extent : size = gridExtent s.latched) (usable : s.usable (gridOfParams s.latched).base size 2)
    (reads : s.readFails (gridOfParams s.latched).base size = false)
    (writes : s.writeFails (gridOfParams s.latched).base size = false) : s.servesGrid := by
  subst extent
  exact ⟨wf, legal, usable, reads, writes⟩

/-- The grid's region holds its points (43_wavelet.md R360). -/
theorem State.servesGrid.served {s : State} (h : s.servesGrid) : (gridOfParams s.latched).served s := by
  refine ⟨fun x hx y hy => ?_, fun x hx y hy x' hx' y' _ e => h.legal.apart hx hy hx' e⟩
  have lo : (gridOfParams s.latched).base ≤ (gridOfParams s.latched).addr x y := Nat.le_add_right _ _
  have hi : (gridOfParams s.latched).addr x y + 2 ≤ (gridOfParams s.latched).base + gridExtent s.latched := by
    rw [gridExtent_of_pos (Nat.zero_lt_of_lt hx) (Nat.zero_lt_of_lt hy)]
    exact (gridOfParams s.latched).addr_lt hx hy
  exact ⟨spansMeet_part _ _ _ _ _ h.reads lo hi, spansMeet_part _ _ _ _ _ h.writes lo hi⟩

theorem State.servesGrid.reachesData {s : State} (h : s.servesGrid) {i : Instr} (hi : i = .wavEncode ∨ i = .wavDecode) :
    reachesData i s := by
  have params := commandParamBad_of_legal hi h.legal
  rcases hi with rfl | rfl <;> exact reachesData_of_one rfl (by simp [tablesRequired]) h.usable params rfl

/-- The transform that a wavelet command makes of its grid's values (43_wavelet.md R366, R368). -/
def waveletGrid (i : Instr) (l : Params) (w : GridValues) : GridValues :=
  if i = .wavEncode then encGrid l.maxval.toNat (gridOfParams l).nx (gridOfParams l).ny w
  else decGrid l.maxval.toNat (gridOfParams l).nx (gridOfParams l).ny w

/-- A wavelet command completes, and leaves in memory the transform of the grid's values. -/
theorem exec_wavelet {s : State} (h : s.servesGrid) {i : Instr} (hi : i = .wavEncode ∨ i = .wavDecode) {w : GridValues}
    (holds : (gridOfParams s.latched).holds s w s) :
    ∃ t, exec i s = .next t ∧ s.completed t .ok {}
      ∧ (gridOfParams s.latched).holds s (waveletGrid i s.latched w) (s.withMem t.mem) := by
  have start : (gridOfParams s.latched).holds (s.clearValid i) w (s.clearValid i) :=
    ⟨rfl, holds.wf, holds.values, fun _ _ => rfl⟩
  have served : (gridOfParams s.latched).served (s.clearValid i) := ⟨h.served.points, h.served.apart⟩
  suffices ∃ t, dataPhase i (s.clearValid i) = .ok {} t
      ∧ (gridOfParams s.latched).holds (s.clearValid i) (waveletGrid i s.latched w) t by
    obtain ⟨t, run, ends⟩ := this
    obtain ⟨next, completed⟩ := exec_of_ok (h.reachesData hi) run
    exact ⟨_, next, completed, rfl, ends.wf, ends.values, ends.outside⟩
  rcases hi with rfl | rfl
  · obtain ⟨t, run, ends⟩ := Grid.maps_wavEncode2D served s.latched.maxval.toNat w _ start
    exact ⟨t, Run.bind_of_ok (x := wavEncode2D _ _) run, ends⟩
  · obtain ⟨t, run, ends⟩ := Grid.maps_wavDecode2D served s.latched.maxval.toNat w _ start
    exact ⟨t, Run.bind_of_ok (x := wavDecode2D _ _) run, ends⟩

/-- No level, nothing done: a grid of at most one row or one column (43_wavelet.md R357). -/
theorem waveletGrid_of_small (i : Instr) {l : Params} (small : min (gridOfParams l).nx (gridOfParams l).ny ≤ 1)
    (w : GridValues) : waveletGrid i l w = w := by
  unfold waveletGrid
  split
  · rw [encGrid, levels_eq_nil small]
    rfl
  · rw [decGrid, levels_eq_nil small]
    rfl

/-- A sample determines its two bytes (20_memory.md R93). -/
theorem Memory.read_eq_of_sample_eq {m m' : Memory} {a : Nat} (h : m'.sample a = m.sample a) :
    m'.read a = m.read a ∧ m'.read (a + 1) = m.read (a + 1) := by
  have numbers := congrArg BitVec.toNat h
  rw [Memory.sample, Memory.sample, toNat_append_byte, toNat_append_byte] at numbers
  have := (m.read a).isLt
  have := (m'.read a).isLt
  constructor <;> apply BitVec.eq_of_toNat_eq <;> omega

/-- Memory is as before when it is outside the grid and the grid's values are. -/
theorem Grid.holds.mem_eq {g : Grid} {s t : State} {w : GridValues} (h : g.holds s w t) (wf : s.mem.wf = true)
    (same : ∀ x < g.nx, ∀ y < g.ny, w x y = s.mem.grid g x y) : t.mem = s.mem := by
  refine Memory.ext_read _ _ h.wf wf fun a => ?_
  by_cases point : g.covers a
  · obtain ⟨x, hx, y, hy, here⟩ := point
    have bytes := Memory.read_eq_of_sample_eq ((h.values x hx y hy).trans (same x hx y hy))
    rcases here with rfl | rfl
    · exact bytes.1
    · exact bytes.2
  · exact h.outside a point

theorem Grid.holds_self (g : Grid) {s : State} (wf : s.mem.wf = true) : g.holds s (s.mem.grid g) s :=
  ⟨rfl, wf, fun _ _ _ _ => rfl, fun _ _ => rfl⟩

/-- Settles O15: the data phase raises nothing, and writes points of the grid only. -/
theorem waveletCommandsComplete : Obligations.WaveletCommandsComplete := by
  unfold Obligations.WaveletCommandsComplete
  intro s i hi g size wf legal usable reads writes
  have serves := State.servesGrid_of_region wf legal (gridExtent_eq _).symm usable reads writes
  obtain ⟨t, run, completed, ends⟩ := exec_wavelet serves hi (g.holds_self wf)
  refine ⟨t, run, completed, ends.outside, fun small => ends.mem_eq wf fun x _ y _ => ?_,
    exec_tablesKept (by rcases hi with rfl | rfl <;> rfl) run⟩
  rw [waveletGrid_of_small i small]

/-- Settles O16: each command leaves the transform of the values that the grid held. -/
theorem waveletCommandsComputeTheTransform : Obligations.WaveletCommandsComputeTheTransform := by
  unfold Obligations.WaveletCommandsComputeTheTransform
  intro s g size wf legal usable reads writes
  have serves := State.servesGrid_of_region wf legal (gridExtent_eq _).symm usable reads writes
  obtain ⟨t, encodes, -, encoded⟩ := exec_wavelet serves (.inl rfl) (g.holds_self wf)
  obtain ⟨u, decodes, -, decoded⟩ := exec_wavelet serves (.inr rfl) (g.holds_self wf)
  exact ⟨t, u, encodes, decodes, fun x hx y hy => ⟨encoded.values x hx y hy, decoded.values x hx y hy⟩⟩

/-! ### The round trip -/

/-- Another memory in canonical form serves the grid too. -/
theorem State.servesGrid.of_kept {s t : State} (h : s.servesGrid) (kept : s.hostSideKept t) (wf : t.mem.wf = true) :
    t.servesGrid := by
  refine ⟨wf, ?_, ?_, ?_, ?_⟩ <;>
    simp only [State.usable, State.readFails, State.writeFails, kept.latched, kept.platform]
  · exact h.legal
  · exact h.usable
  · exact h.reads
  · exact h.writes

/-- The grid's values, with 0 at every point outside the grid. -/
def Grid.cut (g : Grid) (w : GridValues) : GridValues := fun x y => if x < g.nx ∧ y < g.ny then w x y else 0

/-- Settles O19: the inverse transform of the values undoes the forward one, so memory reads as before at every point. -/
theorem waveletRoundTrip : Obligations.WaveletRoundTrip := by
  unfold Obligations.WaveletRoundTrip
  intro s g size wf legal usable reads writes mode
  have serves := State.servesGrid_of_region wf legal (gridExtent_eq _).symm usable reads writes
  have cut_eq (x : Nat) (hx : x < g.nx) (y : Nat) (hy : y < g.ny) : g.cut (s.mem.grid g) x y = s.mem.grid g x y :=
    if_pos ⟨hx, hy⟩
  have undone : waveletGrid .wavDecode s.latched (waveletGrid .wavEncode s.latched (g.cut (s.mem.grid g))) =
      g.cut (s.mem.grid g) := by
    refine decGrid_encGrid _ _ _ fun x y => mode.imp_right fun low => ?_
    unfold Grid.cut
    split
    · rename_i point
      exact low x point.1 y point.2
    · decide
  obtain ⟨t, encodes, completed, encoded⟩ := exec_wavelet serves (.inl rfl)
    ((g.holds_self wf).congr fun x hx y hy => (cut_eq x hx y hy).symm)
  have latched := completed.kept.latched
  obtain ⟨u, decodes, ends, decoded⟩ := exec_wavelet (serves.of_kept completed.kept encoded.wf) (.inr rfl)
    (w := waveletGrid .wavEncode s.latched (g.cut (s.mem.grid g)))
    ⟨rfl, encoded.wf, by rw [latched]; exact encoded.values, fun _ _ => rfl⟩
  rw [latched, undone] at decoded
  have restored : g.holds s (g.cut (s.mem.grid g)) (s.withMem u.mem) :=
    ⟨rfl, decoded.wf, decoded.values, fun a ha => (decoded.outside a ha).trans (encoded.outside a ha)⟩
  exact ⟨t, u, encodes, decodes, ends.errcode, restored.mem_eq wf cut_eq⟩

end Sys2Proof.Machine
end


section
/-! The proof of O7: NOP runs through its empty data phase to its completion (44_piz.md R420). -/

namespace Sys2Proof.Machine

/-- NOP has no region and no operand to check, and its data phase does nothing (44_piz.md R420). -/
theorem execNop_completes (s : State) :
    ∃ t, exec .nop s = .next t ∧ s.completed t .ok {} ∧ s.tablesKept t ∧ t.mem = s.mem := by
  have reaches : reachesData .nop s :=
    reachesData_of_usable (by simp [tablesRequired]) (by simp [regions]) rfl rfl rfl
  obtain ⟨run, ends⟩ := exec_of_ok reaches (r := {}) (s' := s.clearValid .nop) rfl
  exact ⟨_, run, ends, exec_tablesKept rfl run, rfl⟩

/-- Settles O7: after NOP from reset DONE and CMD_DONE are the only bits set, since the tables are as at reset. -/
theorem nopCompletes : Obligations.NopCompletes := by
  unfold Obligations.NopCompletes
  refine ⟨execNop_completes, rfl, by decide, ?_⟩
  let reset := { State.reset with hostq := expandStmt (.run .nop) }
  have now := (stepRunsTheDecodedCommand reset _ .nop (decode_encode .nop) rfl).1 _ rfl rfl rfl
  obtain ⟨t, run, ends, tables, -⟩ := execNop_completes (((reset.arrive [.wait]).issue (encode .nop)).respond .written)
  have bitmap : t.bitmap = none := tables.bitmap
  have lut : t.lut = none := tables.lut
  have kind : t.lutKind = .forward := tables.lutKind
  have codes : t.codes = none := tables.codes
  have irq : t.irqStatus = 0b001 := ends.irqStatus.trans (by decide)
  refine ⟨t, now.trans run, ?_, by rw [State.readReg, irq]; decide⟩
  rw [State.readReg, State.statusWord, State.busy, bitmap, lut, kind, codes, ends.phase, ends.done, ends.errcode]
  decide

end Sys2Proof.Machine
end


section
/-! SUPPORT. Byte sequences stored one after the other, and a bitmap block that is stored and loaded back (40_lut.md
R204, R205). -/

namespace Sys2Proof.Machine

/-! ### Stores one after the other -/

section
variable {m : Memory} (wf : m.wf = true)
include wf

/-- A byte sequence stored right behind another one. -/
theorem Memory.write_append (a : Nat) (xs ys : List Byte) :
    (m.write a xs).write (a + xs.length) ys = m.write a (xs ++ ys) := by
  have wf' := Memory.write_wf m a xs wf
  refine Memory.ext_read _ _ (Memory.write_wf _ _ _ wf') (Memory.write_wf _ _ _ wf) fun k => ?_
  rw [Memory.read_write _ _ _ _ wf', Memory.read_write _ _ _ _ wf, Memory.read_write _ _ _ _ wf, List.length_append]
  by_cases first : k < a + xs.length
  · rw [if_neg (by omega)]
    by_cases above : a ≤ k
    · rw [if_pos ⟨above, first⟩, if_pos (by omega), List.getD_append _ _ _ _ (by omega)]
    · rw [if_neg (by omega), if_neg (by omega)]
  · by_cases second : k < a + xs.length + ys.length
    · rw [if_pos (by omega), if_pos (by omega), List.getD_append_right _ _ _ _ (by omega), Nat.sub_sub]
    · rw [if_neg (by omega), if_neg (by omega), if_neg (by omega)]

/-- Stores that share no byte can be made in either order. -/
theorem Memory.write_comm {a b : Nat} {xs ys : List Byte} (apart : a + xs.length ≤ b) :
    (m.write b ys).write a xs = (m.write a xs).write b ys := by
  have wf1 := Memory.write_wf m a xs wf
  have wf2 := Memory.write_wf m b ys wf
  refine Memory.ext_read _ _ (Memory.write_wf _ _ _ wf2) (Memory.write_wf _ _ _ wf1) fun k => ?_
  rw [Memory.read_write _ _ _ _ wf2, Memory.read_write _ _ _ _ wf1, Memory.read_write _ _ _ _ wf,
    Memory.read_write _ _ _ _ wf]
  by_cases low : a ≤ k ∧ k < a + xs.length
  · rw [if_pos low, if_neg (by omega), if_pos low]
  · rw [if_neg low, if_neg low]

/-- A store keeps the samples of a buffer that its range does not meet. -/
theorem Memory.sampleList_write_of_apart {a n d size : Nat} {bs : List Byte} (fits : bs.length ≤ size)
    (apart : rangesMeet a (2 * n) d size = false) : (m.write d bs).sampleList a n = m.sampleList a n := by
  rcases Nat.eq_zero_or_pos bs.length with none | some
  · rw [List.length_eq_zero_iff.1 none, Memory.write_nil]
  refine List.map_congr_left fun k hk => Memory.sample_write_of_disjoint _ _ _ _ wf ?_
  have hk := List.mem_range.1 hk
  simp only [rangesMeet, Bool.and_eq_false_iff, decide_eq_false_iff_not] at apart
  omega

end

/-! ### The bitmap block -/

/-- The bounds of the all-zero BITMAP (40_lut.md R203). -/
theorem Bitmap.isMinMax_zero : Bitmap.isMinMax 0 8191 0 := .inl ⟨fun j => by simp [Bitmap.byte], rfl, rfl⟩

/-- One BITMAP is loaded from a bitmap block (40_lut.md R205). -/
theorem Bitmap.isLoaded.unique {b b' : Bitmap} {m : Memory} {slice mn mx : Nat} (h : b.isLoaded m slice mn mx)
    (h' : b'.isLoaded m slice mn mx) : b = b' := by
  refine BitVec.eq_of_getLsbD_eq fun v hv => ?_
  have byte : b.byte (v / 8) = b'.byte (v / 8) := (h _ (by omega)).trans (h' _ (by omega)).symm
  have bit (c : Bitmap) : (c.byte (v / 8)).getLsbD (v % 8) = c.getLsbD v := by
    rw [Bitmap.byte_getLsbD _ _ _ (by omega), Nat.div_add_mod, Bitmap.bit]
  rw [← bit b, byte, bit b']

/-- A BITMAP that a buffer has loads from its own block: its bytes outside the bounds are 0, and so is bit 0 (40_lut.md
R203, R205). -/
theorem Bitmap.isLoaded_of_block {b : Bitmap} {m : Memory} (wf : m.wf = true) {d mn mx : Nat} (bounds : b.isMinMax mn mx)
    (first : b.bit 0 = false) (block : m.bytes d (4 + sliceSize mn mx) = b.block mn mx) :
    (m.sample d).toNat = mn ∧ (m.sample (d + 2)).toNat = mx ∧ b.isLoaded m (d + 4) mn mx := by
  obtain ⟨low, high, slice⟩ := b.block_write wf d bounds.lt.1 bounds.lt.2
  rw [← block, Memory.write_bytes wf] at low high slice
  refine ⟨low, high, fun j _ => ?_⟩
  have masked : b.byte j = b.byte j &&& (if j = 0 then 0xFE else 0xFF) := by
    refine BitVec.eq_of_getLsbD_eq fun t ht => ?_
    rw [BitVec.getLsbD_and, firstByteMask_getLsbD ht, b.byte_getLsbD j t ht]
    by_cases zero : 8 * j + t = 0
    · rw [zero, first, Bool.false_and]
    · rw [decide_eq_true zero, Bool.and_true]
  rw [masked]
  congr 1
  split
  · rename_i inside
    rw [slice (j - mn) (by rw [sliceSize, if_pos (by omega)]; omega), Nat.add_sub_cancel' inside.1]
  · rename_i outside
    obtain ⟨zero, -⟩ | ⟨-, -, within⟩ := bounds
    · exact zero j
    · exact not_not.1 fun nonzero => outside (within j nonzero)

end Sys2Proof.Machine
end


section
/-! SUPPORT. HufCompress and HufUncompress as stages of the PIZ commands: what a stage that raises nothing stores
(41_huffman_encode.md R261, 42_huffman_decode.md R301, R318). -/

namespace Sys2Proof.Machine

/-! ### Parts that answered -/

section
variable {α : Type} {s s' : State} {r : α} {a n : Nat}

theorem require_bind_inv {c : Bool} {e : ErrCode} {f : Unit → Run α} (h : (require c e >>= f) s = .ok r s') :
    c = true ∧ f () s = .ok r s' := by
  cases c with
  | true => exact ⟨rfl, h⟩
  | false => cases h

theorem dmaWrite_bind_inv {bs : List Byte} {f : Unit → Run α} (h : (dmaWrite a bs >>= f) s = .ok r s') :
    s.writeFails a bs.length = false ∧ f () (s.withMem (s.mem.write a bs)) = .ok r s' := by
  cases writes : s.writeFails a bs.length with
  | true => rw [Run.bind_of_error (dmaWrite_fails writes)] at h; cases h
  | false => exact ⟨rfl, (Run.bind_of_ok (dmaWrite_ok writes)).symm.trans h⟩

theorem readSamples_bind_inv {f : List Sample → Run α} (h : (readSamples a n >>= f) s = .ok r s') :
    s.readFails a (2 * n) = false ∧ f (s.mem.samples a n) s = .ok r s' := by
  cases reads : s.readFails a (2 * n) with
  | true => rw [Run.bind_of_error (readSamples_fails reads)] at h; cases h
  | false => exact ⟨rfl, (Run.bind_of_ok (readSamples_ok reads)).symm.trans h⟩

theorem ofExcept_bind_inv {β : Type} {x : Except ErrCode β} {f : β → Run α} (h : (ofExcept x >>= f) s = .ok r s') :
    ∃ v, x = .ok v ∧ f v s = .ok r s' := by
  cases x with
  | ok v => exact ⟨v, rfl, h⟩
  | error e => cases h

end

/-! ### The stage -/

/-- The state once the Huffman stage has set its code table, if it sets one. -/
def State.withCoded (s : State) : Option CodeTable → State
  | none => s
  | some c => s.withCodes c

section
variable (s : State) (c : Option CodeTable)

@[simp] theorem State.withCoded_mem : (s.withCoded c).mem = s.mem := by cases c <;> rfl
@[simp] theorem State.withCoded_platform : (s.withCoded c).platform = s.platform := by cases c <;> rfl
@[simp] theorem State.withCoded_bitmap : (s.withCoded c).bitmap = s.bitmap := by cases c <;> rfl
@[simp] theorem State.withCoded_lut : (s.withCoded c).lut = s.lut := by cases c <;> rfl
@[simp] theorem State.withCoded_lutKind : (s.withCoded c).lutKind = s.lutKind := by cases c <;> rfl

/-- A stage that sets no code table leaves the one that was there. -/
@[simp] theorem State.withCoded_codes : (s.withCoded c).codes = c.or s.codes := by cases c <;> rfl

theorem State.withCoded_withMem (m : Memory) : (s.withMem m).withCoded c = (s.withCoded c).withMem m := by
  cases c <;> rfl

theorem State.withMem_withCoded_withMem (m m' : Memory) :
    ((s.withMem m).withCoded c).withMem m' = (s.withCoded c).withMem m' := by
  cases c <;> rfl

theorem State.withCoded_readFails (a n : Nat) : (s.withCoded c).readFails a n = s.readFails a n := by
  rw [State.readFails, State.readFails, State.withCoded_platform]

theorem State.withCoded_writeFails (a n : Nat) : (s.withCoded c).writeFails a n = s.writeFails a n := by
  rw [State.writeFails, State.writeFails, State.withCoded_platform]

end

/-- What HufCompress reports of an encoding (41_huffman_encode.md R261). -/
def Encoded.info (e : Encoded) : HufInfo :=
  { count := e.blockLength, im := e.im, iM := e.iM, tableBytes := byteCount e.table.length, nBits := e.stream.length }

/-- What HufCompress makes of samples: its report, the bytes that it stores and the code table that it sets; of no
samples it makes nothing (41_huffman_encode.md R261). -/
inductive HufCoded : List Sample → HufInfo → List Byte → Option CodeTable → Prop
  | empty : HufCoded [] {} [] none
  | block {xs : List Sample} {e : Encoded} (nonempty : xs ≠ []) (encoding : encodeSamples xs = .ok e)
    (short : e.stream.length ≤ 2147483647) : HufCoded xs e.info e.block (some e.codes)

theorem HufCoded.count_eq {xs : List Sample} {info : HufInfo} {coded : List Byte} {c : Option CodeTable}
    (h : HufCoded xs info coded c) : info.count = coded.length := by
  cases h with
  | empty => rfl
  | block => exact (Encoded.block_length _).symm

section
variable {s : State} {a n d cap : Nat}

theorem hufCompress_of_coded {info : HufInfo} {coded : List Byte} {c : Option CodeTable} (wf : s.mem.wf = true)
    (reads : s.readFails a (2 * n) = false) (h : HufCoded (s.mem.sampleList a n) info coded c)
    (fits : coded.length ≤ cap) (writes : s.writeFails d coded.length = false) :
    hufCompress a n d cap s = .ok info ((s.withCoded c).withMem (s.mem.write d coded)) := by
  generalize list : s.mem.sampleList a n = xs at h
  have length : xs.length = n := list ▸ Memory.sampleList_length ..
  cases h with
  | empty =>
    rw [hufCompress, if_pos (show n = 0 from length.symm), Memory.write_nil]
    rfl
  | @block _ e nonempty encoding short =>
    have pos : 0 < n := length ▸ List.length_pos_iff.2 nonempty
    rw [e.block_length] at fits
    rw [hufCompress_eq_store wf pos reads (list ▸ encoding) short fits]
    exact Run.bind_of_ok (dmaWrite_ok writes)

/-- HufCompress that raises nothing has stored what it makes of the samples. -/
theorem hufCompress_inv {info : HufInfo} {s' : State} (wf : s.mem.wf = true) (h : hufCompress a n d cap s = .ok info s') :
    ∃ coded c, HufCoded (s.mem.sampleList a n) info coded c ∧ coded.length ≤ cap
      ∧ s.writeFails d coded.length = false ∧ s' = (s.withCoded c).withMem (s.mem.write d coded) := by
  rw [hufCompress] at h
  split at h
  · rename_i nothing
    subst nothing
    cases h
    exact ⟨[], none, .empty, Nat.zero_le _, spansMeet_zero .., by rw [Memory.write_nil]; rfl⟩
  · rename_i some
    obtain ⟨-, h⟩ := readSamples_bind_inv h
    obtain ⟨e, encoding, h⟩ := ofExcept_bind_inv h
    rw [Run.bind_of_ok (Run.modify_eq _ _)] at h
    obtain ⟨short, h⟩ := require_bind_inv h
    obtain ⟨fits, h⟩ := require_bind_inv h
    obtain ⟨writes, h⟩ := dmaWrite_bind_inv h
    cases h
    rw [Memory.samples_eq _ _ _ wf] at encoding
    have nonempty : s.mem.sampleList a n ≠ [] :=
      List.length_pos_iff.1 (by rw [Memory.sampleList_length]; omega)
    refine ⟨e.block, _, .block nonempty encoding (of_decide_eq_true short), ?_, writes, rfl⟩
    rw [e.block_length]
    exact of_decide_eq_true fits

/-- A block whose stages all pass is decoded where the bus serves it (42_huffman_decode.md R300). -/
theorem hufUncompress_of_holds {no nBits q im iM : Nat} {c : CodeTable} {xs : List Sample} (wf : s.mem.wf = true)
    (reads : s.readFails a n = false) (writes : s.writeFails d (2 * no) = false)
    (holds : s.mem.holdsHuffman a n no nBits q im iM c xs) :
    hufUncompress a n d no s =
      .ok { count := no, im := im, iM := iM, tableBytes := q, nBits := nBits }
        ((s.withCoded (some c)).withMem (s.mem.write d (bytesOfSamples xs))) := by
  obtain ⟨lens, unpack, rfl⟩ := holds.table
  have header : s.mem.holdsHeader a n im iM nBits :=
    ⟨holds.header, holds.bounds.1, holds.bounds.2.1, holds.bitCount.1, holds.bounds.2.2, holds.bitCount.2⟩
  rw [hufUncompress_eq_body_of_header wf reads header,
    hufUncompressBody_eq_stream reads writes holds.header unpack holds.room holds.build]
  exact Run.bind_of_ok (ofExcept_of_ok holds.stream _)

/-- HufUncompress of what HufCompress stored gives the samples back (42_huffman_decode.md R318). -/
theorem hufUncompress_of_coded {xs : List Sample} {info : HufInfo} {coded : List Byte} {c : Option CodeTable}
    (wf : s.mem.wf = true) (h : HufCoded xs info coded c) (small : coded.length < 2 ^ 32)
    (bytes : s.mem.bytes a coded.length = coded) (reads : s.readFails a coded.length = false)
    (writes : s.writeFails d (2 * xs.length) = false) :
    hufUncompress a coded.length d xs.length s =
      .ok { info with count := xs.length } ((s.withCoded c).withMem (s.mem.write d (bytesOfSamples xs))) := by
  cases h with
  | empty =>
    refine (hufUncompress_short (by decide)).trans ((if_pos rfl).trans ?_)
    rw [bytesOfSamples, Memory.write_nil]
    rfl
  | block nonempty encoding short =>
    exact hufUncompress_of_holds wf reads writes
      (Memory.holdsHuffman_of_block wf nonempty encoding short (Encoded.block_length _) small bytes)

end

end Sys2Proof.Machine
end


section
/-! SUPPORT. A transform of the planes of a sample buffer, each by itself, in either direction, and the planes as parts
of a buffer at any address (44_piz.md R392, R394, R396). -/

namespace Sys2Proof.Machine

/-! ### Planes and buffers -/

/-- The grid at another address. -/
def Grid.shift (g : Grid) (a : Nat) : Grid := { g with base := a + g.base }

@[simp] theorem Grid.shift_nx (g : Grid) (a : Nat) : (g.shift a).nx = g.nx := rfl

@[simp] theorem Grid.shift_ny (g : Grid) (a : Nat) : (g.shift a).ny = g.ny := rfl

theorem Grid.shift_addr (g : Grid) (a x y : Nat) : (g.shift a).addr x y = a + g.addr x y := Nat.add_assoc ..

theorem planesFrom_eq_map (a start : Nat) (ds : List Desc) :
    planesFrom a start ds = (planesFrom 0 start ds).map (·.shift a) := by
  induction ds generalizing start with
  | nil => rfl
  | cons c rest ih =>
    rw [planesFrom, planesFrom, List.map_append, ← ih]
    congr 1
    rw [channelPlanes, channelPlanes, List.map_map]
    exact List.map_congr_left fun j _ => by simp [Grid.shift]

/-- The planes of a buffer at `a` are those of a buffer at 0, moved (44_piz.md R392). -/
theorem planes_eq_map (a : Nat) (ds : List Desc) : planes a ds = (planes 0 ds).map (·.shift a) := planesFrom_eq_map a 0 ds

theorem mem_planes_shift {a : Nat} {ds : List Desc} {g : Grid} (hg : g ∈ planes 0 ds) : g.shift a ∈ planes a ds :=
  planes_eq_map a ds ▸ List.mem_map_of_mem hg

section
variable {n : Nat} {ds : List Desc} (hn : (ds.map Desc.samples).sum = n)
include hn

/-- A point of a plane is a sample of the buffer (44_piz.md R392). -/
theorem planes_addr_eq {g : Grid} (hg : g ∈ planes 0 ds) {x y : Nat} (hx : x < g.nx) (hy : y < g.ny) :
    ∃ k < n, g.addr x y = 2 * k := by
  obtain ⟨s, c, j, -, -, -, -, rfl⟩ := mem_planes hg
  obtain ⟨-, hi⟩ := plane_addr hn hg hx hy
  rw [plane_addr_eq, Nat.zero_add] at hi ⊢
  exact ⟨s + planePoint c j x y, by omega, rfl⟩

/-- A sample of the buffer is a point of a plane (44_piz.md R392). -/
theorem exists_plane_addr_eq {k : Nat} (hk : k < n) :
    ∃ g ∈ planes 0 ds, ∃ x < g.nx, ∃ y < g.ny, g.addr x y = 2 * k := by
  obtain ⟨s, c, j, x, y, hx, hy, point, mem⟩ := exists_mem_planesFrom (start := 0) (ds := ds) k.zero_le (by omega)
  exact ⟨_, mem 0, x, hx, y, hy, by rw [plane_addr_eq, point, Nat.zero_add]⟩

/-- A plane of a buffer in memory has the values that the buffer's samples give it. -/
theorem Memory.grid_shift_eq (m : Memory) (a : Nat) {g : Grid} (hg : g ∈ planes 0 ds) {x y : Nat} (hx : x < g.nx)
    (hy : y < g.ny) : m.grid (g.shift a) x y = (m.sampleList a n).getD (g.addr x y / 2) 0 := by
  obtain ⟨k, hk, addr⟩ := planes_addr_eq hn hg hx hy
  rw [Memory.grid, Grid.shift_addr, addr, Nat.mul_div_cancel_left _ Nat.two_pos]
  simp [Memory.sampleList, hk]

end

/-! ### Each grid by itself -/

/-- The grid in memory has these values. -/
abbrev Memory.gridIs (m : Memory) (g : Grid) (w : GridValues) : Prop := ∀ x < g.nx, ∀ y < g.ny, m.grid g x y = w x y

/-- Memories that agree on a grid's bytes give its points the same values. -/
theorem Memory.gridIs_of_kept {m m' : Memory} {g : Grid} {w : GridValues} (kept : ∀ b, g.covers b → m'.read b = m.read b)
    (h : m.gridIs g w) : m'.gridIs g w := by
  intro x hx y hy
  rw [← h x hx y hy, Memory.grid, Memory.grid, Memory.sample, Memory.sample, kept _ ⟨x, hx, y, hy, .inl rfl⟩,
    kept _ ⟨x, hx, y, hy, .inr rfl⟩]

/-- A part that takes the values `w` of any grid to `T g w`, run on grids that keep apart, transforms each one's values,
and keeps every other byte. -/
theorem forEach_maps {F : Grid → Run Unit} {T : Grid → GridValues → GridValues}
    (hF : ∀ (g : Grid) (s : State), g.served s → ∀ w, g.Maps s (F g) w (T g w)) {gs : List Grid} {s : State}
    (wf : s.mem.wf = true) (served : ∀ g ∈ gs, g.served s) (apart : gs.Pairwise Grid.disjoint) :
    ∃ m : Memory, forEach gs F s = .ok () (s.withMem m) ∧ m.wf = true
      ∧ (∀ g ∈ gs, ∀ w, s.mem.gridIs g w → m.gridIs g (T g w))
      ∧ ∀ b, (∀ g ∈ gs, ¬ g.covers b) → m.read b = s.mem.read b := by
  induction gs generalizing s with
  | nil => exact ⟨s.mem, rfl, wf, by simp, fun _ _ => rfl⟩
  | cons g rest ih =>
    obtain ⟨first, others⟩ := List.pairwise_cons.1 apart
    have maps := hF g s (served g List.mem_cons_self)
    obtain ⟨t, run, ht⟩ := maps (s.mem.grid g) s ⟨rfl, wf, fun _ _ _ _ => rfl, fun _ _ => rfl⟩
    have served' (g' : Grid) (hg' : g' ∈ rest) : g'.served t := by
      rw [ht.others]
      exact ⟨(served g' (List.mem_cons_of_mem _ hg')).points, (served g' (List.mem_cons_of_mem _ hg')).apart⟩
    obtain ⟨m, run', wf', values, outside⟩ := ih ht.wf served' others
    refine ⟨m, ?_, wf', fun g' hg' w hw => ?_, fun b hb => ?_⟩
    · refine (Run.bind_of_ok run).trans (run'.trans ?_)
      rw [ht.others]
      rfl
    · rcases List.mem_cons.1 hg' with rfl | hg'
      · obtain ⟨t', again, ht'⟩ := maps w s ⟨rfl, wf, hw, fun _ _ => rfl⟩
        obtain rfl : t = t' := by
          rw [run] at again
          cases again
          rfl
        exact Memory.gridIs_of_kept (fun b hb => outside b fun g hg => first g hg b hb) ht'.values
      · refine values g' hg' w (Memory.gridIs_of_kept (fun b hb => ht.outside b fun hb' => ?_) hw)
        exact first g' hg' b hb' hb
    · rw [outside b fun g' hg' => hb g' (List.mem_cons_of_mem _ hg'), ht.outside b (hb g List.mem_cons_self)]

/-- A transform of the planes of a buffer that the bus reads and writes gives each plane its transformed values, and
keeps every byte outside the buffer (44_piz.md R394, R396). -/
theorem planes_maps {F : Grid → Run Unit} {T : Grid → GridValues → GridValues}
    (hF : ∀ (g : Grid) (s : State), g.served s → ∀ w, g.Maps s (F g) w (T g w)) {a n : Nat} {ds : List Desc} {s : State}
    (wf : s.mem.wf = true) (hn : (ds.map Desc.samples).sum = n) (reads : s.readFails a (2 * n) = false)
    (writes : s.writeFails a (2 * n) = false) :
    ∃ m : Memory, forEach (planes a ds) F s = .ok () (s.withMem m) ∧ m.wf = true
      ∧ (∀ g ∈ planes a ds, ∀ w, s.mem.gridIs g w → m.gridIs g (T g w)) ∧ s.mem.keptOutside m a (2 * n) := by
  obtain ⟨m, run, wf', values, outside⟩ := forEach_maps hF wf (planes_served hn reads writes)
    (planesFrom_disjoint a 0 ds)
  refine ⟨m, run, wf', values, fun b hb => outside b fun g hg hcovers => ?_⟩
  obtain ⟨x, hx, y, hy, hb'⟩ := hcovers
  obtain ⟨lo, hi⟩ := plane_addr hn hg hx hy
  omega

/-- The transform touches the points of a grid only, so values outside the grid do not matter: 0 stands for them. -/
theorem decGrid_encGrid_cut (maxValue : Nat) (g : Grid) {w : GridValues}
    (hw : ∀ x < g.nx, ∀ y < g.ny, 16384 ≤ maxValue ∨ (w x y).toNat < 16384) :
    decGrid maxValue g.nx g.ny (encGrid maxValue g.nx g.ny (g.cut w)) = g.cut w := by
  refine decGrid_encGrid _ _ _ fun x y => ?_
  unfold Grid.cut
  split
  · rename_i point
    exact hw x point.1 y point.2
  · exact .inr (by decide)

theorem Grid.cut_eq (g : Grid) (w : GridValues) {x y : Nat} (hx : x < g.nx) (hy : y < g.ny) : g.cut w x y = w x y :=
  if_pos ⟨hx, hy⟩

end Sys2Proof.Machine
end


section
/-! SUPPORT. PIZ_COMPRESS from its descriptors to the PIZ block: the transformed samples, the stages past them, and what
a run that raises nothing has stored (44_piz.md R394). -/

namespace Sys2Proof.Machine

/-! ### The PIZ block -/

/-- The bytes of a PIZ block: the bitmap block, the length of the Huffman block, the Huffman block (44_piz.md R394). -/
def pizBlock (b : Bitmap) (mn mx : Nat) (coded : List Byte) : List Byte :=
  b.block mn mx ++ leBytes 4 coded.length ++ coded

section
variable (b : Bitmap) {mn mx size d : Nat} (coded : List Byte) {m : Memory} (wf : m.wf = true)
  (hsize : sliceSize mn mx = size)
include hsize

theorem pizBlock_length : (pizBlock b mn mx coded).length = 8 + size + coded.length := by
  rw [pizBlock, List.length_append, List.length_append, b.block_length, leBytes_length, hsize]
  omega

include wf

/-- The Huffman block is stored before its length, in front of it (44_piz.md R394, 90_conflicts.md C4). -/
theorem pizBlock_write :
    ((m.write d (b.block mn mx)).write (d + 8 + size) coded).write (d + 4 + size) (leBytes 4 coded.length) =
      m.write d (pizBlock b mn mx coded) := by
  have block : (b.block mn mx).length = 4 + size := by rw [b.block_length, hsize]
  have word : (leBytes 4 coded.length).length = 4 := leBytes_length ..
  rw [Memory.write_comm (Memory.write_wf _ _ _ wf) (by omega),
    show d + 4 + size = d + (b.block mn mx).length by omega, Memory.write_append wf,
    show d + 8 + size = d + (b.block mn mx ++ leBytes 4 coded.length).length by rw [List.length_append]; omega,
    Memory.write_append wf, pizBlock]

variable {n : Nat} (h : m.bytes d n = pizBlock b mn mx coded)
include h

theorem bitmapBlock_of_pizBlock : m.bytes d (4 + size) = b.block mn mx := by
  rw [pizBlock, List.append_assoc] at h
  have part := Memory.bytes_part (pre := []) (bs := b.block mn mx) wf h
  rwa [b.block_length, hsize] at part

theorem word_of_pizBlock (small : coded.length < 2 ^ 32) : m.word (d + 4 + size) = coded.length := by
  have part := Memory.bytes_part wf h
  rw [b.block_length, hsize, leBytes_length] at part
  rw [← Memory.leNat_bytes_four wf, Nat.add_assoc, part, leNat_leBytes 4 _ small]

theorem coded_of_pizBlock : m.bytes (d + 8 + size) coded.length = coded := by
  have part := Memory.bytes_part wf (h.trans (List.append_nil _).symm)
  rwa [List.length_append, b.block_length, hsize, leBytes_length, show d + (4 + size + 4) = d + 8 + size by omega] at part

end

/-- A memory that has the bytes of a Huffman block holds the encoding (41_huffman_encode.md R260). -/
theorem Encoded.holdsEncoded_of_bytes {e : Encoded} {xs : List Sample} (he : encodeSamples xs = .ok e) {m : Memory}
    (wf : m.wf = true) {d : Nat} (small : e.blockLength < 2 ^ 32) (short : e.stream.length ≤ 2147483647)
    (block : m.bytes d e.block.length = e.block) : m.holdsEncoded d e := by
  obtain ⟨im, iM⟩ := encodeSamples_bounds he
  have table : byteCount e.table.length ≤ e.blockLength := by rw [Encoded.blockLength]; omega
  have stored := e.block_write wf d (by omega) (by omega) (by omega) (by omega)
  rwa [← block, Memory.write_bytes wf] at stored

/-! ### The transformed samples -/

/-- `m'` is `m` but for the sample buffer, whose planes have the transformed ranks (44_piz.md R394). -/
structure PizTransformed (a n : Nat) (ds : List Desc) (b : Bitmap) (m m' : Memory) : Prop where
  wf : m'.wf = true
  planes : ∀ g ∈ planes a ds, ∀ w : GridValues, (∀ x < g.nx, ∀ y < g.ny, w x y = rankedPlane b m g x y) →
    m'.gridIs g (encGrid (b.rank 65535) g.nx g.ny w)
  kept : m.keptOutside m' a (2 * n)

section
variable {s : State} {a n d cap aux count mn mx size : Nat} {ds : List Desc} {b : Bitmap} {info : HufInfo}
  {coded : List Byte} {c : Option CodeTable}

/-- PIZ_COMPRESS transforms the planes, and nothing else, where the bus reads and writes the source (44_piz.md R394). -/
theorem pizCompressBuilt_transforms (wf : s.mem.wf = true) (hn : (ds.map Desc.samples).sum = n)
    (reads : s.readFails a (2 * n) = false) (writes : s.writeFails a (2 * n) = false)
    (hb : ∀ v, b.bit v = true ↔ 0 < v ∧ ∃ k < n, (s.mem.sample (a + 2 * k)).toNat = v) (bounds : b.isMinMax mn mx) :
    ∃ m : Memory, PizTransformed a n ds b s.mem m
      ∧ pizCompressBuilt a n d cap ds b s = pizCompressStored a n d cap mn mx b (s.withMem m) := by
  have applied := applyLut_ok b.forwardLut reads writes
  have ranked (g : Grid) (hg : g ∈ planes a ds) : Memory.gridIs _ g (rankedPlane b s.mem g) := fun x hx y hy =>
    rankedPlane_eq wf hn hb hg hx hy
  have wf1 := Memory.write_wf s.mem a (bytesOfSamples ((s.mem.samples a n).map fun v => b.forwardLut.entry v.toNat)) wf
  have kept1 := Memory.write_keptOutside s.mem a
    (bytesOfSamples ((s.mem.samples a n).map fun v => b.forwardLut.entry v.toNat)) wf
  rw [bytesOfSamples_length, List.length_map, Memory.samples_length] at kept1
  generalize s.mem.write a (bytesOfSamples ((s.mem.samples a n).map fun v => b.forwardLut.entry v.toNat)) = m1 at *
  obtain ⟨m, run, wf', values, kept⟩ := planes_maps (fun g s served => Grid.maps_wavEncode2D served b.maxValue)
    (s := s.withMem m1) wf1 hn reads writes
  refine ⟨m, ⟨wf', fun g hg w hw => ?_, fun k hk => (kept k hk).trans (kept1 k hk)⟩, ?_⟩
  · rw [← Bitmap.maxValue_eq]
    exact values g hg w fun x hx y hy => (ranked g hg x hx y hy).trans (hw x hx y hy).symm
  · rw [pizCompressBuilt_eq, Run.bind_of_ok applied, Run.bind_of_ok run, Bitmap.minMaxNonZero_eq bounds]
    rfl

/-! ### The stages past the planes -/

theorem dmaWrite_bitmapBlock (hsize : sliceSize mn mx = size) (writes : s.writeFails d (4 + size) = false) :
    dmaWrite d (b.block mn mx) s = .ok () (s.withMem (s.mem.write d (b.block mn mx))) :=
  dmaWrite_ok (by rw [b.block_length, hsize]; exact writes)

/-- PIZ_COMPRESS stores the PIZ block where it fits and the bus writes it (44_piz.md R394). -/
theorem pizCompressStored_ok (wf : s.mem.wf = true) (hsize : sliceSize mn mx = size)
    (reads : s.readFails a (2 * n) = false) (apart : rangesMeet a (2 * n) d cap = false)
    (h : HufCoded (s.mem.sampleList a n) info coded c) (fits : 8 + size + coded.length ≤ cap)
    (small : coded.length ≤ 2147483647) (writes : s.writeFails d (8 + size + coded.length) = false) :
    pizCompressStored a n d cap mn mx b s =
      .ok { count := 8 + size + coded.length, mn := mn, mx := mx, maxValue := b.maxValue, huf := info }
        ((s.withCoded c).withMem (s.mem.write d (pizBlock b mn mx coded))) := by
  have part (lo size' : Nat) (hi : lo + size' ≤ 8 + size + coded.length) : s.writeFails (d + lo) size' = false :=
    spansMeet_part _ _ _ _ _ writes (by omega) (by omega)
  have header := dmaWrite_bitmapBlock (s := s) (d := d) (b := b) hsize (part 0 (4 + size) (by omega))
  have same := Memory.sampleList_write_of_apart wf (bs := b.block mn mx) (by rw [b.block_length, hsize]; omega) apart
  have coder := hufCompress_of_coded (s := s.withMem (s.mem.write d (b.block mn mx))) (a := a) (d := d + 8 + size)
    (cap := cap - 8 - size) (Memory.write_wf _ _ _ wf) reads (same ▸ h) (by omega)
    (Nat.add_assoc d 8 size ▸ part (8 + size) coded.length le_rfl)
  rw [pizCompressStored, hsize, Run.bind_of_ok (require_ok _ (decide_eq_true (by omega))), Run.bind_of_ok header,
    Run.bind_of_ok coder, h.count_eq, Run.bind_of_ok (require_ok _ (decide_eq_true small)),
    Run.bind_of_ok (dmaWrite_ok ?_)]
  · rw [State.withMem_mem, State.withMem_mem, pizBlock_write b coded wf hsize, State.withCoded_withMem]
    rfl
  · have length := part (4 + size) 4 (by omega)
    rw [← Nat.add_assoc] at length
    rw [leBytes_length, ← length, State.withCoded_withMem]
    exact State.withCoded_writeFails s c _ _

/-- PIZ_COMPRESS that raises nothing has stored the PIZ block of the transformed samples (44_piz.md R394). -/
theorem pizCompressStored_inv {p : PizInfo} {s' : State} (wf : s.mem.wf = true) (hsize : sliceSize mn mx = size)
    (apart : rangesMeet a (2 * n) d cap = false) (h : pizCompressStored a n d cap mn mx b s = .ok p s') :
    ∃ info coded c, HufCoded (s.mem.sampleList a n) info coded c ∧ 8 + size + coded.length ≤ cap
      ∧ coded.length ≤ 2147483647 ∧ p.count = 8 + size + coded.length
      ∧ s'.mem = s.mem.write d (pizBlock b mn mx coded) := by
  rw [pizCompressStored, hsize] at h
  obtain ⟨fits, h⟩ := require_bind_inv h
  obtain ⟨-, h⟩ := dmaWrite_bind_inv h
  obtain ⟨info, s1, coder, h⟩ := Run.bind_ok h
  obtain ⟨coded, c, made, codedFits, -, rfl⟩ := hufCompress_inv (Memory.write_wf _ _ _ wf) coder
  obtain ⟨small, h⟩ := require_bind_inv h
  obtain ⟨-, h⟩ := dmaWrite_bind_inv h
  cases h
  have fits := of_decide_eq_true fits
  rw [State.withMem_mem,
    Memory.sampleList_write_of_apart wf (bs := b.block mn mx) (by rw [b.block_length, hsize]; omega) apart] at made
  refine ⟨info, coded, c, made, by omega, made.count_eq ▸ of_decide_eq_true small, by rw [made.count_eq], ?_⟩
  rw [State.withMem_mem, State.withMem_mem, State.withMem_mem, made.count_eq, pizBlock_write b coded wf hsize]

end

end Sys2Proof.Machine
end


section
/-! The proof of O33, and what PIZ_COMPRESS does on a buffer that the bus serves: its end where the PIZ block is stored,
and its errors past the planes (44_piz.md R394, R395). -/

namespace Sys2Proof.Machine

section
variable {s : State} {a n d cap aux count mn mx size : Nat} {b : Bitmap} {e : Encoded} {c : Option CodeTable}

/-- PIZ_COMPRESS comes to its destination with the planes transformed and two tables set (44_piz.md R394). -/
theorem pizCompress_transforms (wf : s.mem.wf = true) (table : s.readFails aux (12 * count) = false)
    (valid : describes (s.mem.descriptors aux count) n) (reads : s.readFails a (2 * n) = false)
    (writes : s.writeFails a (2 * n) = false)
    (hb : ∀ v, b.bit v = true ↔ 0 < v ∧ ∃ k < n, (s.mem.sample (a + 2 * k)).toNat = v) (bounds : b.isMinMax mn mx) :
    ∃ m : Memory, PizTransformed a n (s.mem.descriptors aux count) b s.mem m
      ∧ pizCompress a n d cap aux count s = pizCompressStored a n d cap mn mx b ((s.withForward b).withMem m) := by
  obtain ⟨m, transformed, built⟩ := pizCompressBuilt_transforms (s := s.withForward b) (d := d) (cap := cap) wf valid.2
    reads writes hb bounds
  exact ⟨m, transformed, (pizCompress_eq_built wf table valid reads hb).trans built⟩

/-- Descriptors that do not describe the samples end a PIZ command with nothing changed (44_piz.md R391). -/
theorem readDescriptors_invalid (wf : s.mem.wf = true) (reads : s.readFails aux (12 * count) = false)
    (h : ¬ describes (s.mem.descriptors aux count) n) : readDescriptors aux count n s = .error ⟨.badParam, true⟩ s := by
  have invalid : ¬ descsValid (s.mem.descriptors aux count) n = true := by
    intro valid
    simp only [descsValid, Bool.and_eq_true, List.all_eq_true, Bool.or_eq_true, beq_iff_eq] at valid
    exact h valid
  refine (Run.bind_of_ok (dmaRead_ok reads)).trans ?_
  rw [descriptors_eq wf, if_neg invalid]
  rfl

/-- A destination too small for the bitmap block and the length ends PIZ_COMPRESS (44_piz.md R394). -/
theorem pizCompressStored_noRoom (hsize : sliceSize mn mx = size) (small : cap < 8 + size) :
    pizCompressStored a n d cap mn mx b s = .error ⟨.dstOverflow, false⟩ s := by
  rw [pizCompressStored, hsize]
  exact Run.bind_of_error (require_fails _ (decide_eq_false (by omega)))

/-- A Huffman block that does not fit, or is too long, ends PIZ_COMPRESS with the code table there (44_piz.md R394). -/
theorem pizCompressStored_overflows (wf : s.mem.wf = true) (hsize : sliceSize mn mx = size) (hn : 0 < n)
    (reads : s.readFails a (2 * n) = false) (apart : rangesMeet a (2 * n) d cap = false)
    (he : encodeSamples (s.mem.sampleList a n) = .ok e) (fits : 8 + size ≤ cap)
    (header : s.writeFails d (4 + size) = false)
    (large : 2147483647 < e.stream.length ∨ cap < 8 + size + e.blockLength) :
    pizCompressStored a n d cap mn mx b s =
      .error ⟨.dstOverflow, false⟩ ((s.withMem (s.mem.write d (b.block mn mx))).withCodes e.codes) := by
  have same := Memory.sampleList_write_of_apart wf (bs := b.block mn mx) (by rw [b.block_length, hsize]; omega) apart
  have coder := hufCompress_overflows (s := s.withMem (s.mem.write d (b.block mn mx))) (a := a) (d := d + 8 + size)
    (cap := cap - 8 - size) (Memory.write_wf _ _ _ wf) hn reads (same.symm ▸ he) (by omega)
  rw [pizCompressStored, hsize, Run.bind_of_ok (require_ok _ (decide_eq_true fits)),
    Run.bind_of_ok (dmaWrite_bitmapBlock hsize header)]
  exact Run.bind_of_error coder

end

section
variable {s : State}

/-- The run of PIZ_COMPRESS on its operands, from the state in which its data phase starts (44_piz.md R395). -/
abbrev State.runPizCompress (s : State) : EStateM.Result Raise State PizInfo :=
  pizCompress s.latched.srcAddr.toNat s.latched.srcLen.toNat s.latched.dstAddr.toNat s.latched.dstLen.toNat
    s.latched.auxAddr.toNat s.latched.auxLen.toNat (s.clearValid .pizCompress)

/-- A run of PIZ_COMPRESS that stores the PIZ block ends the command with the three tables valid; the code table only
where the Huffman stage set one (44_piz.md R395). -/
theorem execPizCompress_of_ok (reaches : reachesData .pizCompress s) {b : Bitmap} {c : Option CodeTable} {m : Memory}
    {p : PizInfo}
    (run : s.runPizCompress = .ok p ((((s.clearValid .pizCompress).withForward b).withCoded c).withMem m)) :
    ∃ t, exec .pizCompress s = .next t ∧ s.completed t .ok p.results ∧ t.mem = m ∧ t.bitmap = some b
      ∧ t.lut = some b.forwardLut ∧ t.lutKind = .forward ∧ t.codes = c := by
  obtain ⟨next, ends⟩ := exec_of_ok reaches (Run.bind_of_ok (x := pizCompress _ _ _ _ _ _) run)
  refine ⟨_, next, ends, rfl, State.withCoded_bitmap _ c, State.withCoded_lut _ c, State.withCoded_lutKind _ c, ?_⟩
  exact (State.withCoded_codes _ c).trans Option.or_none

/-- The forward LUT of BITMAP gives each value its rank, and 0 where the value does not occur (40_lut.md R206). -/
theorem Bitmap.forwardLut_entry_eq (b : Bitmap) {v : Nat} (hv : v < 65536) :
    (b.forwardLut.entry v).toNat = if b.occurs v then b.rank v else 0 := by
  split
  · rename_i occurs
    exact Bitmap.forwardLut_entry_toNat hv occurs
  · rename_i absent
    rw [Bitmap.forwardLut_entry_of_not_occurs absent]
    rfl

end

/-- Settles O33: the planes in memory are the transformed ranks, so `e` is their encoding, and the PIZ block is stored.
-/
theorem pizCompressResult : Obligations.PizCompressResult := by
  unfold Obligations.PizCompressResult
  intro s b mn mx xs e a n d cap aux count ds size wf hn valid source dest table sourceDest sourceTable destTable reads
    writes readsTable hb bounds length expected he short fits small header
  have reaches := pizCompress_reachesData source dest table sourceDest sourceTable destTable
  obtain ⟨m, transformed, run⟩ := pizCompress_transforms (s := s.clearValid .pizCompress) (d := d) (cap := cap) wf
    readsTable valid reads writes hb bounds
  have samples : m.sampleList a n = xs := sampleList_eq_of_planes valid.2 length expected fun g hg =>
    transformed.planes g hg _ fun _ _ _ _ => rfl
  have coded : HufCoded (m.sampleList a n) e.info e.block (some e.codes) :=
    samples ▸ .block (List.length_pos_iff.1 (length.symm ▸ hn)) he short
  rw [← e.block_length] at fits header small
  have stored := pizCompressStored_ok (s := ((s.clearValid .pizCompress).withForward b).withMem m) (b := b)
    (size := size) transformed.wf rfl reads sourceDest coded fits small header
  rw [State.withMem_withCoded_withMem, State.withMem_mem] at stored
  obtain ⟨t, next, ends, mem, bitmap, lut, kind, codes⟩ := execPizCompress_of_ok reaches (run.trans stored)
  have pizLength : (pizBlock b mn mx e.block).length = 8 + size + e.block.length := pizBlock_length b e.block rfl
  have wf' : t.mem.wf = true := mem ▸ Memory.write_wf _ _ _ transformed.wf
  have block : t.mem.bytes d (pizBlock b mn mx e.block).length = pizBlock b mn mx e.block := by
    rw [mem]
    exact Memory.bytes_write _ _ _ transformed.wf
  have bitmapBlock := bitmapBlock_of_pizBlock b e.block wf' (size := size) rfl block
  obtain ⟨low, high, slice⟩ := b.block_write wf' d bounds.lt.1 bounds.lt.2
  rw [← bitmapBlock, Memory.write_bytes wf'] at low high slice
  refine ⟨t, b.forwardLut, next, ?_, ?_, low, high, slice, ?_, ?_, fun k outSource outDest => ?_, bitmap, lut, kind,
    fun v hv => b.forwardLut_entry_eq hv, codes⟩
  · rw [← b.maxValue_eq, ← e.block_length]
    exact ends
  · rw [mem, ← samples]
    exact Memory.sampleList_write_of_apart transformed.wf (pizLength.trans_le fits) sourceDest
  · rw [← e.block_length]
    exact word_of_pizBlock b e.block wf' rfl block (by omega)
  · exact Encoded.holdsEncoded_of_bytes he wf' (by rw [← e.block_length]; omega) short
      (coded_of_pizBlock b e.block wf' rfl block)
  · rw [mem, Memory.write_keptOutside _ _ _ transformed.wf k (by rw [pizLength, e.block_length]; exact outDest)]
    exact transformed.kept k outSource

end Sys2Proof.Machine
end


section
/-! The proof of O34, and PIZ_UNCOMPRESS from its descriptors to the samples: the length of the Huffman block, the
stages past it (44_piz.md R396, R397). -/

namespace Sys2Proof.Machine

/-- PIZ_UNCOMPRESS past the length of its Huffman block, `len` bytes at `a`; the PIZ block has `p` bytes (44_piz.md
R396). -/
def pizUncompressCoded (a len d no : Nat) (ds : List Desc) (b : Bitmap) (p mn mx : Nat) : Run PizInfo := do
  let h ← hufUncompress a len d no
  forEach (planes d ds) (wavDecode2D b.maxValue)
  applyLut b.reverseLut d no
  pure { count := p, mn := mn, mx := mx, maxValue := b.maxValue, huf := h }

/-- `m'` is `m` but for the destination, whose planes are restored from the decoded samples `xs` (44_piz.md R396). -/
structure PizRestored (d no : Nat) (ds : List Desc) (b : Bitmap) (xs : List Sample) (m m' : Memory) : Prop where
  wf : m'.wf = true
  planes : ∀ g ∈ planes 0 ds, ∀ w : GridValues, (∀ x < g.nx, ∀ y < g.ny, xs.getD (g.addr x y / 2) 0 = w x y) →
    ∀ x < g.nx, ∀ y < g.ny,
      m'.sample (d + g.addr x y) = b.reverseLut.entry (decGrid (b.rank 65535) g.nx g.ny w x y).toNat
  kept : m.keptOutside m' d (2 * no)

section
variable {s : State} {a n d no aux count mn mx size len p : Nat} {ds : List Desc} {b : Bitmap} {xs : List Sample}
  {info : HufInfo} {c : Option CodeTable}

/-- PIZ_UNCOMPRESS sets BITMAP and the LUT where the bus reads the descriptors and the bitmap block (44_piz.md R396). -/
theorem pizUncompress_eq_loaded (wf : s.mem.wf = true) (table : s.readFails aux (12 * count) = false)
    (valid : describes (s.mem.descriptors aux count) no)
    (hsize : sliceSize (s.mem.sample a).toNat (s.mem.sample (a + 2)).toNat = size)
    (reads : s.readFails a (4 + size) = false) (hmx : (s.mem.sample (a + 2)).toNat < 8192) (fits : 4 + size ≤ n)
    (loaded : b.isLoaded s.mem (a + 4) (s.mem.sample a).toNat (s.mem.sample (a + 2)).toNat) :
    pizUncompress a n d no aux count s =
      pizUncompressBuilt a n d no (s.mem.descriptors aux count) b (4 + size) (s.mem.sample a).toNat
        (s.mem.sample (a + 2)).toNat (s.withReverse b) := by
  obtain ⟨b', loads, loaded'⟩ := bitmapLoad_loads wf hmx hsize fits reads
  obtain rfl : b = b' := loaded.unique loaded'
  rw [pizUncompress_eq, Run.bind_of_ok (readDescriptors_ok wf table valid), Run.bind_of_ok loads]
  rfl

/-- The signed value of a word is the word up to `2^31 - 1`, and negative from there on (44_piz.md R396). -/
theorem s32_eq {w : Nat} (h : w < 2 ^ 32) : s32 w = if w < 2 ^ 31 then (w : Int) else (w : Int) - 2 ^ 32 := by
  rw [s32, BitVec.toInt_eq_toNat_cond, BitVec.toNat_ofNat, Nat.mod_eq_of_lt h]
  split <;> split <;> omega

theorem Memory.word_lt (m : Memory) (a : Nat) : m.word a < 2 ^ 32 := by
  have := (m.read a).isLt
  have := (m.read (a + 1)).isLt
  have := (m.read (a + 2)).isLt
  have := (m.read (a + 3)).isLt
  rw [Memory.word]
  omega

/-- PIZ_UNCOMPRESS reads the length of the Huffman block where it is there (44_piz.md R396). -/
theorem pizUncompressBuilt_length (wf : s.mem.wf = true) (fits : 8 + size ≤ n)
    (reads : s.readFails (a + 4 + size) 4 = false) (hlen : s.mem.word (a + 4 + size) = len) :
    pizUncompressBuilt a n d no ds b (4 + size) mn mx s = (do
      require (0 ≤ s32 len && s32 len ≤ ((n - (8 + size) : Nat) : Int)) .pizLength
      pizUncompressCoded (a + 8 + size) (s32 len).toNat d no ds b (8 + size + (s32 len).toNat) mn mx : Run PizInfo) s := by
  have word : rdLe (a + (4 + size)) 4 s = .ok len s := by
    rw [← Nat.add_assoc, rdLe_ok reads, Memory.leNat_bytes_four wf, hlen]
  rw [pizUncompressBuilt, Run.bind_of_ok (require_ok _ (decide_eq_true (by omega))), Run.bind_of_ok word,
    show 4 + size + 4 = 8 + size by omega, show a + (4 + size) + 4 = a + 8 + size by omega]
  rfl

theorem pizUncompressBuilt_eq_coded (wf : s.mem.wf = true) (reads : s.readFails (a + 4 + size) 4 = false)
    (hlen : s.mem.word (a + 4 + size) = len) (short : len < 2 ^ 31) (fits : 8 + size + len ≤ n) :
    pizUncompressBuilt a n d no ds b (4 + size) mn mx s =
      pizUncompressCoded (a + 8 + size) len d no ds b (8 + size + len) mn mx s := by
  have signed : s32 len = len := by rw [s32_eq (hlen ▸ s.mem.word_lt _), if_pos short]
  rw [pizUncompressBuilt_length wf (by omega) reads hlen, signed, Int.toNat_natCast, Run.bind_of_ok (require_ok _ ?_)]
  rw [Bool.and_eq_true, decide_eq_true_eq, decide_eq_true_eq]
  omega

/-- Decoded samples are transformed back and replaced by their LUT entries (44_piz.md R396). -/
theorem pizUncompressCoded_ok (wf : s.mem.wf = true) (hn : (ds.map Desc.samples).sum = no)
    (reads : s.readFails d (2 * no) = false) (writes : s.writeFails d (2 * no) = false) (length : xs.length = no)
    (decoded : hufUncompress a len d no s =
      .ok info ((s.withCoded c).withMem (s.mem.write d (bytesOfSamples xs)))) :
    ∃ m : Memory, PizRestored d no ds b xs s.mem m
      ∧ pizUncompressCoded a len d no ds b p mn mx s =
        .ok { count := p, mn := mn, mx := mx, maxValue := b.maxValue, huf := info } ((s.withCoded c).withMem m) := by
  have wf1 := Memory.write_wf s.mem d (bytesOfSamples xs) wf
  have kept1 := Memory.write_keptOutside s.mem d (bytesOfSamples xs) wf
  have list := Memory.sampleList_write wf d xs
  rw [bytesOfSamples_length, length] at kept1
  rw [length] at list
  generalize s.mem.write d (bytesOfSamples xs) = m1 at *
  have reads1 : ((s.withCoded c).withMem m1).readFails d (2 * no) = false := (s.withCoded_readFails c _ _).trans reads
  have writes1 : ((s.withCoded c).withMem m1).writeFails d (2 * no) = false := (s.withCoded_writeFails c _ _).trans writes
  obtain ⟨m2, run, wf2, values, kept2⟩ := planes_maps (fun g s served => Grid.maps_wavDecode2D served b.maxValue)
    (s := (s.withCoded c).withMem m1) wf1 hn reads1 writes1
  have applied := applyLut_ok (s := (s.withCoded c).withMem m2) b.reverseLut reads1 writes1
  have kept3 := Memory.write_keptOutside m2 d
    (bytesOfSamples ((m2.samples d no).map fun v => b.reverseLut.entry v.toNat)) wf2
  rw [bytesOfSamples_length, List.length_map, Memory.samples_length] at kept3
  refine ⟨_, ⟨Memory.write_wf _ _ _ wf2, fun g hg w hw x hx y hy => ?_,
    fun k hk => (kept3 k hk).trans ((kept2 k hk).trans (kept1 k hk))⟩,
    (Run.bind_of_ok decoded).trans ((Run.bind_of_ok run).trans (Run.bind_of_ok applied))⟩
  obtain ⟨k, hk, addr⟩ := planes_addr_eq hn hg hx hy
  have restored := values (g.shift d) (mem_planes_shift hg) w (fun x hx y hy => by
    rw [State.withMem_mem, m1.grid_shift_eq hn d hg hx hy, list, hw x hx y hy]) x hx y hy
  rw [Memory.grid, Grid.shift_addr, Grid.shift_nx, Grid.shift_ny, b.maxValue_eq] at restored
  rw [← restored, addr, applyLut_sample wf2 _ hk]

end

section
variable {s : State}

/-- The run of PIZ_UNCOMPRESS on its operands, from the state in which its data phase starts (44_piz.md R397). -/
abbrev State.runPizUncompress (s : State) : EStateM.Result Raise State PizInfo :=
  pizUncompress s.latched.srcAddr.toNat s.latched.srcLen.toNat s.latched.dstAddr.toNat s.latched.dstLen.toNat
    s.latched.auxAddr.toNat s.latched.auxLen.toNat (s.clearValid .pizUncompress)

/-- A run of PIZ_UNCOMPRESS that raises nothing ends the command with the three tables valid; the code table only where
the Huffman stage set one (44_piz.md R397). -/
theorem execPizUncompress_of_ok (reaches : reachesData .pizUncompress s) {b : Bitmap} {c : Option CodeTable} {m : Memory}
    {p : PizInfo}
    (run : s.runPizUncompress = .ok p ((((s.clearValid .pizUncompress).withReverse b).withCoded c).withMem m)) :
    ∃ t, exec .pizUncompress s = .next t ∧ s.completed t .ok p.results ∧ t.mem = m ∧ t.bitmap = some b
      ∧ t.lut = some b.reverseLut ∧ t.lutKind = .reverse ∧ t.codes = c := by
  obtain ⟨next, ends⟩ := exec_of_ok reaches (Run.bind_of_ok (x := pizUncompress _ _ _ _ _ _) run)
  refine ⟨_, next, ends, rfl, State.withCoded_bitmap _ c, State.withCoded_lut _ c, State.withCoded_lutKind _ c, ?_⟩
  exact (State.withCoded_codes _ c).trans Option.or_none

end

/-- Settles O34: the block's parts are read one after the other, and each stage gives its samples to the next. -/
theorem pizUncompressResult : Obligations.PizUncompressResult := by
  unfold Obligations.PizUncompressResult
  intro s b nBits q im iM c xs a n d no aux count ds mn mx size len wf valid source dest table sourceDest destTable reads
    readsDest writes readsTable hmx _ short fits loaded holds
  have reaches := pizUncompress_reachesData source dest table sourceDest destTable
  have part (lo size' : Nat) (hi : lo + size' ≤ n) : s.readFails (a + lo) size' = false :=
    spansMeet_part _ _ _ _ _ reads (by omega) (by omega)
  have built := pizUncompress_eq_loaded (s := s.clearValid .pizUncompress) (n := n) (d := d) wf readsTable valid
    (size := size) rfl (part 0 (4 + size) (by omega)) hmx (by omega) loaded
  have coded := pizUncompressBuilt_eq_coded (s := (s.clearValid .pizUncompress).withReverse b) (n := n) (d := d) (no := no)
    (ds := ds) (b := b) (mn := mn) (mx := mx) wf (Nat.add_assoc a 4 size ▸ part (4 + size) 4 (by omega)) rfl short fits
  have decoded := hufUncompress_of_holds (s := (s.clearValid .pizUncompress).withReverse b) wf
    (Nat.add_assoc a 8 size ▸ part (8 + size) len fits) writes holds
  obtain ⟨m, restored, run⟩ := pizUncompressCoded_ok (s := (s.clearValid .pizUncompress).withReverse b) (b := b)
    (p := 8 + size + len) (mn := mn) (mx := mx) wf valid.2 readsDest writes (decodeStream_length holds.stream) decoded
  obtain ⟨t, next, ends, mem, bitmap, lut, kind, codes⟩ :=
    execPizUncompress_of_ok reaches (built.trans (coded.trans run))
  refine ⟨t, b.reverseLut, next, ?_, fun g hg => ?_, mem ▸ restored.kept, bitmap, lut, kind, codes,
    fun v hv occurs => Bitmap.reverseLut_entry_rank hv occurs, fun k _ past => ?_⟩
  · rw [← b.maxValue_eq]
    exact ends
  · rw [mem]
    exact restored.planes g hg _ fun _ _ _ _ => rfl
  · exact Bitmap.reverseLut_entry_of_not_rank (.inr (b.maxValue_eq.symm ▸ past))

end Sys2Proof.Machine
end


section
/-! The proof of O32: the PIZ commands of no samples (44_piz.md R394 to R397). -/

namespace Sys2Proof.Machine

/-! ### The all-zero BITMAP and the empty block -/

theorem Bitmap.zero_bit (v : Nat) : (0 : Bitmap).bit v = false := BitVec.getLsbD_zero

theorem Bitmap.zero_nonZeroValues : (0 : Bitmap).nonZeroValues = [] := by
  rw [Bitmap.nonZeroValues_eq]
  exact List.filter_eq_nil_iff.2 fun v _ => by rw [Bitmap.zero_bit, Bool.and_false]; exact Bool.false_ne_true

theorem Bitmap.zero_maxValue : (0 : Bitmap).maxValue = 0 := by rw [Bitmap.maxValue, Bitmap.zero_nonZeroValues]; rfl

theorem Bitmap.zero_forwardLut : (0 : Bitmap).forwardLut = [] := by
  rw [Bitmap.forwardLut, Bitmap.zero_nonZeroValues]
  rfl

theorem Bitmap.zero_reverseLut : (0 : Bitmap).reverseLut = [] := by
  rw [Bitmap.reverseLut, Bitmap.zero_nonZeroValues]
  rfl

/-- The PIZ block of no samples (44_piz.md R394). -/
theorem pizBlock_empty : pizBlock 0 8191 0 [] = [0xFF, 0x1F, 0, 0, 0, 0, 0, 0] := by
  rw [pizBlock, Bitmap.block]
  decide

/-- Memory that is kept outside no bytes is kept. -/
theorem Memory.eq_of_keptOutside_zero {m m' : Memory} {a : Nat} (wf : m.wf = true) (wf' : m'.wf = true)
    (h : m.keptOutside m' a 0) : m' = m :=
  Memory.ext_read _ _ wf' wf fun k => h k (by omega)

/-- What the PIZ commands of no samples report (44_piz.md R395, R397). -/
theorem pizResults_empty :
    PizInfo.results { count := 8, mn := 8191, mx := 0, maxValue := (0 : Bitmap).maxValue, huf := {} } =
      { len := 8, minnz := 8191 } := by
  rw [Bitmap.zero_maxValue]
  rfl

theorem rangesMeet_zero_left (base base' size' : Nat) : rangesMeet base 0 base' size' = false := by simp [rangesMeet]

theorem rangesMeet_zero_right (base size base' : Nat) : rangesMeet base size base' 0 = false := by simp [rangesMeet]

theorem State.usable_zero (s : State) (w : Word32) (align : Nat) : s.usable w.toNat 0 align :=
  ⟨w.isLt.le, .inl rfl, spansMeet_zero _ _⟩

/-! ### The commands -/

/-- Settles O32: the stages of both commands have nothing to do on no samples, but for the block's eight bytes. -/
theorem pizEmptyBlocks : Obligations.PizEmptyBlocks := by
  unfold Obligations.PizEmptyBlocks
  have noSlice : sliceSize 8191 0 = 0 := by decide
  constructor
  · intro s d cap aux count wf hn valid dest table destTable readsTable room writes
    have hn : s.latched.srcLen.toNat = 0 := by rw [hn]; rfl
    have reaches : reachesData .pizCompress s := by
      refine pizCompress_reachesData ?_ dest table ?_ ?_ destTable <;> rw [hn]
      · exact s.usable_zero _ _
      · exact rangesMeet_zero_left _ _ _
      · exact rangesMeet_zero_left _ _ _
    obtain ⟨m, transformed, run⟩ := pizCompress_transforms (s := s.clearValid .pizCompress) (a := s.latched.srcAddr.toNat)
      (d := d) (cap := cap) (b := 0) wf readsTable valid (spansMeet_zero _ _) (spansMeet_zero _ _)
      (fun v => by rw [Bitmap.zero_bit]; simp) Bitmap.isMinMax_zero
    obtain rfl : m = s.mem := Memory.eq_of_keptOutside_zero wf transformed.wf transformed.kept
    have stored := pizCompressStored_ok (s := ((s.clearValid .pizCompress).withForward 0).withMem s.mem)
      (a := s.latched.srcAddr.toNat) (n := 0) (d := d) (cap := cap) (b := 0) wf noSlice (spansMeet_zero _ _)
      (rangesMeet_zero_left _ _ _) .empty room (by decide) writes
    rw [State.withMem_withCoded_withMem, State.withMem_mem, pizBlock_empty] at stored
    obtain ⟨t, next, ends, mem, bitmap, lut, kind, codes⟩ :=
      execPizCompress_of_ok reaches (p := _) (by rw [State.runPizCompress, hn]; exact run.trans stored)
    refine ⟨t, _, next, pizResults_empty ▸ ends, ?_, ?_, bitmap, lut, fun v => ?_, kind, codes⟩
    · rw [mem]
      exact Memory.bytes_write _ _ _ wf
    · rw [mem]
      exact Memory.write_keptOutside _ _ _ wf
    · rw [Bitmap.zero_forwardLut]
      rfl
  · intro s a n aux count wf hn valid source table readsTable reads room block
    have hn : s.latched.dstLen.toNat = 0 := by rw [hn]; rfl
    have reaches : reachesData .pizUncompress s := by
      refine pizUncompress_reachesData source ?_ table ?_ ?_ <;> rw [hn]
      · exact s.usable_zero _ _
      · exact rangesMeet_zero_right _ _ _
      · exact rangesMeet_zero_left _ _ _
    have part (lo size : Nat) (hi : lo + size ≤ n) : s.readFails (a + lo) size = false :=
      spansMeet_part _ _ _ _ _ reads (by omega) (by omega)
    rw [← pizBlock_empty] at block
    obtain ⟨low, high, loaded⟩ := Bitmap.isLoaded_of_block wf Bitmap.isMinMax_zero (Bitmap.zero_bit 0)
      (noSlice ▸ bitmapBlock_of_pizBlock 0 [] wf noSlice block)
    have built := pizUncompress_eq_loaded (s := s.clearValid .pizUncompress) (a := a) (n := n) (b := 0) (size := 0)
      (d := s.latched.dstAddr.toNat) wf readsTable valid (by rw [State.clearValid_mem, low, high, noSlice])
      (part 0 4 (by omega)) (by rw [State.clearValid_mem, high]; decide) (by omega)
      (by rw [State.clearValid_mem, low, high]; exact loaded)
    have coded := pizUncompressBuilt_eq_coded (s := (s.clearValid .pizUncompress).withReverse 0) (a := a) (n := n)
      (size := 0) (d := s.latched.dstAddr.toNat) (no := 0) (ds := s.mem.descriptors aux count) (b := 0) (mn := 8191)
      (mx := 0) wf (part 4 4 (by omega)) (word_of_pizBlock 0 [] wf noSlice block (by decide)) (by decide) (by omega)
    have decoded := hufUncompress_of_coded (s := (s.clearValid .pizUncompress).withReverse 0) (a := a + 8)
      (d := s.latched.dstAddr.toNat) wf .empty (by decide) (coded_of_pizBlock 0 [] wf noSlice block) (spansMeet_zero _ _)
      (spansMeet_zero _ _)
    obtain ⟨m, restored, run⟩ := pizUncompressCoded_ok (s := (s.clearValid .pizUncompress).withReverse 0) (b := 0)
      (p := 8) (mn := 8191) (mx := 0) wf valid.2 (spansMeet_zero _ _) (spansMeet_zero _ _) rfl decoded
    rw [State.clearValid_mem, low, high] at built
    obtain ⟨t, next, ends, mem, bitmap, lut, kind, codes⟩ := execPizUncompress_of_ok reaches (p := _)
      (by rw [State.runPizUncompress, hn]; exact built.trans (coded.trans run))
    have kept := Memory.eq_of_keptOutside_zero wf restored.wf restored.kept
    exact ⟨t, next, pizResults_empty ▸ ends, mem.trans kept, bitmap, Bitmap.zero_reverseLut ▸ lut, kind, codes⟩

end Sys2Proof.Machine
end


section
/-! The proof of O35: PIZ_COMPRESS that succeeds has stored the block of the samples, from which PIZ_UNCOMPRESS restores
them (44_piz.md R398). -/

namespace Sys2Proof.Machine

/-- What a PIZ block is made of: BITMAP of the `n` samples at `a` with its bounds, the transformed samples `xs`, and the
bytes that they are coded in (44_piz.md R394). -/
structure PizMade (m : Memory) (a n : Nat) (ds : List Desc) (b : Bitmap) (mn mx : Nat) (xs : List Sample)
    (coded : List Byte) : Prop where
  valid : describes ds n
  bits : ∀ v, b.bit v = true ↔ 0 < v ∧ ∃ k < n, (m.sample (a + 2 * k)).toNat = v
  bounds : b.isMinMax mn mx
  length : xs.length = n
  planes : ∀ g ∈ planes 0 ds, ∀ w : GridValues,
    (∀ x < g.nx, ∀ y < g.ny, w x y = rankedPlane b m (g.shift a) x y) →
      ∀ x < g.nx, ∀ y < g.ny, xs.getD (g.addr x y / 2) 0 = encGrid (b.rank 65535) g.nx g.ny w x y
  made : ∃ info c, HufCoded xs info coded c
  small : coded.length ≤ 2147483647

/-! ### The block that PIZ_COMPRESS made -/

/-- BITMAP of a buffer has the bits of the values other than 0 that occur in it (40_lut.md R202). -/
theorem bitmapOfSamples_bit_samples {m : Memory} {a n : Nat} (wf : m.wf = true) (v : Nat) :
    (bitmapOfSamples (m.samples a n)).bit v = true ↔ 0 < v ∧ ∃ k < n, (m.sample (a + 2 * k)).toNat = v := by
  rw [bitmapOfSamples_bit, Memory.samples_eq _ _ _ wf, Memory.sampleList]
  simp

section
variable {s : State} {a n d cap aux count : Nat} {p : PizInfo} {s' : State}

/-- PIZ_COMPRESS that raises nothing had its descriptors, and a bus that reads and writes its source. -/
theorem pizCompress_served (wf : s.mem.wf = true) (h : pizCompress a n d cap aux count s = .ok p s') :
    s.readFails aux (12 * count) = false ∧ describes (s.mem.descriptors aux count) n
      ∧ s.readFails a (2 * n) = false ∧ s.writeFails a (2 * n) = false := by
  have table : s.readFails aux (12 * count) = false := eq_false_of_ne_true fun fails => by
    rw [pizCompress_opensFails wf (.inl fails)] at h
    cases h
  have valid : describes (s.mem.descriptors aux count) n := by
    by_contra invalid
    rw [pizCompress_eq, Run.bind_of_error (readDescriptors_invalid wf table invalid)] at h
    cases h
  have reads : s.readFails a (2 * n) = false := eq_false_of_ne_true fun fails => by
    rw [pizCompress_opensFails wf (.inr ⟨valid, fails⟩)] at h
    cases h
  refine ⟨table, valid, reads, eq_false_of_ne_true fun fails => ?_⟩
  have raises : pizCompressBuilt a n d cap (s.mem.descriptors aux count) (bitmapOfSamples (s.mem.samples a n))
      (s.withForward (bitmapOfSamples (s.mem.samples a n))) = .error busError _ :=
    Run.bind_of_error (applyLut_fails _ (.inr fails))
  rw [pizCompress_eq_built wf table valid reads (bitmapOfSamples_bit_samples wf), raises] at h
  cases h

/-- PIZ_COMPRESS that raises nothing has stored a PIZ block of its samples (44_piz.md R394). -/
theorem pizCompress_inv (wf : s.mem.wf = true) (apart : rangesMeet a (2 * n) d cap = false)
    (h : pizCompress a n d cap aux count s = .ok p s') :
    ∃ b mn mx xs coded, PizMade s.mem a n (s.mem.descriptors aux count) b mn mx xs coded
      ∧ (pizBlock b mn mx coded).length ≤ cap ∧ p.count = (pizBlock b mn mx coded).length
      ∧ s'.mem.bytes d (pizBlock b mn mx coded).length = pizBlock b mn mx coded := by
  obtain ⟨table, valid, reads, writes⟩ := pizCompress_served wf h
  have bits := bitmapOfSamples_bit_samples (a := a) (n := n) wf
  generalize bitmapOfSamples (s.mem.samples a n) = b at bits
  have bounds := b.minMaxNonZero_isMinMax
  generalize b.minMaxNonZero = bd at bounds
  obtain ⟨mn, mx⟩ := bd
  obtain ⟨m, transformed, run⟩ := pizCompress_transforms (d := d) (cap := cap) wf table valid reads writes bits bounds
  obtain ⟨info, coded, c, made, fits, small, counted, mem⟩ := pizCompressStored_inv (s := (s.withForward b).withMem m)
    transformed.wf rfl apart (run.symm.trans h)
  have length := pizBlock_length b coded (mn := mn) (mx := mx) rfl
  refine ⟨b, mn, mx, m.sampleList a n, coded, ⟨valid, bits, bounds, Memory.sampleList_length _ _ _,
    fun g hg w hw x hx y hy => ?_, ⟨info, c, made⟩, small⟩, length.trans_le fits, counted.trans length.symm, ?_⟩
  · rw [← m.grid_shift_eq valid.2 a hg hx hy]
    exact transformed.planes _ (mem_planes_shift hg) w hw x hx y hy
  · rw [mem]
    exact Memory.bytes_write _ _ _ transformed.wf

end

theorem paramCheck_of_ok {i : Instr} {s t : State} (h : exec i s = .next t) (hok : t.errcode = .ok) :
    paramCheck i s = none := by
  obtain ⟨-, ⟨e, he, rfl⟩ | ⟨hn, -⟩ | ⟨hn, -⟩⟩ := runCommand_next (exec_eq i s ▸ h)
  · exact absurd hok (paramCheck_ne_ok he)
  · exact hn
  · exact hn

/-- PIZ_COMPRESS that ends with code 0 has stored a PIZ block of its samples, and reports its length (44_piz.md R395).
-/
theorem execPizCompress_inv {s t : State} (wf : s.mem.wf = true) (h : exec .pizCompress s = .next t)
    (hok : t.errcode = .ok) :
    ∃ b mn mx xs coded,
      PizMade s.mem s.latched.srcAddr.toNat s.latched.srcLen.toNat
          (s.mem.descriptors s.latched.auxAddr.toNat s.latched.auxLen.toNat) b mn mx xs coded
        ∧ t.results.len.toNat = (pizBlock b mn mx coded).length
        ∧ t.mem.bytes s.latched.dstAddr.toNat (pizBlock b mn mx coded).length = pizBlock b mn mx coded := by
  obtain ⟨-, -, -, -, clash, -⟩ := (paramCheck_eq_none_iff _ _).1 (paramCheck_of_ok h hok)
  have apart : rangesMeet s.latched.srcAddr.toNat (2 * s.latched.srcLen.toNat) s.latched.dstAddr.toNat
      s.latched.dstLen.toNat = false := by
    simp only [regions, someClash, List.any_cons, Region.clashes, Bool.or_eq_false_iff] at clash
    exact clash.1.1
  obtain ⟨r, s', data, rfl⟩ := exec_ok h hok
  obtain ⟨p, s1, run, ends⟩ := Run.bind_ok (x := pizCompress _ _ _ _ _ _) (s := s.clearValid .pizCompress) data
  cases ends
  obtain ⟨b, mn, mx, xs, coded, made, fits, counted, stored⟩ :=
    pizCompress_inv (s := s.clearValid .pizCompress) wf apart run
  refine ⟨b, mn, mx, xs, coded, made, ?_, stored⟩
  have capacity : s.latched.dstLen.toNat < 2 ^ 32 := s.latched.dstLen.isLt
  show (BitVec.ofNat 32 p.count).toNat = _
  rw [counted, BitVec.toNat_ofNat, Nat.mod_eq_of_lt (fits.trans_lt capacity)]

/-! ### The samples that PIZ_UNCOMPRESS restores -/

section
variable {m : Memory} {a n : Nat} {ds : List Desc} {b : Bitmap} {mn mx : Nat} {xs : List Sample} {coded : List Byte}

/-- The rank of a sample of the buffer goes back to the sample (40_lut.md R206, R207). -/
theorem PizMade.reverse_rank (h : PizMade m a n ds b mn mx xs coded) {k : Nat} (hk : k < n) :
    b.reverseLut.entry (BitVec.ofNat 16 (b.rank (m.sample (a + 2 * k)).toNat)).toNat = m.sample (a + 2 * k) := by
  have lt : (m.sample (a + 2 * k)).toNat < 65536 := (m.sample (a + 2 * k)).isLt
  have occurs : b.occurs (m.sample (a + 2 * k)).toNat :=
    (Nat.eq_zero_or_pos _).imp_right fun pos => (h.bits _).2 ⟨pos, k, hk, rfl⟩
  rw [BitVec.toNat_ofNat, Nat.mod_eq_of_lt ((b.rank_le_maxValue lt).trans_lt b.maxValue_lt)]
  exact BitVec.eq_of_toNat_eq (Bitmap.reverseLut_entry_rank lt occurs)

/-- Planes restored from the transformed samples are the buffer (44_piz.md R398). -/
theorem PizMade.restored_eq (h : PizMade m a n ds b mn mx xs coded) {d : Nat} {u v : Memory}
    (restored : PizRestored d n ds b xs u v) : v.sampleList d n = m.sampleList a n := by
  refine List.map_congr_left fun k hk => ?_
  have hk := List.mem_range.1 hk
  obtain ⟨g, hg, x, hx, y, hy, addr⟩ := exists_plane_addr_eq h.valid.2 hk
  have cut {x y : Nat} (hx : x < g.nx) (hy : y < g.ny) := g.cut_eq (rankedPlane b m (g.shift a)) hx hy
  have low (x : Nat) (_ : x < g.nx) (y : Nat) (_ : y < g.ny) :
      16384 ≤ b.rank 65535 ∨ (rankedPlane b m (g.shift a) x y).toNat < 16384 := by
    have rank := b.rank_le_maxValue (m.grid (g.shift a) x y).isLt
    have := (Nat.mod_le (b.rank (m.grid (g.shift a) x y).toNat) (2 ^ 16)).trans (b.maxValue_eq ▸ rank)
    rw [rankedPlane, BitVec.toNat_ofNat]
    omega
  have value := restored.planes g hg _ (fun x hx y hy => h.planes g hg _ (fun x hx y hy => cut hx hy) x hx y hy) x hx y hy
  rw [decGrid_encGrid_cut _ g low, cut hx hy, rankedPlane, Memory.grid, Grid.shift_addr, addr, h.reverse_rank hk] at value
  exact value

/-- PIZ_UNCOMPRESS of a PIZ block that was made from samples restores them (44_piz.md R398). -/
theorem PizMade.uncompress (h : PizMade m a n ds b mn mx xs coded) {u : State} {src len dst aux count : Nat}
    (wf : u.mem.wf = true) (hlen : len = (pizBlock b mn mx coded).length)
    (block : u.mem.bytes src len = pizBlock b mn mx coded) (descs : u.mem.descriptors aux count = ds)
    (table : u.readFails aux (12 * count) = false) (reads : u.readFails src len = false)
    (readsDest : u.readFails dst (2 * n) = false) (writes : u.writeFails dst (2 * n) = false) :
    ∃ (c : Option CodeTable) (v : Memory) (p : PizInfo),
      pizUncompress src len dst n aux count u = .ok p (((u.withReverse b).withCoded c).withMem v)
        ∧ p.count = len ∧ PizRestored dst n ds b xs u.mem v := by
  obtain ⟨info, c, made⟩ := h.made
  obtain rfl := h.length
  have first : b.bit 0 = false := eq_false_of_ne_true fun set => absurd ((h.bits 0).1 set).1 (lt_irrefl 0)
  generalize hsize : sliceSize mn mx = size
  rw [pizBlock_length b coded hsize] at hlen
  have small := h.small
  have part (lo size' : Nat) (hi : lo + size' ≤ len) : u.readFails (src + lo) size' = false :=
    spansMeet_part _ _ _ _ _ reads (by omega) (by omega)
  obtain ⟨low, high, loaded⟩ := Bitmap.isLoaded_of_block wf h.bounds first
    (hsize ▸ bitmapBlock_of_pizBlock b coded wf hsize block)
  have built := pizUncompress_eq_loaded (a := src) (n := len) (d := dst) (size := size) (b := b) wf table
    (descs.symm ▸ h.valid) (by rw [low, high, hsize]) (part 0 (4 + size) (by omega)) (by rw [high]; exact h.bounds.lt.2)
    (by omega) (by rw [low, high]; exact loaded)
  have read := pizUncompressBuilt_eq_coded (s := u.withReverse b) (a := src) (n := len) (size := size) (d := dst)
    (no := xs.length) (ds := ds) (b := b) (mn := mn) (mx := mx) wf
    (Nat.add_assoc src 4 size ▸ part (4 + size) 4 (by omega)) (word_of_pizBlock b coded wf hsize block (by omega))
    (by omega) (by omega)
  have decoded := hufUncompress_of_coded (s := u.withReverse b) (d := dst) wf made (by omega)
    (coded_of_pizBlock b coded wf hsize block)
    (Nat.add_assoc src 8 size ▸ part (8 + size) coded.length (by omega)) writes
  obtain ⟨v, restored, run⟩ := pizUncompressCoded_ok (s := u.withReverse b) (b := b) (p := 8 + size + coded.length)
    (mn := mn) (mx := mx) wf h.valid.2 readsDest writes rfl decoded
  rw [low, high, descs] at built
  exact ⟨c, v, _, built.trans (read.trans run), hlen.symm, restored⟩

end

/-- Settles O35: the block that is there was made from the samples, so its stages restore them. -/
theorem pizRoundTrip : Obligations.PizRoundTrip := by
  unfold Obligations.PizRoundTrip
  intro s t u n len a d aux count wf compress hok wf' srcLen dstLen same hcount descs source dest table sourceDest destTable
    reads readsDest writes readsTable
  obtain ⟨b, mn, mx, xs, coded, made, length, stored⟩ := execPizCompress_inv wf compress hok
  have block : t.mem.bytes s.latched.dstAddr.toNat t.results.len.toNat = pizBlock b mn mx coded := by
    rw [length]
    exact stored
  have srcLen : u.latched.srcLen.toNat = len := srcLen
  have dstLen : u.latched.dstLen.toNat = n := dstLen
  have reaches : reachesData .pizUncompress u := by
    refine pizUncompress_reachesData ?_ ?_ table ?_ ?_
    · rw [srcLen]
      exact source
    · rw [dstLen]
      exact dest
    · rw [srcLen, dstLen]
      exact sourceDest
    · rw [dstLen]
      exact destTable
  obtain ⟨c, m, p, run, counted, restored⟩ := made.uncompress (u := u.clearValid .pizUncompress) (src := a) (len := len)
    (dst := d) wf' length (same.trans block) (hcount ▸ descs) readsTable reads readsDest writes
  obtain ⟨v, next, ends, mem, -⟩ := execPizUncompress_of_ok reaches (p := p) (b := b) (c := c) (m := m)
    (by rw [State.runPizUncompress, srcLen, dstLen]; exact run)
  refine ⟨v, next, ends.errcode, ?_, ?_, ?_⟩
  · rw [ends.results]
    show BitVec.ofNat 32 p.count = _
    rw [counted]
    exact BitVec.ofNat_toNat ..
  · rw [mem]
    exact made.restored_eq restored
  · rw [mem]
    exact restored.kept

end Sys2Proof.Machine
end


section
/-! The proof of O36: each stage of the PIZ commands that fails ends the command with the tables that stand by then
(44_piz.md R391, R394, R396, R397). -/

namespace Sys2Proof.Machine

/-! ### The end of a command whose data phase raises -/

/-- A data phase that raises ends the command with the raised code and with the tables that stood at the raise; memory
too where the raise keeps it (60_exceptions.md R520). -/
theorem exec_raise_tables {i : Instr} {s s' : State} {e : Raise} (reaches : reachesData i s)
    (raises : dataPhase i (s.clearValid i) = .error e s') (he : e.code ≠ .ok) :
    ∃ t, exec i s = .next t ∧ s.completed t e.code {} ∧ (e.keepsMemory = true → t.mem = s'.mem) ∧ t.bitmap = s'.bitmap
      ∧ t.lut = s'.lut ∧ t.lutKind = s'.lutKind ∧ t.codes = s'.codes := by
  obtain ⟨run, ends⟩ := exec_of_raise reaches raises he
  refine ⟨_, run, ends, fun keeps => ?_, s'.failData_bitmap i e, s'.failData_lut i e, s'.failData_lutKind i e,
    s'.failData_codes i e⟩
  rw [State.failData, if_pos keeps]
  rfl

/-- A command that passes its checks and ends with an error raised it in its data phase. -/
theorem exec_raised {i : Instr} {s t : State} (reaches : reachesData i s) (h : exec i s = .next t) (hok : t.errcode ≠ .ok) :
    ∃ e s', dataPhase i (s.clearValid i) = .error e s' ∧ e.code = t.errcode ∧ s'.codes = t.codes := by
  obtain ⟨-, ⟨e, fails, -⟩ | ⟨-, r, s', -, rfl⟩ | ⟨-, e, s', raises, rfl⟩⟩ := runCommand_next (exec_eq i s ▸ h)
  · rw [reaches.2] at fails
    cases fails
  · exact absurd rfl hok
  · exact ⟨e, s', raises, rfl, (s'.failData_codes i e).symm⟩

/-! ### The bitmap block -/

/-- A bitmap block that is too short, out of range or cut off is not loaded: the bus need only read its header
(40_lut.md R205). -/
theorem bitmapLoad_raises_of_header {s : State} {a n size : Nat} (wf : s.mem.wf = true)
    (header : 4 ≤ n → s.readFails a 4 = false)
    (hsize : sliceSize (s.mem.sample a).toNat (s.mem.sample (a + 2)).toNat = size)
    (bad : n < 4 ∨ 8192 ≤ (s.mem.sample (a + 2)).toNat ∨ n < 4 + size) :
    bitmapLoad a n s = .error ⟨if n < 4 then .notEnoughData else if 8192 ≤ (s.mem.sample (a + 2)).toNat then .bitmapSize
      else .notEnoughData, false⟩ s := by
  by_cases short : n < 4
  · rw [if_pos short]
    exact Run.bind_of_error (require_fails _ (decide_eq_false (by omega)))
  have header := header (by omega)
  rw [if_neg short]
  by_cases range : 8192 ≤ (s.mem.sample (a + 2)).toNat
  · obtain ⟨low, high⟩ := (spansMeet_add_eq_false _ a 2 2).1 header
    rw [if_pos range, bitmapLoad, Run.bind_of_ok (require_ok _ (decide_eq_true (by omega))), Run.bind_of_ok (rdLe_ok low),
      Run.bind_of_ok (rdLe_ok high), Memory.leNat_bytes_two wf]
    exact Run.bind_of_error (require_fails _ (decide_eq_false (Nat.not_lt.2 range)))
  · have cut : n < 4 + size := (bad.resolve_left short).resolve_left range
    have ordered : (s.mem.sample a).toNat ≤ (s.mem.sample (a + 2)).toNat := by
      by_contra unordered
      rw [sliceSize, if_neg unordered] at hsize
      omega
    rw [if_neg range, bitmapLoad_header wf (by omega) header (by omega), if_pos ordered, hsize]
    exact Run.bind_of_error (require_fails _ (decide_eq_false (by omega)))

/-! ### The first stages -/

section
variable {s : State} {a n d no cap aux count : Nat}

theorem pizCompress_invalid (wf : s.mem.wf = true) (table : s.readFails aux (12 * count) = false)
    (h : ¬ describes (s.mem.descriptors aux count) n) : pizCompress a n d cap aux count s = .error ⟨.badParam, true⟩ s := by
  rw [pizCompress_eq]
  exact Run.bind_of_error (readDescriptors_invalid wf table h)

theorem pizUncompress_invalid (wf : s.mem.wf = true) (table : s.readFails aux (12 * count) = false)
    (h : ¬ describes (s.mem.descriptors aux count) no) :
    pizUncompress a n d no aux count s = .error ⟨.badParam, true⟩ s := by
  rw [pizUncompress_eq]
  exact Run.bind_of_error (readDescriptors_invalid wf table h)

/-- An error of the bitmap block ends PIZ_UNCOMPRESS (44_piz.md R396). -/
theorem pizUncompress_badBitmap (wf : s.mem.wf = true) (table : s.readFails aux (12 * count) = false)
    (valid : describes (s.mem.descriptors aux count) no) {e : Raise} (h : bitmapLoad a n s = .error e s) :
    pizUncompress a n d no aux count s = .error e s := by
  rw [pizUncompress_eq, Run.bind_of_ok (readDescriptors_ok wf table valid)]
  exact Run.bind_of_error h

end

/-! ### The length of the Huffman block -/

section
variable {s : State} {a n d no mn mx size : Nat} {ds : List Desc} {b : Bitmap}

/-- A PIZ block whose length field is missing, negative or too large ends PIZ_UNCOMPRESS (44_piz.md R396). -/
theorem pizUncompressBuilt_badLength (wf : s.mem.wf = true)
    (reads : 8 + size ≤ n → s.readFails (a + 4 + size) 4 = false)
    (bad : n < 8 + size ∨ 2 ^ 31 ≤ s.mem.word (a + 4 + size) ∨ n < 8 + size + s.mem.word (a + 4 + size)) :
    pizUncompressBuilt a n d no ds b (4 + size) mn mx s =
      .error ⟨if n < 8 + size then .notEnoughData else .pizLength, false⟩ s := by
  by_cases short : n < 8 + size
  · rw [if_pos short]
    exact Run.bind_of_error (require_fails _ (decide_eq_false (by omega)))
  · rw [if_neg short, pizUncompressBuilt_length wf (by omega) (reads (by omega)) rfl]
    refine Run.bind_of_error (require_fails _ ?_)
    have word := s.mem.word_lt (a + 4 + size)
    rw [s32_eq word, Bool.and_eq_false_iff, decide_eq_false_iff_not, decide_eq_false_iff_not]
    split <;> omega

end

/-! ### What the Huffman decoder looks at

HUF_UNCOMPRESS decodes for itself or as a stage of PIZ_UNCOMPRESS. The two runs differ in the latched operands, in
BITMAP and in the LUT, which the decoder does not look at. -/

/-- `t` is `base` but for memory and the code table, which it has of `s`; and `s` has the bus of `base`. -/
structure State.SharesDecoder (base s t : State) : Prop where
  eq : t = { base with mem := s.mem, codes := s.codes }
  platform : s.platform = base.platform
  fresh : s.fresh = base.fresh

section
variable {base : State}

theorem State.SharesDecoder.readFails {s t : State} (h : base.SharesDecoder s t) (a n : Nat) :
    t.readFails a n = s.readFails a n := by
  rw [h.eq, State.readFails, State.readFails, h.platform]

theorem State.SharesDecoder.writeFails {s t : State} (h : base.SharesDecoder s t) (a n : Nat) :
    t.writeFails a n = s.writeFails a n := by
  rw [h.eq, State.writeFails, State.writeFails, h.platform]

theorem State.SharesDecoder.mem {s t : State} (h : base.SharesDecoder s t) : t.mem = s.mem := by rw [h.eq]

theorem State.SharesDecoder.withCodes {s t : State} (h : base.SharesDecoder s t) (c : CodeTable) :
    base.SharesDecoder (s.withCodes c) (t.withCodes c) := ⟨by rw [h.eq]; rfl, h.platform, h.fresh⟩

theorem State.SharesDecoder.withMem {s t : State} (h : base.SharesDecoder s t) (m : Memory) :
    base.SharesDecoder (s.withMem m) (t.withMem m) := ⟨by rw [h.eq]; rfl, h.platform, h.fresh⟩

/-- Two runs on a shared decoder end alike, whatever their code. -/
abbrev DecodesAlike {α : Type} (base : State) (x : Run α) : Prop := Run.Agrees base.SharesDecoder (fun _ => True) x

theorem decodesAlike_ofExcept {α : Type} (v : Except ErrCode α) : DecodesAlike base (ofExcept v) :=
  agrees_ofExcept _ fun _ _ => trivial

theorem decodesAlike_require (c : Bool) (e : ErrCode) : DecodesAlike base (require c e) := by
  intro s t h
  rw [require_eq, require_eq]
  split
  · exact .ok h
  · exact .error h trivial

theorem decodesAlike_rdLe (a n : Nat) : DecodesAlike base (rdLe a n) := by
  refine agrees_bind (fun s t h => ?_) fun _ => agrees_pure _
  rw [dmaRead_eq, dmaRead_eq, h.readFails, h.mem]
  split
  · exact .error h trivial
  · exact .ok h

theorem decodesAlike_buildStage (c : CodeTable) : DecodesAlike base (buildStage c) := by
  intro s t h
  rw [buildStage_eq, buildStage_eq, show t.fresh = s.fresh by rw [h.eq, h.fresh]]
  split
  · exact .ok h
  · exact .error (h.withCodes _) trivial

/-- The Huffman decoder looks at memory, the bus and the code table only. -/
theorem decodesAlike_hufUncompress (a n d no : Nat) : DecodesAlike base (hufUncompress a n d no) := by
  unfold hufUncompress
  split
  · exact agrees_bind (decodesAlike_require _ _) fun _ => agrees_pure _
  · refine agrees_bind (decodesAlike_rdLe _ _) fun im => agrees_bind (decodesAlike_rdLe _ _) fun iM =>
      agrees_bind (decodesAlike_rdLe _ _) fun nBits => agrees_bind (decodesAlike_require _ _) fun _ =>
        agrees_bind (decodesAlike_require _ _) fun _ => agrees_get_bind (fun s t h => ?_) fun s => ?_
    · have bits : t.bitsFail = s.bitsFail := funext fun _ => funext fun _ => funext fun _ => h.readFails _ _
      simp only [h.mem, h.readFails, h.writeFails, bits]
    · refine agrees_bind (decodesAlike_ofExcept _) fun p => agrees_bind (agrees_modify _ fun s t h => h.withCodes _) fun _ =>
        agrees_bind (decodesAlike_require _ _) fun _ => agrees_bind (decodesAlike_buildStage _) fun _ =>
          agrees_bind (decodesAlike_ofExcept _) fun xs => agrees_bind (agrees_modify _ fun s t h => ?_) fun _ =>
            agrees_pure _
      rw [h.mem]
      exact h.withMem _

end

/-! ### The Huffman stage -/

/-- A region that ends with the address space starts at an address of 32 bits, or is empty. -/
theorem toNat_ofNat_of_fits {x len : Nat} (h : x + len ≤ 2 ^ 32) : (BitVec.ofNat 32 x).toNat = x ∨ len = 0 := by
  rw [BitVec.toNat_ofNat]
  rcases Nat.lt_or_ge x (2 ^ 32) with below | above
  · exact .inl (Nat.mod_eq_of_lt below)
  · exact .inr (by omega)

/-- A part of a region meets no region that the whole does not meet. -/
theorem rangesMeet_part {base size base' size' lo n : Nat} (h : rangesMeet base size base' size' = false) (above : base ≤ lo)
    (below : lo + n ≤ base + size) : rangesMeet lo n base' size' = false := by
  refine eq_false_of_ne_true fun meet => ne_true_of_eq_false h ?_
  obtain ⟨k, ⟨from_lo, to_n⟩, shared⟩ := (rangesMeet_iff ..).1 meet
  exact (rangesMeet_iff ..).2 ⟨k, ⟨above.trans from_lo, to_n.trans_le below⟩, shared⟩

theorem hufUncompress_of_empty (a a' d no : Nat) : hufUncompress a 0 d no = hufUncompress a' 0 d no := by
  rw [hufUncompress, hufUncompress, if_pos (by decide), if_pos (by decide)]

/-- HUF_UNCOMPRESS that ends with an error raises it as a stage of PIZ_UNCOMPRESS too, with the same code table. -/
theorem hufUncompress_raises {s u v : State} {x len : Nat} (h : exec .hufUncompress s = .next v) (hok : v.errcode ≠ .ok)
    (source : s.usable x len 1) (dest : s.usable s.latched.dstAddr.toNat (2 * s.latched.dstLen.toNat) 2)
    (apart : rangesMeet x len s.latched.dstAddr.toNat (2 * s.latched.dstLen.toNat) = false)
    (srcAddr : s.latched.srcAddr = BitVec.ofNat 32 x) (srcLen : s.latched.srcLen.toNat = len)
    (shares : u.SharesDecoder (s.clearValid .hufUncompress) u) :
    ∃ e u', hufUncompress x len s.latched.dstAddr.toNat s.latched.dstLen.toNat u = .error e u' ∧ e.code = v.errcode
      ∧ u'.bitmap = u.bitmap ∧ u'.lut = u.lut ∧ u'.lutKind = u.lutKind ∧ u'.codes = v.codes := by
  have start : s.latched.srcAddr.toNat = x ∨ len = 0 := srcAddr ▸ toNat_ofNat_of_fits source.1
  have reaches : reachesData .hufUncompress s := by
    obtain start | empty := start
    · exact hufUncompress_reachesData (by rw [start, srcLen]; exact source) dest (by rw [start, srcLen]; exact apart)
    · refine hufUncompress_reachesData ?_ dest ?_ <;> rw [srcLen, empty]
      · exact s.usable_zero _ _
      · exact rangesMeet_zero_left _ _ _
  have same : hufUncompress s.latched.srcAddr.toNat s.latched.srcLen.toNat = hufUncompress x len := by
    rw [srcLen]
    obtain start | rfl := start
    · rw [start]
    · funext d no
      exact hufUncompress_of_empty _ _ _ _
  obtain ⟨e, s', raises, code, codes⟩ := exec_raised reaches h hok
  obtain raises | ⟨r, s1, -, ends⟩ := Run.bind_error (x := hufUncompress s.latched.srcAddr.toNat s.latched.srcLen.toNat
    s.latched.dstAddr.toNat s.latched.dstLen.toNat) (s := s.clearValid .hufUncompress) raises
  · have alike := decodesAlike_hufUncompress x len s.latched.dstAddr.toNat s.latched.dstLen.toNat _ _ shares
    rw [same] at raises
    rw [raises] at alike
    generalize hufUncompress x len _ _ u = run at alike
    cases alike with
    | error shared _ =>
      obtain rfl := shared.eq
      exact ⟨e, _, rfl, code, rfl, rfl, rfl, codes⟩
  · cases ends

/-! ### The commands -/

section
variable {s : State}

/-- A run of PIZ_COMPRESS that raises ends the command with the tables that stood at the raise (44_piz.md R394). -/
theorem execPizCompress_of_raise (reaches : reachesData .pizCompress s) {e : Raise} {s' : State}
    (run : s.runPizCompress = .error e s') (he : e.code ≠ .ok) :
    ∃ t, exec .pizCompress s = .next t ∧ s.completed t e.code {} ∧ (e.keepsMemory = true → t.mem = s'.mem)
      ∧ t.bitmap = s'.bitmap ∧ t.lut = s'.lut ∧ t.lutKind = s'.lutKind ∧ t.codes = s'.codes :=
  exec_raise_tables reaches (Run.bind_of_error (x := pizCompress _ _ _ _ _ _) run) he

/-- A run of PIZ_UNCOMPRESS that raises ends the command with the tables that stood at the raise (44_piz.md R396). -/
theorem execPizUncompress_of_raise (reaches : reachesData .pizUncompress s) {e : Raise} {s' : State}
    (run : s.runPizUncompress = .error e s') (he : e.code ≠ .ok) :
    ∃ t, exec .pizUncompress s = .next t ∧ s.completed t e.code {} ∧ (e.keepsMemory = true → t.mem = s'.mem)
      ∧ t.bitmap = s'.bitmap ∧ t.lut = s'.lut ∧ t.lutKind = s'.lutKind ∧ t.codes = s'.codes :=
  exec_raise_tables reaches (Run.bind_of_error (x := pizUncompress _ _ _ _ _ _) run) he

end

/-- Settles O36: each run is followed to the stage that fails, whose raise ends the command. -/
theorem pizErrors : Obligations.PizErrors := by
  unfold Obligations.PizErrors
  constructor
  · intro s b mn mx xs e a n d cap aux count ds size wf source dest table sourceDest sourceTable destTable readsTable
    have reaches := pizCompress_reachesData source dest table sourceDest sourceTable destTable
    refine ⟨fun invalid => ?_, fun valid reads writes hb bounds small => ?_,
      fun valid hn reads writes hb bounds length expected he fits header large => ?_⟩
    · obtain ⟨t, next, ends, mem, tables⟩ := execPizCompress_of_raise reaches
        (pizCompress_invalid (s := s.clearValid .pizCompress) wf readsTable invalid) (by decide)
      exact ⟨t, next, ends, mem rfl, tables⟩
    · obtain ⟨m, transformed, run⟩ := pizCompress_transforms (s := s.clearValid .pizCompress) (d := d) (cap := cap) wf
        readsTable valid reads writes hb bounds
      obtain ⟨t, next, ends, -, bitmap, lut, kind, codes⟩ := execPizCompress_of_raise reaches
        (run.trans (pizCompressStored_noRoom rfl small)) (by decide)
      exact ⟨t, b.forwardLut, next, ends, bitmap, lut, kind, fun v hv => b.forwardLut_entry_eq hv, codes⟩
    · obtain ⟨m, transformed, run⟩ := pizCompress_transforms (s := s.clearValid .pizCompress) (d := d) (cap := cap) wf
        readsTable valid reads writes hb bounds
      have samples : m.sampleList a n = xs := sampleList_eq_of_planes valid.2 length expected fun g hg =>
        transformed.planes g hg _ fun _ _ _ _ => rfl
      have overflows := pizCompressStored_overflows (s := ((s.clearValid .pizCompress).withForward b).withMem m) (b := b)
        (size := size) transformed.wf rfl hn reads sourceDest (samples.symm ▸ he) fits header large
      obtain ⟨t, next, ends, -, bitmap, lut, kind, codes⟩ := execPizCompress_of_raise reaches (run.trans overflows) (by decide)
      exact ⟨t, b.forwardLut, next, ends, bitmap, lut, kind, codes⟩
  · intro s v b a n d no aux count ds mn mx size len block wf source dest table sourceDest destTable readsTable
    have reaches := pizUncompress_reachesData source dest table sourceDest destTable
    have built (valid : describes ds no) (hmx : mx < 8192) (fits : 4 + size ≤ n) (loaded : b.isLoaded s.mem (a + 4) mn mx)
        (reads : s.readFails a (4 + size) = false) :=
      pizUncompress_eq_loaded (s := s.clearValid .pizUncompress) (n := n) (d := d) wf readsTable valid (size := size) rfl
        reads hmx fits loaded
    refine ⟨fun invalid => ?_, fun valid header bad => ?_, fun valid hmx fits loaded reads bad => ?_,
      fun valid reads hmx fits loaded short inBlock decode hok => ?_⟩
    · obtain ⟨t, next, ends, mem, tables⟩ := execPizUncompress_of_raise reaches
        (pizUncompress_invalid (s := s.clearValid .pizUncompress) wf readsTable invalid) (by decide)
      exact ⟨t, next, ends, mem rfl, tables⟩
    · have raises := bitmapLoad_raises_of_header (s := s.clearValid .pizUncompress) (size := size) wf header rfl bad
      obtain ⟨t, next, ends, -, tables⟩ := execPizUncompress_of_raise reaches
        (pizUncompress_badBitmap (s := s.clearValid .pizUncompress) wf readsTable valid raises) (by split_ifs <;> decide)
      exact ⟨t, next, ends, tables⟩
    · have part (lo size' : Nat) (hi : lo + size' ≤ if n < 8 + size then 4 + size else 8 + size) :
          s.readFails (a + lo) size' = false := spansMeet_part _ _ _ _ _ reads (by omega) (by omega)
      have raises := pizUncompressBuilt_badLength (s := (s.clearValid .pizUncompress).withReverse b) (d := d) (no := no)
        (ds := ds) (b := b) (mn := mn) (mx := mx) wf
        (fun fits => Nat.add_assoc a 4 size ▸ part (4 + size) 4 (by rw [if_neg (by omega)]; omega)) bad
      obtain ⟨t, next, ends, -, bitmap, lut, kind, codes⟩ := execPizUncompress_of_raise reaches
        ((built valid hmx fits loaded (part 0 (4 + size) (by split_ifs <;> omega))).trans raises)
        (by split_ifs <;> decide)
      exact ⟨t, b.reverseLut, next, ends, bitmap, lut, kind, fun u hu occurs => Bitmap.reverseLut_entry_rank hu occurs,
        codes⟩
    · have part (lo size' : Nat) (hi : lo + size' ≤ 8 + size) : s.readFails (a + lo) size' = false :=
        spansMeet_part _ _ _ _ _ reads (by omega) (by omega)
      have coded := pizUncompressBuilt_eq_coded (s := (s.clearValid .pizUncompress).withReverse b) (n := n) (d := d)
        (no := no) (ds := ds) (b := b) (mn := mn) (mx := mx) wf
        (Nat.add_assoc a 4 size ▸ part (4 + size) 4 (by omega)) rfl short inBlock
      have inSource : a + 8 + size + len ≤ a + n := by omega
      obtain ⟨e, u, raises, code, bitmap, lut, kind, codes⟩ := hufUncompress_raises (x := a + 8 + size) (len := len)
        (u := (s.clearValid .pizUncompress).withReverse b) decode hok
        ⟨inSource.trans source.1, .inr (Nat.mod_one _), spansMeet_part _ _ _ _ _ source.2.2 (by omega) inSource⟩ dest
        (rangesMeet_part sourceDest (by omega) inSource) rfl
        (by rw [BitVec.toNat_ofNat, Nat.mod_eq_of_lt (s.mem.word_lt _)]) ⟨rfl, rfl, rfl⟩
      obtain ⟨t, next, ends, -, bitmap', lut', kind', codes'⟩ := execPizUncompress_of_raise reaches
        ((built valid hmx (by omega) loaded (part 0 (4 + size) (by omega))).trans (coded.trans (Run.bind_of_error raises)))
        (code ▸ hok)
      exact ⟨t, b.reverseLut, next, code ▸ ends, bitmap'.trans bitmap, lut'.trans lut, kind'.trans kind,
        codes'.trans codes⟩

end Sys2Proof.Machine
end

section
/-! SUPPORT and the proof of O43: which raises of a data phase leave all memory unchanged (60_exceptions.md R520), and
what a failed data phase leaves in the written regions. -/

namespace Sys2Proof.Machine

/-! ### Raises that free the written regions

The statement tells the raises apart by their code. For the PIZ commands that is right because nothing past the descriptor
table raises BAD_PARAM again. -/

/-- Whatever it raises frees the written regions, and has another code than the descriptor table's BAD_PARAM. -/
def Run.RaisesPlainly {α : Type} (x : Run α) : Prop :=
  ∀ s e s', x s = .error e s' → e.keepsMemory = false ∧ e.code ≠ .badParam

theorem plainly_pure {α : Type} (a : α) : Run.RaisesPlainly (pure a) := fun _ _ _ h => by cases h

theorem plainly_get : Run.RaisesPlainly (get : Run State) := fun _ _ _ h => by cases h

theorem plainly_modify (f : State → State) : Run.RaisesPlainly (modify f : Run Unit) := fun _ _ _ h => by cases h

theorem plainly_raise {α : Type} {c : ErrCode} (hc : c ≠ .badParam) : Run.RaisesPlainly (raise c : Run α) :=
  fun _ _ _ h => by cases h; exact ⟨rfl, hc⟩

theorem plainly_bind {α β : Type} {x : Run α} {f : α → Run β} (hx : x.RaisesPlainly)
    (hf : ∀ a, (f a).RaisesPlainly) : (x >>= f).RaisesPlainly := fun s e s' h => by
  obtain h | ⟨a, s1, -, h⟩ := Run.bind_error h
  · exact hx s e s' h
  · exact hf a s1 e s' h

theorem plainly_require (b : Bool) {c : ErrCode} (hc : c ≠ .badParam) : (require b c).RaisesPlainly := by
  unfold require
  split
  · exact plainly_pure _
  · exact plainly_raise hc

theorem plainly_ofExcept {α : Type} {v : Except ErrCode α} (hv : ∀ c, v = .error c → c ≠ .badParam) :
    (ofExcept v).RaisesPlainly := by
  cases v with
  | ok a => exact plainly_pure a
  | error c => exact plainly_raise (hv c rfl)

theorem plainly_dmaRead (a n : Nat) : (dmaRead a n).RaisesPlainly := fun s e s' h => by
  rw [dmaRead_eq] at h
  split at h
  · cases h; exact ⟨rfl, by decide⟩
  · cases h

theorem plainly_dmaWrite (a : Nat) (bs : List Byte) : (dmaWrite a bs).RaisesPlainly := fun s e s' h => by
  rw [dmaWrite_eq] at h
  split at h
  · cases h; exact ⟨rfl, by decide⟩
  · cases h

theorem plainly_rdLe (a n : Nat) : (rdLe a n).RaisesPlainly :=
  plainly_bind (plainly_dmaRead a n) fun _ => plainly_pure _

theorem plainly_rd16 (a : Nat) : (rd16 a).RaisesPlainly := plainly_bind (plainly_dmaRead a 2) fun _ => plainly_pure _

theorem plainly_wr16 (a : Nat) (v : Sample) : (wr16 a v).RaisesPlainly := plainly_dmaWrite _ _

theorem plainly_readSamples (a n : Nat) : (readSamples a n).RaisesPlainly :=
  plainly_bind (plainly_dmaRead _ _) fun _ => plainly_pure _

theorem plainly_forUpTo (n : Nat) (f : Nat → Run Unit) (hf : ∀ k, (f k).RaisesPlainly) :
    (forUpTo n f).RaisesPlainly := by
  induction n with
  | zero => exact plainly_pure _
  | succ n ih => exact plainly_bind ih fun _ => hf n

theorem plainly_forEach {α : Type} (l : List α) (f : α → Run Unit) (hf : ∀ a, (f a).RaisesPlainly) :
    (forEach l f).RaisesPlainly := by
  induction l with
  | nil => exact plainly_pure _
  | cons a rest ih => exact plainly_bind (hf a) fun _ => ih

theorem plainly_getBitmap : getBitmap.RaisesPlainly := fun s e s' h => by
  unfold getBitmap at h
  split at h <;> cases h
  exact ⟨rfl, by decide⟩

theorem plainly_getLut : getLut.RaisesPlainly := fun s e s' h => by
  unfold getLut at h
  split at h <;> cases h
  exact ⟨rfl, by decide⟩

theorem plainly_getCodes : getCodes.RaisesPlainly := fun s e s' h => by
  unfold getCodes at h
  split at h <;> cases h
  exact ⟨rfl, by decide⟩

theorem plainly_bitmapFromSamples (a n : Nat) : (bitmapFromSamples a n).RaisesPlainly :=
  plainly_bind (plainly_readSamples a n) fun _ => plainly_pure _

theorem plainly_bitmapLoad (a n : Nat) : (bitmapLoad a n).RaisesPlainly := by
  refine plainly_bind (plainly_require _ (by decide)) fun _ => plainly_bind (plainly_rdLe _ _) fun _ =>
    plainly_bind (plainly_rdLe _ _) fun _ => plainly_bind (plainly_require _ (by decide)) fun _ => ?_
  split
  · exact plainly_bind (plainly_require _ (by decide)) fun _ => plainly_bind (plainly_dmaRead _ _) fun _ => plainly_pure _
  · exact plainly_pure _

theorem plainly_applyLut (t : Lut) (a n : Nat) : (applyLut t a n).RaisesPlainly :=
  plainly_bind (plainly_readSamples a n) fun _ => plainly_dmaWrite _ _

/-! ### The wavelet -/

theorem plainly_pairStep (f : Sample → Sample → Sample × Sample) (i j : Nat) : (pairStep f i j).RaisesPlainly :=
  plainly_bind (plainly_rd16 _) fun _ => plainly_bind (plainly_rd16 _) fun _ =>
    plainly_bind (plainly_wr16 _ _) fun _ => plainly_wr16 _ _

/-- Four samples written: how a 2x2 box ends, in either direction. -/
theorem plainly_wr16s (i j k l : Nat) (u v w z : Sample) :
    Run.RaisesPlainly (do wr16 i u; wr16 j v; wr16 k w; wr16 l z) :=
  plainly_bind (plainly_wr16 _ _) fun _ => plainly_bind (plainly_wr16 _ _) fun _ =>
    plainly_bind (plainly_wr16 _ _) fun _ => plainly_wr16 _ _

theorem plainly_encBox (f : Sample → Sample → Sample × Sample) (g : Grid) (p x y : Nat) :
    (encBox f g p x y).RaisesPlainly :=
  plainly_bind (plainly_rd16 _) fun _ => plainly_bind (plainly_rd16 _) fun _ =>
    plainly_bind (plainly_rd16 _) fun _ => plainly_bind (plainly_rd16 _) fun _ => plainly_wr16s _ _ _ _ _ _ _ _

theorem plainly_decBox (f : Sample → Sample → Sample × Sample) (g : Grid) (p x y : Nat) :
    (decBox f g p x y).RaisesPlainly :=
  plainly_bind (plainly_rd16 _) fun _ => plainly_bind (plainly_rd16 _) fun _ =>
    plainly_bind (plainly_rd16 _) fun _ => plainly_bind (plainly_rd16 _) fun _ => plainly_wr16s _ _ _ _ _ _ _ _

theorem plainly_levelPass (f : Sample → Sample → Sample × Sample) {box : Nat → Nat → Run Unit} (g : Grid) (p : Nat)
    (hb : ∀ x y, (box x y).RaisesPlainly) : (levelPass f box g p).RaisesPlainly := by
  refine plainly_bind (plainly_forUpTo _ _ fun ky => plainly_bind (plainly_forUpTo _ _ fun _ => hb _ _) fun _ => ?_)
    fun _ => ?_
  · split
    · exact plainly_pairStep _ _ _
    · exact plainly_pure _
  · split
    · exact plainly_forUpTo _ _ fun _ => plainly_pairStep _ _ _
    · exact plainly_pure _

theorem plainly_wavEncode2D (m : Nat) (g : Grid) : (wavEncode2D m g).RaisesPlainly :=
  plainly_forEach _ _ fun _ => plainly_levelPass _ _ _ fun _ _ => plainly_encBox _ _ _ _ _

theorem plainly_wavDecode2D (m : Nat) (g : Grid) : (wavDecode2D m g).RaisesPlainly :=
  plainly_forEach _ _ fun _ => plainly_levelPass _ _ _ fun _ _ => plainly_decBox _ _ _ _ _

/-! ### The Huffman coders -/

theorem plainly_hufCompress (a n d cap : Nat) : (hufCompress a n d cap).RaisesPlainly := by
  unfold hufCompress
  split
  · exact plainly_pure _
  · exact plainly_bind (plainly_readSamples _ _) fun _ =>
      plainly_bind (plainly_ofExcept fun _ hc => by rw [encodeSamples_error hc]; decide) fun _ =>
        plainly_bind (plainly_modify _) fun _ => plainly_bind (plainly_require _ (by decide)) fun _ =>
          plainly_bind (plainly_require _ (by decide)) fun _ => plainly_bind (plainly_dmaWrite _ _) fun _ => plainly_pure _

theorem plainly_buildStage (t : CodeTable) : (buildStage t).RaisesPlainly := by
  refine plainly_bind plainly_get fun s => ?_
  split
  · exact plainly_pure _
  · exact plainly_bind (plainly_modify _) fun _ => plainly_raise (by decide)

theorem plainly_hufUncompress (a n d no : Nat) : (hufUncompress a n d no).RaisesPlainly := by
  have unpack : ∀ c ∈ unpackErrors, c ≠ .badParam := by decide
  have stream : ∀ c ∈ streamErrors, c ≠ .badParam := by decide
  unfold hufUncompress
  split
  · exact plainly_bind (plainly_require _ (by decide)) fun _ => plainly_pure _
  · exact plainly_bind (plainly_rdLe _ _) fun _ => plainly_bind (plainly_rdLe _ _) fun _ =>
      plainly_bind (plainly_rdLe _ _) fun _ => plainly_bind (plainly_require _ (by decide)) fun _ =>
        plainly_bind (plainly_require _ (by decide)) fun _ => plainly_bind plainly_get fun _ =>
          plainly_bind (plainly_ofExcept fun c hc => unpack c (unpackFrom_error hc)) fun _ =>
            plainly_bind (plainly_modify _) fun _ => plainly_bind (plainly_require _ (by decide)) fun _ =>
              plainly_bind (plainly_buildStage _) fun _ =>
                plainly_bind (plainly_ofExcept fun c hc => stream c (decodeStream_error hc)) fun _ =>
                  plainly_bind (plainly_modify _) fun _ => plainly_pure _

/-! ### The PIZ sequencer past its descriptors -/

theorem plainly_pizCompressBuilt (a n d cap : Nat) (ds : List Desc) (b : Bitmap) :
    (pizCompressBuilt a n d cap ds b).RaisesPlainly :=
  plainly_bind (plainly_applyLut _ _ _) fun _ =>
    plainly_bind (plainly_forEach _ _ fun _ => plainly_wavEncode2D _ _) fun _ =>
      plainly_bind (plainly_require _ (by decide)) fun _ => plainly_bind (plainly_dmaWrite _ _) fun _ =>
        plainly_bind (plainly_hufCompress _ _ _ _) fun _ => plainly_bind (plainly_require _ (by decide)) fun _ =>
          plainly_bind (plainly_dmaWrite _ _) fun _ => plainly_pure _

theorem plainly_pizUncompressBuilt (a len d n : Nat) (ds : List Desc) (b : Bitmap) (p mn mx : Nat) :
    (pizUncompressBuilt a len d n ds b p mn mx).RaisesPlainly :=
  plainly_bind (plainly_require _ (by decide)) fun _ => plainly_bind (plainly_rdLe _ _) fun _ =>
    plainly_bind (plainly_require _ (by decide)) fun _ => plainly_bind (plainly_hufUncompress _ _ _ _) fun _ =>
      plainly_bind (plainly_forEach _ _ fun _ => plainly_wavDecode2D _ _) fun _ =>
        plainly_bind (plainly_applyLut _ _ _) fun _ => plainly_pure _

/-! ### The raises that leave memory unchanged -/

/-- A raise leaves all memory unchanged exactly where its code is `c`, and then nothing was done to the state before it. -/
def Run.KeepsMemoryOn {α : Type} (c : ErrCode) (x : Run α) : Prop :=
  ∀ s e s', x s = .error e s' → (e.keepsMemory = true ↔ e.code = c) ∧ (e.keepsMemory = true → s' = s)

theorem keepsMemoryOn_bind {α β : Type} {x : Run α} {f : α → Run β} (hx : x.KeepsMemoryOn .badParam)
    (hf : ∀ a, (f a).RaisesPlainly) : (x >>= f).KeepsMemoryOn .badParam := fun s e s' h => by
  obtain h | ⟨a, s1, -, h⟩ := Run.bind_error h
  · exact hx s e s' h
  · obtain ⟨plain, code⟩ := hf a s1 e s' h
    simp [plain, code]

/-- The descriptor table's BAD_PARAM comes with nothing done (44_piz.md R391). -/
theorem keepsMemoryOn_readDescriptors (a count n : Nat) : (readDescriptors a count n).KeepsMemoryOn .badParam := by
  intro s e s' h
  rw [readDescriptors, Run.bind_eq, dmaRead_eq] at h
  split_ifs at h
  · cases h; simp
  · dsimp only at h
    split_ifs at h
    · cases h
    · cases h; simp

theorem keepsMemoryOn_pizCompress (a n d cap aux count : Nat) :
    (pizCompress a n d cap aux count).KeepsMemoryOn .badParam := by
  rw [pizCompress_eq]
  exact keepsMemoryOn_bind (keepsMemoryOn_readDescriptors _ _ _) fun ds =>
    plainly_bind (plainly_bitmapFromSamples _ _) fun b => plainly_bind (plainly_modify _) fun _ =>
      plainly_bind (plainly_modify _) fun _ => plainly_pizCompressBuilt _ _ _ _ ds b

theorem keepsMemoryOn_pizUncompress (a len d n aux count : Nat) :
    (pizUncompress a len d n aux count).KeepsMemoryOn .badParam := by
  rw [pizUncompress_eq]
  exact keepsMemoryOn_bind (keepsMemoryOn_readDescriptors _ _ _) fun ds =>
    plainly_bind (plainly_bitmapLoad _ _) fun r => plainly_bind (plainly_modify _) fun _ =>
      plainly_bind (plainly_modify _) fun _ => plainly_pizUncompressBuilt _ _ _ _ ds r.1 _ _ _

/-- LUT_BITMAP_STORE compares the capacity before its only write (40_lut.md R214). -/
theorem keepsMemoryOn_dataBitmapStore : dataBitmapStore.KeepsMemoryOn .dstOverflow := by
  intro s e s' h
  rw [dataBitmapStore, Run.bind_of_ok (Run.get_eq s)] at h
  cases hb : s.bitmap with
  | none =>
    have missing : getBitmap s = .error ⟨.noTable, false⟩ s := by
      unfold getBitmap
      rw [hb]
      rfl
    rw [Run.bind_of_error missing] at h
    cases h
    simp
  | some b =>
    rw [Run.bind_of_ok (getBitmap_ok hb)] at h
    split_ifs at h
    · obtain h | ⟨_, _, -, h⟩ := Run.bind_error h
      · rw [dmaWrite_eq] at h
        split_ifs at h
        cases h
        simp
      · cases h
    · cases h
      simp

/-! ### Commands -/

/-- The error codes of a command's data phase that leave all memory unchanged (60_exceptions.md R520). -/
abbrev leavesMemory (i : Instr) (c : ErrCode) : Prop :=
  (i = .lutBitmapStore ∧ c = .dstOverflow) ∨ ((i = .pizCompress ∨ i = .pizUncompress) ∧ c = .badParam)

theorem plainly_dataPhase {i : Instr} (hi : i ∉ [Instr.lutBitmapStore, .pizCompress, .pizUncompress]) :
    (dataPhase i).RaisesPlainly := by
  cases i with
  | nop => exact plainly_pure _
  | lutBitmapFromData =>
    exact plainly_bind plainly_get fun _ => plainly_bind (plainly_bitmapFromSamples _ _) fun _ =>
      plainly_bind (plainly_modify _) fun _ => plainly_pure _
  | lutBitmapLoad =>
    exact plainly_bind plainly_get fun _ => plainly_bind (plainly_bitmapLoad _ _) fun _ =>
      plainly_bind (plainly_modify _) fun _ => plainly_pure _
  | lutBuildForward | lutBuildReverse =>
    exact plainly_bind plainly_getBitmap fun _ => plainly_bind (plainly_modify _) fun _ => plainly_pure _
  | lutApply =>
    exact plainly_bind plainly_get fun _ => plainly_bind plainly_getLut fun _ =>
      plainly_bind (plainly_applyLut _ _ _) fun _ => plainly_pure _
  | lutDump =>
    exact plainly_bind plainly_get fun _ => plainly_bind plainly_getLut fun _ =>
      plainly_bind (plainly_dmaWrite _ _) fun _ => plainly_pure _
  | wavEncode =>
    exact plainly_bind plainly_get fun _ => plainly_bind (plainly_wavEncode2D _ _) fun _ => plainly_pure _
  | wavDecode =>
    exact plainly_bind plainly_get fun _ => plainly_bind (plainly_wavDecode2D _ _) fun _ => plainly_pure _
  | hufCompress =>
    exact plainly_bind plainly_get fun _ => plainly_bind (plainly_hufCompress _ _ _ _) fun _ => plainly_pure _
  | hufUncompress =>
    exact plainly_bind plainly_get fun _ => plainly_bind (plainly_hufUncompress _ _ _ _) fun _ => plainly_pure _
  | hufDumpCodes =>
    exact plainly_bind plainly_get fun _ => plainly_bind plainly_getCodes fun _ =>
      plainly_bind (plainly_dmaWrite _ _) fun _ => plainly_pure _
  | lutBitmapStore | pizCompress | pizUncompress => simp at hi

/-- A data phase leaves memory unchanged for the raises that R520 lists, and for no other. -/
theorem dataPhase_keepsMemory {i : Instr} {s s' : State} {e : Raise} (h : dataPhase i s = .error e s') :
    (e.keepsMemory = true ↔ leavesMemory i e.code) ∧ (e.keepsMemory = true → s' = s) := by
  by_cases hi : i ∈ [Instr.lutBitmapStore, .pizCompress, .pizUncompress]
  · simp only [List.mem_cons, List.not_mem_nil, or_false] at hi
    obtain rfl | rfl | rfl := hi
    · simpa [leavesMemory] using keepsMemoryOn_dataBitmapStore s e s' h
    · simpa [leavesMemory] using
        keepsMemoryOn_bind (keepsMemoryOn_pizCompress _ _ _ _ _ _) (fun _ => plainly_pure _) s e s' h
    · simpa [leavesMemory] using
        keepsMemoryOn_bind (keepsMemoryOn_pizUncompress _ _ _ _ _ _) (fun _ => plainly_pure _) s e s' h
  · have plain := (plainly_dataPhase hi s e s' h).1
    simp only [List.mem_cons, List.not_mem_nil, or_false, not_or] at hi
    simp [leavesMemory, plain, hi]

/-- After a data-phase error that frees, each byte of the written regions is a free value (60_exceptions.md R520). -/
theorem State.failData_read {i : Instr} {s : State} {e : Raise} (wf : s.mem.wf = true) (frees : e.keepsMemory = false)
    {r : Region} (hr : r ∈ regions i s.latched) (inSpace : r.wraps = false) (hw : r.access.writes = true) {a : Nat}
    (lo : r.base ≤ a) (hi : a < r.base + r.size) : (s.failData i e).mem.read a = Config.freeByte s.fresh a := by
  have whole : r.realSize = r.size := by
    have := of_decide_eq_false inSpace
    rw [Region.realSize]
    omega
  rw [State.failData, if_neg (by simp [frees]), State.completeErr_mem, State.withMem_mem,
    read_forgetRegions _ _ _ _ wf, if_pos ⟨r, hr, hw, lo, whole ▸ hi⟩]

/-- Settles O43: a data phase that raises either did nothing and leaves memory as it is, or has its written regions
freed. -/
theorem errorsFreeTheWrittenRegions : Obligations.ErrorsFreeTheWrittenRegions := by
  unfold Obligations.ErrorsFreeTheWrittenRegions
  intro i s t wf checks h hok
  obtain ⟨-, ⟨e, fails, -⟩ | ⟨-, r, s', -, rfl⟩ | ⟨-, e, s', raises, rfl⟩⟩ := runCommand_next (exec_eq i s ▸ h)
  · rw [checks] at fails
    cases fails
  · exact absurd rfl hok
  have wf' : s'.mem.wf = true := (keeps_dataPhase dataRelation_memWf i (s.clearValid i)).2 e s' raises wf
  have data := dataRelation_dataOnly.trans _ _ _ (clearValid_dataOnly s i)
    ((keeps_dataPhase dataRelation_dataOnly i (s.clearValid i)).2 e s' raises)
  have latched : s'.latched = s.latched := by rw [data]
  have fresh : s'.fresh = s.fresh := by rw [data]
  obtain ⟨listed, unchanged⟩ := dataPhase_keepsMemory raises
  split_ifs with keeps
  · have clean := listed.2 keeps
    rw [State.failData, if_pos clean, unchanged clean]
    rfl
  · intro r hr hw a lo hi
    have wraps := ((paramCheck_eq_none_iff i s).1 checks).2.1 r hr
    rw [← fresh]
    exact State.failData_read wf' (Bool.eq_false_iff.2 fun clean => keeps (listed.1 clean)) (latched ▸ hr) wraps
      ((Access.writes_iff _).2 hw) lo hi

end Sys2Proof.Machine
end

section
/-! The proof of O50: the interrupt output, and how bits of IRQ_STATUS are cleared and set (60_exceptions.md R531,
10_state.md R38). -/

namespace Sys2Proof.Machine

/-- A bit is pending next when the block sets it, or when it was pending and no host clears it (10_state.md R38). -/
theorem irqNext_getLsbD (status clear set : BitVec 3) {k : Nat} (hk : k < 3) :
    (irqNext status clear set).getLsbD k = ((status.getLsbD k && !clear.getLsbD k) || set.getLsbD k) := by
  simp [irqNext, hk]

/-- The output is asserted exactly while an enabled bit is pending (60_exceptions.md R531). -/
theorem State.irqLevel_iff (s : State) :
    s.irqLevel = true ↔ ∃ k < 3, s.irqStatus.getLsbD k = true ∧ s.irqEnable.getLsbD k = true := by
  have quiet : s.irqStatus &&& s.irqEnable = 0 ↔
      ∀ k < 3, ¬ (s.irqStatus.getLsbD k = true ∧ s.irqEnable.getLsbD k = true) :=
    ⟨fun h k _ => by rw [← Bool.and_eq_true, ← BitVec.getLsbD_and, h]; simp,
      fun h => BitVec.eq_of_getLsbD_eq fun k hk => by
        rw [BitVec.getLsbD_and]
        simpa using h k hk⟩
  rw [State.irqLevel, bne_iff_ne, Ne, quiet]
  simp

/-- The two interrupt registers read their three bits, zero-extended (10_state.md R38, R39). -/
theorem State.readReg_irqStatus_getLsbD (s : State) {k : Nat} (hk : k < 3) :
    (s.readReg .irqStatus).getLsbD k = s.irqStatus.getLsbD k := by
  simp [State.readReg, show k < 32 by omega]

theorem State.readReg_irqEnable_getLsbD (s : State) {k : Nat} (hk : k < 3) :
    (s.readReg .irqEnable).getLsbD k = s.irqEnable.getLsbD k := by
  simp [State.readReg, show k < 32 by omega]

/-- Settles O50: each clause is what the output and the next IRQ_STATUS are, bit by bit. -/
theorem interruptOutputAndClearing : Obligations.InterruptOutputAndClearing := by
  unfold Obligations.InterruptOutputAndClearing
  refine ⟨fun s => ?_, fun s v k hk => ?_, fun status clear set k hk hset => ?_⟩
  · rw [s.irqLevel_iff]
    refine exists_congr fun k => and_congr_right fun hk => ?_
    rw [s.readReg_irqStatus_getLsbD hk, s.readReg_irqEnable_getLsbD hk]
  · rw [State.readReg_irqStatus_getLsbD _ hk, State.readReg_irqStatus_getLsbD _ hk, State.writeReg,
      irqNext_getLsbD _ _ _ hk]
    simp [hk]
  · rw [irqNext_getLsbD _ _ _ hk, hset, Bool.or_true]

end Sys2Proof.Machine
end

section
/-! SUPPORT and the proof of O52: what a reset does to memory, to the registers and to a running command
(70_reset_and_hazards.md R600, R602, R603). -/

namespace Sys2Proof.Machine

/-! ### Memory -/

/-- Freeing the written regions leaves a byte outside them alone (70_reset_and_hazards.md R603, R620). -/
theorem read_forgetRegions_of_outside {m : Memory} {tick a : Nat} {rs : List Region} (wf : m.wf = true)
    (outside : ∀ r ∈ rs, r.access ≠ .r → a < r.base ∨ r.base + r.size ≤ a) :
    (forgetRegions m tick rs).read a = m.read a := by
  rw [read_forgetRegions _ _ _ _ wf, if_neg]
  rintro ⟨r, hr, writes, lo, hi⟩
  have := outside r hr ((Access.writes_iff _).1 writes)
  rw [Region.realSize] at hi
  omega

theorem State.abandonedMem_of_idle {s : State} (idle : s.phase = .idle) : s.abandonedMem = s.mem := by
  rw [State.abandonedMem, idle]

/-- An abandoned command leaves the bytes outside its written regions alone (70_reset_and_hazards.md R603). -/
theorem State.read_abandonedMem_of_outside {s : State} {a : Nat} (wf : s.mem.wf = true)
    (outside : ∀ w i, s.phase = .busy w → decode w = .ok i →
      ∀ r ∈ regions i s.latched, r.access ≠ .r → a < r.base ∨ r.base + r.size ≤ a) :
    s.abandonedMem.read a = s.mem.read a := by
  cases busy : s.phase with
  | idle => rw [State.abandonedMem_of_idle busy]
  | busy w =>
    cases word : decode w with
    | error _ => simp only [State.abandonedMem, busy, word]
    | ok i =>
      simp only [State.abandonedMem, busy, word]
      exact read_forgetRegions_of_outside wf (outside w i busy word)

/-! ### The step -/

/-- A host access that leaves the engine idle is all that its step does. -/
theorem step_of_idling_access {s s' : State} {op : HostOp} {rest : List HostOp} (due : s.engineDue = false)
    (hq : s.hostq = op :: rest) (access : hostAccess op (s.arrive rest) = .next s') (idle : s'.phase = .idle) :
    step s = .next s' := by
  rw [step_of_access due hq, access]
  exact if_neg (by simp [s'.busy_of_idle idle])

/-- Both causes of a reset reset the block; only the register write is answered (70_reset_and_hazards.md R600, R602). -/
theorem hostAccess_of_reset {op : HostOp} (s : State)
    (reset : op = .hardReset ∨ ∃ v, v.getLsbD 0 = true ∧ op = .regWrite .w32 (regOffset .ctrl) v) :
    ∃ answers, hostAccess op s = .next { s.blockReset with responses := answers } := by
  obtain rfl | ⟨v, hv, rfl⟩ := reset
  · exact ⟨_, rfl⟩
  · refine ⟨.written :: s.responses, ?_⟩
    rw [hostAccess, hostRegWrite_regOffset, State.writeReg, if_pos hv]
    rfl

/-- Settles O52: the step of a reset is the block's reset, which frees the bytes of the abandoned command's written regions
and no others. -/
theorem resetAbandonsTheCommand : Obligations.ResetAbandonsTheCommand := by
  unfold Obligations.ResetAbandonsTheCommand
  intro s op rest wf due hq reset
  obtain ⟨answers, access⟩ := hostAccess_of_reset (s.arrive rest) reset
  exact ⟨_, step_of_idling_access due hq access rfl, rfl, rfl, rfl, rfl, rfl, rfl, rfl, rfl, rfl, rfl, rfl, rfl,
    fun idle => State.abandonedMem_of_idle (s := s.arrive rest) idle,
    fun _ outside => State.read_abandonedMem_of_outside (s := s.arrive rest) wf outside⟩

end Sys2Proof.Machine
end

section
/-! SUPPORT and the proof of O55: the ways a raced command can end, and what each leaves in memory, the registers and the
tables (70_reset_and_hazards.md R620, 10_state.md R64). -/

namespace Sys2Proof.Machine

/-! ### The ways a raced command can end -/

theorem mem_raceEnds_iff {i : Instr} {l : Params} {e : RaceEnd} :
    e ∈ raceEnds i l ↔ (∃ ts ∈ okTables i l, ⟨.ok, some ts⟩ = e) ∨ (∃ c ∈ checkCodes i, ⟨c, none⟩ = e)
      ∨ ∃ p ∈ dataErrors i, ⟨p.1, some p.2⟩ = e := by
  simp only [raceEnds, List.mem_append, List.mem_map, or_assoc]

/-- No rule raises OK, ILLEGAL_CMD or CODE_LENGTH_OVERFLOW (30_encoding.md R134, 41_huffman_encode.md R253). -/
theorem raisableCodes_ne {i : Instr} {c : ErrCode} (hc : c ∈ raisableCodes i) :
    c ≠ .ok ∧ c ≠ .illegalCmd ∧ c ≠ .codeLengthOverflow := by
  revert c
  cases i <;> decide

theorem checkCodes_raisable {i : Instr} {c : ErrCode} (hc : c ∈ checkCodes i) : c ∈ raisableCodes i :=
  List.mem_append_left _ hc

theorem dataErrors_raisable {i : Instr} {p : ErrCode × List Table} (hp : p ∈ dataErrors i) : p.1 ∈ raisableCodes i :=
  List.mem_append_right _ (List.mem_map_of_mem hp)

/-- No data phase raises MISALIGNED or OVERLAP (30_encoding.md R143). -/
theorem dataErrors_ne_checkOnly {i : Instr} {p : ErrCode × List Table} (hp : p ∈ dataErrors i) :
    ¬ (p.1 = .misaligned ∨ p.1 = .overlap) := by
  revert p
  cases i <;> decide

/-- A table that is valid at an error is one that the command writes (10_state.md R64). -/
theorem dataErrors_subset {i : Instr} {p : ErrCode × List Table} (hp : p ∈ dataErrors i) : p.2 ⊆ tablesWritten i := by
  revert p
  cases i <;> decide

/-- OK leaves valid all the tables that the command writes, or all but the code table (41_huffman_encode.md R261,
42_huffman_decode.md R301). -/
theorem eq_of_mem_okTables {i : Instr} {l : Params} {ts : List Table} (h : ts ∈ okTables i l) :
    ts = tablesWritten i ∨ ts = (tablesWritten i).erase .codes := by
  have pair : okTables i l ⊆ [tablesWritten i, (tablesWritten i).erase .codes] := by
    cases i with
    | hufCompress | hufUncompress | pizCompress | pizUncompress =>
      simp only [okTables]
      split <;> decide
    | _ => exact List.cons_subset_cons _ (List.nil_subset _)
  simpa using pair h

/-- Only the code table can be left out. -/
theorem mem_of_mem_okTables {i : Instr} {l : Params} {ts : List Table} {T : Table} (h : ts ∈ okTables i l)
    (hT : T ∈ tablesWritten i) (other : T ≠ .codes) : T ∈ ts := by
  obtain rfl | rfl := eq_of_mem_okTables h
  · exact hT
  · exact (List.mem_erase_of_ne other).2 hT

theorem okTables_subset {i : Instr} {l : Params} {ts : List Table} (h : ts ∈ okTables i l) : ts ⊆ tablesWritten i := by
  obtain rfl | rfl := eq_of_mem_okTables h
  · exact List.Subset.refl _
  · exact List.erase_subset

/-- The encoder builds a code table exactly where there are samples (41_huffman_encode.md R261). -/
theorem codes_mem_okTables_of_encoder {i : Instr} {l : Params} {ts : List Table}
    (hi : i = .hufCompress ∨ i = .pizCompress) (h : ts ∈ okTables i l) : .codes ∈ ts ↔ l.srcLen ≠ 0 := by
  obtain rfl | rfl := hi
  all_goals
    simp only [okTables] at h
    split at h <;> simp_all

/-- HUF_UNCOMPRESS has a code table exactly where the block holds a header (42_huffman_decode.md R301). -/
theorem codes_mem_okTables_of_decoder {l : Params} {ts : List Table} (h : ts ∈ okTables .hufUncompress l) :
    .codes ∈ ts ↔ 20 ≤ l.srcLen.toNat := by
  simp only [okTables, Config.hufHdr] at h
  split at h <;> simp_all

theorem codes_mem_okTables_of_pizUncompress {l : Params} {ts : List Table} (h : ts ∈ okTables .pizUncompress l)
    (samples : l.dstLen ≠ 0) : .codes ∈ ts := by
  simp only [okTables, if_neg samples, List.mem_singleton] at h
  simp [h]

section
variable {i : Instr} {l : Params} {e : RaceEnd}

theorem code_of_mem_raceEnds (he : e ∈ raceEnds i l) : e.code = .ok ∨ e.code ∈ raisableCodes i := by
  obtain ⟨ts, -, rfl⟩ | ⟨c, hc, rfl⟩ | ⟨p, hp, rfl⟩ := mem_raceEnds_iff.1 he
  · exact .inl rfl
  · exact .inr (checkCodes_raisable hc)
  · exact .inr (dataErrors_raisable hp)

theorem code_ne_of_mem_raceEnds (he : e ∈ raceEnds i l) : e.code ≠ .illegalCmd ∧ e.code ≠ .codeLengthOverflow := by
  obtain ok | raised := code_of_mem_raceEnds he
  · simp [ok]
  · exact (raisableCodes_ne raised).2

theorem reached_of_ok (he : e ∈ raceEnds i l) (ok : e.code = .ok) : ∃ ts ∈ okTables i l, e.reached = some ts := by
  obtain ⟨ts, hts, rfl⟩ | ⟨c, hc, rfl⟩ | ⟨p, hp, rfl⟩ := mem_raceEnds_iff.1 he
  · exact ⟨ts, hts, rfl⟩
  · exact absurd ok (raisableCodes_ne (checkCodes_raisable hc)).1
  · exact absurd ok (raisableCodes_ne (dataErrors_raisable hp)).1

theorem reached_of_checkOnly (he : e ∈ raceEnds i l) (code : e.code = .misaligned ∨ e.code = .overlap) :
    e.reached = none := by
  obtain ⟨ts, -, rfl⟩ | ⟨c, -, rfl⟩ | ⟨p, hp, rfl⟩ := mem_raceEnds_iff.1 he
  · simp at code
  · rfl
  · exact absurd code (dataErrors_ne_checkOnly hp)

/-- A code that no parameter check raises comes from the data phase, with the tables valid there. -/
theorem reached_of_dataError (he : e ∈ raceEnds i l) (fails : e.code ≠ .ok) (unchecked : e.code ∉ checkCodes i) :
    ∃ ts, (e.code, ts) ∈ dataErrors i ∧ e.reached = some ts := by
  obtain ⟨ts, -, rfl⟩ | ⟨c, hc, rfl⟩ | ⟨p, hp, rfl⟩ := mem_raceEnds_iff.1 he
  · exact absurd rfl fails
  · exact absurd hc unchecked
  · exact ⟨p.2, hp, rfl⟩

theorem reached_subset (he : e ∈ raceEnds i l) : e.reached.getD [] ⊆ tablesWritten i := by
  obtain ⟨ts, hts, rfl⟩ | ⟨c, -, rfl⟩ | ⟨p, hp, rfl⟩ := mem_raceEnds_iff.1 he
  · exact okTables_subset hts
  · exact List.nil_subset _
  · exact dataErrors_subset hp

end

/-! ### Error codes that tell whether a table is valid -/

/-- No parameter check of `i` raises `c`, and wherever its data phase does, the written table `T` is valid or not as `b`
says. -/
abbrev fixesTable (i : Instr) (c : ErrCode) (T : Table) (b : Bool) : Prop :=
  c ≠ .ok ∧ c ∉ checkCodes i ∧ T ∈ tablesWritten i ∧ ∀ p ∈ dataErrors i, p.1 = c → decide (T ∈ p.2) = b

/-- The commands that set BITMAP alone raise their errors before it is valid (40_lut.md R210, R212). -/
theorem fixesTable_bitmap {i : Instr} {c : ErrCode} (hc : c ∈ [ErrCode.notEnoughData, .bitmapSize, .busError])
    (hi : i = .lutBitmapFromData ∨ i = .lutBitmapLoad) : fixesTable i c .bitmap false := by
  obtain rfl | rfl := hi <;> revert c <;> decide

/-- These errors come before the decoder's `VALID(CODES)` (42_huffman_decode.md R301 to R306, 44_piz.md R396). -/
theorem fixesTable_codes_invalid {i : Instr} {c : ErrCode}
    (hc : c ∈ [ErrCode.invalidTableSize, .tableEnd, .tableTooLong, .pizLength, .bitmapSize])
    (hi : i = .hufUncompress ∨ i = .pizUncompress) : fixesTable i c .codes false := by
  obtain rfl | rfl := hi <;> revert c <;> decide

/-- These errors come after the decoder's `VALID(CODES)`, and from no other command (42_huffman_decode.md R306 to R316). -/
theorem fixesTable_codes_valid {i : Instr} {c : ErrCode} (raises : c ∈ raisableCodes i)
    (hc : c ∈ [ErrCode.invalidNbits, .invalidTableEntry, .invalidCode, .tooMuchData]) : fixesTable i c .codes true := by
  revert c
  cases i <;> decide

/-! ### Free table contents -/

/-- A sparse list reads at a key what its entries of that key hold. -/
theorem sparseGet_of_entries {α : Type} {d v : α} {m : List (Nat × α)} {k : Nat} (entries : ∀ c ∈ m, c.1 = k → c.2 = v)
    (absent : (∀ c ∈ m, c.1 ≠ k) → v = d) : sparseGet d m k = v := by
  induction m with
  | nil => exact (absent (by simp)).symm
  | cons c rest ih =>
    by_cases hk : c.1 = k
    · exact (if_pos hk).trans (entries c List.mem_cons_self hk)
    · refine (if_neg hk).trans (ih (fun c hc => entries c (List.mem_cons_of_mem _ hc)) fun none => absent ?_)
      simpa [hk] using none

/-- The code of a symbol is read off the list of codes. -/
theorem CodeTable.hcode_eq_sparseGet (t : CodeTable) (k : Nat) :
    t.hcode k = sparseGet 0 (t.map fun e => (e.sym, e.code.toNat)) k := by
  induction t with
  | nil => rfl
  | cons e rest ih => rw [CodeTable.hcode_cons, ih, List.map_cons, sparseGet_cons]

theorem mem_racedLut_iff {tick : Nat} {c : Nat × BitVec 16} :
    c ∈ racedLut tick ↔ c.1 < 65536 ∧ Config.raceLut tick c.1 ≠ 0 ∧ c.2 = Config.raceLut tick c.1 := by
  simp only [racedLut, List.mem_filterMap, List.mem_range, Config.ushortRange]
  constructor
  · rintro ⟨k, hk, h⟩
    split at h <;> cases h
    exact ⟨hk, by assumption, rfl⟩
  · rintro ⟨hk, nonzero, value⟩
    exact ⟨c.1, hk, by rw [if_neg nonzero, ← value]⟩

/-- Every entry of the LUT after a race is its own free value (70_reset_and_hazards.md R620). -/
theorem racedLut_entry_eq {tick v : Nat} (hv : v < 65536) : Lut.entry (racedLut tick) v = Config.raceLut tick v := by
  refine sparseGet_of_entries (fun c hc hk => hk ▸ (mem_racedLut_iff.1 hc).2.2) fun absent => ?_
  by_contra nonzero
  exact absent (v, Config.raceLut tick v) (mem_racedLut_iff.2 ⟨hv, nonzero, rfl⟩) rfl

/-- A free length fits the six bits of an entry. -/
theorem ofNat_raceLen_toNat (tick k : Nat) :
    (BitVec.ofNat 6 (Config.raceLen tick k).val).toNat = (Config.raceLen tick k).val := by
  rw [BitVec.toNat_ofNat]
  omega

theorem mem_racedCodes_iff {tick : Nat} {e : CodeEntry} :
    e ∈ racedCodes tick ↔ e.sym < 65537 ∧ ¬ (Config.raceLen tick e.sym = 0 ∧ Config.raceCode tick e.sym = 0)
      ∧ e = ⟨e.sym, BitVec.ofNat 6 (Config.raceLen tick e.sym).val, Config.raceCode tick e.sym⟩ := by
  simp only [racedCodes, List.mem_filterMap, List.mem_range, Config.hufEncSize]
  constructor
  · rintro ⟨k, hk, h⟩
    split at h <;> cases h
    exact ⟨hk, by assumption, rfl⟩
  · rintro ⟨hk, nonzero, value⟩
    exact ⟨e.sym, hk, by rw [if_neg nonzero, ← value]⟩

/-- Every length and every code after a race is its own free value, a code of length 0 too (70_reset_and_hazards.md R620). -/
theorem racedCodes_hlen_hcode {tick k : Nat} (hk : k < 65537) :
    (racedCodes tick).hlen k = (Config.raceLen tick k).val
      ∧ (racedCodes tick).hcode k = (Config.raceCode tick k).toNat := by
  have absent (none : ∀ e ∈ racedCodes tick, e.sym ≠ k) : Config.raceLen tick k = 0 ∧ Config.raceCode tick k = 0 := by
    by_contra nonzero
    exact none ⟨k, BitVec.ofNat 6 (Config.raceLen tick k).val, Config.raceCode tick k⟩
      (mem_racedCodes_iff.2 ⟨hk, nonzero, rfl⟩) rfl
  rw [CodeTable.hlen_eq_sparseGet, CodeTable.hcode_eq_sparseGet]
  constructor <;> refine sparseGet_of_entries (List.forall_mem_map.2 fun e he sym => ?_) fun none => ?_
  · rw [(mem_racedCodes_iff.1 he).2.2, ofNat_raceLen_toNat, show e.sym = k from sym]
  · rw [(absent fun e he => none _ (List.mem_map_of_mem he)).1]
    rfl
  · rw [(mem_racedCodes_iff.1 he).2.2, show e.sym = k from sym]
  · rw [(absent fun e he => none _ (List.mem_map_of_mem he)).2]
    rfl

/-! ### The tables after a race -/

section
variable {s : State} {i : Instr} {reached : Option (List Table)}

theorem validAfterRace_of_notMem {T : Table} (was : Bool) (hT : T ∉ tablesWritten i) :
    validAfterRace i reached was T = was := by
  cases reached with
  | none => rfl
  | some ts => exact if_neg (by simpa using hT)

theorem validAfterRace_of_written {T : Table} (ts : List Table) (was : Bool) (hT : T ∈ tablesWritten i) :
    validAfterRace i (some ts) was T = decide (T ∈ ts) := by
  simp [validAfterRace, hT]

theorem State.racedTables_bitmap_of_notMem (h : .bitmap ∉ tablesWritten i) : (s.racedTables i reached).bitmap = s.bitmap :=
  if_neg (by simpa using h)

theorem State.racedTables_lut_of_notMem (h : .lut ∉ tablesWritten i) : (s.racedTables i reached).lut = s.lut :=
  if_neg (by simpa using h)

theorem State.racedTables_codes_of_notMem (h : .codes ∉ tablesWritten i) : (s.racedTables i reached).codes = s.codes :=
  if_neg (by simpa using h)

theorem State.racedTables_lutKind_of_notMem (h : .lut ∉ reached.getD []) :
    (s.racedTables i reached).lutKind = s.lutKind :=
  if_neg (by simpa using h)

theorem State.racedTables_lutKind_of_mem (h : .lut ∈ reached.getD []) :
    (s.racedTables i reached).lutKind = lutKindWritten i s.lutKind :=
  if_pos (by simpa using h)

/-- A table after a race is `x`, free, or not valid where it is written, and `y`, the one before, where it is not. -/
theorem isSome_raced {α : Type} {written valid : Bool} {x : α} {y : Option α}
    (kept : written = false → valid = y.isSome) :
    (if written then if valid then some x else none else y).isSome = valid := by
  cases written
  · exact (kept rfl).symm
  · cases valid <;> rfl

theorem eq_of_raced {α : Type} {written valid : Bool} {x a : α} {y : Option α} (hw : written = true)
    (h : (if written then if valid then some x else none else y) = some a) : a = x := by
  rw [if_pos hw] at h
  split at h <;> cases h
  rfl

/-- The valid bits after a race are those that 10_state.md R64 gives. -/
theorem State.racedTables_tableValid (s : State) (i : Instr) (reached : Option (List Table)) (T : Table) :
    (s.racedTables i reached).tableValid T = validAfterRace i reached (s.tableValid T) T := by
  have kept {T : Table} (h : (tablesWritten i).contains T = false) :=
    validAfterRace_of_notMem (reached := reached) (s.tableValid T) (by simpa using h)
  cases T <;> exact isSome_raced kept

theorem State.racedTables_bitmap_eq (h : .bitmap ∈ tablesWritten i) {b : Bitmap}
    (hb : (s.racedTables i reached).bitmap = some b) : b = Config.raceBitmap s.fresh :=
  eq_of_raced (by simpa using h) hb

theorem State.racedTables_lut_eq (h : .lut ∈ tablesWritten i) {f : Lut}
    (hf : (s.racedTables i reached).lut = some f) : f = racedLut s.fresh :=
  eq_of_raced (by simpa using h) hf

theorem State.racedTables_codes_eq (h : .codes ∈ tablesWritten i) {c : CodeTable}
    (hc : (s.racedTables i reached).codes = some c) : c = racedCodes s.fresh :=
  eq_of_raced (by simpa using h) hc

end

/-! ### The engine's turn on a raced command -/

/-- Freeing the written regions frees each of their bytes that exists (70_reset_and_hazards.md R620). -/
theorem read_forgetRegions_of_inside {m : Memory} {tick a : Nat} {rs : List Region} {r : Region} (wf : m.wf = true)
    (hr : r ∈ rs) (written : r.access ≠ .r) (top : a < 2 ^ 32) (lo : r.base ≤ a) (hi : a < r.base + r.size) :
    (forgetRegions m tick rs).read a = Config.freeByte tick a := by
  have real : a < r.base + r.realSize := by
    rw [Region.realSize, Config.addrSpace]
    omega
  rw [read_forgetRegions _ _ _ _ wf, if_pos ⟨r, hr, (Access.writes_iff _).2 written, lo, real⟩]

/-- `t` is `s` after its raced command `i` ended in the way `e`. -/
structure State.racedTo (s : State) (i : Instr) (e : RaceEnd) (t : State) : Prop where
  completed : s.completed t e.code (racedResults s.fresh)
  mem : t.mem = forgetRegions s.mem s.fresh (regions i s.latched)
  tables : (s.racedTables i e.reached).tablesKept t

theorem runRaced_racedTo {i : Instr} {s : State} (idempotent : touchesDevice i s = false) :
    ∃ e ∈ raceEnds i s.latched, ∃ t, runRaced i s = .next t ∧ s.racedTo i e t := by
  obtain ⟨e, he, run⟩ := runRaced_next idempotent
  refine ⟨e, he, _, run, ?_⟩
  have kept := (runRaced_idle_hostSideKept run).2
  by_cases ok : e.code = .ok
  · rw [if_pos ok] at kept ⊢
    exact ⟨⟨rfl, rfl, ok.symm, rfl, (irqNext_no_clear _ _).trans (by rw [if_pos ok]; rfl), kept⟩, rfl,
      ⟨rfl, rfl, rfl, rfl⟩⟩
  · rw [if_neg ok] at kept ⊢
    exact ⟨⟨rfl, rfl, rfl, rfl, (irqNext_no_clear _ _).trans (by rw [if_neg ok]; rfl), kept⟩, rfl, ⟨rfl, rfl, rfl, rfl⟩⟩

section
variable {s t : State} {i : Instr} {e : RaceEnd} {T : Table}

theorem State.racedTo.tableValid (h : s.racedTo i e t) (T : Table) :
    t.tableValid T = validAfterRace i e.reached (s.tableValid T) T := by
  rw [← s.racedTables_tableValid]
  cases T
  · exact congrArg Option.isSome h.tables.bitmap
  · exact congrArg Option.isSome h.tables.lut
  · exact congrArg Option.isSome h.tables.codes

/-- Past the parameter checks a table that the command writes is valid where its VALID point was passed (10_state.md R64). -/
theorem State.racedTo.tableValid_of_reached (h : s.racedTo i e t) {ts : List Table} (hr : e.reached = some ts)
    (hT : T ∈ tablesWritten i) : t.tableValid T = decide (T ∈ ts) := by
  rw [h.tableValid, hr, validAfterRace_of_written ts _ hT]

/-- The parameter checks change no valid bit (10_state.md R64). -/
theorem State.racedTo.tableValid_of_checkOnly (h : s.racedTo i e t) (hr : e.reached = none) (T : Table) :
    t.tableValid T = s.tableValid T := by
  rw [h.tableValid, hr]
  rfl

variable (h : s.racedTo i e t) (he : e ∈ raceEnds i s.latched)
include h he

theorem State.racedTo.tableValid_of_ok (ok : e.code = .ok) (hT : T ∈ tablesWritten i) (other : T ≠ .codes) :
    t.tableValid T = true := by
  obtain ⟨ts, hts, hr⟩ := reached_of_ok he ok
  rw [h.tableValid_of_reached hr hT]
  exact decide_eq_true (mem_of_mem_okTables hts hT other)

/-- LUT_KIND is written with LUT_VALID (10_state.md R36). -/
theorem State.racedTo.lut_of_ok (ok : e.code = .ok) (hT : .lut ∈ tablesWritten i) :
    t.lut.isSome = true ∧ t.lutKind = lutKindWritten i s.lutKind := by
  refine ⟨h.tableValid_of_ok he ok hT (by decide), h.tables.lutKind.trans (State.racedTables_lutKind_of_mem ?_)⟩
  obtain ⟨ts, hts, hr⟩ := reached_of_ok he ok
  rw [hr]
  exact mem_of_mem_okTables hts hT (by decide)

theorem State.racedTo.codes_of_ok (ok : e.code = .ok) (hT : .codes ∈ tablesWritten i) {p : Prop} [Decidable p]
    (builds : ∀ ts ∈ okTables i s.latched, .codes ∈ ts ↔ p) : t.codes.isSome = decide p := by
  obtain ⟨ts, hts, hr⟩ := reached_of_ok he ok
  exact (h.tableValid_of_reached hr hT).trans (decide_eq_decide.2 (builds ts hts))

theorem State.racedTo.tableValid_of_fixesTable {b : Bool} (fixes : fixesTable i e.code T b) : t.tableValid T = b := by
  obtain ⟨fails, unchecked, hT, valid⟩ := fixes
  obtain ⟨ts, hts, hr⟩ := reached_of_dataError he fails unchecked
  exact (h.tableValid_of_reached hr hT).trans (valid _ hts rfl)

end

/-- Settles O55: the engine's turn ends the command in one of its ways, whose code tells the valid bits; all bytes of the
written regions, all results and all contents of the tables written are free. -/
theorem racedCommandStaysInBounds : Obligations.RacedCommandStaysInBounds := by
  unfold Obligations.RacedCommandStaysInBounds
  intro s w i wf busy word raced turn idempotent
  obtain ⟨e, he, t, run, h⟩ := runRaced_racedTo idempotent
  have engine := (step_of_engineDue (State.engineDue_of_busy busy turn)).trans (runEngine_of_raced busy word raced)
  have code := code_of_mem_raceEnds he
  obtain ⟨legal, bounded⟩ := code_ne_of_mem_raceEnds he
  obtain ⟨phase, done, errcode, results, irq, kept⟩ := h.completed
  obtain ⟨bitmap, lut, kind, codes⟩ := h.tables
  refine ⟨t, engine.trans run, phase, done, ?_⟩
  rw [← mem_tablesWritten_bitmap, ← mem_tablesWritten_lut, ← mem_tablesWritten_codes, errcode, h.mem]
  refine ⟨code, bounded, legal, irq, kept, fun a outside => read_forgetRegions_of_outside wf outside,
    fun hT => bitmap.trans (State.racedTables_bitmap_of_notMem hT),
    fun hT => ⟨lut.trans (State.racedTables_lut_of_notMem hT),
      kind.trans (State.racedTables_lutKind_of_notMem fun hr => hT (reached_subset he hr))⟩,
    fun hT => codes.trans (State.racedTables_codes_of_notMem hT),
    fun ok hT => h.tableValid_of_ok he ok hT (by decide), fun ok hi => ?_, fun ok hi => ?_, ?_, ?_, ?_, ?_,
    fun hc hi => ?_, fun hc hi => ?_, fun hc => ?_,
    fun r hr hw a top lo hi => read_forgetRegions_of_inside wf hr hw top lo hi, results,
    fun hT b hb => State.racedTables_bitmap_eq hT (bitmap.symm.trans hb), ?_, ?_⟩
  · subst hi
    exact h.lut_of_ok he ok (by decide)
  · subst hi
    exact h.lut_of_ok he ok (by decide)
  · exact fun ok hi => h.codes_of_ok he ok (by obtain rfl | rfl := hi <;> decide) fun ts =>
      codes_mem_okTables_of_encoder hi
  · rintro ok rfl
    exact h.codes_of_ok he ok (by decide) fun ts => codes_mem_okTables_of_decoder
  · rintro ok rfl samples
    exact h.codes_of_ok he ok (by decide) (p := True) fun ts hts =>
      iff_true_intro (codes_mem_okTables_of_pizUncompress hts samples)
  · intro checkOnly
    have reached := reached_of_checkOnly he checkOnly
    have valid := h.tableValid_of_checkOnly reached
    exact ⟨valid .bitmap, valid .lut, kind.trans (State.racedTables_lutKind_of_notMem (by simp [reached])), valid .codes⟩
  · have cleared : t.bitmap.isSome = false := h.tableValid_of_fixesTable he (fixesTable_bitmap hc hi)
    simpa using cleared
  · have cleared : t.codes.isSome = false := h.tableValid_of_fixesTable he (fixesTable_codes_invalid hc hi)
    simpa using cleared
  · have raised := code.resolve_left fun ok => by simp [ok] at hc
    exact h.tableValid_of_fixesTable he (fixesTable_codes_valid raised hc)
  · intro hi f hf v hv
    have written := (mem_tablesWritten_lut i).2 (List.mem_cons_of_mem _ (List.mem_cons_of_mem _ hi))
    rw [show f = _ from State.racedTables_lut_eq written (lut.symm.trans hf)]
    exact racedLut_entry_eq hv
  · intro hT c hc k hk
    rw [show c = _ from State.racedTables_codes_eq hT (codes.symm.trans hc)]
    exact racedCodes_hlen_hcode hk

end Sys2Proof.Machine
end

section
/-! SUPPORT. The butterflies by the formulas of the spec, where the 14-bit ones fail to invert, and which pair a mode takes
(43_wavelet.md R351 to R355, R358). -/

namespace Sys2Proof.Machine

/-! ### Samples of integers -/

/-- The arithmetic right shift by 1 is the floor of the half (00_scope.md R11). -/
@[simp] theorem int_shiftRight_natOne (x : Int) : x >>> (1 : Nat) = x / 2 := Int.shiftRight_eq_div_pow x 1

/-- Mathlib's shift by an integer, which `>>> 1` means where Mathlib is imported, is the same shift. -/
@[simp] theorem int_shiftRight_intOne (x : Int) : x >>> (1 : Int) = x / 2 :=
  (Int.shiftRight_natCast_right x 1).trans (int_shiftRight_natOne x)

/-- Taking a sample of an integer keeps differences. -/
theorem ofInt_sub (x y : Int) : (BitVec.ofInt 16 (x - y) : Sample) = BitVec.ofInt 16 x - BitVec.ofInt 16 y := by
  rw [Int.sub_eq_add_neg, BitVec.ofInt_add, BitVec.ofInt_neg, BitVec.sub_eq_add_neg]

/-- The mask `MOD_MASK` before taking a sample changes nothing (43_wavelet.md R353). -/
theorem ofInt_emod (x : Int) : (BitVec.ofInt 16 (x % 65536) : Sample) = BitVec.ofInt 16 x := by
  apply BitVec.eq_of_toNat_eq
  simp only [BitVec.toNat_ofInt]
  omega

/-- The same mask before taking a sample of a natural number. -/
theorem ofNat_mod (n : Nat) : (BitVec.ofNat 16 (n % 65536) : Sample) = BitVec.ofNat 16 n :=
  BitVec.eq_of_toNat_eq (by simp only [BitVec.toNat_ofNat]; omega)

/-- A sample is the sample of its unsigned value. -/
theorem ofInt_toNat (a : Sample) : (BitVec.ofInt 16 a.toNat : Sample) = a := by
  rw [BitVec.ofInt_natCast, BitVec.ofNat_toNat, BitVec.setWidth_eq]

/-- A sample's parity is its low bit (43_wavelet.md R352). -/
theorem ofInt_toInt_emod_two (h : Sample) : (BitVec.ofInt 16 (h.toInt % 2) : Sample) = h &&& 1 := by
  have signed := BitVec.toInt_eq_toNat_cond h
  have low : (h &&& 1).toNat = h.toNat % 2 := by simp [BitVec.toNat_and, Nat.and_one_is_mod]
  apply BitVec.eq_of_toNat_eq
  rw [low, BitVec.toNat_ofInt]
  split at signed <;> omega

/-- Half a signed sample is its arithmetic right shift (00_scope.md R11). -/
theorem ofInt_toInt_ediv_two (h : Sample) : (BitVec.ofInt 16 (h.toInt / 2) : Sample) = h.sshiftRight 1 := by
  rw [← BitVec.ofInt_toInt (x := h.sshiftRight 1), BitVec.toInt_sshiftRight, int_shiftRight_natOne]

/-- Half an unsigned sample is its logical right shift (43_wavelet.md R354). -/
theorem ofNat_toNat_div_two (h : Sample) : (BitVec.ofNat 16 (h.toNat / 2) : Sample) = h >>> 1 := by
  apply BitVec.eq_of_toNat_eq
  have := h.isLt
  rw [BitVec.toNat_ofNat, BitVec.toNat_ushiftRight, Nat.shiftRight_eq_div_pow]
  omega

/-! ### Formulas -/

/-- `wenc14` in words: the signed average and the difference (43_wavelet.md R351). -/
theorem wenc14_eq (a b : Sample) : wenc14 a b = (BitVec.ofInt 16 ((a.toInt + b.toInt) / 2), a - b) := by
  rw [wenc14, ofInt_sub, BitVec.ofInt_toInt, BitVec.ofInt_toInt]

/-- `wdec14` in words (43_wavelet.md R352). -/
theorem wdec14_eq (l h : Sample) :
    wdec14 l h = (l + (h &&& 1) + h.sshiftRight 1, l + (h &&& 1) + h.sshiftRight 1 - h) := by
  simp only [wdec14, ofInt_sub, BitVec.ofInt_add, BitVec.ofInt_toInt, ofInt_toInt_emod_two, ofInt_toInt_ediv_two]

/-- `wenc16` in words, with the offset added modulo 65536 (43_wavelet.md R353). -/
theorem wenc16_eq (a b : Sample) :
    let ao := a + 0x8000
    let m := BitVec.ofNat 16 ((ao.toNat + b.toNat) / 2)
    wenc16 a b = (if ao.toNat < b.toNat then m + 0x8000 else m, ao - b) := by
  intro ao m
  have offset : (a.toNat + Config.wavOffset) % 65536 = ao.toNat := (BitVec.toNat_add a 0x8000).symm
  have wrapped : BitVec.ofNat 16 (((ao.toNat + b.toNat) / 2 + Config.wavOffset) % 65536) = m + 0x8000 := by
    rw [ofNat_mod, BitVec.ofNat_add]
    rfl
  have difference : BitVec.ofInt 16 ((ao.toNat : Int) - (b.toNat : Int)) = ao - b := by
    rw [ofInt_sub, ofInt_toNat, ofInt_toNat]
  rw [wenc16, offset, difference, apply_ite (BitVec.ofNat 16), wrapped]

/-- `wdec16` in words, modulo 65536 (43_wavelet.md R354). -/
theorem wdec16_eq (l h : Sample) : wdec16 l h = (h + (l - h >>> 1) - 0x8000, l - h >>> 1) := by
  have second : (BitVec.ofInt 16 ((l.toNat : Int) - (h.toNat / 2 : Nat)) : Sample) = l - h >>> 1 := by
    rw [ofInt_sub, ofInt_toNat, BitVec.ofInt_natCast, ofNat_toNat_div_two]
  rw [wdec16, ofInt_emod, ofInt_sub, BitVec.ofInt_add, ofInt_toNat, ofInt_emod, second]
  rfl

/-! ### Inverse laws -/

/-- Where the signed difference does not fit 16 bits, it wraps by 65536, its half by 32768, and the decoded first sample comes
out with its sign bit flipped (43_wavelet.md R355). -/
theorem wdec14_wenc14_fst_of_not_fits {a b : Sample} (out : ¬ (-32768 ≤ a.toInt - b.toInt ∧ a.toInt - b.toInt ≤ 32767)) :
    (wdec14 (wenc14 a b).1 (wenc14 a b).2).1 = a + 0x8000 := by
  have ha := BitVec.toInt_lt (x := a)
  have ha' := BitVec.le_toInt a
  have hb := BitVec.toInt_lt (x := b)
  have hb' := BitVec.le_toInt b
  have average : (wenc14 a b).1.toInt = (a.toInt + b.toInt) / 2 := by
    rw [wenc14, BitVec.toInt_ofInt]
    apply Int.bmod_eq_of_le <;> omega
  have difference : (wenc14 a b).2.toInt = (a.toInt - b.toInt).bmod 65536 := by rw [wenc14, BitVec.toInt_ofInt]
  have wraps : (a.toInt - b.toInt).bmod 65536 = a.toInt - b.toInt - 65536
      ∨ (a.toInt - b.toInt).bmod 65536 = a.toInt - b.toInt + 65536 := by
    rw [Int.bmod]
    omega
  have flipped : (wdec14 (wenc14 a b).1 (wenc14 a b).2).1 = BitVec.ofInt 16 (a.toInt - 32768)
      ∨ (wdec14 (wenc14 a b).1 (wenc14 a b).2).1 = BitVec.ofInt 16 (a.toInt + 32768) := by
    rw [wdec14, average, difference]
    refine wraps.imp (fun wrap => congrArg (BitVec.ofInt 16) ?_) (fun wrap => congrArg (BitVec.ofInt 16) ?_) <;> omega
  obtain down | up := flipped
  · rw [down, ofInt_sub, BitVec.ofInt_toInt, BitVec.sub_eq_add_neg]
    rfl
  · rw [up, BitVec.ofInt_add, BitVec.ofInt_toInt]
    rfl

/-- The 14-bit butterflies invert exactly where the signed difference fits 16 bits (43_wavelet.md R355). -/
theorem wdec14_wenc14_iff (a b : Sample) : wdec14 (wenc14 a b).1 (wenc14 a b).2 = (a, b) ↔
    -32768 ≤ a.toInt - b.toInt ∧ a.toInt - b.toInt ≤ 32767 := by
  constructor
  · intro inverts
    by_contra out
    have flipped : a + 0x8000 = a := (wdec14_wenc14_fst_of_not_fits out).symm.trans (congrArg Prod.fst inverts)
    bv_omega
  · rintro ⟨lo, hi⟩
    exact wdec14_wenc14 lo hi

/-! ### Modes -/

/-- Below 16384 the mode is the 14-bit one (43_wavelet.md R358). -/
theorem butterflies_of_lt {maxValue : Nat} (h : maxValue < 16384) :
    encButterfly maxValue = wenc14 ∧ decButterfly maxValue = wdec14 :=
  ⟨if_pos h, if_pos h⟩

/-- From 16384 on the mode is the 16-bit one (43_wavelet.md R358). -/
theorem butterflies_of_le {maxValue : Nat} (h : 16384 ≤ maxValue) :
    encButterfly maxValue = wenc16 ∧ decButterfly maxValue = wdec16 :=
  ⟨if_neg h.not_gt, if_neg h.not_gt⟩

/-- Settles O18: the formulas of both pairs of butterflies, their inverse laws, and the mode's choice between them. -/
theorem butterfliesInvert : Obligations.ButterfliesInvert := by
  unfold Obligations.ButterfliesInvert
  exact ⟨fun a b => by simp [wenc14_eq], by decide, by decide, wdec14_eq, wenc16_eq, wdec16_eq, wdec16_wenc16, wdec14_wenc14_iff,
    undoes_wenc14.onLow, fun _ => ⟨butterflies_of_lt, butterflies_of_le⟩⟩

end Sys2Proof.Machine
end
